-- ==== Sys2Proof/Word.lean ====
section
/-! DEFINITION. The words of the block: bytes, nibbles and line levels (00_scope.md R7). -/

namespace Sys2Proof

/-- A byte, 0 to 255, bit 7 the most significant (00_scope.md R7). -/
abbrev Byte := BitVec 8

/-- A 4-bit field: the start offset of a write-config instruction byte, a command code
(30_encoding.md R92, R102). -/
abbrev Nibble := BitVec 4

/-- The level of a line: `true` is level 1, `false` is level 0 (00_scope.md R7). -/
abbrev Level := Bool

/-- A consumer id: opaque, compared only for equality (10_state.md R34). -/
abbrev ConsumerId := Nat

end Sys2Proof
end

