-- ==== Sys2Proof/Config.lean ====
section
/-! DEFINITION. What an implementation fixes: the constants and the configuration record of
00_scope.md R5, its constraints R6, the opaque durations and pin map, and the free values of the
environment (20_memory.md R72). -/

namespace Sys2Proof

/-- `CONFIG_LEN` (00_scope.md R5). -/
def configLen : Nat := 10

/-- `ADDR_LEN` (00_scope.md R5). -/
def addrLen : Nat := 4

/-- `ADDR_OFFSET` (00_scope.md R5). -/
def addrOffset : Nat := 5

/-- `RX_PAYLOAD_LEN` (00_scope.md R5). -/
def rxPayloadLen : Nat := 32

/-- `OFFSET_MASK` (00_scope.md R5). -/
def offsetMask : Byte := 0x0F

/-- The three opaque durations `T_SETTLE`, `T_BYTE`, `T_WAKE`, by name (00_scope.md R5;
70_reset_and_hazards.md R280). -/
inductive Duration where
  | settle
  | byte
  | wake
deriving DecidableEq, Repr

/-- The six pin roles of `PINMAP` (00_scope.md R5). -/
inductive PinRole where
  | pwr
  | csn
  | txen
  | trig
  | dr
  | am
deriving DecidableEq, Repr

/-- The configuration record (00_scope.md R5), less the durations and the pin map, which no rule
reads. -/
structure Params where
  /-- `OP_WC`, the base write-config opcode. -/
  opWC : Byte
  /-- `OP_RC`. -/
  opRC : Byte
  /-- `OP_WTP`. -/
  opWTP : Byte
  /-- `OP_WTA`. -/
  opWTA : Byte
  /-- `OP_RRP`. -/
  opRRP : Byte
  /-- `TX_PAYLOAD_MAX`. -/
  txPayloadMax : Nat
  /-- `CFG_DEFAULT`. -/
  cfgDefault : List Byte
  /-- `SPIN_LIMIT`: `none` reproduces the source. -/
  spinLimit : Option Nat
  /-- `EXIT_RX_TO_STANDBY`. -/
  exitRxToStandby : Bool
  /-- `HAL_FALLIBLE`. -/
  halFallible : Bool
deriving DecidableEq, Repr

/-- The twenty opcode bytes that R6 wants pairwise distinct: `OP_WC | k` for `k` in 0 to 15 and the
four fixed ones. -/
def Params.opcodeBytes (p : Params) : List Byte :=
  (List.range 16).map (fun k => p.opWC ||| (BitVec.ofNat 8 k &&& offsetMask)) ++
    [p.opRC, p.opWTP, p.opWTA, p.opRRP]

/-- The constraints on the record (00_scope.md R6). -/
def Params.valid (p : Params) : Bool :=
  p.opWC &&& offsetMask == 0 && decide p.opcodeBytes.Nodup &&
    p.cfgDefault.length == configLen &&
    (p.cfgDefault.drop addrOffset).take addrLen == [0, 0, 0, 0] &&
    p.spinLimit != some 0

/-- The record that `State.reset` binds: the spec's default opcodes and transmit maximum
(PRESUMED, unsafe: the spec marks them general knowledge; log 8), configuration bytes 0 to 4 and 9
zero (DESIGN CHOICE, unsafe; log 9), no spin limit, no standby on exit, no failing primitive
(00_scope.md R5; log 23). -/
def Params.initial : Params where
  opWC := 0x00
  opRC := 0x10
  opWTP := 0x20
  opWTA := 0x22
  opRRP := 0x24
  txPayloadMax := 32
  cfgDefault := [0, 0, 0, 0, 0, 0, 0, 0, 0, 0]
  spinLimit := none
  exitRxToStandby := false
  halFallible := false

/-- A request to change the registry, as `DEFERQ` keeps it (10_state.md R35). -/
inductive RegistryRequest where
  | attach (h : ConsumerId)
  | detach (h : ConsumerId)
deriving DecidableEq, Repr

/-- What the environment and a consumer answer at one micro-step (00_scope.md R10). A micro-step
reads the fields it needs and no other. -/
structure Moment where
  /-- `AM` rises just before this micro-step (42_receive_pipeline.md R170). -/
  edge : Bool
  /-- The environment fails this primitive, if it may (60_exceptions.md R224). -/
  fail : Bool
  /-- The level a poll reads (00_scope.md R9). -/
  level : Level
  /-- The byte clocked back by a transfer; `none` leaves the answer to the reference environment
  (20_memory.md R71, R72; log 13). -/
  inbound : Option Byte
  /-- The attach and detach requests a consumer issues during its invocation, in order
  (42_receive_pipeline.md R177; log 18). -/
  requests : List RegistryRequest
  /-- The consumer aborts (42_receive_pipeline.md R178). -/
  abort : Bool
deriving DecidableEq, Repr, Inhabited

/-- A moment in which the environment does nothing: no edge, no failure, a poll reads 0, the
reference environment answers a transfer, the consumer returns. -/
def Moment.quiet : Moment where
  edge := false
  fail := false
  level := false
  inbound := none
  requests := []
  abort := false

namespace Config

/-- Free value: the environment's answer at the n-th micro-step, where the state lists none
(20_memory.md R72; log 2). -/
opaque freeMoment : Nat → Moment

/-- Free value: the byte clocked back at the n-th micro-step where the state lists no moment
(20_memory.md R72), or where 20_memory.md R71 leaves it arbitrary (log 2, log 13). -/
opaque freeByte : Nat → Byte

/-- The length of a duration, in a unit of the platform's: read by no rule (70_reset_and_hazards.md
R280; log 21). -/
opaque durationLength : Duration → Nat

/-- `PINMAP`: read by no rule (00_scope.md R5; log 21). -/
opaque pinMap : PinRole → Nat

end Config

end Sys2Proof
end

