-- ==== Sys2Proof/Syntax.lean ====
section
/-! DEFINITION. The instructions: the five bus instruction bytes with the data of their frames
(30_encoding.md R91 to R97) and the host operations (30_encoding.md R102, R103), one constructor per
row of spec/opcode_table.json; and the two forms in which they are presented. -/

namespace Sys2Proof

/-- The instructions (30_encoding.md R90). -/
inductive Instr where
  /-- `WC`: write-config frame, start offset `k`, data bytes (30_encoding.md R93). -/
  | wc (k : Nibble) (data : List Byte)
  /-- `RC`: read-config frame (30_encoding.md R94). -/
  | rc
  /-- `WTP`: write-transmit-payload frame, payload bytes (30_encoding.md R95). -/
  | wtp (payload : List Byte)
  /-- `WTA`: write-transmit-address frame, address bytes (30_encoding.md R96). -/
  | wta (address : List Byte)
  /-- `RRP`: read-received-payload frame (30_encoding.md R97). -/
  | rrp
  /-- `init()`, code 0x0. -/
  | init
  /-- `setAddress(address)`, code 0x1. -/
  | setAddress (address : List Byte)
  /-- `writeConfig(offset, bytes)`, code 0x2. -/
  | writeConfig (offset : Nat) (bytes : List Byte)
  /-- `readConfig()`, code 0x3. -/
  | readConfig
  /-- `powerUp()`, code 0x4. -/
  | powerUp
  /-- `powerDown()`, code 0x5. -/
  | powerDown
  /-- `startReceiveMode()`, code 0x6. -/
  | startReceiveMode
  /-- `stopReceiveMode()`, code 0x7. -/
  | stopReceiveMode
  /-- `sendPacket(address, payload)`, code 0x8. -/
  | sendPacket (address payload : List Byte)
  /-- `attachReceivedCallback(handler)`, code 0x9. -/
  | attachReceivedCallback (handler : ConsumerId)
  /-- `detachReceivedCallback(handler)`, code 0xA. -/
  | detachReceivedCallback (handler : ConsumerId)
  /-- The unassigned code 0xB (30_encoding.md R103). -/
  | unassignedB
  /-- The unassigned codes 0xC to 0xF, by their low two bits (30_encoding.md R103). -/
  | unassignedCToF (x : BitVec 2)
deriving DecidableEq, Repr

/-- What stands at the command port: the 4-bit code and one field for each shape of operand
(30_encoding.md R102; decision D1 fixes no widths). A code reads the fields it has operands for and
ignores the others (log 6). -/
structure PortCommand where
  code : Nibble
  /-- The natural number `k` of writeConfig. -/
  offset : Nat
  /-- The address operand `A`. -/
  address : List Byte
  /-- The byte operand `B` of writeConfig, the payload `P` of sendPacket. -/
  bytes : List Byte
  /-- The consumer id `h`. -/
  handler : ConsumerId
deriving DecidableEq, Repr

/-- An encoded instruction of either set (30_encoding.md R90): a frame as the bytes the block sends
in it (outbound zeros of a read frame are not operands, R91), or a command at the port. -/
inductive Code where
  | frame (bytes : List Byte)
  | command (c : PortCommand)
deriving DecidableEq, Repr

end Sys2Proof
end

