-- ==== Sys2Proof/WellFormed.lean ====
section
/-! DEFINITION. Operands the block accepts: the checks of 30_encoding.md R106 that need no state,
and the frame lengths of R100. -/

namespace Sys2Proof

/-- The operands of an instruction pass the checks on lengths and ranges: configuration range
(20_memory.md R64), address length 4 or more for the operations that clamp (30_encoding.md R105) and
exactly 4 for the frame (R96), payload length (R95). -/
def Instr.wellFormed (p : Params) : Instr → Bool
  | .wc k data => decide (k.toNat + data.length ≤ configLen)
  | .rc => true
  | .wtp payload => decide (payload.length ≤ p.txPayloadMax)
  | .wta address => decide (address.length = addrLen)
  | .rrp => true
  | .init => true
  | .setAddress address => decide (addrLen ≤ address.length)
  | .writeConfig offset bytes => decide (offset + bytes.length ≤ configLen)
  | .readConfig => true
  | .powerUp => true
  | .powerDown => true
  | .startReceiveMode => true
  | .stopReceiveMode => true
  | .sendPacket address payload =>
    decide (addrLen ≤ address.length) && decide (payload.length ≤ p.txPayloadMax)
  | .attachReceivedCallback _ => true
  | .detachReceivedCallback _ => true
  | .unassignedB => true
  | .unassignedCToF _ => true

end Sys2Proof
end

