-- ==== Sys2Proof/Decode.lean ====
section
/-! DEFINITION. Decoding of both instruction sets (30_encoding.md R92 to R103), total on any input
and refusing by name, and the encoder. -/

namespace Sys2Proof

/-- Why the bytes of a frame are no instruction of the block. -/
inductive DecodeError where
  /-- No instruction byte at all (30_encoding.md R91). -/
  | emptyFrame
  /-- An instruction byte the block never emits (30_encoding.md R101). -/
  | neverEmitted (b : Byte)
  /-- Outbound operand bytes after an instruction byte whose frame has none (30_encoding.md R100). -/
  | dataInReadFrame (b : Byte)
deriving DecidableEq, Repr

/-- The instruction byte of a write-config frame, `OP_WC | (k & OFFSET_MASK)`, bitwise on 8-bit
values (00_scope.md R13 (a); 30_encoding.md R99). -/
def Params.wcByte (p : Params) (k : Nat) : Byte := p.opWC ||| (BitVec.ofNat 8 k &&& offsetMask)

/-- The high nibble of a byte, in place: the mask of format `INDEXED` (30_encoding.md R93). -/
def highNibble (b : Byte) : Byte := b &&& 0xF0

/-- The start offset a write-config instruction byte carries, bits 3:0 (30_encoding.md R92). -/
def startOffset (b : Byte) : Nibble := b.setWidth 4

/-- The instruction of a frame whose first byte is `b` and whose outbound data bytes are `data`: the
four whole-byte opcodes, then the indexed pattern (30_encoding.md R92 to R97). -/
def decodeFirstByte (p : Params) (b : Byte) (data : List Byte) : Except DecodeError Instr :=
  if b = p.opRC then
    if data = [] then .ok .rc else .error (.dataInReadFrame b)
  else if b = p.opWTP then .ok (.wtp data)
  else if b = p.opWTA then .ok (.wta data)
  else if b = p.opRRP then
    if data = [] then .ok .rrp else .error (.dataInReadFrame b)
  else if highNibble b = highNibble p.opWC then .ok (.wc (startOffset b) data)
  else .error (.neverEmitted b)

/-- Decode a frame, given as its outbound bytes (30_encoding.md R91). -/
def decodeFrame (p : Params) : List Byte → Except DecodeError Instr
  | [] => .error .emptyFrame
  | b :: data => decodeFirstByte p b data

/-- Decode what stands at the command port by its 4-bit code (30_encoding.md R102, R103). -/
def decodeCommand (c : PortCommand) : Instr :=
  match c.code.toNat with
  | 0 => .init
  | 1 => .setAddress c.address
  | 2 => .writeConfig c.offset c.bytes
  | 3 => .readConfig
  | 4 => .powerUp
  | 5 => .powerDown
  | 6 => .startReceiveMode
  | 7 => .stopReceiveMode
  | 8 => .sendPacket c.address c.bytes
  | 9 => .attachReceivedCallback c.handler
  | 10 => .detachReceivedCallback c.handler
  | 11 => .unassignedB
  | _ => .unassignedCToF (c.code.setWidth 2)

/-- Decode an encoded instruction of either set. -/
def decode (p : Params) : Code → Except DecodeError Instr
  | .frame bytes => decodeFrame p bytes
  | .command c => .ok (decodeCommand c)

/-- A command with no operand: every operand field at zero. -/
def PortCommand.bare (code : Nibble) : PortCommand where
  code := code
  offset := 0
  address := []
  bytes := []
  handler := 0

/-- Encode an instruction (30_encoding.md R91 to R103). -/
def encode (p : Params) : Instr → Code
  | .wc k data => .frame ((p.opWC ||| k.setWidth 8) :: data)
  | .rc => .frame [p.opRC]
  | .wtp payload => .frame (p.opWTP :: payload)
  | .wta address => .frame (p.opWTA :: address)
  | .rrp => .frame [p.opRRP]
  | .init => .command (.bare 0x0)
  | .setAddress address => .command { PortCommand.bare 0x1 with address := address }
  | .writeConfig offset bytes =>
    .command { PortCommand.bare 0x2 with offset := offset, bytes := bytes }
  | .readConfig => .command (.bare 0x3)
  | .powerUp => .command (.bare 0x4)
  | .powerDown => .command (.bare 0x5)
  | .startReceiveMode => .command (.bare 0x6)
  | .stopReceiveMode => .command (.bare 0x7)
  | .sendPacket address payload =>
    .command { PortCommand.bare 0x8 with address := address, bytes := payload }
  | .attachReceivedCallback handler => .command { PortCommand.bare 0x9 with handler := handler }
  | .detachReceivedCallback handler => .command { PortCommand.bare 0xA with handler := handler }
  | .unassignedB => .command (.bare 0xB)
  | .unassignedCToF x => .command (.bare (0xC ||| x.setWidth 4))

/-- The n lowest bytes of a table word, the first byte the least significant (the numbering of
spec/opcode_table.json). -/
def tableBytes : Nat → Nat → List Byte
  | 0, _ => []
  | n + 1, w => BitVec.ofNat 8 w :: tableBytes n (w / 256)

/-- The outbound bytes of a frame for a table word: a write-transmit-address frame, whose four data
bytes the table gives no bits, has them zero; every other frame has no operand byte beyond the
word (30_encoding.md R100; log 5). -/
def tableFrame (p : Params) (nbits w : Nat) : List Byte :=
  match tableBytes (nbits / 8) w with
  | [b] => if b = p.opWTA then [b, 0, 0, 0, 0] else [b]
  | bytes => bytes

/-- The command for a table word: the code with every operand zero, an address being four zero
bytes (30_encoding.md R102, R105; log 5, log 6). -/
def tableCommand (w : Nat) : PortCommand :=
  { PortCommand.bare (BitVec.ofNat 4 w) with address := [0, 0, 0, 0] }

/-- A table word as an encoded instruction: a word of eight bits or more is a bus instruction byte,
a shorter one a command code. The two sets number their words separately (30_encoding.md R90;
log 5). -/
def tableCode (p : Params) (nbits w : Nat) : Code :=
  if nbits < 8 then .command (tableCommand w) else .frame (tableFrame p nbits w)

/-- The instruction the decoder reads from a table word, under the opcodes of the table. -/
def decodeTableWord (nbits w : Nat) : Option Instr :=
  (decode Params.initial (tableCode Params.initial nbits w)).toOption

end Sys2Proof
end

