-- ==== Sys2Proof/Machine/State.lean ====
section
/-! DEFINITION. The state of the block (10_state.md R20), the events and results it gives out
(00_scope.md R9, R11), the reference environment's spaces (20_memory.md R60, R71), the reasons a
step can stop, and the state after reset (10_state.md R43). -/

namespace Sys2Proof.Machine

/-- The four output lines (10_state.md R20). -/
inductive OutLine where
  | pwr
  | csn
  | txen
  | trig
deriving DecidableEq, Repr

/-- The two input lines (10_state.md R25, R26). -/
inductive InLine where
  | dr
  | am
deriving DecidableEq, Repr

/-- The labels of the micro-steps that are primitives (10_state.md R33), as the pseudocode of the
operations writes them; a `HalFailure` carries a path of them (60_exceptions.md R224). -/
inductive StepLabel where
  | f1 | f2 | f2d | f3 | f4 | f5
  | wc1 | wc2 | wc4
  | rc1
  | wtp1
  | wta1
  | rrp1
  | sa2
  | in1 | in2 | in3
  | pu1 | pu2
  | pd1
  | er1 | er2 | er3 | er4 | er5
  | xr1 | xr2
  | rx1 | rx2 | rx3 | rx4
  | tx1a | tx1b | tx1c | tx1d | tx2 | tx3 | tx4a | tx4b | tx4c | tx5 | tx6a | tx6b
deriving DecidableEq, Repr

/-- The path of labels, outermost first, of a micro-step: `WC.2/F.3` is `[wc2, f3]`
(60_exceptions.md R224). -/
abbrev StepPath := List StepLabel

/-- The sub-causes of a malformed call (60_exceptions.md R221). -/
inductive Malformed where
  | badAddressLength
  | badPayloadLength
  | badConfigRange
  | notInitialised
  | alreadyInitialised
  | unknownCommand
deriving DecidableEq, Repr

/-- Which wait timed out (60_exceptions.md R221). -/
inductive Waiting where
  | rxDataReady
  | txDataReady
deriving DecidableEq, Repr

/-- The causes of an error (60_exceptions.md R221). -/
inductive Cause where
  | malformedInput (m : Malformed)
  | timeout (w : Waiting)
  | halFailure (step : StepPath)
  | handlerAbort (index : Nat)
deriving DecidableEq, Repr

/-- The events of the trace (00_scope.md R9), and the failed forms `W!`, `R!`, `X!`, `D!`
(60_exceptions.md R224). -/
inductive Event where
  /-- `W(L, v)`: an output line is written. -/
  | w (l : OutLine) (v : Level)
  /-- `W!(L, v)`. -/
  | wFailed (l : OutLine) (v : Level)
  /-- `R(L, v)`: an input line is polled and reads `v`. -/
  | r (l : InLine) (v : Level)
  /-- `R!(L)`. -/
  | rFailed (l : InLine)
  /-- `X(o, i)`: one byte out, one byte in. -/
  | x (o i : Byte)
  /-- `X!(o)`. -/
  | xFailed (o : Byte)
  /-- `D(T)`: a wait. -/
  | d (t : Duration)
  /-- `D!(T)`. -/
  | dFailed (t : Duration)
  /-- `V(h, p)`: a payload is handed to a consumer. -/
  | v (h : ConsumerId) (payload : List Byte)
  /-- `F(e)`: an error of the drain is reported. -/
  | f (e : Cause)
deriving DecidableEq, Repr

/-- The result of an operation (00_scope.md R11). -/
inductive Reply where
  /-- ok, no value. -/
  | ok
  /-- ok, with bytes. -/
  | bytes (b : List Byte)
  /-- error, with its cause. -/
  | error (e : Cause)
deriving DecidableEq, Repr

/-- The four modes (10_state.md R37). -/
inductive Mode where
  | poweredDown
  | standby
  | transmitting
  | receiving
deriving DecidableEq, Repr

/-- The output lines: the level last driven on each (10_state.md R21 to R24). -/
structure Lines where
  pwr : Level
  csn : Level
  txen : Level
  trig : Level
deriving DecidableEq, Repr

/-- Where the sequencer stands (10_state.md R33), as far as a boundary between two steps of the
model can show it (log 1). -/
inductive Seq where
  /-- `Idle`. -/
  | idle
  /-- sendPacket at `TX.5`, after `polls` polls that read 0. -/
  | txWait (polls : Nat)
  /-- The drain at `RX.1`, after `polls` polls that read 0. -/
  | rxWait (polls : Nat)
  /-- The drain at `DP.2`, about to invoke entry `index` of the snapshot (42_receive_pipeline.md
  R174). -/
  | delivering (snapshot : List ConsumerId) (index : Nat)
  /-- The drain at `DP.3`, its delivery loop over; `aborted` is the index `DP.4` reports
  (42_receive_pipeline.md R174, R178). -/
  | applying (aborted : Option Nat)
deriving DecidableEq, Repr

/-- The transient buffers (10_state.md R36). -/
inductive Buffer where
  | rxbuf
  | txbuf
  | txaddr
deriving DecidableEq, Repr

/-- A chip-side space as a list of (offset, byte), offsets strictly rising; an offset that is not
listed holds no value (10_state.md R44). -/
abbrev Memory := List Host.Cell

/-- The chip operation of a frame, from its first byte (20_memory.md R71). -/
inductive ChipOp where
  | writeConfig (k : Nat)
  | readConfig
  | writePayload
  | writeAddress
  | readPayload
  | unknown
deriving DecidableEq, Repr

/-- Where the reference environment is in a frame (20_memory.md R71). -/
inductive ChipFrame where
  /-- Not selected. -/
  | released
  /-- Selected, no byte transferred yet. -/
  | selected
  /-- The instruction byte and `count` data bytes have been transferred. -/
  | transfer (op : ChipOp) (count : Nat)
deriving DecidableEq, Repr

/-- The chip-side spaces (20_memory.md R60) as the reference environment keeps them (R71). -/
structure Chip where
  config : Memory
  txPayload : Memory
  txAddress : Memory
  rxPayload : Memory
  frame : ChipFrame
deriving DecidableEq, Repr

/-- The state. The fields up to `txaddr` are the spec's state tuple (10_state.md R20), after the
configuration record; `chip` is the reference environment (20_memory.md R71); the rest are the
model's own (INVENTORY.md, State). -/
structure State where
  /-- The configuration record, changed by no operation (00_scope.md R5). -/
  params : Params
  /-- `LINE` (10_state.md R21 to R24). -/
  lines : Lines
  /-- `CFG` (10_state.md R27). -/
  cfg : List Byte
  /-- `INITED` (10_state.md R29). -/
  inited : Bool
  /-- `WATCH` (10_state.md R30). -/
  watch : Bool
  /-- `EDGE_PEND` (10_state.md R31). -/
  edgePend : Bool
  /-- `BUSY` (10_state.md R32). -/
  busy : Bool
  /-- `SEQ` (10_state.md R33). -/
  seq : Seq
  /-- `REG` (10_state.md R34). -/
  reg : List ConsumerId
  /-- `DISPATCHING` (10_state.md R35). -/
  dispatching : Bool
  /-- `DEFERQ` (10_state.md R35). -/
  deferq : List RegistryRequest
  /-- `RXBUF`: no value outside a drain (10_state.md R36). -/
  rxbuf : Option (List Byte)
  /-- `TXBUF`: no value outside a sendPacket (10_state.md R36). -/
  txbuf : Option (List Byte)
  /-- `TXADDR`: no value outside a sendPacket (10_state.md R36). -/
  txaddr : Option (List Byte)
  /-- The reference environment (20_memory.md R71; log 12). -/
  chip : Chip
  /-- The command presented and not yet accepted (60_exceptions.md R228). -/
  port : Option PortCommand
  /-- A call standing at the Command Framer's internal port, as the bytes of its frame (log 4). -/
  framer : Option (List Byte)
  /-- What the host presents, one entry each time the port is free; `none` presents nothing
  (log 3). -/
  host : List (Option PortCommand)
  /-- The environment's and the consumers' answers to the micro-steps to come (log 2). -/
  env : List Moment
  /-- How many answers have been used (log 2). -/
  tick : Nat
  /-- The events so far, oldest first (00_scope.md R9; log 15). -/
  trace : List Event
  /-- The results returned so far, oldest first (00_scope.md R11; log 15). -/
  replies : List Reply
deriving DecidableEq, Repr

/-- The reasons a step stops with a fault. -/
inductive Fault where
  /-- A transient buffer was read outside its operation (10_state.md R44). Raised by sendPacket's
  latching step and by a delivery; no state reached from reset raises it. Safe: the machine stops
  where the spec gives no value. -/
  | noTransientValue (b : Buffer)
  /-- The reference environment was left to answer a read-config frame for an offset of `CONFIG` that
  no frame has written (10_state.md R44). Raised by the read-config frame, alone or in readConfig; no
  state reached from reset by host commands raises it. Safe: the machine stops where the spec gives no
  value. -/
  | noChipValue
deriving DecidableEq, Repr

/-- The reasons a step, or the construction of the block, is refused. -/
inductive Refusal where
  /-- An instruction without a meaning in this model; no arm of `exec` answers so. Safe. -/
  | notModelled (mnemonic : String)
  /-- The bytes at the framer's internal port are no instruction the block emits (30_encoding.md
  R101: a fault of the model, not of the chip). Raised by the step. Safe. -/
  | undecodable (e : DecodeError)
  /-- A configuration record that breaks 00_scope.md R6. Raised at construction. Safe. -/
  | badParameters
deriving DecidableEq, Repr

/-- The lines after reset (10_state.md R43). -/
def Lines.reset : Lines where
  pwr := false
  csn := true
  txen := false
  trig := false

/-- The reference environment after reset: nothing written, nothing selected (10_state.md R43: chip
registers unspecified). -/
def Chip.reset : Chip where
  config := []
  txPayload := []
  txAddress := []
  rxPayload := []
  frame := .released

/-- The reset values of 10_state.md R43 with configuration record `p` bound (70_reset_and_hazards.md
R260). -/
def State.resetWith (p : Params) : State where
  params := p
  lines := .reset
  cfg := p.cfgDefault
  inited := false
  watch := false
  edgePend := false
  busy := false
  seq := .idle
  reg := []
  dispatching := false
  deferq := []
  rxbuf := none
  txbuf := none
  txaddr := none
  chip := .reset
  port := none
  framer := none
  host := []
  env := []
  tick := 0
  trace := []
  replies := []

/-- The machine right after reset, with the default record (10_state.md R43; log 8, log 9, log 23). -/
def State.reset : State := .resetWith .initial

/-- Construction of the block with a record: refused unless the record keeps 00_scope.md R6
(70_reset_and_hazards.md R260). -/
def State.construct (p : Params) : Host.Outcome State Fault Refusal :=
  if p.valid then .next (.resetWith p) else .refused .badParameters

end Sys2Proof.Machine
end

