-- ==== Sys2Proof/Machine/Flags.lean ====
section
/-! DEFINITION. What the block computes from its lines and flags: the mode (10_state.md R37), the
address view (R28), the latching of an `AM` edge (42_receive_pipeline.md R170), the start condition
of the drain (R171), and the codes of the error causes (60_exceptions.md R221). -/

namespace Sys2Proof.Machine

/-- `MODE` as a function of `LINE[PWR]`, `LINE[TXEN]`, `LINE[TRIG]` (10_state.md R37). -/
def Lines.mode (l : Lines) : Mode :=
  match l.pwr, l.txen, l.trig with
  | false, _, _ => .poweredDown
  | true, false, false => .standby
  | true, true, _ => .transmitting
  | true, false, true => .receiving

/-- `MODE` (10_state.md R37). -/
def State.mode (s : State) : Mode := s.lines.mode

/-- `ADDR`, the view of `CFG[5..8]` (10_state.md R28). -/
def State.addr (s : State) : List Byte := (s.cfg.drop addrOffset).take addrLen

/-- `AM↑`, if it `rose`: latched while `WATCH = 1`, absorbed when already latched, otherwise without
effect (42_receive_pipeline.md R170). -/
def State.latchEdge (rose : Bool) (s : State) : State :=
  { s with edgePend := s.edgePend || (s.watch && rose) }

/-- The drain starts in a state with `BUSY = 0` and `EDGE_PEND = 1` (42_receive_pipeline.md R171). -/
def State.drainDue (s : State) : Bool := !s.busy && s.edgePend

/-- The code of a cause (60_exceptions.md R221). -/
def Cause.code : Cause → Nat
  | .malformedInput _ => 1
  | .timeout _ => 2
  | .halFailure _ => 3
  | .handlerAbort _ => 4

/-- The sub-code of a malformed call (60_exceptions.md R221). -/
def Malformed.subCode : Malformed → Nat
  | .badAddressLength => 1
  | .badPayloadLength => 2
  | .badConfigRange => 3
  | .notInitialised => 4
  | .alreadyInitialised => 5
  | .unknownCommand => 6

/-- The sub-code of a timeout (60_exceptions.md R221). -/
def Waiting.subCode : Waiting → Nat
  | .rxDataReady => 1
  | .txDataReady => 2

end Sys2Proof.Machine
end

