-- ==== Sys2Proof/Machine/Operands.lean ====
section
/-! DEFINITION. Operands: the address normalisation (30_encoding.md R105), the operand checks in
their order (R106), and the write into the mirror (40_command_framer.md R120). -/

namespace Sys2Proof.Machine

/-- `NormAddr`: four bytes as they are, more clamped to the first four, fewer refused
(30_encoding.md R105). -/
def normAddr (a : List Byte) : Except Malformed (List Byte) :=
  if a.length < addrLen then .error .badAddressLength else .ok (a.take addrLen)

/-- The payload check (30_encoding.md R106 (3)). -/
def payloadFits (p : Params) (payload : List Byte) : Bool :=
  decide (payload.length ≤ p.txPayloadMax)

/-- The configuration range check, on natural numbers (30_encoding.md R106 (4); 00_scope.md
R13 (b)). -/
def configRangeFits (k : Nat) (bytes : List Byte) : Bool :=
  decide (k + bytes.length ≤ configLen)

/-- The `INITED` check (30_encoding.md R106 (1); 10_state.md R29). -/
def checkInited (s : State) : Except Malformed Unit :=
  if s.inited then .ok () else .error .notInitialised

/-- The check of init: not yet initialised (41_mode_controller.md R152). -/
def checkNotInited (s : State) : Except Malformed Unit :=
  if s.inited then .error .alreadyInitialised else .ok ()

/-- The range check of a write-config frame as an outcome. -/
def checkConfigRange (k : Nat) (bytes : List Byte) : Except Malformed Unit :=
  if configRangeFits k bytes then .ok () else .error .badConfigRange

/-- The payload check as an outcome. -/
def checkPayload (p : Params) (payload : List Byte) : Except Malformed Unit :=
  if payloadFits p payload then .ok () else .error .badPayloadLength

/-- The checks of writeConfig in order (30_encoding.md R106). -/
def checkWriteConfig (k : Nat) (bytes : List Byte) (s : State) : Except Malformed Unit :=
  match checkInited s with
  | .error m => .error m
  | .ok _ => checkConfigRange k bytes

/-- The checks of sendPacket in order, giving the normalised address (43_transmit_pipeline.md
R201). -/
def checkSendPacket (a payload : List Byte) (s : State) : Except Malformed (List Byte) :=
  match checkInited s with
  | .error m => .error m
  | .ok _ =>
    match normAddr a with
    | .error m => .error m
    | .ok a4 =>
      match checkPayload s.params payload with
      | .error m => .error m
      | .ok _ => .ok a4

/-- `for j in 0 .. len(B)-1: CFG[k + j] <- B[j]` (40_command_framer.md R120, step `WC.3`). -/
def mirrorWrite (cfg : List Byte) (k : Nat) : List Byte → List Byte
  | [] => cfg
  | b :: bs => mirrorWrite (cfg.set k b) (k + 1) bs

end Sys2Proof.Machine
end

