-- ==== Sys2Proof/Machine/ChipRef.lean ====
section
/-! DEFINITION. The chip-side spaces as canonical lists, and the reference environment `ChipRef` that
follows the block's events and answers reads (20_memory.md R60, R71). It is an assumption about the
chip, used only where the environment's answer leaves a byte to it (log 12). -/

namespace Sys2Proof.Machine

/-- The byte at an offset; an unlisted offset has no value (10_state.md R44). -/
def Memory.read : Memory → Nat → Option Byte
  | [], _ => none
  | (a, b) :: m, x => if x = a then some b else Memory.read m x

/-- Write one byte, keeping offsets strictly rising (`MemWrite` of 00_scope.md R9). -/
def Memory.write : Memory → Nat → Byte → Memory
  | [], x, v => [(x, v)]
  | (a, b) :: m, x, v =>
    if x < a then (x, v) :: (a, b) :: m
    else if x = a then (x, v) :: m
    else (a, b) :: Memory.write m x v

/-- The canonical form: offsets strictly rising. An unlisted offset reads as no value, so no entry
can equal what it would read as unlisted. -/
def Memory.wf (m : Memory) : Bool := decide (m.Pairwise fun x y => x.1 < y.1)

/-- The chip operation an instruction byte selects: the four whole-byte opcodes, else the indexed
pattern (20_memory.md R71). -/
def chipOpOf (p : Params) (o : Byte) : ChipOp :=
  if o = p.opRC then .readConfig
  else if o = p.opWTP then .writePayload
  else if o = p.opWTA then .writeAddress
  else if o = p.opRRP then .readPayload
  else if highNibble o = highNibble p.opWC then .writeConfig (startOffset o).toNat
  else .unknown

/-- Data byte `j` of a frame arrives: stored at its offset where the space has one, else ignored
(20_memory.md R63, R71). DESIGN CHOICE, unsafe (log 12), where the spec leaves the chip open: a read
frame stores nothing, so a read-config frame changes none of the four spaces (whether it is free of
side effects is not in the source: R67, 91_not_in_source.md N14); a write-transmit-payload or
write-transmit-address frame changes the offsets of its own bytes only, as each arrives, so one shorter
than a payload loaded before and not yet consumed leaves the earlier tail (R71 leaves what is stored
arbitrary; 91_not_in_source.md N31). -/
def Chip.store (p : Params) (op : ChipOp) (j : Nat) (o : Byte) (c : Chip) : Chip :=
  match op with
  | .writeConfig k =>
    if k + j < configLen then { c with config := Memory.write c.config (k + j) o } else c
  | .writePayload =>
    if j < p.txPayloadMax then { c with txPayload := Memory.write c.txPayload j o } else c
  | .writeAddress =>
    if j < addrLen then { c with txAddress := Memory.write c.txAddress j o } else c
  | .readConfig => c
  | .readPayload => c
  | .unknown => c

/-- The reference environment sees one completed transfer of a byte `o` (20_memory.md R71). -/
def Chip.transfer (p : Params) (o : Byte) (c : Chip) : Chip :=
  match c.frame with
  | .released => c
  | .selected => { c with frame := .transfer (chipOpOf p o) 0 }
  | .transfer op j => { c.store p op j o with frame := .transfer op (j + 1) }

/-- Chip-select is deasserted: a read-received-payload frame has emptied the one packet buffer
(20_memory.md R67), also one that ended early (log 12). -/
def Chip.release (c : Chip) : Chip :=
  match c.frame with
  | .transfer .readPayload _ => { c with rxPayload := [], frame := .released }
  | _ => { c with frame := .released }

/-- Driving the trigger line high is a trigger pulse that starts a transmission: a rising edge with
the chip powered and transmit-enabled (10_state.md R24, R37; 43_transmit_pipeline.md R200). -/
def Lines.pulses (ls : Lines) : Bool := ls.pwr && ls.txen && !ls.trig

/-- The trigger line is driven high: a trigger pulse consumes the payload and the address loaded for
it (20_memory.md R67; 10_state.md R40 (c)); any other edge concerns no space. -/
def Chip.trigger (ls : Lines) (c : Chip) : Chip :=
  if ls.pulses then { c with txPayload := [], txAddress := [] } else c

/-- The reference environment follows an event that finds the lines at `ls`: chip-select opens and
closes a frame, a transfer moves in it, a trigger pulse consumes what was loaded, nothing else
concerns it; a failed primitive does not reach the chip (20_memory.md R67, R71; log 12). DESIGN
CHOICE, unsafe: a write of `PWR` leaves every space as it is; whether `TXPAYLOAD`, `TXADDRESS` and
`RXPAYLOAD` survive power-down is not in the source (60_exceptions.md R238; 91_not_in_source.md N15,
which gives the reference environment the retention of `CONFIG` only; log 12). -/
def Chip.observe (p : Params) (ls : Lines) (e : Event) (c : Chip) : Chip :=
  match e with
  | .w .csn false => { c with frame := .selected }
  | .w .csn true => c.release
  | .w .pwr _ => c
  | .w .txen _ => c
  | .w .trig true => c.trigger ls
  | .w .trig false => c
  | .x o _ => c.transfer p o
  | .wFailed _ _ => c
  | .r _ _ => c
  | .rFailed _ => c
  | .xFailed _ => c
  | .d _ => c
  | .dFailed _ => c
  | .v _ _ => c
  | .f _ => c

/-- What the reference environment clocks back at the next transfer: byte `j` of `CONFIG` in a
read-config frame, byte `j` of `RXPAYLOAD` in a read-received-payload frame; nothing it determines
in any other place (20_memory.md R71). -/
def Chip.answer (c : Chip) : Option Byte :=
  match c.frame with
  | .transfer .readConfig j => if j < configLen then Memory.read c.config j else none
  | .transfer .readPayload j => if j < rxPayloadLen then Memory.read c.rxPayload j else none
  | _ => none

/-- The chip-side spaces are in canonical form. -/
def Chip.wf (c : Chip) : Bool :=
  Memory.wf c.config && Memory.wf c.txPayload && Memory.wf c.txAddress && Memory.wf c.rxPayload

end Sys2Proof.Machine
end

