-- ==== Sys2Proof/Machine/Ops.lean ====
section
/-! DEFINITION. The named operations every meaning is written with: the environment's moment, the
primitives (00_scope.md R9), the frame (40_command_framer.md R126), the wait (60_exceptions.md R223),
acceptance (R228), taking an error with its cleanup (R224, R230), and the return (R231). -/

namespace Sys2Proof.Machine

/-! ### The environment's moment -/

/-- The answer of the environment `k` micro-steps ahead: the one listed, else a free value, which
leaves no byte to the reference environment (20_memory.md R72; log 2). -/
def State.momentAt (s : State) (k : Nat) : Moment :=
  s.env[k]?.getD
    { Config.freeMoment (s.tick + k) with inbound := some (Config.freeByte (s.tick + k)) }

/-- The answer of the environment at the coming micro-step. -/
def State.here (s : State) : Moment := s.momentAt 0

/-- Use the answer of the coming micro-step: an edge of `AM` that it carries is latched before the
micro-step acts (42_receive_pipeline.md R170; log 11). -/
def State.advance (s : State) : State :=
  { s.latchEdge s.here.edge with env := s.env.tail, tick := s.tick + 1 }

/-- The environment fails the coming primitive (60_exceptions.md R224). -/
def State.failsHere (s : State) : Bool := s.params.halFallible && s.here.fail

/-- The byte clocked back at the coming transfer: the environment's own, else the reference
environment's, else a free value, where R71 leaves the byte arbitrary (20_memory.md R71, R72). A
read-config frame that would read a byte without a value does not come to this:
`State.configAnswered` (log 13). -/
def State.inbound (s : State) : Byte :=
  (s.here.inbound.or s.chip.answer).getD (Config.freeByte s.tick)

/-- Append an event to the trace; the reference environment, which still sees the lines as they were,
follows it (20_memory.md R68, R71). -/
def State.emit (e : Event) (s : State) : State :=
  { s with trace := s.trace ++ [e], chip := s.chip.observe s.params s.lines e }

/-- The environment fails the primitive `k` micro-steps ahead (60_exceptions.md R224). -/
def State.failsAt (s : State) (k : Nat) : Bool := s.params.halFallible && (s.momentAt k).fail

/-- A read-config frame that starts here comes to no byte of `CONFIG` without a value: byte `j`, read
at the micro-step `2 + j`, is the environment's own or was written, or a primitive fails before it or
in its place (10_state.md R44; 40_command_framer.md R126; log 13). -/
def State.configAnswered (s : State) : Bool :=
  (List.range configLen).all fun j =>
    (s.momentAt (2 + j)).inbound.isSome || (Memory.read s.chip.config j).isSome ||
      (List.range (3 + j)).any s.failsAt

/-! ### Primitives -/

/-- What a sequence of primitives ends in: a value, or the path of the micro-step that failed
(60_exceptions.md R224). -/
inductive Res (α : Type) where
  | ok (a : α) (s : State)
  | failed (path : StepPath) (s : State)
deriving DecidableEq, Repr

/-- Go on with the next micro-steps, unless a primitive failed: then the sequence stops there
(40_command_framer.md R127). -/
def Res.andThen {α β : Type} (r : Res α) (next : α → State → Res β) : Res β :=
  match r with
  | .ok a s => next a s
  | .failed path s => .failed path s

/-- Put the label of the enclosing step before the path of a failure (60_exceptions.md R224). -/
def Res.inside {α : Type} (l : StepLabel) (r : Res α) : Res α :=
  match r with
  | .ok a s => .ok a s
  | .failed path s => .failed (l :: path) s

/-- Drive a line: the level `LINE[L]` holds (00_scope.md R9). -/
def Lines.set (l : OutLine) (v : Level) (ls : Lines) : Lines :=
  match l with
  | .pwr => { ls with pwr := v }
  | .csn => { ls with csn := v }
  | .txen => { ls with txen := v }
  | .trig => { ls with trig := v }

/-- `LINE[L] <- v`. -/
def State.setLine (l : OutLine) (v : Level) (s : State) : State :=
  { s with lines := s.lines.set l v }

/-- `PinWrite(L, v)`: the one way to write a line (41_mode_controller.md R150); a failed one leaves
the line (R151). -/
def pinWrite (label : StepLabel) (l : OutLine) (v : Level) (s : State) : Res Unit :=
  if s.failsHere then .failed [label] (s.advance.emit (.wFailed l v))
  else .ok () ((s.advance.emit (.w l v)).setLine l v)

/-- The level a line is driven to when it is asserted (00_scope.md R8). -/
def OutLine.asserted : OutLine → Level
  | .pwr => true
  | .csn => false
  | .txen => true
  | .trig => true

/-- `Assert(L)` (00_scope.md R8, R9). -/
def assertLine (label : StepLabel) (l : OutLine) (s : State) : Res Unit :=
  pinWrite label l l.asserted s

/-- `Deassert(L)` (00_scope.md R8, R9). -/
def deassertLine (label : StepLabel) (l : OutLine) (s : State) : Res Unit :=
  pinWrite label l (!l.asserted) s

/-- `PinRead(L)`: the level the environment presents (00_scope.md R9). -/
def pinRead (label : StepLabel) (l : InLine) (s : State) : Res Level :=
  if s.failsHere then .failed [label] (s.advance.emit (.rFailed l))
  else .ok s.here.level (s.advance.emit (.r l s.here.level))

/-- `Xfer(o)`: one byte out, one byte in (20_memory.md R62). -/
def xfer (label : StepLabel) (o : Byte) (s : State) : Res Byte :=
  if s.failsHere then .failed [label] (s.advance.emit (.xFailed o))
  else .ok s.inbound (s.advance.emit (.x o s.inbound))

/-- `Delay(T)`: changes no state (00_scope.md R9). -/
def delay (label : StepLabel) (t : Duration) (s : State) : Res Unit :=
  if s.failsHere then .failed [label] (s.advance.emit (.dFailed t))
  else .ok () (s.advance.emit (.d t))

/-- A primitive of the hardware access layer that emits no event: opening pins and bus, arming and
cancelling the watch (60_exceptions.md R224). -/
def halAction (label : StepLabel) (s : State) : Res Unit :=
  if s.failsHere then .failed [label] s.advance else .ok () s.advance

/-! ### The frame -/

/-- `Delay(T_BYTE)` in a spaced frame, nothing in any other (40_command_framer.md R126). -/
def spacing (label : StepLabel) (spaced : Bool) (s : State) : Res Unit :=
  if spaced then delay label .byte s else .ok () s

/-- Step `F.3`: send the data bytes of a write frame, in index order (40_command_framer.md R126). -/
def sendBytes : List Byte → State → Res Unit
  | [], s => .ok () s
  | b :: bs, s => (xfer .f3 b s).andThen fun _ s => sendBytes bs s

/-- Step `F.4`: read `n` data bytes, outbound zero, in index order (40_command_framer.md R126). -/
def receiveBytes (spaced : Bool) : Nat → State → Res (List Byte)
  | 0, s => .ok [] s
  | n + 1, s =>
    (xfer .f4 0x00 s).andThen fun b s =>
    (spacing .f4 spaced s).andThen fun _ s =>
    (receiveBytes spaced n s).andThen fun bs s => .ok (b :: bs) s

/-- `Frame(instr, out, nIn, spaced)` (40_command_framer.md R126). -/
def frame (instr : Byte) (out : List Byte) (nIn : Nat) (spaced : Bool) (s : State) :
    Res (List Byte) :=
  (assertLine .f1 .csn s).andThen fun _ s =>
  (xfer .f2 instr s).andThen fun _ s =>
  (spacing .f2d spaced s).andThen fun _ s =>
  (sendBytes out s).andThen fun _ s =>
  (receiveBytes spaced nIn s).andThen fun bytes s =>
  (deassertLine .f5 .csn s).andThen fun _ s => .ok bytes s

/-! ### The wait -/

/-- What one poll of a busy-wait gives (60_exceptions.md R223). -/
inductive Poll where
  /-- The line read 1: the wait returns. -/
  | high (s : State)
  /-- The line read 0: the wait goes on. -/
  | low (s : State)
  /-- The line read 0 and the limit is reached: the wait raises its timeout. -/
  | expired (s : State)
  /-- The poll failed. -/
  | failed (path : StepPath) (s : State)
deriving DecidableEq, Repr

/-- `WaitHigh(DR, which)`, one turn of its loop after `polls` polls that read 0: the limit, if any, is
compared for equality with the count (60_exceptions.md R223; 00_scope.md R13 (d)). -/
def waitHigh (label : StepLabel) (polls : Nat) (s : State) : Poll :=
  match pinRead label .dr s with
  | .failed path s => .failed path s
  | .ok true s => .high s
  | .ok false s => if s.params.spinLimit = some (polls + 1) then .expired s else .low s

/-! ### The return, and taking an error -/

/-- Append a result for whoever issued the operation (00_scope.md R11). -/
def State.reply (r : Reply) (s : State) : State := { s with replies := s.replies ++ [r] }

/-- The end of an operation: `BUSY <- 0`, `SEQ <- Idle`, the transients lose their values
(60_exceptions.md R231; 10_state.md R36). -/
def State.finish (s : State) : State :=
  { s with busy := false, seq := .idle, rxbuf := none, txbuf := none, txaddr := none }

/-- Return of a host operation with a result (60_exceptions.md R231). -/
def State.ret (r : Reply) (s : State) : State := (s.reply r).finish

/-- The label belongs to the frame procedure. -/
def StepLabel.inFrame : StepLabel → Bool
  | .f1 | .f2 | .f2d | .f3 | .f4 | .f5 => true
  | _ => false

/-- The failing micro-step lay in a frame: `F.1` was issued and `F.5` did not complete
(60_exceptions.md R230 (1)). -/
def frameOpen (path : StepPath) : Bool := path.any StepLabel.inFrame

/-- One line write of a cleanup: attempted like any other, its failure ignored (60_exceptions.md
R224; log 24). -/
def cleanupWrite (s : State) (write : OutLine × Level) : State :=
  if s.failsHere then s.advance.emit (.wFailed write.1 write.2)
  else (s.advance.emit (.w write.1 write.2)).setLine write.1 write.2

/-- The line writes of a cleanup, in order. -/
def cleanupWrites (writes : List (OutLine × Level)) (s : State) : State :=
  writes.foldl cleanupWrite s

/-- Cleanup on a failed primitive: `Deassert(CSN)` if a frame was open, then the operation's closing
line writes (60_exceptions.md R230). -/
def cleanup (path : StepPath) (closing : List (OutLine × Level)) (s : State) : State :=
  cleanupWrites ((if frameOpen path then [(OutLine.csn, true)] else []) ++ closing) s

/-- Taking an error in a host operation after a primitive failed: cleanup, then the error is
returned (60_exceptions.md R220, R224, R230). -/
def State.raise (closing : List (OutLine × Level)) (path : StepPath) (s : State) : State :=
  (cleanup path closing s).ret (.error (.halFailure path))

/-- A malformed call: the error is returned and nothing else happens (60_exceptions.md R222). -/
def State.refuse (m : Malformed) (s : State) : State := s.reply (.error (.malformedInput m))

/-- End a host operation: its result, or the error with the closing line writes that fit the path of
the failure (60_exceptions.md R230). -/
def conclude (closing : StepPath → List (OutLine × Level)) (r : Res Reply) : State :=
  match r with
  | .ok result s => s.ret result
  | .failed path s => s.raise (closing path) path

/-- End a call of the Command Framer: the caller is answered, and after a failure an open frame is
closed; the caller's operation is not ended (40_command_framer.md R122 to R124, R127; log 14). -/
def concludeCall (r : Res Reply) : State :=
  match r with
  | .ok result s => s.reply result
  | .failed path s => (cleanup path [] s).reply (.error (.halFailure path))

/-- A call of the Command Framer: refused by its operand check, else run (log 14). -/
def framerCall {α : Type} (check : Except Malformed α) (run : α → State → Res Reply)
    (s : State) : Host.Outcome State Fault Refusal :=
  match check with
  | .error m => .next (s.refuse m)
  | .ok a => .next (concludeCall (run a s))

/-- No closing line writes. -/
def noClosing : StepPath → List (OutLine × Level) := fun _ => []

/-! ### Acceptance -/

/-- The start of an accepted operation: `BUSY <- 1` (10_state.md R32, R46 (1)). -/
def State.begin (s : State) : State := { s with busy := true }

/-- A command presented while the block is busy is held at the port, not executed, not dropped, not
answered; a port that already holds a command keeps that one (60_exceptions.md R228 (a), (c);
log 20). -/
def State.hold (i : Instr) (s : State) : State :=
  match encode s.params i with
  | .command c => { s with port := s.port.or (some c) }
  | .frame _ => s

/-- A host operation: held while busy, refused by its operand checks, else run from its first
micro-step, which may answer any outcome (60_exceptions.md R228; 30_encoding.md R106). -/
def acceptThen {α : Type} (i : Instr) (check : Except Malformed α)
    (run : α → State → Host.Outcome State Fault Refusal) (s : State) :
    Host.Outcome State Fault Refusal :=
  if s.busy then .next (s.hold i)
  else
    match check with
    | .error m => .next (s.refuse m)
    | .ok a => run a s.begin

/-- A host operation that always has a next state. -/
def accept {α : Type} (i : Instr) (check : Except Malformed α) (run : α → State → State)
    (s : State) : Host.Outcome State Fault Refusal :=
  acceptThen i check (fun a s => .next (run a s)) s

end Sys2Proof.Machine
end

