-- ==== Sys2Proof/Machine/Framer.lean ====
section
/-! DEFINITION. The Command Framer (40_command_framer.md): the five frames, writeConfig, readConfig,
setAddress. -/

namespace Sys2Proof.Machine

/-! ### The frames -/

/-- The write-config frame (30_encoding.md R93; step `WC.2` of 40_command_framer.md R120). -/
def writeConfigFrame (k : Nat) (data : List Byte) (s : State) : Res Unit :=
  (frame (s.params.wcByte k) data 0 false s).andThen fun _ s => .ok () s

/-- The read-config frame (30_encoding.md R94; step `RC.1` of 40_command_framer.md R121). -/
def readConfigFrame (s : State) : Res (List Byte) :=
  (frame s.params.opRC [] configLen false s).inside .rc1

/-- `writeTransmitPayload(P)` (40_command_framer.md R122). -/
def writeTransmitPayload (payload : List Byte) (s : State) : Res Unit :=
  ((frame s.params.opWTP payload 0 false s).inside .wtp1).andThen fun _ s => .ok () s

/-- `writeTransmitAddress(A)` (40_command_framer.md R123). -/
def writeTransmitAddress (address : List Byte) (s : State) : Res Unit :=
  ((frame s.params.opWTA address 0 false s).inside .wta1).andThen fun _ s => .ok () s

/-- `readReceivedPayload()`: the bytes read are returned; its one caller, the drain, keeps them in
`RXBUF` (40_command_framer.md R124; 10_state.md R36). -/
def readReceivedPayload (s : State) : Res (List Byte) :=
  (frame s.params.opRRP [] rxPayloadLen true s).inside .rrp1

/-- `WC`: the write-config frame, refused where it would run past offset 9 (30_encoding.md R93, R101;
20_memory.md R64). -/
def execWc (k : Nibble) (data : List Byte) (s : State) : Host.Outcome State Fault Refusal :=
  framerCall (checkConfigRange k.toNat data)
    (fun _ s => ((writeConfigFrame k.toNat data s).inside .wc2).andThen fun _ s => .ok .ok s) s

/-- Step `RC.1` and the return of its ten bytes (40_command_framer.md R121). -/
def readConfigSteps (s : State) : Res Reply :=
  (readConfigFrame s).andThen fun bytes s => .ok (.bytes bytes) s

/-- `RC`: the read-config frame, ten bytes (30_encoding.md R94); a fault where it would read a byte
that has no value (10_state.md R44; log 13). -/
def execRc (s : State) : Host.Outcome State Fault Refusal :=
  if s.configAnswered then framerCall (.ok ()) (fun _ s => readConfigSteps s) s
  else .fault .noChipValue

/-- `WTP`: the write-transmit-payload frame (30_encoding.md R95). -/
def execWtp (payload : List Byte) (s : State) : Host.Outcome State Fault Refusal :=
  framerCall (checkPayload s.params payload)
    (fun _ s => (writeTransmitPayload payload s).andThen fun _ s => .ok .ok s) s

/-- `WTA`: the write-transmit-address frame of the normalised address (30_encoding.md R96, R105). -/
def execWta (address : List Byte) (s : State) : Host.Outcome State Fault Refusal :=
  framerCall (normAddr address)
    (fun a4 s => (writeTransmitAddress a4 s).andThen fun _ s => .ok .ok s) s

/-- `RRP`: the read-received-payload frame, thirty-two bytes, returned to the caller (30_encoding.md
R97). -/
def execRrp (s : State) : Host.Outcome State Fault Refusal :=
  framerCall (.ok ())
    (fun _ s => (readReceivedPayload s).andThen fun bytes s => .ok (.bytes bytes) s) s

/-! ### writeConfig, readConfig, setAddress -/

/-- The closing line write of a configuration write: `Assert(PWR)` (60_exceptions.md R230). -/
def closePower : List (OutLine × Level) := [(.pwr, true)]

/-- Steps `WC.1` to `WC.4`: the frame inside a power cycle, and the mirror updated when all of it
succeeded (40_command_framer.md R120: "on outcome ok only"; log 10). -/
def writeConfigSteps (k : Nat) (bytes : List Byte) (s : State) : Res Unit :=
  (deassertLine .wc1 .pwr s).andThen fun _ s =>
  ((writeConfigFrame k bytes s).inside .wc2).andThen fun _ s =>
  (assertLine .wc4 .pwr s).andThen fun _ s =>
  .ok () { s with cfg := mirrorWrite s.cfg k bytes }

/-- `writeConfig(k, B)` (40_command_framer.md R120). -/
def execWriteConfig (k : Nat) (bytes : List Byte) (s : State) : Host.Outcome State Fault Refusal :=
  accept (.writeConfig k bytes) (checkWriteConfig k bytes s)
    (fun _ s => conclude (fun _ => closePower)
      ((writeConfigSteps k bytes s).andThen fun _ s => .ok .ok s)) s

/-- `readConfig()` (40_command_framer.md R121); a fault where it would read a byte that has no value,
which no initialised block does (10_state.md R44; log 13). -/
def execReadConfig (s : State) : Host.Outcome State Fault Refusal :=
  acceptThen .readConfig (checkInited s)
    (fun _ s =>
      if s.configAnswered then .next (conclude noClosing (readConfigSteps s))
      else .fault .noChipValue) s

/-- Steps `SA.1` and `SA.2`: store only, before initialisation; else the address-only configuration
write (40_command_framer.md R125). -/
def setAddressSteps (a4 : List Byte) (s : State) : Res Reply :=
  if s.inited then
    ((writeConfigSteps addrOffset a4 s).inside .sa2).andThen fun _ s => .ok .ok s
  else .ok .ok { s with cfg := mirrorWrite s.cfg addrOffset a4 }

/-- `setAddress(A)` (40_command_framer.md R125). -/
def execSetAddress (address : List Byte) (s : State) : Host.Outcome State Fault Refusal :=
  accept (.setAddress address) (normAddr address)
    (fun a4 s => conclude (fun _ => closePower) (setAddressSteps a4 s)) s

end Sys2Proof.Machine
end

