-- ==== Sys2Proof/Machine/ModeController.lean ====
section
/-! DEFINITION. The Mode Controller (41_mode_controller.md): init, powerUp, powerDown,
startReceiveMode, stopReceiveMode. -/

namespace Sys2Proof.Machine

/-- Steps `PU.1` and `PU.2` (41_mode_controller.md R153). -/
def powerUpSteps (s : State) : Res Unit :=
  (assertLine .pu1 .pwr s).andThen fun _ s =>
  (delay .pu2 .wake s).andThen fun _ s => .ok () s

/-- Steps `IN.1` to `IN.4`; the mirror is sent as it stands (41_mode_controller.md R152). -/
def initSteps (s : State) : Res Unit :=
  (halAction .in1 s).andThen fun _ s =>
  ((writeConfigSteps 0 s.cfg s).inside .in2).andThen fun _ s =>
  ((powerUpSteps s).inside .in3).andThen fun _ s =>
  .ok () { s with inited := true }

/-- The closing line writes of init: those of the configuration write for a failure in `IN.2`, none
for one in `IN.1` or `IN.3` (60_exceptions.md R230). -/
def initClosing : StepPath → List (OutLine × Level)
  | .in2 :: _ => closePower
  | _ => []

/-- `init()` (41_mode_controller.md R152). -/
def execInit (s : State) : Host.Outcome State Fault Refusal :=
  accept .init (checkNotInited s)
    (fun _ s => conclude initClosing ((initSteps s).andThen fun _ s => .ok .ok s)) s

/-- `powerUp()` (41_mode_controller.md R153). -/
def execPowerUp (s : State) : Host.Outcome State Fault Refusal :=
  accept .powerUp (checkInited s)
    (fun _ s => conclude noClosing ((powerUpSteps s).andThen fun _ s => .ok .ok s)) s

/-- `powerDown()` (41_mode_controller.md R154). -/
def execPowerDown (s : State) : Host.Outcome State Fault Refusal :=
  accept .powerDown (checkInited s)
    (fun _ s => conclude noClosing
      ((deassertLine .pd1 .pwr s).andThen fun _ s => .ok .ok s)) s

/-- Steps `ER.1` to `ER.5` (41_mode_controller.md R155). -/
def enterReceiveSteps (s : State) : Res Unit :=
  (deassertLine .er1 .txen s).andThen fun _ s =>
  (assertLine .er2 .pwr s).andThen fun _ s =>
  (assertLine .er3 .trig s).andThen fun _ s =>
  (delay .er4 .settle s).andThen fun _ s =>
  (halAction .er5 s).andThen fun _ s => .ok () { s with watch := true }

/-- `startReceiveMode()`, that is `enterReceive()` (41_mode_controller.md R155). -/
def execStartReceiveMode (s : State) : Host.Outcome State Fault Refusal :=
  accept .startReceiveMode (checkInited s)
    (fun _ s => conclude noClosing ((enterReceiveSteps s).andThen fun _ s => .ok .ok s)) s

/-- Steps `XR.1` and `XR.2` (41_mode_controller.md R156). -/
def exitReceiveSteps (s : State) : Res Unit :=
  (halAction .xr1 s).andThen fun _ s =>
  let s := { s with watch := false, edgePend := false }
  if s.params.exitRxToStandby then deassertLine .xr2 .trig s else .ok () s

/-- `stopReceiveMode()`, that is `exitReceive()` (41_mode_controller.md R156). -/
def execStopReceiveMode (s : State) : Host.Outcome State Fault Refusal :=
  accept .stopReceiveMode (checkInited s)
    (fun _ s => conclude noClosing ((exitReceiveSteps s).andThen fun _ s => .ok .ok s)) s

end Sys2Proof.Machine
end

