-- ==== Sys2Proof/Machine/Receive.lean ====
section
/-! DEFINITION. The Receive Pipeline (42_receive_pipeline.md): the drain, the dispatch, the registry
operations. -/

namespace Sys2Proof.Machine

/-! ### The registry -/

/-- What a request does to the registry outside a dispatch: attach appends, detach removes the first
equal entry (42_receive_pipeline.md R175, R176). -/
def registryAfter (reg : List ConsumerId) : RegistryRequest → List ConsumerId
  | .attach h => reg ++ [h]
  | .detach h => reg.erase h

/-- A request to change the registry: deferred while a dispatch runs, else applied at once
(42_receive_pipeline.md R175 to R177). -/
def State.request (q : RegistryRequest) (s : State) : State :=
  if s.dispatching then { s with deferq := s.deferq ++ [q] }
  else { s with reg := registryAfter s.reg q }

/-- A registry operation of the host: accepted at once while a dispatch runs, held while the block is
otherwise busy (60_exceptions.md R228 (a)); it has no check and cannot fail (R230). -/
def registryOperation (i : Instr) (q : RegistryRequest) (s : State) :
    Host.Outcome State Fault Refusal :=
  if s.busy && !s.dispatching then .next (s.hold i) else .next ((s.request q).reply .ok)

/-- `attachReceivedCallback(h)` (42_receive_pipeline.md R175). -/
def execAttachReceivedCallback (h : ConsumerId) (s : State) : Host.Outcome State Fault Refusal :=
  registryOperation (.attachReceivedCallback h) (.attach h) s

/-- `detachReceivedCallback(h)` (42_receive_pipeline.md R176). -/
def execDetachReceivedCallback (h : ConsumerId) (s : State) : Host.Outcome State Fault Refusal :=
  registryOperation (.detachReceivedCallback h) (.detach h) s

/-! ### The dispatch -/

/-- End of the drain: `RX.7` (42_receive_pipeline.md R172). -/
def drainEnd (s : State) : State := s.finish

/-- The drain reports an error on the fault port and ends (42_receive_pipeline.md R172, R179). -/
def drainError (e : Cause) (s : State) : State := drainEnd (s.emit (.f e))

/-- Step `DP.3`: the deferred requests are applied in arrival order, `DISPATCHING` falls
(42_receive_pipeline.md R174). -/
def applyDeferred (s : State) : State :=
  { s with reg := s.deferq.foldl registryAfter s.reg, deferq := [], dispatching := false }

/-- Steps `DP.3` and `DP.4`, then the end of the drain; `aborted` is the index of a consumer that
aborted (42_receive_pipeline.md R174, R178). -/
def dispatchEnd (aborted : Option Nat) (s : State) : State :=
  match aborted with
  | none => drainEnd (applyDeferred s)
  | some i => drainError (.handlerAbort i) (applyDeferred s)

/-- Where the delivery loop stands with index `i` next: at `DP.2` for an entry of the snapshot, at
`DP.3` when there is none left (42_receive_pipeline.md R174; 10_state.md R46 (3)). -/
def dispatchPosition (snapshot : List ConsumerId) (i : Nat) : Seq :=
  if i < snapshot.length then .delivering snapshot i else .applying none

/-- Step `DP.1`: the snapshot is taken, `DISPATCHING` rises, the delivery loop starts at index 0, or is
skipped for an empty snapshot (42_receive_pipeline.md R174; 10_state.md R46 (3)). -/
def dispatchStart (s : State) : State :=
  { s with dispatching := true, seq := dispatchPosition s.reg 0 }

/-- `Deliver(h, p)` and the consumer's answer: the delivery is an event, then the requests the
consumer issues while invoked are taken in order (00_scope.md R9; 42_receive_pipeline.md R177). DESIGN
CHOICE: the ok of such a request (00_scope.md R11) goes to the consumer and is not appended to
`replies`, which holds the host's results; the same request through the command port appends ok
(log 18). -/
def deliver (h : ConsumerId) (payload : List Byte) (s : State) : State :=
  s.here.requests.foldl (fun s q => s.request q) (s.advance.emit (.v h payload))

/-- Step `DP.2` at index `i` of the snapshot: one consumer is invoked; an abort or the end of the
snapshot ends the loop and leads to `DP.3` (42_receive_pipeline.md R174, R178; 10_state.md R46 (5)). The
payload is read from `RXBUF`, which has a value inside a drain only (10_state.md R44). -/
def dispatchStep (snapshot : List ConsumerId) (i : Nat) (s : State) :
    Host.Outcome State Fault Refusal :=
  match s.rxbuf with
  | none => .fault (.noTransientValue .rxbuf)
  | some payload =>
    match snapshot[i]? with
    | none => .next { s with seq := .applying none }
    | some h =>
      .next { deliver h payload s with
        seq := if s.here.abort then .applying (some i) else dispatchPosition snapshot (i + 1) }

/-! ### The drain -/

/-- The closing line write of a drain, from `RX.2` on: `Assert(TRIG)` (42_receive_pipeline.md
R179). -/
def closeTrigger : List (OutLine × Level) := [(.trig, true)]

/-- Steps `RX.2` to `RX.4`; the bytes read are `RXBUF` from here to the end of the drain
(42_receive_pipeline.md R172; 10_state.md R36). -/
def drainReadSteps (s : State) : Res Unit :=
  (deassertLine .rx2 .trig s).andThen fun _ s =>
  ((readReceivedPayload s).inside .rx3).andThen fun bytes s =>
  (assertLine .rx4 .trig { s with rxbuf := some bytes }).andThen fun _ s => .ok () s

/-- Steps `RX.2` to `RX.6`: read the packet, resume listening, start the dispatch; a failure is
cleaned up and reported, nothing is delivered (42_receive_pipeline.md R172, R179). -/
def drainRead (s : State) : State :=
  match drainReadSteps s with
  | .ok _ s => dispatchStart s
  | .failed path s => drainError (.halFailure path) (cleanup path closeTrigger s)

/-- Step `RX.1`, one poll (42_receive_pipeline.md R172; 60_exceptions.md R223). No line has been
written yet, so its errors need no cleanup (42_receive_pipeline.md R179). -/
def drainWait (polls : Nat) (s : State) : State :=
  match waitHigh .rx1 polls s with
  | .high s => drainRead s
  | .low s => { s with seq := .rxWait (polls + 1) }
  | .expired s => drainError (.timeout .rxDataReady) s
  | .failed path s => drainError (.halFailure path) s

/-- Step `RX.0`, then the first poll (42_receive_pipeline.md R171, R172). -/
def drainStart (s : State) : State :=
  drainWait 0 { s with edgePend := false, busy := true }

end Sys2Proof.Machine
end

