-- ==== Sys2Proof/Machine/Transmit.lean ====
section
/-! DEFINITION. The Transmit Pipeline (43_transmit_pipeline.md): sendPacket. -/

namespace Sys2Proof.Machine

/-- The closing line writes of sendPacket: those of `TX.6` (60_exceptions.md R230). -/
def closeTransmit : List (OutLine × Level) := [(.txen, false), (.trig, true)]

/-- Steps `TX.1a` to `TX.4c`: lines, payload frame, address frame, trigger pulse
(43_transmit_pipeline.md R200). -/
def transmitSteps (address payload : List Byte) (s : State) : Res Unit :=
  (assertLine .tx1a .pwr s).andThen fun _ s =>
  (deassertLine .tx1b .trig s).andThen fun _ s =>
  (assertLine .tx1c .txen s).andThen fun _ s =>
  (delay .tx1d .settle s).andThen fun _ s =>
  ((writeTransmitPayload payload s).inside .tx2).andThen fun _ s =>
  ((writeTransmitAddress address s).inside .tx3).andThen fun _ s =>
  (assertLine .tx4a .trig s).andThen fun _ s =>
  (delay .tx4b .settle s).andThen fun _ s =>
  (deassertLine .tx4c .trig s).andThen fun _ s => .ok () s

/-- Steps `TX.6a` and `TX.6b` (43_transmit_pipeline.md R200). -/
def transmitClose (s : State) : Res Unit :=
  (deassertLine .tx6a .txen s).andThen fun _ s =>
  (assertLine .tx6b .trig s).andThen fun _ s => .ok () s

/-- sendPacket ends after a failed primitive (43_transmit_pipeline.md R203). -/
def transmitFail (path : StepPath) (s : State) : State := s.raise closeTransmit path

/-- Step `TX.5`, one poll, and what follows it: the closing writes and ok, the wait, the closing
writes and the timeout, or the failure (43_transmit_pipeline.md R200, R202, R203). -/
def transmitWait (polls : Nat) (s : State) : State :=
  match waitHigh .tx5 polls s with
  | .high s =>
    match transmitClose s with
    | .ok _ s => s.ret .ok
    | .failed path s => transmitFail path s
  | .low s => { s with seq := .txWait (polls + 1) }
  | .expired s => (cleanupWrites closeTransmit s).ret (.error (.timeout .txDataReady))
  | .failed path s => transmitFail path s

/-- sendPacket from `TX.1a` to its end or to the first poll that reads 0. -/
def transmitRun (address payload : List Byte) (s : State) : State :=
  match transmitSteps address payload s with
  | .ok _ s => transmitWait 0 s
  | .failed path s => transmitFail path s

/-- sendPacket after its checks, the operands read back from `TXADDR` and `TXBUF`, which have a value
inside a sendPacket only (10_state.md R36, R44). -/
def transmitLatched (s : State) : Host.Outcome State Fault Refusal :=
  match s.txaddr, s.txbuf with
  | some address, some payload => .next (transmitRun address payload s)
  | none, _ => .fault (.noTransientValue .txaddr)
  | some _, none => .fault (.noTransientValue .txbuf)

/-- `sendPacket(A, P)` (43_transmit_pipeline.md R200, R201). -/
def execSendPacket (address payload : List Byte) (s : State) :
    Host.Outcome State Fault Refusal :=
  acceptThen (.sendPacket address payload) (checkSendPacket address payload s)
    (fun a4 s => transmitLatched { s with txaddr := some a4, txbuf := some payload }) s

end Sys2Proof.Machine
end

