-- ==== Sys2Proof/Machine/Unassigned.lean ====
section
/-! DEFINITION. The unassigned command codes (30_encoding.md R103). -/

namespace Sys2Proof.Machine

/-- A code without an operation: refused with `UnknownCommand`, nothing else happens; held like any
command while the block is busy (30_encoding.md R103; 60_exceptions.md R228; log 16). -/
def unknownCommand (i : Instr) (s : State) : Host.Outcome State Fault Refusal :=
  if s.busy then .next (s.hold i) else .next (s.refuse .unknownCommand)

/-- Code 0xB (30_encoding.md R103). -/
def execUnassignedB (s : State) : Host.Outcome State Fault Refusal :=
  unknownCommand .unassignedB s

/-- Codes 0xC to 0xF (30_encoding.md R103). -/
def execUnassignedCToF (x : BitVec 2) (s : State) : Host.Outcome State Fault Refusal :=
  unknownCommand (.unassignedCToF x) s

end Sys2Proof.Machine
end

