-- ==== Sys2Proof/Machine/Dispatch.lean ====
section
/-! DEFINITION. One arm for each instruction. -/

namespace Sys2Proof.Machine

def exec (i : Instr) (s : State) : Host.Outcome State Fault Refusal :=
  match i with
  | .wc k data => Sys2Proof.Machine.execWc k data s
  | .rc => Sys2Proof.Machine.execRc s
  | .wtp payload => Sys2Proof.Machine.execWtp payload s
  | .wta address => Sys2Proof.Machine.execWta address s
  | .rrp => Sys2Proof.Machine.execRrp s
  | .init => Sys2Proof.Machine.execInit s
  | .setAddress address => Sys2Proof.Machine.execSetAddress address s
  | .writeConfig offset bytes => Sys2Proof.Machine.execWriteConfig offset bytes s
  | .readConfig => Sys2Proof.Machine.execReadConfig s
  | .powerUp => Sys2Proof.Machine.execPowerUp s
  | .powerDown => Sys2Proof.Machine.execPowerDown s
  | .startReceiveMode => Sys2Proof.Machine.execStartReceiveMode s
  | .stopReceiveMode => Sys2Proof.Machine.execStopReceiveMode s
  | .sendPacket address payload => Sys2Proof.Machine.execSendPacket address payload s
  | .attachReceivedCallback handler => Sys2Proof.Machine.execAttachReceivedCallback handler s
  | .detachReceivedCallback handler => Sys2Proof.Machine.execDetachReceivedCallback handler s
  | .unassignedB => Sys2Proof.Machine.execUnassignedB s
  | .unassignedCToF x => Sys2Proof.Machine.execUnassignedCToF x s

end Sys2Proof.Machine
end

