-- ==== Sys2Proof/Machine/Sequencer.lean ====
section
/-! DEFINITION. What one step of the block does (60_exceptions.md R228): a call at the framer's
internal port, an operation that waits, the arbitration between a latched edge and a command, and how
an instruction comes to stand where the step takes it. -/

namespace Sys2Proof.Machine

/-- The host presents its next command if the port is free: one thread, one command at a time
(60_exceptions.md R228 (c); log 3). -/
def State.present (s : State) : State :=
  match s.port, s.host with
  | none, c :: rest => { s with port := c, host := rest }
  | none, [] => s
  | some _, _ => s

/-- Take the command from the port. -/
def State.takePort (s : State) : State := { s with port := none }

/-- The command is attach or detach, which a running dispatch accepts (60_exceptions.md R228 (a)). -/
def registryCommand (c : PortCommand) : Bool :=
  match decodeCommand c with
  | .attachReceivedCallback _ => true
  | .detachReceivedCallback _ => true
  | _ => false

/-- The idle block: a latched edge starts the drain, and only then a waiting command is accepted
(60_exceptions.md R228 (b); 42_receive_pipeline.md R171). -/
def arbitrate (s : State) : Host.Outcome State Fault Refusal :=
  if s.drainDue then .next (drainStart s)
  else
    match s.port with
    | none => .next s
    | some c => exec (decodeCommand c) s.takePort

/-- The dispatch goes on: attach or detach at the port is accepted first, else its next step is taken,
a delivery or `DP.3` (60_exceptions.md R228 (a); log 17). -/
def continueDispatch (next : State → Host.Outcome State Fault Refusal) (s : State) :
    Host.Outcome State Fault Refusal :=
  match s.port with
  | some c => if registryCommand c then exec (decodeCommand c) s.takePort else next s
  | none => next s

/-- The busy block goes on where the sequencer stands; a command at the port is held
(60_exceptions.md R228 (a)). A busy block without a position does nothing (log 22). -/
def continueOperation (s : State) : Host.Outcome State Fault Refusal :=
  match s.seq with
  | .idle => .next s
  | .txWait polls => .next (transmitWait polls s)
  | .rxWait polls => .next (drainWait polls s)
  | .delivering snapshot i => continueDispatch (dispatchStep snapshot i) s
  | .applying aborted => continueDispatch (fun s => .next (dispatchEnd aborted s)) s

/-- A call at the Command Framer's internal port: the frame's bytes are decoded and the frame runs
(30_encoding.md R104; log 4). -/
def runFramerCall (bytes : List Byte) (s : State) : Host.Outcome State Fault Refusal :=
  match decodeFrame s.params bytes with
  | .ok i => exec i s
  | .error e => .refused (.undecodable e)

/-- The port and the host's part of a step, then the busy or the idle block. The idle block takes one
moment of the environment before it decides (42_receive_pipeline.md R170; log 11). -/
def runPresented (s : State) : Host.Outcome State Fault Refusal :=
  if s.busy then continueOperation s else arbitrate s.advance

/-- One step of the block. -/
def sequencerStep (s : State) : Host.Outcome State Fault Refusal :=
  match s.framer with
  | some bytes => runFramerCall bytes { s with framer := none }
  | none => runPresented s.present

/-- The state in which the next step runs a given encoded instruction: a frame stands at the framer's
internal port; a command stands at the port of an idle block with no edge latched and none coming
before it (log 3, log 4). -/
def State.placeCode (c : Code) (s : State) : State :=
  match c with
  | .frame bytes => { s with framer := some bytes }
  | .command c =>
    { s with
      framer := none, port := some c, busy := false, seq := .idle, edgePend := false,
      env := .quiet :: s.env }

end Sys2Proof.Machine
end

