-- ==== Sys2Proof/Machine/Step.lean ====
section
/-! DEFINITION. The step of the machine, and the placing of a table word where it is taken. -/

namespace Sys2Proof.Machine

/-- One step (60_exceptions.md R228). -/
def step (s : State) : Host.Outcome State Fault Refusal := sequencerStep s

/-- `s` with the instruction of a table word where the next step takes it: a bus instruction byte at
the Command Framer's internal port, a command code at the command port (log 3, log 4, log 5). -/
def State.withFetchWord (s : State) (nbits w : Nat) : State :=
  s.placeCode (tableCode s.params nbits w)

end Sys2Proof.Machine
end

