-- ==== Sys2Proof/Safety.lean ====
section
/-! DEFINITION. The terms of the statements: traces read without the discarded inbound bytes, the
bytes of a frame as events, what a run without failures is, the invariant of 10_state.md R42 with what
the waiting block keeps, and the trace checker of 95_test_vectors.md 2.5. -/

namespace Sys2Proof.Machine

/-! ### Traces -/

/-- An event without the inbound byte of a transfer: `X(o)` for `X(o, i)`. -/
def Event.outward : Event → Event
  | .x o _ => .x o 0
  | e => e

/-- A trace without inbound bytes. -/
def outward (t : List Event) : List Event := t.map Event.outward

/-- The events of a write frame, without inbound bytes (40_command_framer.md R126). -/
def writeFrameEvents (instr : Byte) (data : List Byte) : List Event :=
  [.w .csn false, .x instr 0] ++ data.map (fun b => .x b 0) ++ [.w .csn true]

/-- The events of a read frame that is not spaced, in which `i` and then `data` come in
(40_command_framer.md R126). -/
def readFrameEvents (instr i : Byte) (data : List Byte) : List Event :=
  [.w .csn false, .x instr i] ++ data.map (fun b => .x 0 b) ++ [.w .csn true]

/-- The events of a spaced read frame: every transfer is followed by `D(T_BYTE)`
(40_command_framer.md R124). -/
def spacedFrameEvents (instr i : Byte) (data : List Byte) : List Event :=
  [.w .csn false, .x instr i, .d .byte] ++ data.flatMap (fun b => [.x 0 b, .d .byte]) ++
    [.w .csn true]

/-- The events of a frame, without inbound bytes: `F.1`, the instruction byte, the data bytes sent, the data
bytes read, each transfer of a spaced frame's followed by its wait, `F.5` (40_command_framer.md R126). -/
def frameEvents (instr : Byte) (out : List Byte) (nIn : Nat) (spaced : Bool) : List Event :=
  [.w .csn false, .x instr 0] ++ (if spaced then [.d .byte] else []) ++ out.map (fun b => .x b 0) ++
    (List.replicate nIn (Event.x 0 0 :: if spaced then [.d .byte] else [])).flatten ++
    [.w .csn true]

/-- The failed form of a primitive's event; no other event has one (60_exceptions.md R224). -/
def Event.failed : Event → Event
  | .w line level => .wFailed line level
  | .r line _ => .rFailed line
  | .x o _ => .xFailed o
  | .d time => .dFailed time
  | e => e

/-- The events of a configuration write, without inbound bytes (40_command_framer.md R120). -/
def configWriteEvents (p : Params) (k : Nat) (data : List Byte) : List Event :=
  [.w .pwr false] ++ writeFrameEvents (p.wcByte k) data ++ [.w .pwr true]

/-- The events of sendPacket before its wait, without inbound bytes (43_transmit_pipeline.md R200). -/
def transmitEvents (p : Params) (address payload : List Byte) : List Event :=
  [.w .pwr true, .w .trig false, .w .txen true, .d .settle] ++ writeFrameEvents p.opWTP payload ++
    writeFrameEvents p.opWTA address ++ [.w .trig true, .d .settle, .w .trig false]

/-! ### The environment's moments -/

/-- `data` are the bytes the environment answers, where its listed moments give one: data byte `j` is
clocked in at the micro-step `start + stride * j` (20_memory.md R62, R72). -/
def ClockedIn (s : State) (start stride : Nat) (data : List Byte) : Prop :=
  ∀ (j : Nat) (m : Moment) (b : Byte), j < data.length → s.env[start + stride * j]? = some m →
    m.inbound = some b → data[j]? = some b

/-- `data` are the bytes a read-config frame that starts here reads: the environment's own, else those
`CONFIG` holds (20_memory.md R71; 40_command_framer.md R126). -/
def ReadFromConfig (s : State) (data : List Byte) : Prop :=
  data.length = configLen ∧ ∀ (j : Nat) (m : Moment), j < configLen → s.env[2 + j]? = some m →
    data[j]? = m.inbound.or (Memory.read s.chip.config j)

/-- Each byte of a read-config frame from here that a listed moment leaves to the reference environment
has been written (10_state.md R44; log 13). -/
def ConfigHasValues (s : State) : Prop :=
  ∀ (j : Nat) (m : Moment), j < configLen → s.env[2 + j]? = some m → m.inbound = none →
    (Memory.read s.chip.config j).isSome = true

/-- The next `n` moments are listed and none of them fails a primitive (60_exceptions.md R224). -/
def NoFailureWithin (n : Nat) (s : State) : Prop :=
  n ≤ s.env.length ∧ ∀ m ∈ s.env.take n, m.fail = false

/-- `AM` rises before one of the next `n` micro-steps (42_receive_pipeline.md R170). -/
def EdgeWithin (n : Nat) (s : State) : Prop := ∃ k, k < n ∧ (s.momentAt k).edge = true

/-- The state a sequence of primitives ends in. -/
def Res.state {α : Type} : Res α → State
  | .ok _ s => s
  | .failed _ s => s

/-! ### What an operation leaves alone -/

/-- `t` has every register, flag, list and buffer of `s`, the edge latch but for an `AM` edge that
came meanwhile, and the same command, call and host waiting. The lines, the trace, the replies, the
reference environment and the answers used may differ. -/
structure SameRegisters (s t : State) : Prop where
  params : t.params = s.params
  cfg : t.cfg = s.cfg
  inited : t.inited = s.inited
  watch : t.watch = s.watch
  edgeKept : s.edgePend = true → t.edgePend = true
  edgeWatched : t.edgePend = true → s.edgePend = true ∨ s.watch = true
  busy : t.busy = s.busy
  seq : t.seq = s.seq
  reg : t.reg = s.reg
  dispatching : t.dispatching = s.dispatching
  deferq : t.deferq = s.deferq
  rxbuf : t.rxbuf = s.rxbuf
  txbuf : t.txbuf = s.txbuf
  txaddr : t.txaddr = s.txaddr
  port : t.port = s.port
  framer : t.framer = s.framer
  host : t.host = s.host

/-- The bytes of the four chip-side spaces are those of `s` (log 12). -/
structure SameSpaces (s t : State) : Prop where
  config : t.chip.config = s.chip.config
  txPayload : t.chip.txPayload = s.chip.txPayload
  txAddress : t.chip.txAddress = s.chip.txAddress
  rxPayload : t.chip.rxPayload = s.chip.rxPayload

/-- A host operation that began at `s` and failed at `t` has ended at `u` by taking the error: first
`CSN` is deasserted if the failure lay in a frame, then the `closing` line writes, in order, and nothing
else; the error is returned, the block is idle, the registers stand, the command at the port and a latched
edge too (60_exceptions.md R228, R230, R231; that the mirror stands also where only `WC.4` failed: log
10). -/
structure ClosedBy (closing : List (OutLine × Level)) (path : StepPath) (s t u : State) : Prop where
  trace : u.trace = t.trace ++
    ((if frameOpen path then [(OutLine.csn, true)] else []) ++ closing).map fun w => Event.w w.1 w.2
  replies : u.replies = s.replies ++ [.error (.halFailure path)]
  same : SameRegisters s.finish u

/-- A frame presented alone at `s` failed at `t` and has ended at `u`: `CSN` is deasserted once and nothing
else is sent or written, the error is returned, the registers stand (40_command_framer.md R127; log 14). -/
structure CallFailed (path : StepPath) (s t u : State) : Prop where
  trace : u.trace = t.trace ++ [.w .csn true]
  lines : u.lines = { s.lines with csn := true }
  replies : u.replies = s.replies ++ [.error (.halFailure path)]
  same : SameRegisters s u

/-- The events of the line writes of a cleanup that starts at `s`: each is attempted, in order, and the
environment fails it or not (60_exceptions.md R224; log 24). -/
def cleanupEvents (s : State) (writes : List (OutLine × Level)) : List Event :=
  writes.mapIdx fun k w => if s.failsAt k then .wFailed w.1 w.2 else .w w.1 w.2

/-- The lines after the line writes of a cleanup that starts at `s`: those that the environment does not
fail have driven their line, in order (60_exceptions.md R224). -/
def cleanupLines (s : State) (writes : List (OutLine × Level)) : Lines :=
  (writes.zipIdx.filter fun w => !s.failsAt w.2).foldl (fun ls w => ls.set w.1.1 w.1.2) s.lines

/-- The drain of a block `s` whose poll read 1 failed at `t`, and has ended at `u`: `CSN` is deasserted if
the failure lay in a frame, `TRIG` asserted, the failure reported, the block is idle, the registers stand
(42_receive_pipeline.md R179; 60_exceptions.md R230, R231). -/
structure DrainFailed (path : StepPath) (s t u : State) : Prop where
  trace : u.trace = t.trace ++ (if frameOpen path then [.w .csn true] else []) ++
    [.w .trig true, .f (.halFailure path)]
  lines : u.lines = { s.lines with csn := t.lines.csn || frameOpen path, trig := true }
  released : s.lines.csn = true → u.lines.csn = true
  replies : u.replies = s.replies
  same : SameRegisters s.finish u

/-- The drain of a block `s`, `pre` moments before the poll that read 1, has read its packet and
resumed listening at `t`: the trigger is dropped, thirty-two spaced bytes are clocked in, the trigger is
asserted again; the dispatch of these bytes has started over a snapshot of the registry, at its first
entry, or at `DP.3` if there is none (42_receive_pipeline.md R172, R173, R174; the chip's packet buffer:
20_memory.md R67, log 12). -/
def PacketRead (pre : Nat) (s t : State) : Prop :=
  ∃ i data, data.length = rxPayloadLen ∧ ClockedIn s (pre + 5) 2 data ∧
    t.trace = s.trace ++ [.r .dr true, .w .trig false] ++
      spacedFrameEvents s.params.opRRP i data ++ [.w .trig true] ∧
    t.lines = { s.lines with csn := true, trig := true } ∧ t.replies = s.replies ∧
    SameRegisters
      { s with
        busy := true, dispatching := true, rxbuf := some data
        seq := if s.reg = [] then .applying none else .delivering s.reg 0 } t ∧
    t.chip.config = s.chip.config ∧ t.chip.rxPayload = [] ∧
    (s.lines.txen = false →
      t.chip.txPayload = s.chip.txPayload ∧ t.chip.txAddress = s.chip.txAddress)

/-- The drain of a block `s` has given up at `t` after `polls` polls that read 0: no line is written, the
timeout is reported, the block is idle, the registers stand, the command at the port and a latched edge
too (60_exceptions.md R223, R228, R231; 42_receive_pipeline.md R172). -/
structure TimedOut (polls : Nat) (s t : State) : Prop where
  trace : t.trace =
    s.trace ++ List.replicate polls (.r .dr false) ++ [.f (.timeout .rxDataReady)]
  same : SameRegisters s.finish t
  lines : t.lines = s.lines
  replies : t.replies = s.replies
  chip : t.chip = s.chip

/-- How sendPacket goes wrong from a poll of `TX.5` on with answers `moments`: the events from that poll
to the end of the cleanup, none of whose writes fails, and the step that failed (43_transmit_pipeline.md
R200, R203; 60_exceptions.md R230). -/
inductive ClosingFailure : List Moment → List Event → StepLabel → Prop where
  /-- The poll fails. -/
  | poll (m0 m1 m2 : Moment) : m0.fail = true → m1.fail = false → m2.fail = false →
      ClosingFailure [m0, m1, m2] [.rFailed .dr, .w .txen false, .w .trig true] .tx5
  /-- The poll reads 1, `TX.6a` fails. -/
  | first (m0 m1 m2 m3 : Moment) : m0.fail = false → m0.level = true → m1.fail = true →
      m2.fail = false → m3.fail = false →
      ClosingFailure [m0, m1, m2, m3]
        [.r .dr true, .wFailed .txen false, .w .txen false, .w .trig true] .tx6a
  /-- The poll reads 1, `TX.6b` fails. -/
  | second (m0 m1 m2 m3 m4 : Moment) : m0.fail = false → m0.level = true → m1.fail = false →
      m2.fail = true → m3.fail = false → m4.fail = false →
      ClosingFailure [m0, m1, m2, m3, m4]
        [.r .dr true, .w .txen false, .wFailed .trig true, .w .txen false, .w .trig true] .tx6b

/-- `after` reads as `before` but for `bytes` at the consecutive offsets from `k` on. -/
def WrittenAt (before : Memory) (k : Nat) (bytes : List Byte) (after : Memory) : Prop :=
  ∀ a, Memory.read after a =
    if k ≤ a ∧ a < k + bytes.length then bytes[a - k]? else Memory.read before a

/-- An idle block: not busy, nowhere in an operation, no dispatch, no transient value (10_state.md
R36, R42). -/
structure Idle (s : State) : Prop where
  busy : s.busy = false
  seq : s.seq = .idle
  dispatching : s.dispatching = false
  deferq : s.deferq = []
  rxbuf : s.rxbuf = none
  txbuf : s.txbuf = none
  txaddr : s.txaddr = none

/-- The dispatch that stood at `DP.3` at `s` has ended at `t`: the deferred requests are applied to the
registry in their order, the index of an abort is reported, the block is idle (42_receive_pipeline.md
R174, R177, R178). -/
structure DispatchEnded (aborted : Option Nat) (s t : State) : Prop where
  reg : t.reg = s.deferq.foldl registryAfter s.reg
  trace : t.trace =
    s.trace ++ match aborted with
      | none => []
      | some i => [.f (.handlerAbort i)]
  idle : Idle t
  lines : t.lines = s.lines
  cfg : t.cfg = s.cfg
  inited : t.inited = s.inited
  watch : t.watch = s.watch
  edgePend : t.edgePend = s.edgePend
  replies : t.replies = s.replies
  chip : t.chip = s.chip

/-- A block that may run any operation: constructed with a valid record, initialised, idle, its mirror
whole, on an access layer that does not fail. -/
structure Ready (s : State) : Prop where
  idle : Idle s
  inited : s.inited = true
  valid : s.params.valid = true
  infallible : s.params.halFallible = false
  cfgLength : s.cfg.length = configLen

/-- `after` is the mirror `before` but for `bytes` at the offsets from `k` on. -/
def MirrorWrittenAt (before : List Byte) (k : Nat) (bytes after : List Byte) : Prop :=
  after.length = before.length ∧
    ∀ j, after[j]? = if k ≤ j ∧ j < k + bytes.length then bytes[j - k]? else before[j]?

/-- `n` steps, stopping at a fault or a refusal. -/
def run : Nat → State → Host.Outcome State Fault Refusal
  | 0, s => .next s
  | n + 1, s =>
    match step s with
    | .next t => run n t
    | .fault r => .fault r
    | .refused r => .refused r

/-! ### The invariant -/

/-- What holds where the sequencer stands: idle when `BUSY = 0` (10_state.md R42 (f), (g)), and in
each waiting position what the rest of the operation relies on. -/
def SeqOk (s : State) : Prop :=
  match s.seq with
  | .idle => Idle s
  | .txWait _ =>
    s.busy = true ∧ s.dispatching = false ∧ s.deferq = [] ∧ s.txbuf.isSome ∧ s.txaddr.isSome
  | .rxWait _ => s.busy = true ∧ s.dispatching = false ∧ s.deferq = []
  | .delivering snapshot i =>
    s.busy = true ∧ s.dispatching = true ∧ i < snapshot.length ∧
      ∃ p, s.rxbuf = some p ∧ p.length = rxPayloadLen
  | .applying _ =>
    s.busy = true ∧ s.dispatching = true ∧ ∃ p, s.rxbuf = some p ∧ p.length = rxPayloadLen

/-- The invariant of the registers and flags: the record keeps its constraints (00_scope.md R6), the
mirror has ten bytes (10_state.md R42 (d)), the sequencer position fits the flags (R42 (f), (g)), a
latched edge implies an armed watch (42_receive_pipeline.md R171), no call stands at the framer's
internal port (log 4), the chip-side spaces are canonical, and once the block is initialised the
reference environment holds a value for every byte of `CONFIG` (41_mode_controller.md R152;
10_state.md R44; log 12). -/
structure RegistersOk (s : State) : Prop where
  valid : s.params.valid = true
  cfgLength : s.cfg.length = configLen
  seqOk : SeqOk s
  edgeWatched : s.edgePend = true → s.watch = true
  framerFree : s.framer = none
  chipWf : s.chip.wf = true
  configHeld : s.inited = true → ∀ j, j < configLen → (Memory.read s.chip.config j).isSome = true

/-- Chip-select released at every boundary between two steps, transmit-enable low except in
sendPacket (10_state.md R42 (a), (h); 41_mode_controller.md R158), and the levels sendPacket waits
with (43_transmit_pipeline.md R202). -/
structure LinesOk (s : State) : Prop where
  csn : s.lines.csn = true
  txen : (∀ n, s.seq ≠ .txWait n) → s.lines.txen = false
  txLevels : ∀ n, s.seq = .txWait n → s.lines.txen = true ∧ s.lines.trig = false

/-! ### The trace checker -/

/-- The kind of a frame by its instruction byte, one of the fifteen the block emits (30_encoding.md
R93 to R97, R101). -/
inductive FrameKind where
  | wc (k : Nat)
  | rc
  | wtp
  | wta
  | rrp
deriving DecidableEq, Repr

/-- Read an instruction byte of a trace; `none` for a byte the block never emits (30_encoding.md
R101). -/
def frameKind (p : Params) (o : Byte) : Option FrameKind :=
  if o = p.opRC then some .rc
  else if o = p.opWTP then some .wtp
  else if o = p.opWTA then some .wta
  else if o = p.opRRP then some .rrp
  else if highNibble o = highNibble p.opWC ∧ (startOffset o).toNat ≤ configLen then
    some (.wc (startOffset o).toNat)
  else none

/-- The number of data bytes a frame may end with (30_encoding.md R100). -/
def FrameKind.lengthOk (p : Params) (n : Nat) : FrameKind → Bool
  | .wc k => decide (k + n ≤ configLen)
  | .rc => n == configLen
  | .wtp => decide (n ≤ p.txPayloadMax)
  | .wta => n == addrLen
  | .rrp => n == rxPayloadLen

/-- The outbound data byte is allowed: zero in a read frame (20_memory.md R62). -/
def FrameKind.dataOk (o : Byte) : FrameKind → Bool
  | .rc => o == 0
  | .rrp => o == 0
  | .wc _ => true
  | .wtp => true
  | .wta => true

/-- Where a trace stands with respect to frames. -/
inductive FramePos where
  /-- Chip-select released. -/
  | outside
  /-- Chip-select asserted, no transfer yet. -/
  | opened
  /-- In a frame, `count` data bytes so far; `due`: the next event must be `D(T_BYTE)`. -/
  | inside (kind : FrameKind) (count : Nat) (due : Bool)
deriving DecidableEq, Repr

/-- One event between frames: chip-select may only be asserted, no transfer, no `D(T_BYTE)`, no
failure, no poll but of `DR` (10_state.md R42 (c); 42_receive_pipeline.md R172). -/
def checkOutside : Event → Option FramePos
  | .w l v => if l ≠ .csn then some .outside else if v then none else some .opened
  | .r l _ => if l = .dr then some .outside else none
  | .d t => if t = .byte then none else some .outside
  | .v _ _ => some .outside
  | .f _ => some .outside
  | _ => none

/-- The event after chip-select is asserted: the transfer of an instruction byte the block may emit
(30_encoding.md R91, R101). -/
def checkOpened (p : Params) : Event → Option FramePos
  | .x o _ => (frameKind p o).map fun k => .inside k 0 (k == .rrp)
  | _ => none

/-- One event after the instruction byte: a data transfer, its `D(T_BYTE)` in a
read-received-payload frame and no other, or chip-select deasserted once the count of data bytes fits
the frame (30_encoding.md R100; 40_command_framer.md R126, R128; 10_state.md R42 (b), (e)). -/
def checkInside (p : Params) (k : FrameKind) (n : Nat) (due : Bool) : Event → Option FramePos
  | .x o _ => if !due && k.dataOk o then some (.inside k (n + 1) (k == .rrp)) else none
  | .d t => if due && t == .byte then some (.inside k n false) else none
  | .w l v => if !due && l == .csn && v && k.lengthOk p n then some .outside else none
  | _ => none

/-- One event of a trace without failures. -/
def checkEvent (p : Params) (pos : FramePos) (e : Event) : Option FramePos :=
  match pos with
  | .outside => checkOutside e
  | .opened => checkOpened p e
  | .inside k n due => checkInside p k n due e

/-- Check the events of a trace from a position on. -/
def checkEvents (p : Params) : FramePos → List Event → Option FramePos
  | pos, [] => some pos
  | pos, e :: es =>
    match checkEvent p pos e with
    | none => none
    | some pos' => checkEvents p pos' es

/-- The trace is well framed, and no frame is open at its end. -/
def WellFramed (s : State) : Prop := checkEvents s.params .outside s.trace = some .outside

end Sys2Proof.Machine
end

