-- ==== Sys2Proof/Certificates/Slice0/Obligations.lean ====
section
/-! DEFINITION. The statements for the provers. -/

open Sys2Proof Sys2Proof.Machine

/-! ### Encoding -/

/-- Words written out from 30_encoding.md R93 to R97, R102, R103 decode to their instructions. The
numeric opcodes are the spec's defaults (log 8), the operand zeros log 5 and log 6. -/
def Obligations.WrittenWordsDecode : Prop :=
  decodeTableWord 8 0b00000101 = some (.wc 5 []) ∧ decodeTableWord 8 0b00010000 = some .rc ∧
  decodeTableWord 8 0b00100000 = some (.wtp []) ∧
  decodeTableWord 8 0b00100010 = some (.wta [0, 0, 0, 0]) ∧
  decodeTableWord 8 0b00100100 = some .rrp ∧ decodeTableWord 8 0b00100001 = none ∧
  decodeTableWord 4 0b0000 = some .init ∧
  decodeTableWord 4 0b0010 = some (.writeConfig 0 []) ∧
  decodeTableWord 4 0b0101 = some .powerDown ∧
  decodeTableWord 4 0b1000 = some (.sendPacket [0, 0, 0, 0] []) ∧
  decodeTableWord 4 0b1010 = some (.detachReceivedCallback 0) ∧
  decodeTableWord 4 0b1101 = some (.unassignedCToF 0b01)

/-- Decode and encode agree on every well-formed instruction, for every record that keeps
00_scope.md R6 (30_encoding.md R92 to R97, R102). -/
def Obligations.DecodeOfEncodeIsTheInstruction : Prop :=
  ∀ (p : Params) (i : Instr), p.valid = true → i.wellFormed p = true →
    decode p (encode p i) = .ok i

/-- The bytes of a frame that decodes are the encoding of what it decodes to: no bit of an instruction
byte is dropped (30_encoding.md R92, R93). -/
def Obligations.EncodeOfDecodedFrameIsTheFrame : Prop :=
  ∀ (p : Params) (bytes : List Byte) (i : Instr), p.valid = true → decodeFrame p bytes = .ok i →
    encode p i = .frame bytes

/-- The write-config instruction byte is `OP_WC | (k & 0x0F)`; for an accepted call the mask changes
nothing, the byte decodes back to `k`, and a call with `k >= 16` is refused (30_encoding.md R99). -/
def Obligations.ConfigInstructionByteIsBitwise : Prop :=
  (∀ (p : Params) (k : Nat), p.wcByte k = p.opWC ||| (BitVec.ofNat 8 k &&& 0x0F)) ∧
  (∀ (k : Nat) (bytes : List Byte), k + bytes.length ≤ 10 →
    BitVec.ofNat 8 k &&& 0x0F = BitVec.ofNat 8 k) ∧
  (∀ (p : Params) (k : Nat), p.valid = true → k ≤ 10 → startOffset (p.wcByte k) = BitVec.ofNat 4 k) ∧
  ∀ (s : State) (k : Nat) (bytes : List Byte), s.busy = false → s.inited = true → 16 ≤ k →
    exec (.writeConfig k bytes) s = .next (s.refuse .badConfigRange)

/-! ### Construction and reset -/

/-- Construction succeeds exactly for a record that keeps the constraints of 00_scope.md R6. -/
def Obligations.ConstructionChecksTheRecord : Prop :=
  ∀ p : Params, (State.construct p = .next (.resetWith p) ∨
      State.construct p = .refused .badParameters) ∧
    (State.construct p = .next (.resetWith p) ↔
      p.opWC &&& 0x0F = 0 ∧ p.cfgDefault.length = 10 ∧
      (∀ j, 5 ≤ j → j < 9 → p.cfgDefault[j]? = some 0) ∧ p.spinLimit ≠ some 0 ∧
      (((List.range 16).map fun k => p.opWC ||| BitVec.ofNat 8 k) ++
        [p.opRC, p.opWTP, p.opWTA, p.opRRP]).Nodup)

/-- The reset values (10_state.md R43), for every record that construction accepts; no event. -/
def Obligations.ResetValues : Prop :=
  ∀ (p : Params) (s : State), State.construct p = .next s →
    s.lines = { pwr := false, csn := true, txen := false, trig := false } ∧
    s.mode = .poweredDown ∧ s.cfg = p.cfgDefault ∧ s.addr = [0, 0, 0, 0] ∧ s.inited = false ∧
    s.watch = false ∧ s.edgePend = false ∧ s.busy = false ∧ s.seq = .idle ∧ s.reg = [] ∧
    s.dispatching = false ∧ s.deferq = [] ∧ s.rxbuf = none ∧ s.txbuf = none ∧ s.txaddr = none ∧
    s.trace = []

/-- The state after reset meets the invariants that the steps keep, for every record that construction
accepts; `State.reset` is the one of the default record. -/
def Obligations.ResetMeetsInvariants : Prop :=
  (∀ (p : Params) (s : State), State.construct p = .next s →
    RegistersOk s ∧ LinesOk s ∧ WellFramed s) ∧
  State.construct .initial = .next State.reset

/-! ### Flags, operands, codes -/

/-- `MODE` by the table of 10_state.md R37. -/
def Obligations.ModeIsTheTableOfLines : Prop :=
  ∀ s : State, s.mode =
    if s.lines.pwr = false then .poweredDown
    else if s.lines.txen = true then .transmitting
    else if s.lines.trig = true then .receiving else .standby

/-- A rising edge of `AM` sets `EDGE_PEND` if `WATCH = 1` and does nothing else; it is taken before
every micro-step, and its absence changes nothing; so a primitive of a running operation, failed or
not, and a delivery latch the edge that their moment carries (42_receive_pipeline.md R170, R180;
60_exceptions.md R228 (d); the instants of an edge: log 11). -/
def Obligations.AddressMatchEdgeIsLatchedWhenWatched : Prop :=
  (∀ s : State, s.latchEdge true = if s.watch = true then { s with edgePend := true } else s) ∧
  (∀ s : State, s.latchEdge false = s) ∧
  ∀ s : State, s.advance.edgePend = (s.latchEdge s.here.edge).edgePend ∧
    s.advance.trace = s.trace ∧ s.advance.lines = s.lines ∧ s.advance.chip = s.chip ∧
    s.advance.replies = s.replies ∧ SameRegisters s s.advance ∧
    (∀ label l v, (pinWrite label l v s).state.edgePend =
      (s.edgePend || (s.watch && s.here.edge))) ∧
    (∀ label l, (pinRead label l s).state.edgePend =
      (s.edgePend || (s.watch && s.here.edge))) ∧
    (∀ label o, (xfer label o s).state.edgePend =
      (s.edgePend || (s.watch && s.here.edge))) ∧
    (∀ label d, (delay label d s).state.edgePend =
      (s.edgePend || (s.watch && s.here.edge))) ∧
    (∀ label, (halAction label s).state.edgePend =
      (s.edgePend || (s.watch && s.here.edge))) ∧
    (∀ write, (cleanupWrite s write).edgePend = (s.edgePend || (s.watch && s.here.edge))) ∧
    ∀ h payload, (deliver h payload s).edgePend = (s.edgePend || (s.watch && s.here.edge))

/-- No edge is lost while the block is busy: if `AM` rises, under `WATCH = 1`, before any of the
micro-steps that an instruction other than stopReceiveMode, a step of the busy block or a starting
drain takes, the edge is latched at its end; and an edge latched before such an instruction or before a
step of the busy block is still latched after it, whatever the step does (42_receive_pipeline.md R170,
R180; 43_transmit_pipeline.md R204; 60_exceptions.md R228 (d); the instants of an edge: log 11). -/
def Obligations.EdgesDuringAnOperationAreLatched : Prop :=
  (∀ (i : Instr) (s t : State), exec i s = .next t → i ≠ .stopReceiveMode →
    (s.edgePend = true ∨ (s.watch = true ∧ EdgeWithin (t.tick - s.tick) s)) →
    t.edgePend = true) ∧
  (∀ s t : State, step s = .next t → s.busy = true →
    (s.edgePend = true ∨ (s.watch = true ∧ EdgeWithin (t.tick - s.tick) s)) →
    t.edgePend = true) ∧
  ∀ s : State, s.watch = true → EdgeWithin ((drainStart s).tick - s.tick) s →
    (drainStart s).edgePend = true

/-- `NormAddr` (30_encoding.md R105), and its use by setAddress, by the write-transmit-address frame
and by sendPacket: a longer address acts as its first four bytes, a shorter one is refused. That the
frame presented alone normalises its operand itself, in any state and without an `INITED` check, is the
model's reading (log 14): R123 has its caller do so, and R106 puts the `INITED` check first. -/
def Obligations.AddressesAreClampedOrRefused : Prop :=
  (∀ a : List Byte, a.length = 4 → normAddr a = .ok a) ∧
  (∀ a : List Byte, 4 < a.length → normAddr a = .ok (a.take 4)) ∧
  (∀ a : List Byte, a.length < 4 → normAddr a = .error .badAddressLength) ∧
  (∀ (s : State) (a : List Byte), s.busy = false → a.length < 4 →
    exec (.setAddress a) s = .next (s.refuse .badAddressLength)) ∧
  (∀ (s : State) (a payload : List Byte), s.busy = false → s.inited = true → a.length < 4 →
    exec (.sendPacket a payload) s = .next (s.refuse .badAddressLength)) ∧
  (∀ (s : State) (a : List Byte), a.length < 4 →
    exec (.wta a) s = .next (s.refuse .badAddressLength)) ∧
  ∀ (s : State) (a payload : List Byte), s.busy = false → 4 ≤ a.length →
    exec (.setAddress a) s = exec (.setAddress (a.take 4)) s ∧
    exec (.sendPacket a payload) s = exec (.sendPacket (a.take 4) payload) s ∧
    exec (.wta a) s = exec (.wta (a.take 4)) s

/-- The mirror update takes each byte to its offset and leaves every other byte
(40_command_framer.md R120, step WC.3). -/
def Obligations.MirrorUpdateWritesItsRange : Prop :=
  ∀ (cfg : List Byte) (k : Nat) (bytes : List Byte), k + bytes.length ≤ cfg.length →
    MirrorWrittenAt cfg k bytes (mirrorWrite cfg k bytes)

/-- The codes of the error causes (60_exceptions.md R221). -/
def Obligations.CauseCodes : Prop :=
  (∀ m, (Cause.malformedInput m).code = 1) ∧ (∀ w, (Cause.timeout w).code = 2) ∧
  (∀ path, (Cause.halFailure path).code = 3) ∧ (∀ i, (Cause.handlerAbort i).code = 4) ∧
  Malformed.badAddressLength.subCode = 1 ∧ Malformed.badPayloadLength.subCode = 2 ∧
  Malformed.badConfigRange.subCode = 3 ∧ Malformed.notInitialised.subCode = 4 ∧
  Malformed.alreadyInitialised.subCode = 5 ∧ Malformed.unknownCommand.subCode = 6 ∧
  Waiting.rxDataReady.subCode = 1 ∧ Waiting.txDataReady.subCode = 2

/-! ### Primitives, frames, cleanup -/

/-- A primitive completes, and emits its event if it has one, or fails, and leaves every line and register
and emits the failed event; it fails exactly if the layer is fallible and the environment fails it. A line
write drives its one line, a poll gives the level the environment presents, a transfer the byte it clocks
back, a wait changes nothing; opening pins and bus, arming and cancelling the watch emit nothing
(60_exceptions.md R224; 41_mode_controller.md R151; 00_scope.md R9). That a failed primitive does not reach
the chip is the model's choice (20_memory.md R71; log 12). -/
def Obligations.LineWriteSucceedsOrLeavesTheLine : Prop :=
  ∀ (label : StepLabel) (s : State),
    ((s.params.halFallible && s.here.fail) = false →
      (∀ l v, ∃ t, pinWrite label l v s = .ok () t ∧ t.lines = s.lines.set l v ∧
        t.trace = s.trace ++ [.w l v] ∧ t.replies = s.replies ∧ SameRegisters s t) ∧
      (∀ l, ∃ t, pinRead label l s = .ok s.here.level t ∧ t.lines = s.lines ∧
        t.trace = s.trace ++ [.r l s.here.level] ∧ t.replies = s.replies ∧ t.chip = s.chip ∧
        SameRegisters s t) ∧
      (∀ o, ∃ i t, xfer label o s = .ok i t ∧ (∀ b, s.here.inbound = some b → i = b) ∧
        t.lines = s.lines ∧ t.trace = s.trace ++ [.x o i] ∧ t.replies = s.replies ∧
        SameRegisters s t) ∧
      (∀ d, ∃ t, delay label d s = .ok () t ∧ t.lines = s.lines ∧ t.trace = s.trace ++ [.d d] ∧
        t.replies = s.replies ∧ t.chip = s.chip ∧ SameRegisters s t) ∧
      ∃ t, halAction label s = .ok () t ∧ t.lines = s.lines ∧ t.trace = s.trace ∧
        t.replies = s.replies ∧ t.chip = s.chip ∧ SameRegisters s t) ∧
    ((s.params.halFallible && s.here.fail) = true →
      (∀ l v, ∃ t, pinWrite label l v s = .failed [label] t ∧ t.lines = s.lines ∧
        t.trace = s.trace ++ [.wFailed l v] ∧ t.replies = s.replies ∧ t.chip = s.chip ∧
        SameRegisters s t) ∧
      (∀ l, ∃ t, pinRead label l s = .failed [label] t ∧ t.lines = s.lines ∧
        t.trace = s.trace ++ [.rFailed l] ∧ t.replies = s.replies ∧ t.chip = s.chip ∧
        SameRegisters s t) ∧
      (∀ o, ∃ t, xfer label o s = .failed [label] t ∧ t.lines = s.lines ∧
        t.trace = s.trace ++ [.xFailed o] ∧ t.replies = s.replies ∧ t.chip = s.chip ∧
        SameRegisters s t) ∧
      (∀ d, ∃ t, delay label d s = .failed [label] t ∧ t.lines = s.lines ∧
        t.trace = s.trace ++ [.dFailed d] ∧ t.replies = s.replies ∧ t.chip = s.chip ∧
        SameRegisters s t) ∧
      ∃ t, halAction label s = .failed [label] t ∧ t.lines = s.lines ∧ t.trace = s.trace ∧
        t.replies = s.replies ∧ t.chip = s.chip ∧ SameRegisters s t)

/-- A frame on an access layer that does not fail: chip-select low, the instruction byte, the data
bytes in index order, chip-select high, nothing else written; a read frame returns what the environment
clocked in, byte by byte, with `D(T_BYTE)` after each transfer if it is spaced (40_command_framer.md
R126). -/
def Obligations.FrameEventsAreExact : Prop :=
  ∀ (s : State) (instr : Byte), s.params.halFallible = false →
    (∀ out : List Byte, ∃ t, frame instr out 0 false s = .ok [] t ∧
      outward t.trace = outward s.trace ++ writeFrameEvents instr out ∧
      t.lines = { s.lines with csn := true } ∧ SameRegisters s t ∧ t.replies = s.replies) ∧
    (∀ n : Nat, ∃ i data t, frame instr [] n false s = .ok data t ∧ data.length = n ∧
      ClockedIn s 2 1 data ∧ t.trace = s.trace ++ readFrameEvents instr i data ∧
      t.lines = { s.lines with csn := true } ∧ SameRegisters s t ∧ t.replies = s.replies) ∧
    (∀ n : Nat, ∃ i data t, frame instr [] n true s = .ok data t ∧ data.length = n ∧
      ClockedIn s 3 2 data ∧ t.trace = s.trace ++ spacedFrameEvents instr i data ∧
      t.lines = { s.lines with csn := true } ∧ SameRegisters s t ∧ t.replies = s.replies)

/-- A frame fails exactly if one of its primitives fails, and stops at the first that does: its events up to
that one, then the failed form of that one, no byte retried, no further byte sent; every register stands,
`CSN` is low if `F.1` completed, the path names a step of the frame, and the cleanup that follows deasserts
chip-select first. A frame presented alone ends with that one write and the error (40_command_framer.md
R127; 60_exceptions.md R224; the frame presented alone: log 14). -/
def Obligations.FailedFrameIsClosedByCleanup : Prop :=
  (∀ (instr : Byte) (out : List Byte) (nIn : Nat) (spaced : Bool) (s t : State) (path : StepPath),
    frame instr out nIn spaced s = .failed path t →
      frameOpen path = true ∧ SameRegisters s t ∧ t.replies = s.replies ∧
      (∃ k e, s.failsAt k = true ∧ (∀ j, j < k → s.failsAt j = false) ∧
        (frameEvents instr out nIn spaced)[k]? = some e ∧
        outward t.trace =
          outward s.trace ++ (frameEvents instr out nIn spaced).take k ++ [e.failed] ∧
        t.lines = if k = 0 then s.lines else { s.lines with csn := false }) ∧
      (t.failsHere = false → ∀ closing : List (OutLine × Level),
        ∃ rest, (cleanup path closing t).trace = t.trace ++ .w .csn true :: rest)) ∧
  (∀ (instr : Byte) (out : List Byte) (nIn : Nat) (spaced : Bool) (s : State) (k : Nat),
    k < (frameEvents instr out nIn spaced).length → s.failsAt k = true →
    ∃ path t, frame instr out nIn spaced s = .failed path t) ∧
  ∀ (s t : State) (path : StepPath), t.failsHere = false →
    (∀ (k : Nibble) (data : List Byte), k.toNat + data.length ≤ 10 →
      (writeConfigFrame k.toNat data s).inside .wc2 = .failed path t →
      ∃ u, exec (.wc k data) s = .next u ∧ CallFailed path s t u) ∧
    (ConfigHasValues s → readConfigFrame s = .failed path t →
      ∃ u, exec .rc s = .next u ∧ CallFailed path s t u) ∧
    (∀ payload : List Byte, payload.length ≤ s.params.txPayloadMax →
      writeTransmitPayload payload s = .failed path t →
      ∃ u, exec (.wtp payload) s = .next u ∧ CallFailed path s t u) ∧
    (∀ address : List Byte, 4 ≤ address.length →
      writeTransmitAddress (address.take 4) s = .failed path t →
      ∃ u, exec (.wta address) s = .next u ∧ CallFailed path s t u) ∧
    (readReceivedPayload s = .failed path t →
      ∃ u, exec .rrp s = .next u ∧ CallFailed path s t u)

/-- The cleanup of a failed operation, on any access layer. Where its own writes do not fail: chip-select
if a frame was open, then the closing writes in order, each line left at the level written last, then the
error returned and the block idle. Whichever of its writes fail: each is attempted, in order, and stands in
the trace as done or failed, a failed one leaves its line, and the error returned is the original one. The
line writes of a cleanup, a timeout's too, change no register and give no result (60_exceptions.md R224,
R230, R231; that a cleanup goes on after a failed write: log 24). -/
def Obligations.ErrorCleanupOrder : Prop :=
  (∀ (s : State) (closing : List (OutLine × Level)) (path : StepPath),
    NoFailureWithin ((if frameOpen path then 1 else 0) + closing.length) s →
      ClosedBy closing path s s (s.raise closing path) ∧
      (s.raise closing path).lines =
        ((if frameOpen path then [(OutLine.csn, true)] else []) ++ closing).foldl
          (fun ls w => ls.set w.1 w.2) s.lines) ∧
  (∀ (s : State) (closing : List (OutLine × Level)) (path : StepPath),
    (s.raise closing path).trace = s.trace ++
      cleanupEvents s ((if frameOpen path then [(OutLine.csn, true)] else []) ++ closing) ∧
    (s.raise closing path).lines =
      cleanupLines s ((if frameOpen path then [(OutLine.csn, true)] else []) ++ closing) ∧
    (s.raise closing path).replies = s.replies ++ [.error (.halFailure path)] ∧
    SameRegisters s.finish (s.raise closing path)) ∧
  ∀ (s : State) (writes : List (OutLine × Level)),
    (cleanupWrites writes s).trace = s.trace ++ cleanupEvents s writes ∧
    (cleanupWrites writes s).lines = cleanupLines s writes ∧
    (cleanupWrites writes s).replies = s.replies ∧ SameRegisters s (cleanupWrites writes s)

/-- Which closing writes each host operation uses, on any access layer, after the primitive that failed
at `t`: writeConfig, initialised setAddress and the configuration write of init assert `PWR`; readConfig
writes nothing beyond chip-select; powerUp, powerDown, the other steps of init, startReceiveMode and
stopReceiveMode write nothing (60_exceptions.md R230; the rows of the drain and of sendPacket:
`FailedDrainIsLeftListening`, `FailedSendPacketIsClosed`, `FailedPollsAndClosingWrites`). So `PWR` is
asserted again after a failed configuration write, chip-select is released after every failure (10_state.md
R42 (a)), and every other line stands where the steps before the failure left it. The registers stand, but for the watch and the latch after a failed `XR.2`; that the mirror stands also where only `WC.4`
failed is the model's reading (40_command_framer.md R120, R125; 20_memory.md R75 (b); log 10). -/
def Obligations.ErrorCleanupFollowsTheTable : Prop :=
  ∀ (s t : State) (path : StepPath), s.busy = false → NoFailureWithin 2 t →
    (∀ (k : Nat) (bytes : List Byte), s.inited = true → k + bytes.length ≤ 10 →
      writeConfigSteps k bytes s.begin = .failed path t →
      ∃ u, exec (.writeConfig k bytes) s = .next u ∧ ClosedBy [(.pwr, true)] path s t u ∧
        u.lines = { s.lines with pwr := true, csn := t.lines.csn || frameOpen path } ∧
        (s.lines.csn = true → u.lines.csn = true)) ∧
    (∀ a : List Byte, s.inited = true → 4 ≤ a.length →
      setAddressSteps (a.take 4) s.begin = .failed path t →
      ∃ u, exec (.setAddress a) s = .next u ∧ ClosedBy [(.pwr, true)] path s t u ∧
        u.lines = { s.lines with pwr := true, csn := t.lines.csn || frameOpen path } ∧
        (s.lines.csn = true → u.lines.csn = true)) ∧
    (s.inited = false → initSteps s.begin = .failed path t →
      ∃ u, exec .init s = .next u ∧
        ClosedBy (if path.head? = some .in2 then [(.pwr, true)] else []) path s t u ∧
        u.lines =
          { s.lines with
            pwr := if path = [.in1] then s.lines.pwr else true
            csn := t.lines.csn || frameOpen path } ∧
        (s.lines.csn = true → u.lines.csn = true)) ∧
    (s.inited = true → ConfigHasValues s → readConfigFrame s.begin = .failed path t →
      ∃ u, exec .readConfig s = .next u ∧ ClosedBy [] path s t u ∧
        u.lines = { s.lines with csn := true }) ∧
    (s.inited = true → powerUpSteps s.begin = .failed path t →
      ∃ u, exec .powerUp s = .next u ∧ ClosedBy [] path s t u ∧ u.lines = t.lines ∧
        u.lines = if path = [.pu1] then s.lines else { s.lines with pwr := true }) ∧
    (s.inited = true → deassertLine .pd1 .pwr s.begin = .failed path t →
      ∃ u, exec .powerDown s = .next u ∧ ClosedBy [] path s t u ∧ u.lines = s.lines) ∧
    (s.inited = true → enterReceiveSteps s.begin = .failed path t →
      ∃ u, exec .startReceiveMode s = .next u ∧ ClosedBy [] path s t u ∧ u.lines = t.lines ∧
        u.lines =
          { s.lines with
            txen := if path = [.er1] then s.lines.txen else false
            pwr := if path = [.er1] ∨ path = [.er2] then s.lines.pwr else true
            trig := if path = [.er4] ∨ path = [.er5] then true else s.lines.trig }) ∧
    (s.inited = true → exitReceiveSteps s.begin = .failed path t →
      ∃ u, exec .stopReceiveMode s = .next u ∧
        ClosedBy [] path
          (if path = [.xr2] then { s with watch := false, edgePend := false } else s) t u ∧
        u.lines = s.lines)

/-! ### The bus instructions -/

/-- WC, WTP and WTA with operands in range complete: the frame with that instruction byte is sent, the
chip-side space of the frame takes the data at its offsets, no register changes (30_encoding.md R93,
R95, R96; 20_memory.md R63, R71; log 12, log 14). -/
def Obligations.WriteFrameInstructionsComplete : Prop :=
  ∀ s : State, s.params.halFallible = false → s.params.valid = true →
    (∀ (k : Nibble) (data : List Byte), k.toNat + data.length ≤ 10 →
      ∃ t, exec (.wc k data) s = .next t ∧ SameRegisters s t ∧
        t.lines = { s.lines with csn := true } ∧
        outward t.trace = outward s.trace ++ writeFrameEvents (s.params.opWC ||| k.setWidth 8) data ∧
        t.replies = s.replies ++ [.ok] ∧
        WrittenAt s.chip.config k.toNat data t.chip.config ∧
        t.chip.txPayload = s.chip.txPayload ∧ t.chip.txAddress = s.chip.txAddress ∧
        t.chip.rxPayload = s.chip.rxPayload) ∧
    (∀ payload : List Byte, payload.length ≤ s.params.txPayloadMax →
      ∃ t, exec (.wtp payload) s = .next t ∧ SameRegisters s t ∧
        t.lines = { s.lines with csn := true } ∧
        outward t.trace = outward s.trace ++ writeFrameEvents s.params.opWTP payload ∧
        t.replies = s.replies ++ [.ok] ∧
        WrittenAt s.chip.txPayload 0 payload t.chip.txPayload ∧ t.chip.config = s.chip.config ∧
        t.chip.txAddress = s.chip.txAddress ∧ t.chip.rxPayload = s.chip.rxPayload) ∧
    (∀ address : List Byte, address.length = 4 →
      ∃ t, exec (.wta address) s = .next t ∧ SameRegisters s t ∧
        t.lines = { s.lines with csn := true } ∧
        outward t.trace = outward s.trace ++ writeFrameEvents s.params.opWTA address ∧
        t.replies = s.replies ++ [.ok] ∧
        WrittenAt s.chip.txAddress 0 address t.chip.txAddress ∧ t.chip.config = s.chip.config ∧
        t.chip.txPayload = s.chip.txPayload ∧ t.chip.rxPayload = s.chip.rxPayload)

/-- RC and RRP complete: ten bytes, thirty-two spaced bytes; the bytes that came in are the result, no
register changes, RRP empties the chip's packet buffer (30_encoding.md R94, R97; 20_memory.md R67; log
12, log 14). RC wants a value for each byte left to the reference environment (10_state.md R44; log
13). -/
def Obligations.ReadFrameInstructionsComplete : Prop :=
  ∀ s : State, s.params.halFallible = false → s.params.valid = true →
    (ConfigHasValues s → ∃ i data t, exec .rc s = .next t ∧ ReadFromConfig s data ∧
      t.trace = s.trace ++ readFrameEvents s.params.opRC i data ∧
      t.replies = s.replies ++ [.bytes data] ∧ SameRegisters s t ∧ SameSpaces s t ∧
      t.lines = { s.lines with csn := true }) ∧
    (∃ i data t, exec .rrp s = .next t ∧ data.length = 32 ∧ ClockedIn s 3 2 data ∧
      t.trace = s.trace ++ spacedFrameEvents s.params.opRRP i data ∧
      t.replies = s.replies ++ [.bytes data] ∧ SameRegisters s t ∧
      t.chip.config = s.chip.config ∧ t.chip.txPayload = s.chip.txPayload ∧
      t.chip.txAddress = s.chip.txAddress ∧ t.chip.rxPayload = [] ∧
      t.lines = { s.lines with csn := true })

/-- Where a read would have no value the machine stops, it never reads zero: a read-config frame whose
byte `j` a listed moment leaves to the reference environment and no frame has written, a delivery
without `RXBUF`, sendPacket's operands without `TXADDR` or `TXBUF` (10_state.md R44; the bytes the
environment itself gives, and those of a read-received-payload frame, are its answers: log 13). -/
def Obligations.ReadsWithoutAValueStop : Prop :=
  (∀ (s : State) (j : Nat) (m : Moment), s.params.halFallible = false → j < 10 →
    Memory.read s.chip.config j = none → s.env[2 + j]? = some m → m.inbound = none →
    exec .rc s = .fault .noChipValue ∧
    (s.busy = false → s.inited = true → exec .readConfig s = .fault .noChipValue)) ∧
  (∀ (s : State) (snapshot : List ConsumerId) (i : Nat), s.framer = none → s.busy = true →
    s.present.port = none → s.seq = .delivering snapshot i → s.rxbuf = none →
    step s = .fault (.noTransientValue .rxbuf)) ∧
  ∀ s : State, (s.txaddr = none → transmitLatched s = .fault (.noTransientValue .txaddr)) ∧
    ∀ a, s.txaddr = some a → s.txbuf = none →
      transmitLatched s = .fault (.noTransientValue .txbuf)

/-- A write-config frame past offset 9 and a write-transmit-payload frame past the maximum are refused
before any event (20_memory.md R64; 30_encoding.md R101, R106; log 14). -/
def Obligations.OutOfRangeFramesAreRefused : Prop :=
  ∀ s : State,
    (∀ (k : Nibble) (data : List Byte), 10 < k.toNat + data.length →
      exec (.wc k data) s = .next (s.refuse .badConfigRange)) ∧
    ∀ payload : List Byte, s.params.txPayloadMax < payload.length →
      exec (.wtp payload) s = .next (s.refuse .badPayloadLength)

/-! ### The host operations complete -/

/-- init: the mirror is sent whole in a power cycle, the chip is powered up and waited for, `INITED`
rises; no other register and no line but `PWR` and `CSN` changes (41_mode_controller.md R152). The
chip-side copy of the configuration is the reference environment's (20_memory.md R71; log 12). That
`TXPAYLOAD`, `TXADDRESS` and `RXPAYLOAD` survive the power cycle is the model's choice (60_exceptions.md
R238 leaves it open, N15 of 91_not_in_source.md keeps `CONFIG` only: log 12). -/
def Obligations.InitCompletes : Prop :=
  ∀ s : State, Idle s → s.inited = false → s.params.valid = true →
    s.params.halFallible = false → s.cfg.length = 10 →
    ∃ t, exec .init s = .next t ∧ SameRegisters { s with inited := true } t ∧
      t.lines = { s.lines with pwr := true, csn := true } ∧
      outward t.trace = outward s.trace ++ configWriteEvents s.params 0 s.cfg ++
        [.w .pwr true, .d .wake] ∧
      t.replies = s.replies ++ [.ok] ∧ WrittenAt s.chip.config 0 s.cfg t.chip.config ∧
      t.chip.txPayload = s.chip.txPayload ∧ t.chip.txAddress = s.chip.txAddress ∧
      t.chip.rxPayload = s.chip.rxPayload

/-- writeConfig in range: the frame in a power cycle, the mirror takes the bytes at their offsets; no
other register and no line but `PWR` and `CSN` changes (40_command_framer.md R120). The chip-side copy of
the configuration, which takes the same bytes, is the reference environment's (20_memory.md R71; log 12).
That `TXPAYLOAD`, `TXADDRESS` and `RXPAYLOAD` survive the power cycle is the model's choice
(60_exceptions.md R238 leaves it open, N15 of 91_not_in_source.md keeps `CONFIG` only: log 12). -/
def Obligations.WriteConfigCompletes : Prop :=
  ∀ (s : State) (k : Nat) (bytes : List Byte), Ready s → k + bytes.length ≤ 10 →
    ∃ t, exec (.writeConfig k bytes) s = .next t ∧ MirrorWrittenAt s.cfg k bytes t.cfg ∧
      SameRegisters { s with cfg := t.cfg } t ∧
      t.lines = { s.lines with pwr := true, csn := true } ∧
      outward t.trace = outward s.trace ++ configWriteEvents s.params k bytes ∧
      t.replies = s.replies ++ [.ok] ∧ WrittenAt s.chip.config k bytes t.chip.config ∧
      t.chip.txPayload = s.chip.txPayload ∧ t.chip.txAddress = s.chip.txAddress ∧
      t.chip.rxPayload = s.chip.rxPayload

/-- setAddress: stored without an event before initialisation; after it, the configuration write at
offset 5. Either way the address is the first four bytes given and every other byte of the mirror
stands (40_command_framer.md R125). The chip-side copy of the configuration is the reference environment's
(20_memory.md R71; log 12). That `TXPAYLOAD`, `TXADDRESS` and `RXPAYLOAD` survive the power cycle of the
initialised clause is the model's choice (60_exceptions.md R238 leaves it open, N15 of
91_not_in_source.md keeps `CONFIG` only: log 12). -/
def Obligations.SetAddressCompletes : Prop :=
  (∀ (s : State) (a : List Byte), Idle s → s.inited = false → s.cfg.length = 10 → 4 ≤ a.length →
    ∃ t, exec (.setAddress a) s = .next t ∧ t.addr = a.take 4 ∧
      MirrorWrittenAt s.cfg 5 (a.take 4) t.cfg ∧ SameRegisters { s with cfg := t.cfg } t ∧
      t.lines = s.lines ∧ t.trace = s.trace ∧ t.chip = s.chip ∧ t.replies = s.replies ++ [.ok]) ∧
  ∀ (s : State) (a : List Byte), Ready s → 4 ≤ a.length →
    ∃ t, exec (.setAddress a) s = .next t ∧ t.addr = a.take 4 ∧
      MirrorWrittenAt s.cfg 5 (a.take 4) t.cfg ∧ SameRegisters { s with cfg := t.cfg } t ∧
      t.lines = { s.lines with pwr := true, csn := true } ∧
      outward t.trace = outward s.trace ++ configWriteEvents s.params 5 (a.take 4) ∧
      t.replies = s.replies ++ [.ok] ∧ WrittenAt s.chip.config 5 (a.take 4) t.chip.config ∧
      t.chip.txPayload = s.chip.txPayload ∧ t.chip.txAddress = s.chip.txAddress ∧
      t.chip.rxPayload = s.chip.rxPayload

/-- readConfig: one read-config frame, its ten inbound bytes are the result, the environment's or what
`CONFIG` holds; neither the mirror nor the power line is written (40_command_framer.md R121; 20_memory.md
R71; a value for each byte left to the reference environment, which `RegistersOk` has: log 12, log
13). -/
def Obligations.ReadConfigCompletes : Prop :=
  ∀ s : State, Ready s → ConfigHasValues s →
    ∃ i data t, exec .readConfig s = .next t ∧ ReadFromConfig s data ∧
      t.trace = s.trace ++ readFrameEvents s.params.opRC i data ∧
      t.replies = s.replies ++ [.bytes data] ∧ SameRegisters s t ∧ SameSpaces s t ∧
      t.lines = { s.lines with csn := true }

/-- powerUp asserts `PWR` and waits `T_WAKE`; powerDown deasserts `PWR`; no other line and no register
changes (41_mode_controller.md R153, R154). That the chip-side spaces survive the write of `PWR` is the
model's choice (60_exceptions.md R238 leaves it open: log 12). -/
def Obligations.PowerUpAndPowerDownComplete : Prop :=
  ∀ s : State, Ready s →
    (∃ t, exec .powerUp s = .next t ∧ SameRegisters s t ∧ t.chip = s.chip ∧
      t.lines = { s.lines with pwr := true } ∧ t.trace = s.trace ++ [.w .pwr true, .d .wake] ∧
      t.replies = s.replies ++ [.ok]) ∧
    (∃ t, exec .powerDown s = .next t ∧ SameRegisters s t ∧ t.chip = s.chip ∧
      t.lines = { s.lines with pwr := false } ∧ t.trace = s.trace ++ [.w .pwr false] ∧
      t.replies = s.replies ++ [.ok])

/-- startReceiveMode: the three line writes, the settle wait, then the watch is armed; an edge that
came before the arming of a disarmed watch is not latched (41_mode_controller.md R155). That the write
of `PWR` and the rising edge of `TRIG` leave the chip-side spaces is the model's choice (log 12). -/
def Obligations.StartReceiveModeCompletes : Prop :=
  ∀ s : State, Ready s →
    ∃ t, exec .startReceiveMode s = .next t ∧ SameRegisters { s with watch := true } t ∧
      t.watch = true ∧ (s.watch = false → t.edgePend = s.edgePend) ∧ t.mode = .receiving ∧
      t.lines = { s.lines with txen := false, pwr := true, trig := true } ∧ t.chip = s.chip ∧
      t.trace = s.trace ++ [.w .txen false, .w .pwr true, .w .trig true, .d .settle] ∧
      t.replies = s.replies ++ [.ok]

/-- stopReceiveMode: the watch and the latched edge are dropped; the lines stay, but for `TRIG` when
`EXIT_RX_TO_STANDBY` (41_mode_controller.md R156). That a falling `TRIG` leaves the chip-side spaces is
the model's choice (log 12). -/
def Obligations.StopReceiveModeCompletes : Prop :=
  ∀ s : State, Ready s →
    ∃ t, exec .stopReceiveMode s = .next t ∧
      SameRegisters { s with watch := false, edgePend := false } t ∧ t.edgePend = false ∧
      t.chip = s.chip ∧ t.replies = s.replies ++ [.ok] ∧
      (s.params.exitRxToStandby = false → t.lines = s.lines ∧ t.trace = s.trace) ∧
      (s.params.exitRxToStandby = true →
        t.lines = { s.lines with trig := false } ∧ t.trace = s.trace ++ [.w .trig false])

/-- sendPacket whose first poll reads 1: power, trigger and transmit-enable, the payload frame, the
address frame, one trigger pulse, which consumes the chip-side payload and address, the poll, the
closing writes; no register of the block changes (43_transmit_pipeline.md R200, R205; 20_memory.md R67;
the chip-side spaces are the reference environment's: log 12). That `RXPAYLOAD` survives the write of
`PWR` is the model's choice (60_exceptions.md R238 leaves it open: log 12). -/
def Obligations.SendPacketCompletes : Prop :=
  ∀ (s : State) (a payload : List Byte) (m : Moment), Ready s → 4 ≤ a.length →
    payload.length ≤ s.params.txPayloadMax → s.env[17 + payload.length]? = some m →
    m.level = true →
    ∃ t, exec (.sendPacket a payload) s = .next t ∧ SameRegisters s t ∧
      t.lines = { pwr := true, csn := true, txen := false, trig := true } ∧
      outward t.trace = outward s.trace ++ transmitEvents s.params (a.take 4) payload ++
        [.r .dr true, .w .txen false, .w .trig true] ∧
      t.replies = s.replies ++ [.ok] ∧ t.chip.config = s.chip.config ∧ t.chip.txPayload = [] ∧
      t.chip.txAddress = [] ∧ t.chip.rxPayload = s.chip.rxPayload

/-- sendPacket whose first poll reads 0, with another poll allowed: it waits at `TX.5`, busy, nothing
returned, with the levels of 43_transmit_pipeline.md R202. -/
def Obligations.SendPacketWaits : Prop :=
  ∀ (s : State) (a payload : List Byte) (m : Moment), Ready s → 4 ≤ a.length →
    payload.length ≤ s.params.txPayloadMax → s.env[17 + payload.length]? = some m →
    m.level = false → s.params.spinLimit ≠ some 1 →
    ∃ t, exec (.sendPacket a payload) s = .next t ∧
      SameRegisters
        { s with busy := true, seq := .txWait 1, txaddr := some (a.take 4), txbuf := some payload }
        t ∧
      t.lines = { pwr := true, csn := true, txen := true, trig := false } ∧
      outward t.trace = outward s.trace ++ transmitEvents s.params (a.take 4) payload ++
        [.r .dr false] ∧
      t.replies = s.replies

/-- sendPacket whose first poll reads 0 and whose limit is one poll: it times out in the same step, after
the closing writes; no register of the block changes (43_transmit_pipeline.md R200, R202;
60_exceptions.md R223). -/
def Obligations.SendPacketTimesOutAtItsFirstPoll : Prop :=
  ∀ (s : State) (a payload : List Byte) (m : Moment), Ready s → 4 ≤ a.length →
    payload.length ≤ s.params.txPayloadMax → s.env[17 + payload.length]? = some m →
    m.level = false → s.params.spinLimit = some 1 →
    ∃ t, exec (.sendPacket a payload) s = .next t ∧ SameRegisters s t ∧
      t.lines = { pwr := true, csn := true, txen := false, trig := true } ∧
      outward t.trace = outward s.trace ++ transmitEvents s.params (a.take 4) payload ++
        [.r .dr false, .w .txen false, .w .trig true] ∧
      t.replies = s.replies ++ [.error (.timeout .txDataReady)]

/-- attach and detach: outside a dispatch the registry gains the id at its end, loses the first equal
entry; while a dispatch runs the request is accepted at once and deferred, the registry stands. No
event, no line, no other register either way, also before initialisation (42_receive_pipeline.md
R175, R176). -/
def Obligations.RegistryOperationsComplete : Prop :=
  ∀ (s : State) (h : ConsumerId),
    (s.busy = false → s.dispatching = false →
      exec (.attachReceivedCallback h) s =
        .next { s with reg := s.reg ++ [h], replies := s.replies ++ [.ok] } ∧
      exec (.detachReceivedCallback h) s =
        .next { s with reg := s.reg.erase h, replies := s.replies ++ [.ok] }) ∧
    (s.dispatching = true →
      exec (.attachReceivedCallback h) s =
        .next { s with deferq := s.deferq ++ [.attach h], replies := s.replies ++ [.ok] } ∧
      exec (.detachReceivedCallback h) s =
        .next { s with deferq := s.deferq ++ [.detach h], replies := s.replies ++ [.ok] }) ∧
    (h ∉ s.reg → s.reg.erase h = s.reg) ∧
    ∀ pre post : List ConsumerId, s.reg = pre ++ h :: post → h ∉ pre → s.reg.erase h = pre ++ post

/-- Every unassigned command code of an idle block is answered with `UnknownCommand` and changes
nothing else (30_encoding.md R103). -/
def Obligations.UnassignedCodesAreRefused : Prop :=
  ∀ s : State, s.busy = false →
    exec .unassignedB s =
      .next { s with replies := s.replies ++ [.error (.malformedInput .unknownCommand)] } ∧
    (∀ x, exec (.unassignedCToF x) s =
      .next { s with replies := s.replies ++ [.error (.malformedInput .unknownCommand)] }) ∧
    ∀ c : PortCommand, 0xB ≤ c.code.toNat →
      exec (decodeCommand c) s =
        .next { s with replies := s.replies ++ [.error (.malformedInput .unknownCommand)] }

/-! ### Malformed calls and held commands -/

/-- A malformed call is answered with the first cause in the order of the checks and changes nothing
else (30_encoding.md R106; 60_exceptions.md R222; 10_state.md R29; 43_transmit_pipeline.md R201). -/
def Obligations.MalformedCallsChangeNothing : Prop :=
  ∀ s : State, s.busy = false →
    (s.inited = true → exec .init s = .next (s.refuse .alreadyInitialised)) ∧
    (s.inited = false → ∀ i : Instr,
      (i = .readConfig ∨ i = .powerUp ∨ i = .powerDown ∨ i = .startReceiveMode ∨
        i = .stopReceiveMode ∨ (∃ k b, i = .writeConfig k b) ∨ ∃ a p, i = .sendPacket a p) →
      exec i s = .next (s.refuse .notInitialised)) ∧
    (s.inited = true → ∀ (k : Nat) (bytes : List Byte), 10 < k + bytes.length →
      exec (.writeConfig k bytes) s = .next (s.refuse .badConfigRange)) ∧
    (∀ a : List Byte, a.length < 4 →
      exec (.setAddress a) s = .next (s.refuse .badAddressLength)) ∧
    (s.inited = true → ∀ a payload : List Byte, a.length < 4 →
      exec (.sendPacket a payload) s = .next (s.refuse .badAddressLength)) ∧
    (s.inited = true → ∀ a payload : List Byte, 4 ≤ a.length →
      s.params.txPayloadMax < payload.length →
      exec (.sendPacket a payload) s = .next (s.refuse .badPayloadLength)) ∧
    ∀ m : Malformed,
      s.refuse m = { s with replies := s.replies ++ [.error (.malformedInput m)] }

/-- A host command presented to a busy block is held: it stands at the port, which decodes back to it,
and nothing else changes; attach and detach are held only outside a dispatch. The host's next command comes
to the port when the port is free and only then, in the order of its list; one that stands there is not
dropped, and no step of a busy block takes it, but attach and detach (60_exceptions.md R228 (a), (c); the
host's list: log 3; log 16, log 20). -/
def Obligations.BusyBlockHoldsCommands : Prop :=
  (∀ (s : State) (c : PortCommand), s.port = some c → s.present = s) ∧
  (∀ (s : State) (c : Option PortCommand) (rest : List (Option PortCommand)), s.port = none →
    s.host = c :: rest → s.present = { s with port := c, host := rest }) ∧
  (∀ s : State, s.port = none → s.host = [] → s.present = s) ∧
  (∀ (s t : State) (c : PortCommand), s.busy = true → s.port = some c →
    registryCommand c = false → step s = .next t → t.port = some c ∧ t.host = s.host) ∧
  ∀ (s : State) (i : Instr), s.busy = true → s.port = none →
    (∀ k data, i ≠ .wc k data) → i ≠ .rc → (∀ payload, i ≠ .wtp payload) →
    (∀ a, i ≠ .wta a) → i ≠ .rrp →
    ((∃ h, i = .attachReceivedCallback h ∨ i = .detachReceivedCallback h) →
      s.dispatching = false) →
    ∃ c, exec i s = .next { s with port := some c } ∧ decodeCommand c = i

/-! ### Steps -/

/-- A step runs the decoded instruction: the command at the port of an idle block with no edge
latched, also one that the host presents in that very step, on the state in which the port is free again and one moment of the environment has passed;
the frame at the framer's internal port; and attach or detach presented while a dispatch runs, before
any of its deliveries and before `DP.3`, also over an empty registry, with no moment passing
(60_exceptions.md R228; 42_receive_pipeline.md R175, R177; log 3, log 4, log 11, log 17). -/
def Obligations.StepRunsTheDecodedInstruction : Prop :=
  (∀ (s : State) (c : PortCommand), s.framer = none → s.busy = false →
    s.present.port = some c → s.advance.edgePend = false →
    step s = exec (decodeCommand c) { s.present.advance with port := none }) ∧
  (∀ (s : State) (bytes : List Byte) (i : Instr), s.framer = some bytes →
    decodeFrame s.params bytes = .ok i → step s = exec i { s with framer := none }) ∧
  (∀ (s : State) (c : PortCommand) (h : ConsumerId), s.framer = none → s.busy = true →
    s.present.port = some c →
    (decodeCommand c = .attachReceivedCallback h ∨ decodeCommand c = .detachReceivedCallback h) →
    ((∃ snapshot i, s.seq = .delivering snapshot i) ∨ ∃ aborted, s.seq = .applying aborted) →
    step s = exec (decodeCommand c) { s.present with port := none }) ∧
  (∀ (s : State) (i : Instr) (c : PortCommand), encode s.params i = .command c →
    step (s.placeCode (.command c)) =
      exec i { (s.placeCode (.command c)).advance with port := none }) ∧
  ∀ (s : State) (i : Instr) (bytes : List Byte), encode s.params i = .frame bytes →
    s.params.valid = true → i.wellFormed s.params = true →
    step (s.placeCode (.frame bytes)) = exec i { s with framer := none }

/-- In an idle block a latched edge starts the drain before the command at the port, which stays
there; the drain clears the latch and polls (42_receive_pipeline.md R171; 60_exceptions.md R228 (b);
the instants of an edge: log 11). -/
def Obligations.LatchedEdgeGoesBeforeACommand : Prop :=
  ∀ (s : State) (m n : Moment), Idle s → s.framer = none → s.params.halFallible = false →
    s.env[0]? = some m → s.env[1]? = some n → n.level = false → s.params.spinLimit ≠ some 1 →
    (s.edgePend = true ∨ (s.watch = true ∧ m.edge = true)) →
    ∃ t, step s = .next t ∧ t.busy = true ∧ t.seq = .rxWait 1 ∧
      t.edgePend = (s.watch && n.edge) ∧
      SameRegisters
        { s.present with edgePend := t.edgePend, busy := true, seq := .rxWait 1 } t ∧
      t.trace = s.trace ++ [.r .dr false] ∧ t.lines = s.lines ∧ t.replies = s.replies ∧
      t.chip = s.chip

/-- With no edge and no command the idle block emits nothing and reports nothing
(42_receive_pipeline.md R181; with `WATCH = 0` an edge has no effect, R170). -/
def Obligations.IdleBlockIsSilent : Prop :=
  ∀ s : State, Idle s → s.framer = none → s.present.port = none → s.edgePend = false →
    (s.watch = false ∨ s.here.edge = false) →
    ∃ t, step s = .next t ∧ t.trace = s.trace ∧ t.replies = s.replies ∧ t.lines = s.lines ∧
      t.chip = s.chip ∧ SameRegisters s.present t ∧ t.edgePend = false

/-- One poll of sendPacket's wait: a 1 closes and returns ok; a 0 that reaches the limit closes and
returns the timeout; any other 0 waits on, with nothing written. At the end, too, the command at the port
is held, a latched edge stays latched, and no register changes. On any access layer a timeout stays the
error that is returned, whichever of its closing writes fail (43_transmit_pipeline.md R200, R202, R204;
60_exceptions.md R223, R224, R228, R231; that a cleanup goes on: log 24). That the closing writes leave the chip-side spaces is the
model's choice (log 12). -/
def Obligations.TransmitWaitFollowsThePoll : Prop :=
  (∀ (s : State) (c : Nat) (m : Moment), s.framer = none → s.busy = true → s.seq = .txWait c →
    s.params.halFallible = false → s.env[0]? = some m →
    (m.level = true → ∃ t, step s = .next t ∧
      t.trace = s.trace ++ [.r .dr true, .w .txen false, .w .trig true] ∧
      t.lines = { s.lines with txen := false, trig := true } ∧ t.replies = s.replies ++ [.ok] ∧
      t.chip = s.chip ∧ SameRegisters s.present.finish t) ∧
    (m.level = false → s.params.spinLimit = some (c + 1) → ∃ t, step s = .next t ∧
      t.trace = s.trace ++ [.r .dr false, .w .txen false, .w .trig true] ∧
      t.lines = { s.lines with txen := false, trig := true } ∧
      t.replies = s.replies ++ [.error (.timeout .txDataReady)] ∧ t.chip = s.chip ∧
      SameRegisters s.present.finish t) ∧
    (m.level = false → s.params.spinLimit ≠ some (c + 1) → ∃ t, step s = .next t ∧
      t.trace = s.trace ++ [.r .dr false] ∧ t.lines = s.lines ∧ t.replies = s.replies ∧
      t.chip = s.chip ∧ SameRegisters { s.present with seq := .txWait (c + 1) } t)) ∧
  ∀ (s : State) (c : Nat) (m : Moment), s.framer = none → s.busy = true → s.seq = .txWait c →
    s.env[0]? = some m → m.fail = false → m.level = false → s.params.spinLimit = some (c + 1) →
    ∃ t, step s = .next t ∧
      t.trace = s.trace ++ [.r .dr false] ++
        cleanupEvents s.present.advance [(.txen, false), (.trig, true)] ∧
      t.lines = cleanupLines s.present.advance [(.txen, false), (.trig, true)] ∧
      t.replies = s.replies ++ [.error (.timeout .txDataReady)] ∧ SameRegisters s.present.finish t

/-- The drain from a poll that reads 1, the first one in the step that starts the drain or a later one:
the trigger is dropped, thirty-two spaced bytes are clocked in, the trigger is asserted again, and the
dispatch of these bytes starts over a snapshot of the registry, with no consumer at `DP.3`
(42_receive_pipeline.md R172, R173, R174). What the chip-side spaces hold after it is the reference
environment's (20_memory.md R67; log 12). -/
def Obligations.DrainReadsThePacket : Prop :=
  (∀ (s : State) (c : Nat) (m : Moment), s.framer = none → s.busy = true → s.seq = .rxWait c →
    s.dispatching = false → s.deferq = [] → s.params.halFallible = false →
    s.params.valid = true → s.env[0]? = some m → m.level = true →
    ∃ t, step s = .next t ∧ PacketRead 0 s.present t) ∧
  ∀ (s : State) (m n : Moment), Idle s → s.framer = none → s.params.halFallible = false →
    s.params.valid = true → s.env[0]? = some m → s.env[1]? = some n → n.level = true →
    (s.edgePend = true ∨ (s.watch = true ∧ m.edge = true)) →
    ∃ t, step s = .next t ∧ PacketRead 1 { s.present with edgePend := false } t

/-- A dispatch without an abort, with nothing at the port: after one step for each entry of the snapshot
and one for `DP.3`, each entry has been handed the payload once, in order, and the requests issued
meanwhile have been applied to the registry in order; the block is idle. The step at `DP.3`, which
follows the last delivery, an abort or the start of a dispatch over an empty registry, applies what was
deferred, leaves a command other than attach and detach at the port, and ends the drain
(42_receive_pipeline.md R174, R177, R178, R182; the steps: log 1, log 18). -/
def Obligations.DispatchDeliversInOrder : Prop :=
  (∀ (s : State) (snapshot : List ConsumerId) (p : List Byte), snapshot ≠ [] → s.framer = none →
    s.port = none → s.host = [] → s.busy = true → s.dispatching = true → s.deferq = [] →
    s.seq = .delivering snapshot 0 → s.rxbuf = some p → snapshot.length ≤ s.env.length →
    (∀ m ∈ s.env.take snapshot.length, m.abort = false) →
    ∃ t, run (snapshot.length + 1) s = .next t ∧
      t.trace = s.trace ++ snapshot.map (fun h => Event.v h p) ∧
      t.reg = ((s.env.take snapshot.length).flatMap Moment.requests).foldl registryAfter s.reg ∧
      Idle t ∧ SameRegisters { s.finish with reg := t.reg, dispatching := false, deferq := [] } t ∧
      t.lines = s.lines ∧ t.replies = s.replies ∧ t.chip = s.chip) ∧
  ∀ (s : State) (aborted : Option Nat), s.framer = none → s.busy = true →
    s.seq = .applying aborted →
    (∀ c, s.present.port = some c → registryCommand c = false) →
    ∃ t, step s = .next t ∧ DispatchEnded aborted s t ∧ t.port = s.present.port ∧
      t.host = s.present.host

/-- A consumer that aborts: the dispatch stands at `DP.3` after it, with its requests deferred, nothing
applied, nothing reported; if no command comes, the next step ends the drain: the later entries of the
snapshot are not invoked, the deferred requests are applied all the same, the abort is reported with its
index, the block is idle (42_receive_pipeline.md R178; the steps: log 1; requests before an abort count:
log 18). -/
def Obligations.AbortEndsTheDispatch : Prop :=
  ∀ (s : State) (snapshot : List ConsumerId) (i : Nat) (h : ConsumerId) (p : List Byte)
    (m : Moment), s.framer = none → s.present.port = none → s.busy = true →
    s.dispatching = true → s.seq = .delivering snapshot i → snapshot[i]? = some h →
    s.rxbuf = some p → s.env[0]? = some m → m.abort = true →
    (∃ t, step s = .next t ∧ t.trace = s.trace ++ [.v h p] ∧
      SameRegisters
        { s.present with seq := .applying (some i), deferq := s.deferq ++ m.requests } t ∧
      t.lines = s.lines ∧ t.replies = s.replies ∧ t.chip = s.chip) ∧
    (s.host = [] → ∃ t, run 2 s = .next t ∧
      t.trace = s.trace ++ [.v h p, .f (.handlerAbort i)] ∧
      t.reg = (s.deferq ++ m.requests).foldl registryAfter s.reg ∧ Idle t ∧
      SameRegisters { s.finish with reg := t.reg, dispatching := false, deferq := [] } t ∧
      t.lines = s.lines ∧ t.replies = s.replies ∧ t.chip = s.chip)

/-- Both waits, sendPacket's and the drain's: as long as the polls read 0 and none of them reaches the
spin limit, the block polls and nothing else happens, however many polls there are; with no limit this
is a hang (00_scope.md R11; 42_receive_pipeline.md R172; 43_transmit_pipeline.md R202; 60_exceptions.md
R223; 70_reset_and_hazards.md R277). -/
def Obligations.UnboundedWaitPollsForEver : Prop :=
  ∀ (wait : Nat → Seq) (n c : Nat) (s : State), (wait = .txWait ∨ wait = .rxWait) →
    s.framer = none → s.busy = true → s.seq = wait c → s.params.halFallible = false →
    (∀ k, k < n → s.params.spinLimit ≠ some (c + k + 1)) → n ≤ s.env.length →
    (∀ m ∈ s.env.take n, m.level = false) →
    ∃ t, run n s = .next t ∧ t.trace = s.trace ++ List.replicate n (.r .dr false) ∧
      SameRegisters { Nat.iterate State.present n s with seq := wait (c + n) } t ∧
      t.lines = s.lines ∧ t.replies = s.replies ∧ t.chip = s.chip

/-- A drain with limit `n` gives up after exactly `n` polls that read 0: no line is written, the
timeout is reported, the block is idle, no register changes, what the host presented meanwhile is held at
the port, an edge latched while it polled stays latched. From the idle block with an
edge latched these are `n` steps, the first of which starts the drain; after `c` of the polls, `n - c`
steps (60_exceptions.md R223, R228, R231; 42_receive_pipeline.md R172). -/
def Obligations.DrainTimesOutAfterExactlyItsLimit : Prop :=
  (∀ (n : Nat) (s : State) (m : Moment), 0 < n → Idle s → s.framer = none →
    s.params.halFallible = false → s.params.spinLimit = some n → n + 1 ≤ s.env.length →
    s.env[0]? = some m → (s.edgePend = true ∨ (s.watch = true ∧ m.edge = true)) →
    (∀ q ∈ (s.env.drop 1).take n, q.level = false) →
    ∃ t, run n s = .next t ∧
      TimedOut n { Nat.iterate State.present n s with edgePend := false } t) ∧
  ∀ (n c : Nat) (s : State), c < n → s.framer = none → s.busy = true → s.seq = .rxWait c →
    s.params.halFallible = false → s.params.spinLimit = some n → n - c ≤ s.env.length →
    (∀ m ∈ s.env.take (n - c), m.level = false) →
    ∃ t, run (n - c) s = .next t ∧ TimedOut (n - c) (Nat.iterate State.present (n - c) s) t

/-- A drain whose read fails, from the poll that reads 1 on, be it a later poll or the first one in the
step that starts the drain: chip-select is released if a frame was open, the trigger asserted again, the
failure reported, nothing delivered, the block idle, no register changed, the watch still armed, a command
held and an edge latched as before (42_receive_pipeline.md R179; 60_exceptions.md R228, R230, R231; the
drain's first moment: log 11). -/
def Obligations.FailedDrainIsLeftListening : Prop :=
  (∀ (s t : State) (path : StepPath), drainReadSteps s = .failed path t → NoFailureWithin 2 t →
    DrainFailed path s t (drainRead s)) ∧
  (∀ (s t : State) (c : Nat) (m : Moment) (path : StepPath), s.framer = none → s.busy = true →
    s.seq = .rxWait c → s.env[0]? = some m → m.fail = false → m.level = true →
    drainReadSteps (s.present.advance.emit (.r .dr true)) = .failed path t → NoFailureWithin 2 t →
    ∃ u, step s = .next u ∧ DrainFailed path s.present t u) ∧
  ∀ (s t : State) (m n : Moment) (path : StepPath), Idle s → s.framer = none →
    s.env[0]? = some m → (s.edgePend = true ∨ (s.watch = true ∧ m.edge = true)) →
    s.env[1]? = some n → n.fail = false → n.level = true →
    drainReadSteps
      (State.emit (.r .dr true)
        { s.present.advance with edgePend := false, busy := true }.advance) = .failed path t →
    NoFailureWithin 2 t →
    ∃ u, step s = .next u ∧ DrainFailed path { s.present with edgePend := false } t u

/-- A sendPacket that fails before its wait: chip-select is released if a frame was open, then
transmit-enable low and trigger high, and the failure is returned; the block is idle and no register
changes; if chip-select was released before, it is released after. It is said of the steps from `TX.1a` on
and of the instruction (43_transmit_pipeline.md R203; 60_exceptions.md R230, R231; 10_state.md R42 (a)). -/
def Obligations.FailedSendPacketIsClosed : Prop :=
  (∀ (s t : State) (a payload : List Byte) (path : StepPath),
    transmitSteps a payload s = .failed path t → NoFailureWithin 3 t →
    ClosedBy [(.txen, false), (.trig, true)] path s t (transmitRun a payload s) ∧
    (transmitRun a payload s).lines =
      { pwr := if path = [.tx1a] then s.lines.pwr else true
        csn := t.lines.csn || frameOpen path, txen := false, trig := true } ∧
    (s.lines.csn = true → (transmitRun a payload s).lines.csn = true)) ∧
  ∀ (s t : State) (a payload : List Byte) (path : StepPath), s.busy = false → s.inited = true →
    4 ≤ a.length → payload.length ≤ s.params.txPayloadMax →
    transmitSteps (a.take 4) payload
      { s.begin with txaddr := some (a.take 4), txbuf := some payload } = .failed path t →
    NoFailureWithin 3 t →
    ∃ u, exec (.sendPacket a payload) s = .next u ∧
      ClosedBy [(.txen, false), (.trig, true)] path s t u ∧
      u.lines =
        { pwr := if path = [.tx1a] then s.lines.pwr else true
          csn := t.lines.csn || frameOpen path, txen := false, trig := true } ∧
      (s.lines.csn = true → u.lines.csn = true)

/-- On a fallible access layer: a poll of the drain that fails, the first one in the step that starts
the drain or a later one, is reported without any cleanup, nothing having been written; a poll of
sendPacket that fails, and a closing write of `TX.6` that fails, are followed by the two closing writes,
and the failure is returned with its step, from the wait and from sendPacket's own first poll; the block
is idle and no register changes (42_receive_pipeline.md R179; 43_transmit_pipeline.md R203;
60_exceptions.md R224, R228, R230, R231; the drain's first moment: log 11). -/
def Obligations.FailedPollsAndClosingWrites : Prop :=
  (∀ (s : State) (c : Nat) (m : Moment), s.framer = none → s.busy = true → s.seq = .rxWait c →
    s.params.halFallible = true → s.env[0]? = some m → m.fail = true →
    ∃ t, step s = .next t ∧ t.trace = s.trace ++ [.rFailed .dr, .f (.halFailure [.rx1])] ∧
      t.lines = s.lines ∧ t.chip = s.chip ∧ t.replies = s.replies ∧
      SameRegisters s.present.finish t) ∧
  (∀ (s : State) (m n : Moment), Idle s → s.framer = none → s.params.halFallible = true →
    s.env[0]? = some m → s.env[1]? = some n → n.fail = true →
    (s.edgePend = true ∨ (s.watch = true ∧ m.edge = true)) →
    ∃ t, step s = .next t ∧ t.trace = s.trace ++ [.rFailed .dr, .f (.halFailure [.rx1])] ∧
      t.lines = s.lines ∧ t.chip = s.chip ∧ t.replies = s.replies ∧ Idle t ∧
      t.edgePend = (s.watch && n.edge) ∧
      SameRegisters { s.present with edgePend := t.edgePend } t) ∧
  (∀ (s : State) (c : Nat) (moments : List Moment) (tail : List Event) (label : StepLabel),
    s.framer = none → s.busy = true → s.seq = .txWait c → s.params.halFallible = true →
    ClosingFailure moments tail label → s.env.take moments.length = moments →
    ∃ t, step s = .next t ∧ t.trace = s.trace ++ tail ∧
      t.lines = { s.lines with txen := false, trig := true } ∧
      t.replies = s.replies ++ [.error (.halFailure [label])] ∧
      SameRegisters s.present.finish t) ∧
  ∀ (s : State) (a payload : List Byte) (moments : List Moment) (tail : List Event)
    (label : StepLabel), Idle s → s.inited = true → s.params.halFallible = true → 4 ≤ a.length →
    payload.length ≤ s.params.txPayloadMax → NoFailureWithin (17 + payload.length) s →
    ClosingFailure moments tail label →
    (s.env.drop (17 + payload.length)).take moments.length = moments →
    ∃ t, exec (.sendPacket a payload) s = .next t ∧ SameRegisters s t ∧
      t.lines = { pwr := true, csn := true, txen := false, trig := true } ∧
      outward t.trace = outward s.trace ++ transmitEvents s.params (a.take 4) payload ++ tail ∧
      t.replies = s.replies ++ [.error (.halFailure [label])]

/-- On any access layer init raises `INITED`, startReceiveMode arms and stopReceiveMode disarms the
watch exactly when the step that does so completed: a failure before it leaves the flag
(41_mode_controller.md R152, R155, R156). A cancellation that fails leaves the latch too, but for an
edge that its own moment carries under `WATCH = 1` (R156; 60_exceptions.md R230; log 11). No other register changes either way. -/
def Obligations.FailedOperationsLeaveTheirFlag : Prop :=
  ∀ s t : State, Idle s →
    (s.inited = false → exec .init s = .next t →
      SameRegisters { s with inited := t.inited } t ∧
      ((t.replies = s.replies ++ [.ok] ∧ t.inited = true) ∨
      ∃ path, t.replies = s.replies ++ [.error (.halFailure path)] ∧ t.inited = false)) ∧
    (s.inited = true → exec .startReceiveMode s = .next t →
      SameRegisters { s with watch := t.watch } t ∧
      ((t.replies = s.replies ++ [.ok] ∧ t.watch = true) ∨
      ∃ path, t.replies = s.replies ++ [.error (.halFailure path)] ∧ t.watch = s.watch)) ∧
    (s.inited = true → exec .stopReceiveMode s = .next t →
      SameRegisters { s with watch := t.watch, edgePend := t.edgePend } t ∧
      ((t.replies = s.replies ++ [.ok] ∧ t.watch = false ∧ t.edgePend = false) ∨
      (t.replies = s.replies ++ [.error (.halFailure [.xr1])] ∧ t.watch = s.watch ∧
        t.edgePend = (s.edgePend || (s.watch && s.here.edge))) ∨
      (t.replies = s.replies ++ [.error (.halFailure [.xr2])] ∧ t.watch = false ∧
        t.edgePend = false)))

/-- writeConfig on any access layer ends in ok with the mirror written, or in a failure with the
mirror left as it was, also where only the last line write failed, which is the model's reading
(40_command_framer.md R120; 20_memory.md R75 (b); log 10). -/
def Obligations.FailedConfigWriteLeavesTheMirror : Prop :=
  ∀ (s t : State) (k : Nat) (bytes : List Byte), Idle s → s.inited = true →
    s.cfg.length = 10 → k + bytes.length ≤ 10 → exec (.writeConfig k bytes) s = .next t →
    ((t.replies = s.replies ++ [.ok] ∧ MirrorWrittenAt s.cfg k bytes t.cfg) ∨
      ∃ path, t.replies = s.replies ++ [.error (.halFailure path)] ∧ t.cfg = s.cfg) ∧
    SameRegisters { s with cfg := t.cfg } t

/-! ### Whole-machine rules -/

/-- Each line, register, flag, list and buffer of 10_state.md R20 is written by an instruction only if
R20 lists it there, on any access layer and in any state, failures and cleanups included: of the
instructions only stopReceiveMode clears `EDGE_PEND`, and it is set under `WATCH = 1` only; only attach
and detach add to `DEFERQ`; none gives `RXBUF` a value, only sendPacket `TXBUF` and `TXADDR`; `BUSY` and
`SEQ` leave an instruction as they were, idle, or waiting in sendPacket. What the drain and the dispatch
write, which are no instructions, the statements about their steps say. -/
def Obligations.OnlyTheListedOperationsWrite : Prop :=
  ∀ (i : Instr) (s t : State), exec i s = .next t →
    (t.cfg ≠ s.cfg → (∃ a, i = .setAddress a) ∨ ∃ k b, i = .writeConfig k b) ∧
    (t.inited ≠ s.inited → i = .init) ∧
    (t.watch ≠ s.watch → i = .startReceiveMode ∨ i = .stopReceiveMode) ∧
    (t.reg ≠ s.reg →
      ∃ h, i = .attachReceivedCallback h ∨ i = .detachReceivedCallback h) ∧
    (t.lines.pwr ≠ s.lines.pwr → i = .init ∨ (∃ a, i = .setAddress a) ∨
      (∃ k b, i = .writeConfig k b) ∨ i = .powerUp ∨ i = .powerDown ∨ i = .startReceiveMode ∨
      ∃ a p, i = .sendPacket a p) ∧
    (t.lines.txen ≠ s.lines.txen → i = .startReceiveMode ∨ ∃ a p, i = .sendPacket a p) ∧
    (t.lines.trig ≠ s.lines.trig →
      i = .startReceiveMode ∨ (i = .stopReceiveMode ∧ s.params.exitRxToStandby = true) ∨
        ∃ a p, i = .sendPacket a p) ∧
    (t.lines.csn ≠ s.lines.csn → i ≠ .powerUp ∧ i ≠ .powerDown ∧ i ≠ .startReceiveMode ∧
      i ≠ .stopReceiveMode ∧ (∀ h, i ≠ .attachReceivedCallback h) ∧
      (∀ h, i ≠ .detachReceivedCallback h) ∧ i ≠ .unassignedB ∧ ∀ x, i ≠ .unassignedCToF x) ∧
    (s.inited = true → t.inited = true) ∧ t.params = s.params ∧ t.dispatching = s.dispatching ∧
    (s.edgePend = true → t.edgePend = false → i = .stopReceiveMode) ∧
    (s.edgePend = false → t.edgePend = true → s.watch = true) ∧
    (t.deferq ≠ s.deferq → s.dispatching = true ∧
      ∃ h, i = .attachReceivedCallback h ∨ i = .detachReceivedCallback h) ∧
    (t.rxbuf = s.rxbuf ∨ t.rxbuf = none) ∧
    (t.txbuf = s.txbuf ∨ t.txbuf = none ∨ ∃ a p, i = .sendPacket a p ∧ t.txbuf = some p) ∧
    (t.txaddr = s.txaddr ∨ t.txaddr = none ∨
      ∃ a p, i = .sendPacket a p ∧ t.txaddr = some (a.take 4)) ∧
    (t.busy ≠ s.busy → t.busy = true ∧ ∃ a p, i = .sendPacket a p) ∧
    (t.seq = s.seq ∨ t.seq = .idle ∨ (t.seq = .txWait 1 ∧ ∃ a p, i = .sendPacket a p)) ∧
    (t.port ≠ s.port → s.busy = true ∧ s.port = none) ∧ t.framer = s.framer ∧ t.host = s.host

/-- Before initialisation no host command but init touches a line, the bus or the chip
(10_state.md R29; 70_reset_and_hazards.md R261). -/
def Obligations.NothingMovesBeforeInit : Prop :=
  ∀ (c : PortCommand) (s t : State), s.inited = false →
    decodeCommand c ≠ .init → exec (decodeCommand c) s = .next t →
    t.trace = s.trace ∧ t.lines = s.lines ∧ t.chip = s.chip ∧ t.inited = false ∧
    t.watch = s.watch

/-- The modes that the host operations and the drain lead to, from any state with transmit-enable low,
on an access layer that does not fail (41_mode_controller.md R157, the column after the operation). -/
def Obligations.OperationsMoveTheModeAsTabled : Prop :=
  (∀ s : State, Idle s → s.inited = false → s.params.halFallible = false →
    (∀ t, s.lines.txen = false → s.lines.trig = false → exec .init s = .next t →
      t.mode = .standby) ∧
    (∀ a t, exec (.setAddress a) s = .next t → t.mode = s.mode)) ∧
  (∀ (s : State) (h : ConsumerId) (t : State),
    exec (.attachReceivedCallback h) s = .next t ∨ exec (.detachReceivedCallback h) s = .next t →
    t.mode = s.mode) ∧
  (∀ s : State, s.params.halFallible = false → s.lines.txen = false →
    (s.mode = .receiving → (drainRead s).mode = .receiving) ∧
    (s.mode = .poweredDown → (drainRead s).mode = .poweredDown ∧
      (drainRead s).lines.trig = true)) ∧
  ∀ s : State, Ready s → s.lines.txen = false →
    (∀ t, exec .powerDown s = .next t → t.mode = .poweredDown) ∧
    (∀ t, exec .startReceiveMode s = .next t → t.mode = .receiving) ∧
    (∀ t, exec .powerUp s = .next t →
      t.mode = if s.mode = .poweredDown then
        (if s.lines.trig then .receiving else .standby) else s.mode) ∧
    (∀ k bytes t, k + bytes.length ≤ 10 → exec (.writeConfig k bytes) s = .next t →
      t.mode = if s.mode = .poweredDown then
        (if s.lines.trig then .receiving else .standby) else s.mode) ∧
    (∀ a t, 4 ≤ a.length → exec (.setAddress a) s = .next t →
      t.mode = if s.mode = .poweredDown then
        (if s.lines.trig then .receiving else .standby) else s.mode) ∧
    (∀ t, exec .readConfig s = .next t → t.mode = s.mode) ∧
    (∀ t, exec .stopReceiveMode s = .next t → s.params.exitRxToStandby = false →
      t.mode = s.mode) ∧
    (∀ t, exec .stopReceiveMode s = .next t → s.params.exitRxToStandby = true →
      (s.mode = .receiving → t.mode = .standby) ∧
      (s.mode = .poweredDown → t.mode = .poweredDown ∧ t.lines.trig = false)) ∧
    (∀ a payload t, 4 ≤ a.length → payload.length ≤ s.params.txPayloadMax →
      exec (.sendPacket a payload) s = .next t →
      t.mode = if t.busy then .transmitting else .receiving)

/-- Every instruction answers a next state in every state, on any access layer: no operand, no mode and
no answer of the environment ends a run. The one exception is a read-config frame that would read a byte
without a value (10_state.md R44; log 13). -/
def Obligations.EveryInstructionAnswersANextState : Prop :=
  ∀ (i : Instr) (s : State), (i ≠ .rc ∧ i ≠ .readConfig ∨ ConfigHasValues s) →
    ∃ t, exec i s = .next t

/-- A state that meets the invariant has a next state: no step faults or refuses. -/
def Obligations.StepNeverStops : Prop := ∀ s : State, RegistersOk s → ∃ t, step s = .next t

/-- Every step keeps the invariant of the registers and flags, on any access layer: a record that keeps
its constraints, ten mirror bytes, flags that fit the sequencer position, no transient value in an idle
block, a latched edge only under an armed watch, no call at the framer's internal port (log 4),
canonical chip-side spaces and, once initialised, a chip-side value for every configuration byte (log 12)
(10_state.md R42 (d), (f), (g); 42_receive_pipeline.md R171). -/
def Obligations.StepKeepsInvariant : Prop :=
  ∀ s t : State, RegistersOk s → step s = .next t → RegistersOk t

/-- On an access layer that does not fail, every step leaves chip-select released, transmit-enable
low outside sendPacket, and the waiting levels of sendPacket (10_state.md R42 (a), (h)). -/
def Obligations.StepKeepsLineInvariant : Prop :=
  ∀ s t : State, RegistersOk s → LinesOk s → s.params.halFallible = false → step s = .next t →
    LinesOk t

/-- On an access layer that does not fail, every step keeps the trace well framed: chip-select
alternates, every transfer lies in a frame, every frame starts with an instruction byte the block may
emit and has its number of bytes, a receive read is spaced, nothing is delivered inside a frame
(10_state.md R42 (b), (c), (e); 30_encoding.md R100, R101; 40_command_framer.md R128). -/
def Obligations.StepKeepsTraceWellFramed : Prop :=
  ∀ s t : State, RegistersOk s → s.params.halFallible = false → WellFramed s →
    step s = .next t → WellFramed t

/-- No step takes back what was observed, or changes the configuration record, or uninitialises the
block (20_memory.md R68; 00_scope.md R5; 10_state.md R29). -/
def Obligations.HistoryOnlyGrows : Prop :=
  ∀ s t : State, step s = .next t →
    (∃ evs, t.trace = s.trace ++ evs) ∧ (∃ rs, t.replies = s.replies ++ rs) ∧
    t.params = s.params ∧ (s.inited = true → t.inited = true)

/-- With the reference environment answering: setAddress of four bytes, then readConfig, gives those
four bytes at offsets 5 to 8: true of the reference environment, not of every chip (20_memory.md R71;
log 12). -/
def Obligations.ReadBackOfTheAddress : Prop :=
  ∀ (s t u : State) (a : List Byte), Ready s → a.length = 4 → 22 ≤ s.env.length →
    (∀ m ∈ s.env, m.inbound = none) → exec (.setAddress a) s = .next t →
    exec .readConfig t = .next u →
    ∃ data, u.replies = t.replies ++ [.bytes data] ∧ data.length = 10 ∧ (data.drop 5).take 4 = a
end

