-- ==== Sys2Proof/Laws/Memory.lean ====
section
/-! SUPPORT. Chip-side memory: read after write, and the canonical form kept by every operation. -/

namespace Sys2Proof.Machine

@[simp] theorem Memory.read_nil (x : Nat) : Memory.read [] x = none := rfl

theorem Memory.read_write_same (m : Memory) (x : Nat) (v : Byte) :
    Memory.read (Memory.write m x v) x = some v := by
  induction m with
  | nil => simp [Memory.write, Memory.read]
  | cons e m ih =>
    obtain ⟨a, b⟩ := e
    simp only [Memory.write]
    split
    · simp [Memory.read]
    · split
      · simp [Memory.read]
      · rename_i h
        simp [Memory.read, h, ih]

theorem Memory.read_write_other (m : Memory) (x y : Nat) (v : Byte) (h : y ≠ x) :
    Memory.read (Memory.write m x v) y = Memory.read m y := by
  induction m with
  | nil => simp [Memory.write, Memory.read, h]
  | cons e m ih =>
    obtain ⟨a, b⟩ := e
    simp only [Memory.write]
    split
    · simp [Memory.read, h]
    · split
      · rename_i hx
        subst hx
        simp [Memory.read, h]
      · simp [Memory.read, ih]

/-- The one law of reads after writes. -/
theorem Memory.read_write (m : Memory) (x y : Nat) (v : Byte) :
    Memory.read (Memory.write m x v) y = if y = x then some v else Memory.read m y := by
  split
  · rename_i h
    exact h ▸ Memory.read_write_same m _ v
  · rename_i h
    exact Memory.read_write_other m x y v h

theorem Memory.mem_write {m : Memory} {x : Nat} {v : Byte} {e : Host.Cell}
    (h : e ∈ Memory.write m x v) : e = (x, v) ∨ e ∈ m := by
  induction m with
  | nil => simpa [Memory.write] using h
  | cons c m ih =>
    obtain ⟨a, b⟩ := c
    simp only [Memory.write] at h
    split at h
    · simpa using h
    · split at h
      · rcases List.mem_cons.mp h with h | h
        · exact .inl h
        · exact .inr (List.mem_cons_of_mem _ h)
      · rcases List.mem_cons.mp h with h | h
        · exact .inr (h ▸ List.mem_cons_self)
        · rcases ih h with h | h
          · exact .inl h
          · exact .inr (List.mem_cons_of_mem _ h)

theorem Memory.wf_write (m : Memory) (x : Nat) (v : Byte) (h : Memory.wf m = true) :
    Memory.wf (Memory.write m x v) = true := by
  simp only [Memory.wf, decide_eq_true_eq] at h ⊢
  induction m with
  | nil => simp [Memory.write]
  | cons c m ih =>
    obtain ⟨a, b⟩ := c
    rw [List.pairwise_cons] at h
    obtain ⟨hlt, hm⟩ := h
    simp only [Memory.write]
    split
    · rename_i hx
      refine List.pairwise_cons.mpr ⟨?_, List.pairwise_cons.mpr ⟨hlt, hm⟩⟩
      intro e he
      rcases List.mem_cons.mp he with rfl | he
      · exact hx
      · exact Nat.lt_trans hx (hlt e he)
    · split
      · rename_i hx
        subst hx
        exact List.pairwise_cons.mpr ⟨hlt, hm⟩
      · rename_i h1 h2
        refine List.pairwise_cons.mpr ⟨?_, ih hm⟩
        intro e he
        rcases Memory.mem_write he with rfl | he
        · show a < x
          omega
        · exact hlt e he

theorem Chip.wf_store (p : Params) (op : ChipOp) (j : Nat) (o : Byte) (c : Chip)
    (h : c.wf = true) : (c.store p op j o).wf = true := by
  simp only [Chip.wf, Bool.and_eq_true] at h
  obtain ⟨⟨⟨h1, h2⟩, h3⟩, h4⟩ := h
  cases op <;> simp only [Chip.store] <;> (try split) <;>
    simp [Chip.wf, h1, h2, h3, h4, Memory.wf_write]

theorem Chip.wf_release (c : Chip) (h : c.wf = true) : c.release.wf = true := by
  simp only [Chip.release]
  split
  · simp only [Chip.wf, Bool.and_eq_true] at h ⊢
    exact ⟨h.1, rfl⟩
  · exact h

theorem Chip.wf_trigger (ls : Lines) (c : Chip) (h : c.wf = true) : (c.trigger ls).wf = true := by
  simp only [Chip.trigger]
  split
  · simp only [Chip.wf, Bool.and_eq_true] at h ⊢
    exact ⟨⟨⟨h.1.1.1, rfl⟩, rfl⟩, h.2⟩
  · exact h

/-- Following an event keeps the chip-side spaces canonical. -/
theorem Chip.wf_observe (p : Params) (ls : Lines) (e : Event) (c : Chip) (h : c.wf = true) :
    (c.observe p ls e).wf = true := by
  cases e with
  | w l v =>
    cases l <;> cases v <;>
      first
        | exact h
        | exact Chip.wf_release c h
        | exact Chip.wf_trigger ls c h
  | x o i =>
    simp only [Chip.observe, Chip.transfer]
    split
    · exact h
    · exact h
    · exact Chip.wf_store p _ _ o c h
  | _ => exact h

/-! ### A byte of `CONFIG` that has a value keeps having one -/

theorem Memory.isSome_write (m : Memory) (x y : Nat) (v : Byte)
    (h : (Memory.read m y).isSome = true) : (Memory.read (Memory.write m x v) y).isSome = true := by
  rw [Memory.read_write]
  split
  · rfl
  · exact h

theorem Chip.configHeld_store (p : Params) (op : ChipOp) (j : Nat) (o : Byte) (c : Chip) (y : Nat)
    (h : (Memory.read c.config y).isSome = true) :
    (Memory.read (c.store p op j o).config y).isSome = true := by
  cases op <;> simp only [Chip.store] <;> (try split) <;>
    first
      | exact h
      | exact Memory.isSome_write _ _ _ _ h

@[simp] theorem Chip.release_config (c : Chip) : c.release.config = c.config := by
  simp only [Chip.release]
  split <;> rfl

@[simp] theorem Chip.release_txPayload (c : Chip) : c.release.txPayload = c.txPayload := by
  simp only [Chip.release]
  split <;> rfl

@[simp] theorem Chip.release_txAddress (c : Chip) : c.release.txAddress = c.txAddress := by
  simp only [Chip.release]
  split <;> rfl

@[simp] theorem Chip.release_frame (c : Chip) : c.release.frame = .released := by
  simp only [Chip.release]
  split <;> rfl

/-- The packet buffer is emptied by the end of a read-received-payload frame (20_memory.md R67). -/
theorem Chip.release_readPayload {c : Chip} {n : Nat} (h : c.frame = .transfer .readPayload n) :
    c.release = { c with rxPayload := [], frame := .released } := by
  rw [Chip.release, h]

/-- No other end of a frame empties it. -/
theorem Chip.release_other {c : Chip} (h : ∀ n, c.frame ≠ .transfer .readPayload n) :
    c.release = { c with frame := .released } := by
  rw [Chip.release]
  split
  · exact absurd ‹_› (h _)
  · rfl

@[simp] theorem Chip.trigger_config (ls : Lines) (c : Chip) : (c.trigger ls).config = c.config := by
  simp only [Chip.trigger]
  split <;> rfl

@[simp] theorem Chip.trigger_rxPayload (ls : Lines) (c : Chip) :
    (c.trigger ls).rxPayload = c.rxPayload := by
  simp only [Chip.trigger]
  split <;> rfl

@[simp] theorem Chip.trigger_frame (ls : Lines) (c : Chip) : (c.trigger ls).frame = c.frame := by
  simp only [Chip.trigger]
  split <;> rfl

/-- Following an event, the reference environment forgets no byte of `CONFIG`. -/
theorem Chip.configHeld_observe (p : Params) (ls : Lines) (e : Event) (c : Chip) (y : Nat)
    (h : (Memory.read c.config y).isSome = true) :
    (Memory.read (c.observe p ls e).config y).isSome = true := by
  cases e with
  | w l v => cases l <;> cases v <;> simpa [Chip.observe] using h
  | x o i =>
    simp only [Chip.observe, Chip.transfer]
    split
    · exact h
    · exact h
    · exact Chip.configHeld_store p _ _ o c y h
  | _ => exact h

end Sys2Proof.Machine
end

