-- ==== Sys2Proof/Laws/State.lean ====
section
/-! SUPPORT. The named record updates, field by field: what each leaves and what it writes. -/

namespace Sys2Proof.Machine

@[simp] theorem State.emit_params (e : Event) (s : State) : (State.emit e s).params = s.params := rfl
@[simp] theorem State.emit_lines (e : Event) (s : State) : (State.emit e s).lines = s.lines := rfl
@[simp] theorem State.emit_cfg (e : Event) (s : State) : (State.emit e s).cfg = s.cfg := rfl
@[simp] theorem State.emit_inited (e : Event) (s : State) : (State.emit e s).inited = s.inited := rfl
@[simp] theorem State.emit_watch (e : Event) (s : State) : (State.emit e s).watch = s.watch := rfl
@[simp] theorem State.emit_edgePend (e : Event) (s : State) : (State.emit e s).edgePend = s.edgePend := rfl
@[simp] theorem State.emit_busy (e : Event) (s : State) : (State.emit e s).busy = s.busy := rfl
@[simp] theorem State.emit_seq (e : Event) (s : State) : (State.emit e s).seq = s.seq := rfl
@[simp] theorem State.emit_reg (e : Event) (s : State) : (State.emit e s).reg = s.reg := rfl
@[simp] theorem State.emit_dispatching (e : Event) (s : State) : (State.emit e s).dispatching = s.dispatching := rfl
@[simp] theorem State.emit_deferq (e : Event) (s : State) : (State.emit e s).deferq = s.deferq := rfl
@[simp] theorem State.emit_rxbuf (e : Event) (s : State) : (State.emit e s).rxbuf = s.rxbuf := rfl
@[simp] theorem State.emit_txbuf (e : Event) (s : State) : (State.emit e s).txbuf = s.txbuf := rfl
@[simp] theorem State.emit_txaddr (e : Event) (s : State) : (State.emit e s).txaddr = s.txaddr := rfl
@[simp] theorem State.emit_chip (e : Event) (s : State) : (State.emit e s).chip = s.chip.observe s.params s.lines e := rfl
@[simp] theorem State.emit_port (e : Event) (s : State) : (State.emit e s).port = s.port := rfl
@[simp] theorem State.emit_framer (e : Event) (s : State) : (State.emit e s).framer = s.framer := rfl
@[simp] theorem State.emit_host (e : Event) (s : State) : (State.emit e s).host = s.host := rfl
@[simp] theorem State.emit_env (e : Event) (s : State) : (State.emit e s).env = s.env := rfl
@[simp] theorem State.emit_tick (e : Event) (s : State) : (State.emit e s).tick = s.tick := rfl
@[simp] theorem State.emit_trace (e : Event) (s : State) : (State.emit e s).trace = s.trace ++ [e] := rfl
@[simp] theorem State.emit_replies (e : Event) (s : State) : (State.emit e s).replies = s.replies := rfl

@[simp] theorem State.setLine_params (l : OutLine) (v : Level) (s : State) : (State.setLine l v s).params = s.params := rfl
@[simp] theorem State.setLine_lines (l : OutLine) (v : Level) (s : State) : (State.setLine l v s).lines = s.lines.set l v := rfl
@[simp] theorem State.setLine_cfg (l : OutLine) (v : Level) (s : State) : (State.setLine l v s).cfg = s.cfg := rfl
@[simp] theorem State.setLine_inited (l : OutLine) (v : Level) (s : State) : (State.setLine l v s).inited = s.inited := rfl
@[simp] theorem State.setLine_watch (l : OutLine) (v : Level) (s : State) : (State.setLine l v s).watch = s.watch := rfl
@[simp] theorem State.setLine_edgePend (l : OutLine) (v : Level) (s : State) : (State.setLine l v s).edgePend = s.edgePend := rfl
@[simp] theorem State.setLine_busy (l : OutLine) (v : Level) (s : State) : (State.setLine l v s).busy = s.busy := rfl
@[simp] theorem State.setLine_seq (l : OutLine) (v : Level) (s : State) : (State.setLine l v s).seq = s.seq := rfl
@[simp] theorem State.setLine_reg (l : OutLine) (v : Level) (s : State) : (State.setLine l v s).reg = s.reg := rfl
@[simp] theorem State.setLine_dispatching (l : OutLine) (v : Level) (s : State) : (State.setLine l v s).dispatching = s.dispatching := rfl
@[simp] theorem State.setLine_deferq (l : OutLine) (v : Level) (s : State) : (State.setLine l v s).deferq = s.deferq := rfl
@[simp] theorem State.setLine_rxbuf (l : OutLine) (v : Level) (s : State) : (State.setLine l v s).rxbuf = s.rxbuf := rfl
@[simp] theorem State.setLine_txbuf (l : OutLine) (v : Level) (s : State) : (State.setLine l v s).txbuf = s.txbuf := rfl
@[simp] theorem State.setLine_txaddr (l : OutLine) (v : Level) (s : State) : (State.setLine l v s).txaddr = s.txaddr := rfl
@[simp] theorem State.setLine_chip (l : OutLine) (v : Level) (s : State) : (State.setLine l v s).chip = s.chip := rfl
@[simp] theorem State.setLine_port (l : OutLine) (v : Level) (s : State) : (State.setLine l v s).port = s.port := rfl
@[simp] theorem State.setLine_framer (l : OutLine) (v : Level) (s : State) : (State.setLine l v s).framer = s.framer := rfl
@[simp] theorem State.setLine_host (l : OutLine) (v : Level) (s : State) : (State.setLine l v s).host = s.host := rfl
@[simp] theorem State.setLine_env (l : OutLine) (v : Level) (s : State) : (State.setLine l v s).env = s.env := rfl
@[simp] theorem State.setLine_tick (l : OutLine) (v : Level) (s : State) : (State.setLine l v s).tick = s.tick := rfl
@[simp] theorem State.setLine_trace (l : OutLine) (v : Level) (s : State) : (State.setLine l v s).trace = s.trace := rfl
@[simp] theorem State.setLine_replies (l : OutLine) (v : Level) (s : State) : (State.setLine l v s).replies = s.replies := rfl

@[simp] theorem State.latchEdge_params (rose : Bool) (s : State) : (State.latchEdge rose s).params = s.params := rfl
@[simp] theorem State.latchEdge_lines (rose : Bool) (s : State) : (State.latchEdge rose s).lines = s.lines := rfl
@[simp] theorem State.latchEdge_cfg (rose : Bool) (s : State) : (State.latchEdge rose s).cfg = s.cfg := rfl
@[simp] theorem State.latchEdge_inited (rose : Bool) (s : State) : (State.latchEdge rose s).inited = s.inited := rfl
@[simp] theorem State.latchEdge_watch (rose : Bool) (s : State) : (State.latchEdge rose s).watch = s.watch := rfl
@[simp] theorem State.latchEdge_edgePend (rose : Bool) (s : State) : (State.latchEdge rose s).edgePend = (s.edgePend || (s.watch && rose)) := rfl
@[simp] theorem State.latchEdge_busy (rose : Bool) (s : State) : (State.latchEdge rose s).busy = s.busy := rfl
@[simp] theorem State.latchEdge_seq (rose : Bool) (s : State) : (State.latchEdge rose s).seq = s.seq := rfl
@[simp] theorem State.latchEdge_reg (rose : Bool) (s : State) : (State.latchEdge rose s).reg = s.reg := rfl
@[simp] theorem State.latchEdge_dispatching (rose : Bool) (s : State) : (State.latchEdge rose s).dispatching = s.dispatching := rfl
@[simp] theorem State.latchEdge_deferq (rose : Bool) (s : State) : (State.latchEdge rose s).deferq = s.deferq := rfl
@[simp] theorem State.latchEdge_rxbuf (rose : Bool) (s : State) : (State.latchEdge rose s).rxbuf = s.rxbuf := rfl
@[simp] theorem State.latchEdge_txbuf (rose : Bool) (s : State) : (State.latchEdge rose s).txbuf = s.txbuf := rfl
@[simp] theorem State.latchEdge_txaddr (rose : Bool) (s : State) : (State.latchEdge rose s).txaddr = s.txaddr := rfl
@[simp] theorem State.latchEdge_chip (rose : Bool) (s : State) : (State.latchEdge rose s).chip = s.chip := rfl
@[simp] theorem State.latchEdge_port (rose : Bool) (s : State) : (State.latchEdge rose s).port = s.port := rfl
@[simp] theorem State.latchEdge_framer (rose : Bool) (s : State) : (State.latchEdge rose s).framer = s.framer := rfl
@[simp] theorem State.latchEdge_host (rose : Bool) (s : State) : (State.latchEdge rose s).host = s.host := rfl
@[simp] theorem State.latchEdge_env (rose : Bool) (s : State) : (State.latchEdge rose s).env = s.env := rfl
@[simp] theorem State.latchEdge_tick (rose : Bool) (s : State) : (State.latchEdge rose s).tick = s.tick := rfl
@[simp] theorem State.latchEdge_trace (rose : Bool) (s : State) : (State.latchEdge rose s).trace = s.trace := rfl
@[simp] theorem State.latchEdge_replies (rose : Bool) (s : State) : (State.latchEdge rose s).replies = s.replies := rfl

@[simp] theorem State.advance_params (s : State) : (State.advance s).params = s.params := rfl
@[simp] theorem State.advance_lines (s : State) : (State.advance s).lines = s.lines := rfl
@[simp] theorem State.advance_cfg (s : State) : (State.advance s).cfg = s.cfg := rfl
@[simp] theorem State.advance_inited (s : State) : (State.advance s).inited = s.inited := rfl
@[simp] theorem State.advance_watch (s : State) : (State.advance s).watch = s.watch := rfl
@[simp] theorem State.advance_edgePend (s : State) : (State.advance s).edgePend = (s.edgePend || (s.watch && s.here.edge)) := rfl
@[simp] theorem State.advance_busy (s : State) : (State.advance s).busy = s.busy := rfl
@[simp] theorem State.advance_seq (s : State) : (State.advance s).seq = s.seq := rfl
@[simp] theorem State.advance_reg (s : State) : (State.advance s).reg = s.reg := rfl
@[simp] theorem State.advance_dispatching (s : State) : (State.advance s).dispatching = s.dispatching := rfl
@[simp] theorem State.advance_deferq (s : State) : (State.advance s).deferq = s.deferq := rfl
@[simp] theorem State.advance_rxbuf (s : State) : (State.advance s).rxbuf = s.rxbuf := rfl
@[simp] theorem State.advance_txbuf (s : State) : (State.advance s).txbuf = s.txbuf := rfl
@[simp] theorem State.advance_txaddr (s : State) : (State.advance s).txaddr = s.txaddr := rfl
@[simp] theorem State.advance_chip (s : State) : (State.advance s).chip = s.chip := rfl
@[simp] theorem State.advance_port (s : State) : (State.advance s).port = s.port := rfl
@[simp] theorem State.advance_framer (s : State) : (State.advance s).framer = s.framer := rfl
@[simp] theorem State.advance_host (s : State) : (State.advance s).host = s.host := rfl
@[simp] theorem State.advance_env (s : State) : (State.advance s).env = s.env.tail := rfl
@[simp] theorem State.advance_tick (s : State) : (State.advance s).tick = s.tick + 1 := rfl
@[simp] theorem State.advance_trace (s : State) : (State.advance s).trace = s.trace := rfl
@[simp] theorem State.advance_replies (s : State) : (State.advance s).replies = s.replies := rfl

@[simp] theorem State.reply_params (r : Reply) (s : State) : (State.reply r s).params = s.params := rfl
@[simp] theorem State.reply_lines (r : Reply) (s : State) : (State.reply r s).lines = s.lines := rfl
@[simp] theorem State.reply_cfg (r : Reply) (s : State) : (State.reply r s).cfg = s.cfg := rfl
@[simp] theorem State.reply_inited (r : Reply) (s : State) : (State.reply r s).inited = s.inited := rfl
@[simp] theorem State.reply_watch (r : Reply) (s : State) : (State.reply r s).watch = s.watch := rfl
@[simp] theorem State.reply_edgePend (r : Reply) (s : State) : (State.reply r s).edgePend = s.edgePend := rfl
@[simp] theorem State.reply_busy (r : Reply) (s : State) : (State.reply r s).busy = s.busy := rfl
@[simp] theorem State.reply_seq (r : Reply) (s : State) : (State.reply r s).seq = s.seq := rfl
@[simp] theorem State.reply_reg (r : Reply) (s : State) : (State.reply r s).reg = s.reg := rfl
@[simp] theorem State.reply_dispatching (r : Reply) (s : State) : (State.reply r s).dispatching = s.dispatching := rfl
@[simp] theorem State.reply_deferq (r : Reply) (s : State) : (State.reply r s).deferq = s.deferq := rfl
@[simp] theorem State.reply_rxbuf (r : Reply) (s : State) : (State.reply r s).rxbuf = s.rxbuf := rfl
@[simp] theorem State.reply_txbuf (r : Reply) (s : State) : (State.reply r s).txbuf = s.txbuf := rfl
@[simp] theorem State.reply_txaddr (r : Reply) (s : State) : (State.reply r s).txaddr = s.txaddr := rfl
@[simp] theorem State.reply_chip (r : Reply) (s : State) : (State.reply r s).chip = s.chip := rfl
@[simp] theorem State.reply_port (r : Reply) (s : State) : (State.reply r s).port = s.port := rfl
@[simp] theorem State.reply_framer (r : Reply) (s : State) : (State.reply r s).framer = s.framer := rfl
@[simp] theorem State.reply_host (r : Reply) (s : State) : (State.reply r s).host = s.host := rfl
@[simp] theorem State.reply_env (r : Reply) (s : State) : (State.reply r s).env = s.env := rfl
@[simp] theorem State.reply_tick (r : Reply) (s : State) : (State.reply r s).tick = s.tick := rfl
@[simp] theorem State.reply_trace (r : Reply) (s : State) : (State.reply r s).trace = s.trace := rfl
@[simp] theorem State.reply_replies (r : Reply) (s : State) : (State.reply r s).replies = s.replies ++ [r] := rfl

@[simp] theorem State.finish_params (s : State) : (State.finish s).params = s.params := rfl
@[simp] theorem State.finish_lines (s : State) : (State.finish s).lines = s.lines := rfl
@[simp] theorem State.finish_cfg (s : State) : (State.finish s).cfg = s.cfg := rfl
@[simp] theorem State.finish_inited (s : State) : (State.finish s).inited = s.inited := rfl
@[simp] theorem State.finish_watch (s : State) : (State.finish s).watch = s.watch := rfl
@[simp] theorem State.finish_edgePend (s : State) : (State.finish s).edgePend = s.edgePend := rfl
@[simp] theorem State.finish_busy (s : State) : (State.finish s).busy = false := rfl
@[simp] theorem State.finish_seq (s : State) : (State.finish s).seq = .idle := rfl
@[simp] theorem State.finish_reg (s : State) : (State.finish s).reg = s.reg := rfl
@[simp] theorem State.finish_dispatching (s : State) : (State.finish s).dispatching = s.dispatching := rfl
@[simp] theorem State.finish_deferq (s : State) : (State.finish s).deferq = s.deferq := rfl
@[simp] theorem State.finish_rxbuf (s : State) : (State.finish s).rxbuf = none := rfl
@[simp] theorem State.finish_txbuf (s : State) : (State.finish s).txbuf = none := rfl
@[simp] theorem State.finish_txaddr (s : State) : (State.finish s).txaddr = none := rfl
@[simp] theorem State.finish_chip (s : State) : (State.finish s).chip = s.chip := rfl
@[simp] theorem State.finish_port (s : State) : (State.finish s).port = s.port := rfl
@[simp] theorem State.finish_framer (s : State) : (State.finish s).framer = s.framer := rfl
@[simp] theorem State.finish_host (s : State) : (State.finish s).host = s.host := rfl
@[simp] theorem State.finish_env (s : State) : (State.finish s).env = s.env := rfl
@[simp] theorem State.finish_tick (s : State) : (State.finish s).tick = s.tick := rfl
@[simp] theorem State.finish_trace (s : State) : (State.finish s).trace = s.trace := rfl
@[simp] theorem State.finish_replies (s : State) : (State.finish s).replies = s.replies := rfl

@[simp] theorem State.begin_params (s : State) : (State.begin s).params = s.params := rfl
@[simp] theorem State.begin_lines (s : State) : (State.begin s).lines = s.lines := rfl
@[simp] theorem State.begin_cfg (s : State) : (State.begin s).cfg = s.cfg := rfl
@[simp] theorem State.begin_inited (s : State) : (State.begin s).inited = s.inited := rfl
@[simp] theorem State.begin_watch (s : State) : (State.begin s).watch = s.watch := rfl
@[simp] theorem State.begin_edgePend (s : State) : (State.begin s).edgePend = s.edgePend := rfl
@[simp] theorem State.begin_busy (s : State) : (State.begin s).busy = true := rfl
@[simp] theorem State.begin_seq (s : State) : (State.begin s).seq = s.seq := rfl
@[simp] theorem State.begin_reg (s : State) : (State.begin s).reg = s.reg := rfl
@[simp] theorem State.begin_dispatching (s : State) : (State.begin s).dispatching = s.dispatching := rfl
@[simp] theorem State.begin_deferq (s : State) : (State.begin s).deferq = s.deferq := rfl
@[simp] theorem State.begin_rxbuf (s : State) : (State.begin s).rxbuf = s.rxbuf := rfl
@[simp] theorem State.begin_txbuf (s : State) : (State.begin s).txbuf = s.txbuf := rfl
@[simp] theorem State.begin_txaddr (s : State) : (State.begin s).txaddr = s.txaddr := rfl
@[simp] theorem State.begin_chip (s : State) : (State.begin s).chip = s.chip := rfl
@[simp] theorem State.begin_port (s : State) : (State.begin s).port = s.port := rfl
@[simp] theorem State.begin_framer (s : State) : (State.begin s).framer = s.framer := rfl
@[simp] theorem State.begin_host (s : State) : (State.begin s).host = s.host := rfl
@[simp] theorem State.begin_env (s : State) : (State.begin s).env = s.env := rfl
@[simp] theorem State.begin_tick (s : State) : (State.begin s).tick = s.tick := rfl
@[simp] theorem State.begin_trace (s : State) : (State.begin s).trace = s.trace := rfl
@[simp] theorem State.begin_replies (s : State) : (State.begin s).replies = s.replies := rfl

@[simp] theorem State.takePort_params (s : State) : (State.takePort s).params = s.params := rfl
@[simp] theorem State.takePort_lines (s : State) : (State.takePort s).lines = s.lines := rfl
@[simp] theorem State.takePort_cfg (s : State) : (State.takePort s).cfg = s.cfg := rfl
@[simp] theorem State.takePort_inited (s : State) : (State.takePort s).inited = s.inited := rfl
@[simp] theorem State.takePort_watch (s : State) : (State.takePort s).watch = s.watch := rfl
@[simp] theorem State.takePort_edgePend (s : State) : (State.takePort s).edgePend = s.edgePend := rfl
@[simp] theorem State.takePort_busy (s : State) : (State.takePort s).busy = s.busy := rfl
@[simp] theorem State.takePort_seq (s : State) : (State.takePort s).seq = s.seq := rfl
@[simp] theorem State.takePort_reg (s : State) : (State.takePort s).reg = s.reg := rfl
@[simp] theorem State.takePort_dispatching (s : State) : (State.takePort s).dispatching = s.dispatching := rfl
@[simp] theorem State.takePort_deferq (s : State) : (State.takePort s).deferq = s.deferq := rfl
@[simp] theorem State.takePort_rxbuf (s : State) : (State.takePort s).rxbuf = s.rxbuf := rfl
@[simp] theorem State.takePort_txbuf (s : State) : (State.takePort s).txbuf = s.txbuf := rfl
@[simp] theorem State.takePort_txaddr (s : State) : (State.takePort s).txaddr = s.txaddr := rfl
@[simp] theorem State.takePort_chip (s : State) : (State.takePort s).chip = s.chip := rfl
@[simp] theorem State.takePort_port (s : State) : (State.takePort s).port = none := rfl
@[simp] theorem State.takePort_framer (s : State) : (State.takePort s).framer = s.framer := rfl
@[simp] theorem State.takePort_host (s : State) : (State.takePort s).host = s.host := rfl
@[simp] theorem State.takePort_env (s : State) : (State.takePort s).env = s.env := rfl
@[simp] theorem State.takePort_tick (s : State) : (State.takePort s).tick = s.tick := rfl
@[simp] theorem State.takePort_trace (s : State) : (State.takePort s).trace = s.trace := rfl
@[simp] theorem State.takePort_replies (s : State) : (State.takePort s).replies = s.replies := rfl

@[simp] theorem applyDeferred_params (s : State) : (applyDeferred s).params = s.params := rfl
@[simp] theorem applyDeferred_lines (s : State) : (applyDeferred s).lines = s.lines := rfl
@[simp] theorem applyDeferred_cfg (s : State) : (applyDeferred s).cfg = s.cfg := rfl
@[simp] theorem applyDeferred_inited (s : State) : (applyDeferred s).inited = s.inited := rfl
@[simp] theorem applyDeferred_watch (s : State) : (applyDeferred s).watch = s.watch := rfl
@[simp] theorem applyDeferred_edgePend (s : State) : (applyDeferred s).edgePend = s.edgePend := rfl
@[simp] theorem applyDeferred_busy (s : State) : (applyDeferred s).busy = s.busy := rfl
@[simp] theorem applyDeferred_seq (s : State) : (applyDeferred s).seq = s.seq := rfl
@[simp] theorem applyDeferred_reg (s : State) : (applyDeferred s).reg = s.deferq.foldl registryAfter s.reg := rfl
@[simp] theorem applyDeferred_dispatching (s : State) : (applyDeferred s).dispatching = false := rfl
@[simp] theorem applyDeferred_deferq (s : State) : (applyDeferred s).deferq = [] := rfl
@[simp] theorem applyDeferred_rxbuf (s : State) : (applyDeferred s).rxbuf = s.rxbuf := rfl
@[simp] theorem applyDeferred_txbuf (s : State) : (applyDeferred s).txbuf = s.txbuf := rfl
@[simp] theorem applyDeferred_txaddr (s : State) : (applyDeferred s).txaddr = s.txaddr := rfl
@[simp] theorem applyDeferred_chip (s : State) : (applyDeferred s).chip = s.chip := rfl
@[simp] theorem applyDeferred_port (s : State) : (applyDeferred s).port = s.port := rfl
@[simp] theorem applyDeferred_framer (s : State) : (applyDeferred s).framer = s.framer := rfl
@[simp] theorem applyDeferred_host (s : State) : (applyDeferred s).host = s.host := rfl
@[simp] theorem applyDeferred_env (s : State) : (applyDeferred s).env = s.env := rfl
@[simp] theorem applyDeferred_tick (s : State) : (applyDeferred s).tick = s.tick := rfl
@[simp] theorem applyDeferred_trace (s : State) : (applyDeferred s).trace = s.trace := rfl
@[simp] theorem applyDeferred_replies (s : State) : (applyDeferred s).replies = s.replies := rfl

end Sys2Proof.Machine
end

