-- ==== Sys2Proof/Laws/Run.lean ====
section
/-! SUPPORT. Runs of primitives that all complete: what the state after them is, as a function of the
events they emit. `Ran n evs s t`: `n` micro-steps led from `s` to `t` and emitted `evs`. -/

namespace Sys2Proof.Machine

/-! ### Lines and reference environment as functions of the events -/

/-- The lines after an event. -/
def lineAfter (ls : Lines) : Event → Lines
  | .w l v => ls.set l v
  | _ => ls

/-- The lines after events. -/
def linesAfter (ls : Lines) (evs : List Event) : Lines := evs.foldl lineAfter ls

/-- The reference environment after events that find the lines at `ls`. -/
def chipAfter (p : Params) : Lines → Chip → List Event → Chip
  | _, c, [] => c
  | ls, c, e :: es => chipAfter p (lineAfter ls e) (c.observe p ls e) es

@[simp] theorem linesAfter_nil (ls : Lines) : linesAfter ls [] = ls := rfl
@[simp] theorem linesAfter_cons (ls : Lines) (e : Event) (es : List Event) :
    linesAfter ls (e :: es) = linesAfter (lineAfter ls e) es := rfl
@[simp] theorem linesAfter_append (ls : Lines) (es fs : List Event) :
    linesAfter ls (es ++ fs) = linesAfter (linesAfter ls es) fs := List.foldl_append
@[simp] theorem chipAfter_nil (p : Params) (ls : Lines) (c : Chip) : chipAfter p ls c [] = c := rfl
@[simp] theorem chipAfter_cons (p : Params) (ls : Lines) (c : Chip) (e : Event) (es : List Event) :
    chipAfter p ls c (e :: es) = chipAfter p (lineAfter ls e) (c.observe p ls e) es := rfl
@[simp] theorem chipAfter_append (p : Params) (ls : Lines) (c : Chip) (es fs : List Event) :
    chipAfter p ls c (es ++ fs) = chipAfter p (linesAfter ls es) (chipAfter p ls c es) fs := by
  induction es generalizing ls c with
  | nil => rfl
  | cons e es ih => exact ih _ _

@[simp] theorem lineAfter_outward (ls : Lines) (e : Event) :
    lineAfter ls e.outward = lineAfter ls e := by cases e <;> rfl
@[simp] theorem observe_outward (p : Params) (ls : Lines) (c : Chip) (e : Event) :
    c.observe p ls e.outward = c.observe p ls e := by cases e <;> rfl
@[simp] theorem outward_nil : outward [] = [] := rfl
@[simp] theorem outward_cons (e : Event) (es : List Event) :
    outward (e :: es) = e.outward :: outward es := rfl
@[simp] theorem outward_append (es fs : List Event) :
    outward (es ++ fs) = outward es ++ outward fs := List.map_append

/-- The lines do not depend on what came in. -/
theorem linesAfter_outward (ls : Lines) (evs : List Event) :
    linesAfter ls (outward evs) = linesAfter ls evs := by
  induction evs generalizing ls with
  | nil => rfl
  | cons e es ih => simp [ih]

/-- The reference environment does not depend on what came in. -/
theorem chipAfter_outward (p : Params) (ls : Lines) (c : Chip) (evs : List Event) :
    chipAfter p ls c (outward evs) = chipAfter p ls c evs := by
  induction evs generalizing ls c with
  | nil => rfl
  | cons e es ih => simp [ih]

/-- The reference environment stays canonical along any events. -/
theorem Chip.wf_chipAfter (p : Params) (ls : Lines) (c : Chip) (evs : List Event)
    (h : c.wf = true) : (chipAfter p ls c evs).wf = true := by
  induction evs generalizing ls c with
  | nil => exact h
  | cons e es ih => exact ih _ _ (Chip.wf_observe p ls e c h)

/-- Along any events the reference environment forgets no byte of `CONFIG`. -/
theorem Chip.configHeld_chipAfter (p : Params) (ls : Lines) (c : Chip) (evs : List Event) (y : Nat)
    (h : (Memory.read c.config y).isSome = true) :
    (Memory.read (chipAfter p ls c evs).config y).isSome = true := by
  induction evs generalizing ls c with
  | nil => exact h
  | cons e es ih => exact ih _ _ (Chip.configHeld_observe p ls e c y h)

/-! ### Moments -/

theorem State.momentAt_zero (s : State) : s.momentAt 0 = s.here := rfl

/-- The moments of a state that has used `n` of them. -/
theorem State.momentAt_used {s t : State} {n : Nat} (he : t.env = s.env.drop n)
    (ht : t.tick = s.tick + n) (k : Nat) : t.momentAt k = s.momentAt (n + k) := by
  simp only [State.momentAt, he, ht, List.getElem?_drop, Nat.add_assoc]

/-- A listed moment. -/
theorem State.momentAt_listed {s : State} {k : Nat} {m : Moment} (h : s.env[k]? = some m) :
    s.momentAt k = m := by simp [State.momentAt, h]

theorem State.here_listed {s : State} {m : Moment} (h : s.env[0]? = some m) : s.here = m :=
  State.momentAt_listed h

theorem State.failsAt_zero (s : State) : s.failsAt 0 = s.failsHere := rfl

/-- On an access layer that does not fail no primitive fails. -/
theorem failsAt_of_infallible {s : State} (h : s.params.halFallible = false) (k : Nat) :
    s.failsAt k = false := by simp [State.failsAt, h]

/-- Where the listed moments do not fail no primitive fails. -/
theorem NoFailureWithin.failsAt {n : Nat} {s : State} (h : NoFailureWithin n s) {k : Nat}
    (hk : k < n) : s.failsAt k = false := by
  have hm : k < s.env.length := Nat.lt_of_lt_of_le hk h.1
  have he : s.env[k]? = some s.env[k] := List.getElem?_eq_getElem hm
  have hf := h.2 s.env[k] (by
    rw [List.mem_take_iff_getElem]
    exact ⟨k, by omega, rfl⟩)
  simp [State.failsAt, State.momentAt_listed he, hf]

/-- The failures of a state that has used `n` moments. -/
theorem State.failsAt_used {s t : State} {n : Nat} (he : t.env = s.env.drop n)
    (ht : t.tick = s.tick + n) (hp : t.params = s.params) (k : Nat) :
    t.failsAt k = s.failsAt (n + k) := by
  rw [State.failsAt, State.failsAt, State.momentAt_used he ht, hp]

/-- Beyond the list the environment leaves no byte to the reference environment (log 2). -/
theorem State.momentAt_unlisted {s : State} {k : Nat} (h : s.env[k]? = none) :
    (s.momentAt k).inbound.isSome = true := by simp [State.momentAt, h]

theorem EdgeWithin.split {s t : State} {n m : Nat} (he : t.env = s.env.drop n)
    (ht : t.tick = s.tick + n) (h : EdgeWithin (n + m) s) : EdgeWithin n s ∨ EdgeWithin m t := by
  obtain ⟨k, hk, e⟩ := h
  by_cases hn : k < n
  · exact .inl ⟨k, hn, e⟩
  · refine .inr ⟨k - n, by omega, ?_⟩
    rw [State.momentAt_used he ht, show n + (k - n) = k by omega]
    exact e

/-! ### Registers left alone -/

theorem SameRegisters.refl (s : State) : SameRegisters s s where
  params := rfl
  cfg := rfl
  inited := rfl
  watch := rfl
  edgeKept := id
  edgeWatched := .inl
  busy := rfl
  seq := rfl
  reg := rfl
  dispatching := rfl
  deferq := rfl
  rxbuf := rfl
  txbuf := rfl
  txaddr := rfl
  port := rfl
  framer := rfl
  host := rfl

theorem SameRegisters.trans {s t u : State} (h : SameRegisters s t) (k : SameRegisters t u) :
    SameRegisters s u where
  params := k.params.trans h.params
  cfg := k.cfg.trans h.cfg
  inited := k.inited.trans h.inited
  watch := k.watch.trans h.watch
  edgeKept := k.edgeKept ∘ h.edgeKept
  edgeWatched := fun e => (k.edgeWatched e).elim h.edgeWatched fun w => .inr (h.watch ▸ w)
  busy := k.busy.trans h.busy
  seq := k.seq.trans h.seq
  reg := k.reg.trans h.reg
  dispatching := k.dispatching.trans h.dispatching
  deferq := k.deferq.trans h.deferq
  rxbuf := k.rxbuf.trans h.rxbuf
  txbuf := k.txbuf.trans h.txbuf
  txaddr := k.txaddr.trans h.txaddr
  port := k.port.trans h.port
  framer := k.framer.trans h.framer
  host := k.host.trans h.host

theorem SameRegisters.emit (e : Event) (s : State) : SameRegisters s (s.emit e) :=
  { SameRegisters.refl s with }

theorem SameRegisters.setLine (l : OutLine) (v : Level) (s : State) :
    SameRegisters s (s.setLine l v) := { SameRegisters.refl s with }

theorem SameRegisters.reply (r : Reply) (s : State) : SameRegisters s (s.reply r) :=
  { SameRegisters.refl s with }

theorem SameRegisters.advance (s : State) : SameRegisters s s.advance :=
  { SameRegisters.refl s with
    edgeKept := fun h => by simp [h]
    edgeWatched := fun h => by
      simp only [State.advance_edgePend, Bool.or_eq_true, Bool.and_eq_true] at h
      exact h.imp_right And.left }

theorem SameRegisters.finish {s t : State} (h : SameRegisters s t) :
    SameRegisters s.finish t.finish :=
  { h with busy := rfl, seq := rfl, rxbuf := rfl, txbuf := rfl, txaddr := rfl }

/-! ### Runs -/

/-- `n` micro-steps led from `s` to `t`, none failed, and emitted `evs`. -/
structure Ran (n : Nat) (evs : List Event) (s t : State) : Prop where
  same : SameRegisters s t
  trace : t.trace = s.trace ++ evs
  lines : t.lines = linesAfter s.lines evs
  chip : t.chip = chipAfter s.params s.lines s.chip evs
  env : t.env = s.env.drop n
  tick : t.tick = s.tick + n
  replies : t.replies = s.replies

theorem Ran.refl (s : State) : Ran 0 [] s s where
  same := .refl s
  trace := by simp
  lines := rfl
  chip := rfl
  env := rfl
  tick := rfl
  replies := rfl

theorem Ran.trans {n m : Nat} {es fs : List Event} {s t u : State} (h : Ran n es s t)
    (k : Ran m fs t u) : Ran (n + m) (es ++ fs) s u where
  same := h.same.trans k.same
  trace := by rw [k.trace, h.trace, List.append_assoc]
  lines := by rw [k.lines, h.lines, linesAfter_append]
  chip := by rw [k.chip, h.chip, h.lines, h.same.params, chipAfter_append]
  env := by rw [k.env, h.env, List.drop_drop]
  tick := by rw [k.tick, h.tick, Nat.add_assoc]
  replies := k.replies.trans h.replies

theorem Ran.advance (s : State) : Ran 1 [] s s.advance where
  same := .advance s
  trace := by simp
  lines := rfl
  chip := rfl
  env := by simp
  tick := rfl
  replies := rfl

theorem Ran.emit (e : Event) (s : State) (h : ∀ l v, e ≠ .w l v) : Ran 0 [e] s (s.emit e) where
  same := .emit e s
  trace := rfl
  lines := by
    cases e with
    | w l v => exact absurd rfl (h l v)
    | _ => rfl
  chip := rfl
  env := rfl
  tick := rfl
  replies := rfl

theorem Ran.write (l : OutLine) (v : Level) (s : State) :
    Ran 0 [.w l v] s ((s.emit (.w l v)).setLine l v) where
  same := (SameRegisters.emit _ s).trans (.setLine _ _ _)
  trace := rfl
  lines := rfl
  chip := rfl
  env := rfl
  tick := rfl
  replies := rfl

/-- A sequence of primitives completes with a value that satisfies `q`, in `n` micro-steps, with
events that read `outs` without their inbound bytes. -/
def Completes {α : Type} (r : Res α) (n : Nat) (outs : List Event) (s : State) (q : α → Prop) :
    Prop :=
  ∃ a t evs, r = .ok a t ∧ Ran n evs s t ∧ outward evs = outs ∧ q a

theorem Completes.andThen {α β : Type} {r : Res α} {next : α → State → Res β} {n m : Nat}
    {es fs : List Event} {s : State} {q : α → Prop} {q' : β → Prop} (h : Completes r n es s q)
    (k : ∀ a t, t.params = s.params → q a → Completes (next a t) m fs t q') :
    Completes (r.andThen next) (n + m) (es ++ fs) s q' := by
  obtain ⟨a, t, evs, rfl, hr, rfl, ha⟩ := h
  obtain ⟨b, u, evs', hn, hr', rfl, hb⟩ := k a t hr.same.params ha
  exact ⟨b, u, evs ++ evs', hn, hr.trans hr', by simp, hb⟩

theorem Completes.inside {α : Type} {r : Res α} {n : Nat} {es : List Event} {s : State}
    {q : α → Prop} (l : StepLabel) (h : Completes r n es s q) :
    Completes (r.inside l) n es s q := by
  obtain ⟨a, t, evs, rfl, hr, rfl, ha⟩ := h
  exact ⟨a, t, evs, rfl, hr, rfl, ha⟩

theorem Completes.ok {α : Type} (a : α) (s : State) {q : α → Prop} (h : q a) :
    Completes (.ok a s) 0 [] s q := ⟨a, s, [], rfl, .refl s, rfl, h⟩

theorem Completes.congr {α : Type} {r : Res α} {n m : Nat} {es fs : List Event} {s : State}
    {q : α → Prop} (h : Completes r n es s q) (hn : n = m) (he : es = fs) :
    Completes r m fs s q := hn ▸ he ▸ h

/-! ### The primitives complete on an infallible access layer -/

theorem failsHere_of_infallible {s : State} (h : s.params.halFallible = false) :
    s.failsHere = false := by simp [State.failsHere, h]

theorem pinWrite_completes (label : StepLabel) (l : OutLine) (v : Level) {s : State}
    (h : s.params.halFallible = false) :
    Completes (pinWrite label l v s) 1 [.w l v] s fun _ => True :=
  ⟨(), _, [.w l v], by simp [pinWrite, failsHere_of_infallible h],
    (Ran.advance s).trans (.write l v _), rfl, trivial⟩

theorem assertLine_completes (label : StepLabel) (l : OutLine) {s : State}
    (h : s.params.halFallible = false) :
    Completes (assertLine label l s) 1 [.w l l.asserted] s fun _ => True :=
  pinWrite_completes label l _ h

theorem deassertLine_completes (label : StepLabel) (l : OutLine) {s : State}
    (h : s.params.halFallible = false) :
    Completes (deassertLine label l s) 1 [.w l (!l.asserted)] s fun _ => True :=
  pinWrite_completes label l _ h

theorem pinRead_completes (label : StepLabel) (l : InLine) {s : State}
    (h : s.params.halFallible = false) :
    Completes (pinRead label l s) 1 [.r l s.here.level] s fun v => v = s.here.level :=
  ⟨_, _, [.r l s.here.level], by simp [pinRead, failsHere_of_infallible h],
    (Ran.advance s).trans (.emit _ _ (by simp)), rfl, rfl⟩

theorem xfer_completes (label : StepLabel) (o : Byte) {s : State}
    (h : s.params.halFallible = false) :
    Completes (xfer label o s) 1 [.x o 0] s fun i => i = s.inbound :=
  ⟨_, _, [.x o s.inbound], by simp [xfer, failsHere_of_infallible h],
    (Ran.advance s).trans (.emit _ _ (by simp)), rfl, rfl⟩

theorem delay_completes (label : StepLabel) (d : Duration) {s : State}
    (h : s.params.halFallible = false) :
    Completes (delay label d s) 1 [.d d] s fun _ => True :=
  ⟨(), _, [.d d], by simp [delay, failsHere_of_infallible h],
    (Ran.advance s).trans (.emit _ _ (by simp)), rfl, trivial⟩

theorem halAction_completes (label : StepLabel) {s : State} (h : s.params.halFallible = false) :
    Completes (halAction label s) 1 [] s fun _ => True :=
  ⟨(), _, [], by simp [halAction, failsHere_of_infallible h], .advance s, rfl, trivial⟩

theorem spacing_completes (label : StepLabel) (spaced : Bool) {s : State}
    (h : s.params.halFallible = false) :
    Completes (spacing label spaced s) (if spaced then 1 else 0)
      (if spaced then [.d .byte] else []) s fun _ => True := by
  cases spaced
  · exact Completes.ok () s trivial
  · exact delay_completes label .byte h

/-! ### The frame completes on an infallible access layer -/

theorem sendBytes_completes (out : List Byte) {s : State} (h : s.params.halFallible = false) :
    Completes (sendBytes out s) out.length (out.map fun b => .x b 0) s fun _ => True := by
  induction out generalizing s with
  | nil => exact Completes.ok () s trivial
  | cons b bs ih =>
    refine ((xfer_completes .f3 b h).andThen fun _ t ht _ => ih (ht ▸ h)).congr ?_ rfl
    simp [Nat.add_comm]

/-- The events of `n` data bytes read, without inbound bytes. -/
def receiveEvents (spaced : Bool) : Nat → List Event
  | 0 => []
  | n + 1 => .x 0 0 :: ((if spaced then [.d .byte] else []) ++ receiveEvents spaced n)

theorem receiveBytes_completes (spaced : Bool) (n : Nat) {s : State}
    (h : s.params.halFallible = false) :
    Completes (receiveBytes spaced n s) (n * (if spaced then 2 else 1)) (receiveEvents spaced n) s
      fun bytes => bytes.length = n := by
  induction n generalizing s with
  | zero =>
    rw [Nat.zero_mul]
    exact Completes.ok [] s rfl
  | succ n ih =>
    refine ((xfer_completes .f4 0x00 h).andThen fun b t ht _ =>
      (spacing_completes .f4 spaced (ht ▸ h)).andThen fun _ u hu _ =>
        (ih (hu ▸ ht ▸ h)).andThen (q' := fun bytes => bytes.length = n + 1)
          fun bs v _ hbs => Completes.ok (b :: bs) v (by simp [hbs])).congr ?_ ?_
    · cases spaced <;> simp <;> omega
    · simp [receiveEvents]

/-- The whole frame: events, number of micro-steps, number of bytes read (40_command_framer.md
R126). -/
theorem frame_completes (instr : Byte) (out : List Byte) (nIn : Nat) (spaced : Bool) {s : State}
    (h : s.params.halFallible = false) :
    Completes (frame instr out nIn spaced s)
      (3 + out.length + (if spaced then 2 * nIn + 1 else nIn))
      ([.w .csn false, .x instr 0] ++ (if spaced then [.d .byte] else []) ++
        out.map (fun b => .x b 0) ++ receiveEvents spaced nIn ++ [.w .csn true]) s
      fun bytes => bytes.length = nIn := by
  refine ((assertLine_completes .f1 .csn h).andThen fun _ t1 h1 _ =>
    (xfer_completes .f2 instr (h1 ▸ h)).andThen fun _ t2 h2 _ =>
    (spacing_completes .f2d spaced (h2 ▸ h1 ▸ h)).andThen fun _ t3 h3 _ =>
    (sendBytes_completes out (h3 ▸ h2 ▸ h1 ▸ h)).andThen fun _ t4 h4 _ =>
    (receiveBytes_completes spaced nIn (h4 ▸ h3 ▸ h2 ▸ h1 ▸ h)).andThen fun bytes t5 h5 hb =>
    (deassertLine_completes .f5 .csn (h5 ▸ h4 ▸ h3 ▸ h2 ▸ h1 ▸ h)).andThen
      (q' := fun bytes => bytes.length = nIn)
      fun _ t6 _ _ => Completes.ok bytes t6 hb).congr ?_ ?_
  · cases spaced <;> simp <;> omega
  · simp [OutLine.asserted]

/-- A write frame (40_command_framer.md R126). -/
theorem writeFrame_completes (instr : Byte) (out : List Byte) {s : State}
    (h : s.params.halFallible = false) :
    Completes (frame instr out 0 false s) (3 + out.length) (writeFrameEvents instr out) s
      fun bytes => bytes = [] := by
  obtain ⟨a, t, evs, h1, h2, h3, h4⟩ := frame_completes instr out 0 false h
  refine ⟨a, t, evs, h1, by simpa using h2, ?_, List.length_eq_zero_iff.mp h4⟩
  simpa [writeFrameEvents, receiveEvents] using h3

end Sys2Proof.Machine
end

