-- ==== Sys2Proof/Laws/Any.lean ====
section
/-! SUPPORT. What a sequence of primitives leaves alone whether it completes or fails, on any access
layer. -/

namespace Sys2Proof.Machine

/-- The level of a line. -/
def Lines.level (ls : Lines) : OutLine → Level
  | .pwr => ls.pwr
  | .csn => ls.csn
  | .txen => ls.txen
  | .trig => ls.trig

theorem Lines.level_set_other (ls : Lines) (l k : OutLine) (v : Level) (h : k ≠ l) :
    (ls.set l v).level k = ls.level k := by
  cases l <;> cases k <;> first | rfl | exact absurd rfl h

theorem Lines.level_set_same (ls : Lines) (l : OutLine) (v : Level) :
    (ls.set l v).level l = v := by cases l <;> rfl

theorem Used.none {s t : State} (he : t.env = s.env) (ht : t.tick = s.tick) :
    ∃ n, t.env = s.env.drop n ∧ t.tick = s.tick + n ∧
      (s.watch = true → EdgeWithin n s → t.edgePend = true) :=
  ⟨0, he, ht, fun _ ⟨_, hk, _⟩ => absurd hk (Nat.not_lt_zero _)⟩

/-- `t` comes after `s` by primitives that write no line outside `ls`: registers and replies stand,
the trace has grown, the reference environment is as canonical as it was and forgot no byte of `CONFIG`,
an edge among the moments used is latched under an armed watch. -/
structure Touched (ls : List OutLine) (s t : State) : Prop where
  same : SameRegisters s t
  replies : t.replies = s.replies
  trace : ∃ evs, t.trace = s.trace ++ evs
  chipWf : s.chip.wf = true → t.chip.wf = true
  configHeld : ∀ y, (Memory.read s.chip.config y).isSome = true →
    (Memory.read t.chip.config y).isSome = true
  used : ∃ n, t.env = s.env.drop n ∧ t.tick = s.tick + n ∧
    (s.watch = true → EdgeWithin n s → t.edgePend = true)
  lines : ∀ l, l ∉ ls → t.lines.level l = s.lines.level l

theorem Touched.refl (ls : List OutLine) (s : State) : Touched ls s s where
  same := .refl s
  replies := rfl
  trace := ⟨[], by simp⟩
  chipWf := id
  configHeld := fun _ => id
  used := Used.none rfl rfl
  lines := fun _ _ => rfl

theorem Touched.trans {ls : List OutLine} {s t u : State} (h : Touched ls s t)
    (k : Touched ls t u) : Touched ls s u where
  same := h.same.trans k.same
  replies := k.replies.trans h.replies
  trace := by
    obtain ⟨e, he⟩ := h.trace
    obtain ⟨f, hf⟩ := k.trace
    exact ⟨e ++ f, by rw [hf, he, List.append_assoc]⟩
  chipWf := k.chipWf ∘ h.chipWf
  configHeld := fun y => k.configHeld y ∘ h.configHeld y
  used := by
    obtain ⟨n, he, ht, hl⟩ := h.used
    obtain ⟨m, ke, kt, kl⟩ := k.used
    refine ⟨n + m, by rw [ke, he, List.drop_drop], by rw [kt, ht, Nat.add_assoc], fun w e => ?_⟩
    rcases e.split he ht with e | e
    · exact k.same.edgeKept (hl w e)
    · exact kl (h.same.watch ▸ w) e
  lines := fun l hl => (k.lines l hl).trans (h.lines l hl)

theorem Touched.weaken {ls ks : List OutLine} {s t : State} (h : Touched ls s t)
    (hs : ls ⊆ ks) : Touched ks s t :=
  { h with lines := fun l hl => h.lines l fun hm => hl (hs hm) }

theorem Touched.advance (ls : List OutLine) (s : State) : Touched ls s s.advance where
  same := .advance s
  replies := rfl
  trace := ⟨[], by simp⟩
  chipWf := id
  configHeld := fun _ => id
  used := by
    refine ⟨1, by simp, rfl, fun w ⟨k, hk, e⟩ => ?_⟩
    obtain rfl : k = 0 := by omega
    rw [State.momentAt_zero] at e
    simp [w, e]
  lines := fun _ _ => rfl

theorem Touched.emit (ls : List OutLine) (e : Event) (s : State) : Touched ls s (s.emit e) where
  same := .emit e s
  replies := rfl
  trace := ⟨[e], rfl⟩
  chipWf := Chip.wf_observe s.params s.lines e s.chip
  configHeld := fun y => Chip.configHeld_observe s.params s.lines e s.chip y
  used := Used.none rfl rfl
  lines := fun _ _ => rfl

theorem Touched.setLine {ls : List OutLine} {l : OutLine} (v : Level) (s : State) (h : l ∈ ls) :
    Touched ls s (s.setLine l v) where
  same := .setLine l v s
  replies := rfl
  trace := ⟨[], by simp⟩
  chipWf := id
  configHeld := fun _ => id
  used := Used.none rfl rfl
  lines := fun k hk => Lines.level_set_other s.lines l k v fun e => hk (e ▸ h)

@[simp] theorem Res.state_ok {α : Type} (a : α) (s : State) : (Res.ok a s).state = s := rfl
@[simp] theorem Res.state_failed {α : Type} (p : StepPath) (s : State) :
    (Res.failed (α := α) p s).state = s := rfl
@[simp] theorem Res.state_inside {α : Type} (l : StepLabel) (r : Res α) :
    (r.inside l).state = r.state := by cases r <;> rfl

theorem Res.touched_andThen {α β : Type} {ls : List OutLine} {r : Res α}
    {next : α → State → Res β} {s : State} (h : Touched ls s r.state)
    (k : ∀ a t, r = .ok a t → Touched ls t (next a t).state) :
    Touched ls s (r.andThen next).state := by
  cases r with
  | ok a t => exact h.trans (k a t rfl)
  | failed p t => exact h

theorem pinWrite_touched (label : StepLabel) {l : OutLine} (v : Level) (s : State)
    {ls : List OutLine} (h : l ∈ ls) : Touched ls s (pinWrite label l v s).state := by
  simp only [pinWrite]
  split
  · exact (Touched.advance ls s).trans (.emit ls _ _)
  · exact ((Touched.advance ls s).trans (.emit ls _ _)).trans (.setLine v _ h)

theorem assertLine_touched (label : StepLabel) {l : OutLine} (s : State) {ls : List OutLine}
    (h : l ∈ ls) : Touched ls s (assertLine label l s).state := pinWrite_touched label _ s h

theorem deassertLine_touched (label : StepLabel) {l : OutLine} (s : State) {ls : List OutLine}
    (h : l ∈ ls) : Touched ls s (deassertLine label l s).state := pinWrite_touched label _ s h

theorem pinRead_touched (label : StepLabel) (l : InLine) (s : State) (ls : List OutLine) :
    Touched ls s (pinRead label l s).state := by
  simp only [pinRead]
  split <;> exact (Touched.advance ls s).trans (.emit ls _ _)

theorem xfer_touched (label : StepLabel) (o : Byte) (s : State) (ls : List OutLine) :
    Touched ls s (xfer label o s).state := by
  simp only [xfer]
  split <;> exact (Touched.advance ls s).trans (.emit ls _ _)

theorem delay_touched (label : StepLabel) (d : Duration) (s : State) (ls : List OutLine) :
    Touched ls s (delay label d s).state := by
  simp only [delay]
  split <;> exact (Touched.advance ls s).trans (.emit ls _ _)

theorem halAction_touched (label : StepLabel) (s : State) (ls : List OutLine) :
    Touched ls s (halAction label s).state := by
  simp only [halAction]
  split <;> exact Touched.advance ls s

theorem spacing_touched (label : StepLabel) (spaced : Bool) (s : State) (ls : List OutLine) :
    Touched ls s (spacing label spaced s).state := by
  cases spaced
  · exact Touched.refl ls s
  · exact delay_touched label .byte s ls

theorem sendBytes_touched (out : List Byte) (s : State) (ls : List OutLine) :
    Touched ls s (sendBytes out s).state := by
  induction out generalizing s with
  | nil => exact Touched.refl ls s
  | cons b bs ih => exact Res.touched_andThen (xfer_touched .f3 b s ls) fun _ t _ => ih t

theorem receiveBytes_touched (spaced : Bool) (n : Nat) (s : State) (ls : List OutLine) :
    Touched ls s (receiveBytes spaced n s).state := by
  induction n generalizing s with
  | zero => exact Touched.refl ls s
  | succ n ih =>
    exact Res.touched_andThen (xfer_touched .f4 0x00 s ls) fun _ t _ =>
      Res.touched_andThen (spacing_touched .f4 spaced t ls) fun _ u _ =>
      Res.touched_andThen (ih u) fun _ v _ => Touched.refl ls v

/-- A frame writes chip-select only (40_command_framer.md R126). -/
theorem frame_touched (instr : Byte) (out : List Byte) (nIn : Nat) (spaced : Bool) (s : State)
    {ls : List OutLine} (h : OutLine.csn ∈ ls) :
    Touched ls s (frame instr out nIn spaced s).state :=
  Res.touched_andThen (assertLine_touched .f1 s h) fun _ t _ =>
  Res.touched_andThen (xfer_touched .f2 instr t ls) fun _ t _ =>
  Res.touched_andThen (spacing_touched .f2d spaced t ls) fun _ t _ =>
  Res.touched_andThen (sendBytes_touched out t ls) fun _ t _ =>
  Res.touched_andThen (receiveBytes_touched spaced nIn t ls) fun _ t _ =>
  Res.touched_andThen (deassertLine_touched .f5 t h) fun _ t _ => Touched.refl ls t

theorem cleanupWrite_touched (s : State) (w : OutLine × Level) {ls : List OutLine}
    (h : w.1 ∈ ls) : Touched ls s (cleanupWrite s w) := by
  simp only [cleanupWrite]
  split
  · exact (Touched.advance ls s).trans (.emit ls _ _)
  · exact ((Touched.advance ls s).trans (.emit ls _ _)).trans (.setLine _ _ h)

theorem cleanupWrites_touched (ws : List (OutLine × Level)) (s : State) {ls : List OutLine}
    (h : ∀ w ∈ ws, w.1 ∈ ls) : Touched ls s (cleanupWrites ws s) := by
  induction ws generalizing s with
  | nil => exact Touched.refl ls s
  | cons w ws ih =>
    exact (cleanupWrite_touched s w (h w List.mem_cons_self)).trans
      (ih _ fun v hv => h v (List.mem_cons_of_mem _ hv))

/-- A cleanup writes chip-select, if a frame was open, and the closing lines (60_exceptions.md
R230). -/
theorem cleanup_touched (path : StepPath) (closing : List (OutLine × Level)) (s : State)
    {ls : List OutLine} (hc : frameOpen path = true → OutLine.csn ∈ ls)
    (h : ∀ w ∈ closing, w.1 ∈ ls) : Touched ls s (cleanup path closing s) := by
  refine cleanupWrites_touched _ s fun w hw => ?_
  rcases List.mem_append.mp hw with hw | hw
  · split at hw
    · rename_i ho
      rw [List.mem_singleton.mp hw]
      exact hc ho
    · cases hw
  · exact h w hw

/-! ### Results of shared operations -/

/-- What the end of a host operation can be (60_exceptions.md R220, R231). -/
theorem conclude_cases (closing : StepPath → List (OutLine × Level)) (r : Res Reply) :
    (∃ reply s, r = .ok reply s ∧ conclude closing r = s.ret reply) ∨
      ∃ path s, r = .failed path s ∧ conclude closing r = s.raise (closing path) path := by
  cases r with
  | ok reply s => exact .inl ⟨reply, s, rfl, rfl⟩
  | failed path s => exact .inr ⟨path, s, rfl, rfl⟩

/-- What a host operation can answer (60_exceptions.md R228; 30_encoding.md R106). -/
theorem acceptThen_cases {α : Type} (i : Instr) (check : Except Malformed α)
    (body : α → State → Host.Outcome State Fault Refusal) (s : State) :
    (s.busy = true ∧ acceptThen i check body s = .next (s.hold i)) ∨
      (s.busy = false ∧ ∃ m, check = .error m ∧
        acceptThen i check body s = .next (s.refuse m)) ∨
      (s.busy = false ∧ ∃ a, check = .ok a ∧ acceptThen i check body s = body a s.begin) := by
  cases hb : s.busy with
  | true => exact .inl ⟨rfl, by simp [acceptThen, hb]⟩
  | false =>
    cases check with
    | error m => exact .inr (.inl ⟨rfl, m, rfl, by simp [acceptThen, hb]⟩)
    | ok a => exact .inr (.inr ⟨rfl, a, rfl, by simp [acceptThen, hb]⟩)

/-- What a host operation that always has a next state can answer. -/
theorem accept_cases {α : Type} (i : Instr) (check : Except Malformed α)
    (body : α → State → State) (s : State) :
    (s.busy = true ∧ accept i check body s = .next (s.hold i)) ∨
      (s.busy = false ∧ ∃ m, check = .error m ∧ accept i check body s = .next (s.refuse m)) ∨
      (s.busy = false ∧ ∃ a, check = .ok a ∧ accept i check body s = .next (body a s.begin)) :=
  acceptThen_cases i check (fun a s => .next (body a s)) s

/-- What a call of the framer can answer. -/
theorem framerCall_cases {α : Type} (check : Except Malformed α) (body : α → State → Res Reply)
    (s : State) :
    (∃ m, check = .error m ∧ framerCall check body s = .next (s.refuse m)) ∨
      (∃ a reply t, check = .ok a ∧ body a s = .ok reply t ∧
        framerCall check body s = .next (t.reply reply)) ∨
      ∃ a path t, check = .ok a ∧ body a s = .failed path t ∧
        framerCall check body s = .next ((cleanup path [] t).reply (.error (.halFailure path))) := by
  cases check with
  | error m => exact .inl ⟨m, rfl, rfl⟩
  | ok a =>
    cases h : body a s with
    | ok reply t => exact .inr (.inl ⟨a, reply, t, rfl, h, by simp [framerCall, concludeCall, h]⟩)
    | failed path t =>
      exact .inr (.inr ⟨a, path, t, rfl, h, by simp [framerCall, concludeCall, h]⟩)

/-- What one poll can give (60_exceptions.md R223). -/
theorem waitHigh_cases (label : StepLabel) (polls : Nat) (s : State) :
    let t := s.advance.emit (.r .dr s.here.level)
    (s.failsHere = true ∧
        waitHigh label polls s = .failed [label] (s.advance.emit (.rFailed .dr))) ∨
      (s.failsHere = false ∧ s.here.level = true ∧ waitHigh label polls s = .high t) ∨
      (s.failsHere = false ∧ s.here.level = false ∧ s.params.spinLimit = some (polls + 1) ∧
        waitHigh label polls s = .expired t) ∨
      (s.failsHere = false ∧ s.here.level = false ∧ s.params.spinLimit ≠ some (polls + 1) ∧
        waitHigh label polls s = .low t) := by
  cases hf : s.failsHere with
  | true => exact .inl ⟨rfl, by simp [waitHigh, pinRead, hf]⟩
  | false =>
    cases hl : s.here.level with
    | true => exact .inr (.inl ⟨rfl, rfl, by simp [waitHigh, pinRead, hf, hl]⟩)
    | false =>
      by_cases hn : s.params.spinLimit = some (polls + 1)
      · exact .inr (.inr (.inl ⟨rfl, rfl, hn, by simp [waitHigh, pinRead, hf, hl, hn]⟩))
      · exact .inr (.inr (.inr ⟨rfl, rfl, hn, by simp [waitHigh, pinRead, hf, hl, hn]⟩))

end Sys2Proof.Machine
end

