-- ==== Sys2Proof/Laws/Ends.lean ====
section
/-! SUPPORT. How sequences of primitives end on any access layer: the path a failure names, the number
of bytes a frame returns, what a cleanup writes; and what the requests of a delivery do. -/

namespace Sys2Proof.Machine

/-! ### Where a sequence failed -/

theorem Res.andThen_failed {α β : Type} {r : Res α} {next : α → State → Res β} {path : StepPath}
    {t : State} (h : r.andThen next = .failed path t) :
    r = .failed path t ∨ ∃ a u, r = .ok a u ∧ next a u = .failed path t := by
  cases r with
  | ok a s => exact .inr ⟨a, s, rfl, h⟩
  | failed p s => exact .inl (by simpa [Res.andThen] using h)

theorem Res.andThen_ok {α β : Type} {r : Res α} {next : α → State → Res β} {b : β} {t : State}
    (h : r.andThen next = .ok b t) : ∃ a u, r = .ok a u ∧ next a u = .ok b t := by
  cases r with
  | ok a s => exact ⟨a, s, rfl, h⟩
  | failed p s => simp [Res.andThen] at h

theorem Res.inside_failed {α : Type} {r : Res α} {l : StepLabel} {path : StepPath} {t : State}
    (h : r.inside l = .failed path t) : ∃ tail, path = l :: tail ∧ r = .failed tail t := by
  cases r with
  | ok a s => simp [Res.inside] at h
  | failed p s =>
    simp only [Res.inside, Res.failed.injEq] at h
    exact ⟨p, h.1.symm, by rw [h.2]⟩

theorem Res.inside_ok {α : Type} {r : Res α} {l : StepLabel} {a : α} {t : State}
    (h : r.inside l = .ok a t) : r = .ok a t := by
  cases r with
  | ok b s => simpa [Res.inside] using h
  | failed p s => simp [Res.inside] at h

theorem pinWrite_failed {label : StepLabel} {l : OutLine} {v : Level} {s t : State}
    {path : StepPath} (h : pinWrite label l v s = .failed path t) : path = [label] := by
  simp only [pinWrite] at h
  split at h <;> cases h
  rfl

theorem xfer_failed {label : StepLabel} {o : Byte} {s t : State} {path : StepPath}
    (h : xfer label o s = .failed path t) : path = [label] := by
  simp only [xfer] at h
  split at h <;> cases h
  rfl

theorem delay_failed {label : StepLabel} {d : Duration} {s t : State} {path : StepPath}
    (h : delay label d s = .failed path t) : path = [label] := by
  simp only [delay] at h
  split at h <;> cases h
  rfl

theorem halAction_failed {label : StepLabel} {s t : State} {path : StepPath}
    (h : halAction label s = .failed path t) : path = [label] := by
  simp only [halAction] at h
  split at h <;> cases h
  rfl

theorem spacing_failed {label : StepLabel} {spaced : Bool} {s t : State} {path : StepPath}
    (h : spacing label spaced s = .failed path t) : path = [label] := by
  cases spaced with
  | false => cases h
  | true => exact delay_failed h

theorem sendBytes_failed {out : List Byte} {s t : State} {path : StepPath}
    (h : sendBytes out s = .failed path t) : path = [.f3] := by
  induction out generalizing s with
  | nil => cases h
  | cons b bs ih =>
    rcases Res.andThen_failed h with h | ⟨_, _, _, h⟩
    · exact xfer_failed h
    · exact ih h

theorem receiveBytes_failed {spaced : Bool} {n : Nat} {s t : State} {path : StepPath}
    (h : receiveBytes spaced n s = .failed path t) : path = [.f4] := by
  induction n generalizing s path t with
  | zero => cases h
  | succ n ih =>
    rcases Res.andThen_failed h with h | ⟨_, _, _, h⟩
    · exact xfer_failed h
    rcases Res.andThen_failed h with h | ⟨_, _, _, h⟩
    · exact spacing_failed h
    rcases Res.andThen_failed h with h | ⟨_, _, _, h⟩
    · exact ih h
    · cases h

/-- A frame fails at one of its own steps (40_command_framer.md R127). -/
theorem frame_failed {instr : Byte} {out : List Byte} {nIn : Nat} {spaced : Bool} {s t : State}
    {path : StepPath} (h : frame instr out nIn spaced s = .failed path t) :
    ∃ l, path = [l] ∧ l.inFrame = true := by
  rcases Res.andThen_failed h with h | ⟨_, _, _, h⟩
  · exact ⟨_, pinWrite_failed h, rfl⟩
  rcases Res.andThen_failed h with h | ⟨_, _, _, h⟩
  · exact ⟨_, xfer_failed h, rfl⟩
  rcases Res.andThen_failed h with h | ⟨_, _, _, h⟩
  · exact ⟨_, spacing_failed h, rfl⟩
  rcases Res.andThen_failed h with h | ⟨_, _, _, h⟩
  · exact ⟨_, sendBytes_failed h, rfl⟩
  rcases Res.andThen_failed h with h | ⟨_, _, _, h⟩
  · exact ⟨_, receiveBytes_failed h, rfl⟩
  rcases Res.andThen_failed h with h | ⟨_, _, _, h⟩
  · exact ⟨_, pinWrite_failed h, rfl⟩
  · cases h

/-! ### A sequence on any access layer -/

/-- What a sequence of `n` micro-steps can do: if it completes it was a run whose events read `outs`
without their inbound bytes; if it fails, the environment failed one of its micro-steps. -/
structure Follows {α : Type} (r : Res α) (n : Nat) (outs : List Event) (s : State) : Prop where
  ran : ∀ a t, r = .ok a t → ∃ evs, Ran n evs s t ∧ outward evs = outs
  failed : ∀ path t, r = .failed path t → ∃ k, k < n ∧ s.failsAt k = true

theorem Follows.ok {α : Type} (a : α) (s : State) : Follows (.ok a s) 0 [] s where
  ran := by
    rintro _ _ ⟨⟩
    exact ⟨[], .refl s, rfl⟩
  failed := by rintro _ _ ⟨⟩

theorem Follows.andThen {α β : Type} {r : Res α} {next : α → State → Res β} {n m : Nat}
    {es fs : List Event} {s : State} (h : Follows r n es s)
    (k : ∀ a t, t.params = s.params → Follows (next a t) m fs t) :
    Follows (r.andThen next) (n + m) (es ++ fs) s where
  ran := by
    intro b u hu
    obtain ⟨a, t, hr, hn⟩ := Res.andThen_ok hu
    obtain ⟨evs, ht, rfl⟩ := h.ran a t hr
    obtain ⟨evs', hu, rfl⟩ := (k a t ht.same.params).ran b u hn
    exact ⟨evs ++ evs', ht.trans hu, by simp⟩
  failed := by
    intro path u hu
    rcases Res.andThen_failed hu with hr | ⟨a, t, hr, hn⟩
    · obtain ⟨i, hi, hf⟩ := h.failed path u hr
      exact ⟨i, by omega, hf⟩
    · obtain ⟨evs, ht, -⟩ := h.ran a t hr
      obtain ⟨i, hi, hf⟩ := (k a t ht.same.params).failed path u hn
      rw [State.failsAt_used ht.env ht.tick ht.same.params] at hf
      exact ⟨n + i, by omega, hf⟩

theorem Follows.inside {α : Type} {r : Res α} {n : Nat} {es : List Event} {s : State}
    (l : StepLabel) (h : Follows r n es s) : Follows (r.inside l) n es s where
  ran := fun a t hr => h.ran a t (Res.inside_ok hr)
  failed := fun _ _ hr =>
    let ⟨_, _, hr⟩ := Res.inside_failed hr
    h.failed _ _ hr

theorem Follows.congr {α : Type} {r : Res α} {n m : Nat} {es fs : List Event} {s : State}
    (h : Follows r n es s) (hn : n = m) (he : es = fs) : Follows r m fs s := hn ▸ he ▸ h

/-- Where none of its micro-steps fails, the sequence completes. -/
theorem Follows.completes {α : Type} {r : Res α} {n : Nat} {es : List Event} {s : State}
    (h : Follows r n es s) (hf : ∀ k, k < n → s.failsAt k = false) :
    Completes r n es s fun _ => True := by
  cases hr : r with
  | ok a t =>
    obtain ⟨evs, ht, ho⟩ := h.ran a t hr
    exact ⟨a, t, evs, rfl, ht, ho, trivial⟩
  | failed path t =>
    obtain ⟨k, hk, hb⟩ := h.failed path t hr
    rw [hf k hk] at hb
    cases hb

theorem pinWrite_follows (label : StepLabel) (l : OutLine) (v : Level) (s : State) :
    Follows (pinWrite label l v s) 1 [.w l v] s := by
  refine ⟨fun a t h => ?_, fun path t h => ⟨0, Nat.zero_lt_one, ?_⟩⟩ <;>
    simp only [pinWrite] at h <;> split at h <;> cases h
  · exact ⟨[.w l v], (Ran.advance s).trans (.write l v _), rfl⟩
  · assumption

theorem xfer_follows (label : StepLabel) (o : Byte) (s : State) :
    Follows (xfer label o s) 1 [.x o 0] s := by
  refine ⟨fun a t h => ?_, fun path t h => ⟨0, Nat.zero_lt_one, ?_⟩⟩ <;>
    simp only [xfer] at h <;> split at h <;> cases h
  · exact ⟨[.x o s.inbound], (Ran.advance s).trans (.emit _ _ (by simp)), rfl⟩
  · assumption

theorem delay_follows (label : StepLabel) (d : Duration) (s : State) :
    Follows (delay label d s) 1 [.d d] s := by
  refine ⟨fun a t h => ?_, fun path t h => ⟨0, Nat.zero_lt_one, ?_⟩⟩ <;>
    simp only [delay] at h <;> split at h <;> cases h
  · exact ⟨[.d d], (Ran.advance s).trans (.emit _ _ (by simp)), rfl⟩
  · assumption

theorem spacing_follows (label : StepLabel) (spaced : Bool) (s : State) :
    Follows (spacing label spaced s) (if spaced then 1 else 0)
      (if spaced then [.d .byte] else []) s := by
  cases spaced
  · exact Follows.ok () s
  · exact delay_follows label .byte s

theorem sendBytes_follows (out : List Byte) (s : State) :
    Follows (sendBytes out s) out.length (out.map fun b => .x b 0) s := by
  induction out generalizing s with
  | nil => exact Follows.ok () s
  | cons b bs ih =>
    refine ((xfer_follows .f3 b s).andThen fun _ t _ => ih t).congr ?_ rfl
    simp [Nat.add_comm]

theorem receiveBytes_follows (spaced : Bool) (n : Nat) (s : State) :
    Follows (receiveBytes spaced n s) (n * (if spaced then 2 else 1)) (receiveEvents spaced n)
      s := by
  induction n generalizing s with
  | zero =>
    rw [Nat.zero_mul]
    exact Follows.ok [] s
  | succ n ih =>
    refine ((xfer_follows .f4 0x00 s).andThen fun b t _ => (spacing_follows .f4 spaced t).andThen
      fun _ u _ => (ih u).andThen fun bs v _ => Follows.ok (b :: bs) v).congr ?_ ?_
    · cases spaced <;> simp <;> omega
    · simp [receiveEvents]

/-- The whole frame, on any access layer (40_command_framer.md R126). -/
theorem frame_follows (instr : Byte) (out : List Byte) (nIn : Nat) (spaced : Bool) (s : State) :
    Follows (frame instr out nIn spaced s)
      (3 + out.length + (if spaced then 2 * nIn + 1 else nIn))
      ([.w .csn false, .x instr 0] ++ (if spaced then [.d .byte] else []) ++
        out.map (fun b => .x b 0) ++ receiveEvents spaced nIn ++ [.w .csn true]) s := by
  refine ((pinWrite_follows .f1 .csn _ s).andThen fun _ t1 _ =>
    (xfer_follows .f2 instr t1).andThen fun _ t2 _ =>
    (spacing_follows .f2d spaced t2).andThen fun _ t3 _ =>
    (sendBytes_follows out t3).andThen fun _ t4 _ =>
    (receiveBytes_follows spaced nIn t4).andThen fun bytes t5 _ =>
    (pinWrite_follows .f5 .csn _ t5).andThen fun _ t6 _ => Follows.ok bytes t6).congr ?_ ?_
  · cases spaced <;> simp <;> omega
  · simp [OutLine.asserted]

/-- A write frame, on any access layer. -/
theorem writeFrame_follows (instr : Byte) (out : List Byte) (s : State) :
    Follows (frame instr out 0 false s) (3 + out.length) (writeFrameEvents instr out) s :=
  (frame_follows instr out 0 false s).congr (by simp) (by simp [writeFrameEvents, receiveEvents])

/-! ### How many bytes come back -/

theorem receiveBytes_length {spaced : Bool} {n : Nat} {s t : State} {bytes : List Byte}
    (h : receiveBytes spaced n s = .ok bytes t) : bytes.length = n := by
  induction n generalizing s bytes t with
  | zero =>
    cases h
    rfl
  | succ n ih =>
    obtain ⟨_, _, _, h⟩ := Res.andThen_ok h
    obtain ⟨_, _, _, h⟩ := Res.andThen_ok h
    obtain ⟨_, _, hr, h⟩ := Res.andThen_ok h
    cases h
    simp [ih hr]

/-- A frame that completes returns as many bytes as it was asked for (40_command_framer.md R126). -/
theorem frame_length {instr : Byte} {out : List Byte} {nIn : Nat} {spaced : Bool} {s t : State}
    {bytes : List Byte} (h : frame instr out nIn spaced s = .ok bytes t) : bytes.length = nIn := by
  obtain ⟨_, _, _, h⟩ := Res.andThen_ok h
  obtain ⟨_, _, _, h⟩ := Res.andThen_ok h
  obtain ⟨_, _, _, h⟩ := Res.andThen_ok h
  obtain ⟨_, _, _, h⟩ := Res.andThen_ok h
  obtain ⟨_, _, hr, h⟩ := Res.andThen_ok h
  obtain ⟨_, _, _, h⟩ := Res.andThen_ok h
  cases h
  exact receiveBytes_length hr

/-- A packet that was read has thirty-two bytes (40_command_framer.md R124). -/
theorem readReceivedPayload_ok {s t : State} {bytes : List Byte}
    (h : readReceivedPayload s = .ok bytes t) : bytes.length = rxPayloadLen :=
  frame_length (Res.inside_ok h)

/-- After `RX.4` the packet stands in `RXBUF`, thirty-two bytes (10_state.md R36). -/
theorem drainReadSteps_ok {s t : State} (h : drainReadSteps s = .ok () t) :
    ∃ bytes, t.rxbuf = some bytes ∧ bytes.length = rxPayloadLen := by
  obtain ⟨_, _, _, h⟩ := Res.andThen_ok h
  obtain ⟨bytes, u, hr, h⟩ := Res.andThen_ok h
  obtain ⟨_, _, hw, h⟩ := Res.andThen_ok h
  cases h
  have ht := (assertLine_touched .rx4 (l := .trig) { u with rxbuf := some bytes }
    (ls := [.trig]) List.mem_cons_self).same.rxbuf
  rw [hw] at ht
  exact ⟨bytes, ht, readReceivedPayload_ok (Res.inside_ok hr)⟩

/-! ### Cleanup -/

/-- The event a cleanup write leaves (60_exceptions.md R224). -/
theorem cleanupWrite_trace (s : State) (w : OutLine × Level) :
    (cleanupWrite s w).trace =
      s.trace ++ [if s.failsHere then .wFailed w.1 w.2 else .w w.1 w.2] := by
  cases h : s.failsHere <;> simp [cleanupWrite, h, State.emit, State.setLine]

/-- A cleanup none of whose writes fails is a run of these writes, in order. -/
theorem cleanupWrites_ran (ws : List (OutLine × Level)) {s : State}
    (h : ∀ k, k < ws.length → s.failsAt k = false) :
    Ran ws.length (ws.map fun w => Event.w w.1 w.2) s (cleanupWrites ws s) := by
  induction ws generalizing s with
  | nil => exact .refl s
  | cons w ws ih =>
    have h0 : s.failsHere = false := h 0 (Nat.zero_lt_succ _)
    have hw : cleanupWrite s w = (s.advance.emit (.w w.1 w.2)).setLine w.1 w.2 := by
      simp [cleanupWrite, h0]
    have hr : Ran 1 [.w w.1 w.2] s (cleanupWrite s w) :=
      hw ▸ (Ran.advance s).trans (.write w.1 w.2 _)
    have hk := ih (s := cleanupWrite s w) fun k hk => by
      have := h (1 + k) (by simp only [List.length_cons]; omega)
      rwa [State.failsAt, ← State.momentAt_used hr.env hr.tick, ← hr.same.params] at this
    have := hr.trans hk
    rwa [Nat.add_comm 1] at this

/-- Taking an error, where no write of its cleanup fails (60_exceptions.md R230, R231). -/
theorem State.raise_closed {closing : List (OutLine × Level)} {path : StepPath} {t : State}
    (h : NoFailureWithin ((if frameOpen path then 1 else 0) + closing.length) t) :
    ClosedBy closing path t t (t.raise closing path) := by
  have hr := cleanupWrites_ran
    ((if frameOpen path then [(OutLine.csn, true)] else []) ++ closing) (s := t) fun k hk =>
      h.failsAt (by
        cases hf : frameOpen path <;> simp only [hf] at hk ⊢ <;> simp at hk ⊢ <;> omega)
  exact
    { trace := hr.trace
      replies := by simp [State.raise, State.ret, cleanup, hr.replies]
      same := (hr.same.trans (.reply _ _)).finish }

/-! ### The mirror -/

@[simp] theorem mirrorWrite_length (cfg : List Byte) (k : Nat) (bytes : List Byte) :
    (mirrorWrite cfg k bytes).length = cfg.length := by
  induction bytes generalizing cfg k with
  | nil => rfl
  | cons b bs ih => simp [mirrorWrite, ih]

/-! ### Deliveries -/

/-- The requests of a delivery are deferred, in order (42_receive_pipeline.md R177). -/
theorem request_foldl (qs : List RegistryRequest) {s : State} (h : s.dispatching = true) :
    qs.foldl (fun s q => s.request q) s = { s with deferq := s.deferq ++ qs } := by
  induction qs generalizing s with
  | nil => simp
  | cons q qs ih =>
    have hq : s.request q = { s with deferq := s.deferq ++ [q] } := by simp [State.request, h]
    rw [List.foldl_cons, hq, ih (by exact h)]
    simp

@[simp] theorem dispatchPosition_nil (i : Nat) : dispatchPosition [] i = .applying none := by
  simp [dispatchPosition]

theorem dispatchPosition_of_lt {snapshot : List ConsumerId} {i : Nat} (h : i < snapshot.length) :
    dispatchPosition snapshot i = .delivering snapshot i := if_pos h

theorem dispatchPosition_of_le {snapshot : List ConsumerId} {i : Nat} (h : snapshot.length ≤ i) :
    dispatchPosition snapshot i = .applying none := if_neg (Nat.not_lt.mpr h)

/-- A delivery: one event, the requests deferred. -/
theorem deliver_eq (h : ConsumerId) (payload : List Byte) {s : State} (hd : s.dispatching = true) :
    deliver h payload s =
      { s.advance.emit (.v h payload) with deferq := s.deferq ++ s.here.requests } := by
  rw [deliver, request_foldl _ (by exact hd)]
  rfl

end Sys2Proof.Machine
end

