-- ==== Sys2Proof/Laws/Events.lean ====
section
/-! SUPPORT. Lines, reference environment and trace checker along the events of whole frames, and the
link between the bytes a read frame returns and its events. -/

namespace Sys2Proof.Machine

/-! ### Bytes returned are the bytes that came in -/

/-- The events of data bytes that came in. -/
def receivedEvents (spaced : Bool) (bytes : List Byte) : List Event :=
  bytes.flatMap fun b => .x 0 b :: if spaced then [.d .byte] else []

theorem receiveBytes_events (spaced : Bool) (n : Nat) {s t : State} {bytes : List Byte}
    (h : receiveBytes spaced n s = .ok bytes t) :
    t.trace = s.trace ++ receivedEvents spaced bytes := by
  induction n generalizing s bytes with
  | zero =>
    cases h
    simp [receivedEvents]
  | succ n ih =>
    simp only [receiveBytes, xfer] at h
    split at h
    · cases h
    · simp only [Res.andThen] at h
      cases spaced with
      | false =>
        simp only [spacing, Bool.false_eq_true, if_false] at h
        split at h
        · rename_i bs u hu
          cases h
          rw [ih hu]
          simp [receivedEvents]
        · cases h
      | true =>
        simp only [spacing, if_true, delay] at h
        split at h
        · rename_i hd
          split at hd <;> simp at hd
          subst hd
          split at h
          · rename_i bs u hu
            cases h
            rw [ih hu]
            simp [receivedEvents]
          · cases h
        · cases h

theorem spacing_ok {label : StepLabel} {spaced : Bool} {s t : State}
    (h : spacing label spaced s = .ok () t) :
    t.env = s.env.drop (if spaced then 1 else 0) ∧ t.chip = s.chip := by
  cases spaced with
  | false =>
    cases h
    exact ⟨rfl, rfl⟩
  | true =>
    simp only [spacing, if_true, delay] at h
    split at h <;> cases h
    exact ⟨by simp, rfl⟩

/-- Data byte `j` is the byte the environment gives at its moment (20_memory.md R62, R72). -/
theorem receiveBytes_clocked (spaced : Bool) (n : Nat) {s t : State} {bytes : List Byte}
    (h : receiveBytes spaced n s = .ok bytes t) :
    ∀ (j : Nat) (m : Moment) (b : Byte), j < n →
      s.env[(if spaced then 2 else 1) * j]? = some m → m.inbound = some b →
      bytes[j]? = some b := by
  induction n generalizing s bytes t with
  | zero => intro j m b hj; omega
  | succ n ih =>
    obtain ⟨b0, u, hx, h⟩ := Res.andThen_ok h
    obtain ⟨_, v, hs, h⟩ := Res.andThen_ok h
    obtain ⟨bs, w, hr, h⟩ := Res.andThen_ok h
    cases h
    simp only [xfer] at hx
    split at hx <;> cases hx
    intro j m b hj he hb
    cases j with
    | zero => simp [State.inbound, State.here_listed he, hb]
    | succ j =>
      rw [List.getElem?_cons_succ]
      refine ih hr j m b (by omega) ?_ hb
      rw [(spacing_ok hs).1, State.emit_env, State.advance_env, List.getElem?_drop,
        List.getElem?_tail, ← he]
      congr 1
      cases spaced <;> simp +arith

/-- Data byte `j` of a read-config frame is the environment's own, else what `CONFIG` holds
(20_memory.md R71). -/
theorem receiveBytes_config (n j0 : Nat) {s t : State} {bytes : List Byte}
    (h : receiveBytes false n s = .ok bytes t) (hf : s.chip.frame = .transfer .readConfig j0) :
    ∀ (j : Nat) (m : Moment), j < n → j0 + j < configLen → s.env[j]? = some m →
      (m.inbound = none → (Memory.read s.chip.config (j0 + j)).isSome = true) →
      bytes[j]? = m.inbound.or (Memory.read s.chip.config (j0 + j)) := by
  induction n generalizing s bytes t j0 with
  | zero => intro j m hj; omega
  | succ n ih =>
    obtain ⟨b0, u, hx, h⟩ := Res.andThen_ok h
    obtain ⟨_, v, hs, h⟩ := Res.andThen_ok h
    obtain ⟨bs, w, hr, h⟩ := Res.andThen_ok h
    cases h
    cases hs
    simp only [xfer] at hx
    split at hx <;> cases hx
    intro j m hj hc he hv
    cases j with
    | zero =>
      simp only [Nat.add_zero] at hc hv ⊢
      simp only [List.getElem?_cons_zero, State.inbound, State.here_listed he, Chip.answer, hf,
        if_pos hc]
      cases hm : m.inbound with
      | some b => rfl
      | none =>
        obtain ⟨b, hb⟩ := Option.isSome_iff_exists.mp (hv hm)
        simp [hb]
    | succ j =>
      have hchip : (s.advance.emit (.x 0 s.inbound)).chip =
          { s.chip with frame := .transfer .readConfig (j0 + 1) } := by
        simp [Chip.observe, Chip.transfer, hf, Chip.store]
      have := ih (j0 + 1) hr (by simpa using congrArg Chip.frame hchip) j m (by omega) (by omega)
        (by simpa using he) (by
          intro hm
          have hv := hv hm
          have hchip' := congrArg Chip.config hchip
          simp only [BitVec.ofNat_eq_ofNat] at hchip' ⊢
          rw [hchip', show j0 + 1 + j = j0 + (j + 1) by omega]
          exact hv)
      have hchip' := congrArg Chip.config hchip
      simp only [BitVec.ofNat_eq_ofNat] at hchip' this
      rw [hchip', show j0 + 1 + j = j0 + (j + 1) by omega] at this
      rw [List.getElem?_cons_succ, this]

/-! ### Which read-config frames are answered -/

theorem State.configAnswered_iff (s : State) :
    s.configAnswered = true ↔ ∀ j, j < configLen →
      (s.momentAt (2 + j)).inbound.isSome = true ∨ (Memory.read s.chip.config j).isSome = true ∨
        ∃ m, m < 3 + j ∧ s.failsAt m = true := by
  simp [State.configAnswered, or_assoc]

/-- The answer does not depend on the flags of the block. -/
theorem State.configAnswered_begin (s : State) : s.begin.configAnswered = s.configAnswered := rfl

theorem configAnswered_of_values {s : State} (h : ConfigHasValues s) : s.configAnswered = true := by
  rw [State.configAnswered_iff]
  intro j hj
  cases he : s.env[2 + j]? with
  | none => exact .inl (State.momentAt_unlisted he)
  | some m =>
    cases hm : m.inbound with
    | some b => exact .inl (by simp [State.momentAt_listed he, hm])
    | none => exact .inr (.inl (h j m hj he hm))

theorem configAnswered_of_held {s : State}
    (h : ∀ j, j < configLen → (Memory.read s.chip.config j).isSome = true) :
    s.configAnswered = true :=
  configAnswered_of_values fun j _ hj _ _ => h j hj

/-- A byte without a value, left to the reference environment (10_state.md R44). -/
theorem configAnswered_of_unwritten {s : State} {j : Nat} {m : Moment} (hj : j < configLen)
    (hp : s.params.halFallible = false) (he : s.env[2 + j]? = some m) (hm : m.inbound = none)
    (hc : Memory.read s.chip.config j = none) : s.configAnswered = false := by
  rw [Bool.eq_false_iff, ne_eq, State.configAnswered_iff]
  intro h
  rcases h j hj with h | h | ⟨k, -, h⟩
  · simp [State.momentAt_listed he, hm] at h
  · simp [hc] at h
  · simp [failsAt_of_infallible hp] at h

/-! ### Lines -/

theorem linesAfter_data (ls : Lines) (bs : List Byte) :
    linesAfter ls (bs.map fun b => Event.x b 0) = ls := by
  induction bs generalizing ls with
  | nil => rfl
  | cons b bs ih => exact ih ls

theorem linesAfter_writeFrame (ls : Lines) (instr : Byte) (out : List Byte) :
    linesAfter ls (writeFrameEvents instr out) = { ls with csn := true } := by
  rw [writeFrameEvents, linesAfter_append, linesAfter_append, linesAfter_data]
  rfl

theorem linesAfter_receiveEvents (ls : Lines) (spaced : Bool) (n : Nat) :
    linesAfter ls (receiveEvents spaced n) = ls := by
  induction n with
  | zero => rfl
  | succ n ih => cases spaced <;> simpa [receiveEvents, lineAfter] using ih

/-! ### The reference environment -/

/-- Data bytes of a frame stored from data position `j` on. -/
def Chip.storeFrom (p : Params) (op : ChipOp) (j : Nat) : List Byte → Chip → Chip
  | [], c => c
  | b :: bs, c => Chip.storeFrom p op (j + 1) bs (c.store p op j b)

@[simp] theorem Chip.store_frame (p : Params) (op : ChipOp) (j : Nat) (o : Byte) (c : Chip) :
    (c.store p op j o).frame = c.frame := by
  cases op <;> simp only [Chip.store] <;> (try split) <;> rfl

theorem Chip.store_setFrame (p : Params) (op : ChipOp) (j : Nat) (o : Byte) (c : Chip)
    (f : ChipFrame) : { c with frame := f }.store p op j o = { c.store p op j o with frame := f } := by
  cases op <;> simp only [Chip.store] <;> (try split) <;> rfl

/-- The frame position does not matter for what is stored. -/
theorem Chip.storeFrom_setFrame (p : Params) (op : ChipOp) (bs : List Byte) (j : Nat) (c : Chip)
    (f : ChipFrame) : Chip.storeFrom p op j bs { c with frame := f } =
      { Chip.storeFrom p op j bs c with frame := f } := by
  induction bs generalizing j c with
  | nil => rfl
  | cons b bs ih => simp only [Chip.storeFrom, Chip.store_setFrame, ih]

theorem chipAfter_data (p : Params) (ls : Lines) (op : ChipOp) (j : Nat) (bs : List Byte)
    (c : Chip) (h : c.frame = .transfer op j) :
    chipAfter p ls c (bs.map fun b => Event.x b 0) =
      { Chip.storeFrom p op j bs c with frame := .transfer op (j + bs.length) } := by
  induction bs generalizing j c with
  | nil =>
    show c = { c with frame := .transfer op j }
    rw [← h]
  | cons b bs ih =>
    have ho : c.observe p ls (.x b 0) =
        { c.store p op j b with frame := .transfer op (j + 1) } := by
      simp only [Chip.observe, Chip.transfer, h]
    have hl : lineAfter ls (.x b 0) = ls := rfl
    rw [List.map_cons, chipAfter_cons, ho, hl, ih (j + 1) _ rfl, Chip.storeFrom_setFrame,
      List.length_cons, Nat.add_right_comm, Nat.add_assoc]
    rfl

/-- A write frame stores its data from the first position on and releases the chip. -/
theorem chipAfter_writeFrame (p : Params) (ls : Lines) (c : Chip) (instr : Byte) (out : List Byte)
    (hop : chipOpOf p instr ≠ .readPayload) :
    chipAfter p ls c (writeFrameEvents instr out) =
      { Chip.storeFrom p (chipOpOf p instr) 0 out c with frame := .released } := by
  have h : chipAfter p ls c [.w .csn false, .x instr 0] =
      { c with frame := .transfer (chipOpOf p instr) 0 } := rfl
  rw [writeFrameEvents, chipAfter_append, chipAfter_append, h,
    chipAfter_data p _ (chipOpOf p instr) 0 out _ rfl, Chip.storeFrom_setFrame]
  exact Chip.release_other fun n hn => hop (by injection hn)

theorem Chip.storeFrom_config (p : Params) (k : Nat) (bs : List Byte) (j : Nat) (c : Chip)
    (h : k + j + bs.length ≤ configLen) :
    WrittenAt c.config (k + j) bs (Chip.storeFrom p (.writeConfig k) j bs c).config ∧
      (Chip.storeFrom p (.writeConfig k) j bs c).txPayload = c.txPayload ∧
      (Chip.storeFrom p (.writeConfig k) j bs c).txAddress = c.txAddress ∧
      (Chip.storeFrom p (.writeConfig k) j bs c).rxPayload = c.rxPayload := by
  induction bs generalizing j c with
  | nil => exact ⟨fun a => by simp [Chip.storeFrom], rfl, rfl, rfl⟩
  | cons b bs ih =>
    simp only [List.length_cons] at h
    have hj : k + j < configLen := by omega
    obtain ⟨h1, h2, h3, h4⟩ := ih (j + 1) (c.store p (.writeConfig k) j b) (by omega)
    simp only [Chip.storeFrom]
    simp only [Chip.store, if_pos hj] at h1 h2 h3 h4 ⊢
    refine ⟨fun a => ?_, h2, h3, h4⟩
    rw [h1 a, Memory.read_write]
    simp only [List.length_cons]
    by_cases ha : a = k + j
    · subst ha
      simp
    · by_cases hb : k + (j + 1) ≤ a ∧ a < k + (j + 1) + bs.length
      · rw [if_pos hb, if_pos (by omega)]
        obtain ⟨d, hd⟩ : ∃ d, a - (k + j) = d + 1 := ⟨a - (k + j) - 1, by omega⟩
        rw [hd, List.getElem?_cons_succ]
        congr 1
        omega
      · rw [if_neg hb, if_neg ha, if_neg (by omega)]

theorem Chip.storeFrom_payload (p : Params) (bs : List Byte) (j : Nat) (c : Chip)
    (h : j + bs.length ≤ p.txPayloadMax) :
    WrittenAt c.txPayload j bs (Chip.storeFrom p .writePayload j bs c).txPayload ∧
      (Chip.storeFrom p .writePayload j bs c).config = c.config ∧
      (Chip.storeFrom p .writePayload j bs c).txAddress = c.txAddress ∧
      (Chip.storeFrom p .writePayload j bs c).rxPayload = c.rxPayload := by
  induction bs generalizing j c with
  | nil => exact ⟨fun a => by simp [Chip.storeFrom], rfl, rfl, rfl⟩
  | cons b bs ih =>
    simp only [List.length_cons] at h
    have hj : j < p.txPayloadMax := by omega
    obtain ⟨h1, h2, h3, h4⟩ := ih (j + 1) (c.store p .writePayload j b) (by omega)
    simp only [Chip.storeFrom]
    simp only [Chip.store, if_pos hj] at h1 h2 h3 h4 ⊢
    refine ⟨fun a => ?_, h2, h3, h4⟩
    rw [h1 a, Memory.read_write]
    simp only [List.length_cons]
    by_cases ha : a = j
    · subst ha
      simp
    · by_cases hb : j + 1 ≤ a ∧ a < j + 1 + bs.length
      · rw [if_pos hb, if_pos (by omega)]
        obtain ⟨d, hd⟩ : ∃ d, a - j = d + 1 := ⟨a - j - 1, by omega⟩
        rw [hd, List.getElem?_cons_succ]
        congr 1
        omega
      · rw [if_neg hb, if_neg ha, if_neg (by omega)]

theorem Chip.storeFrom_address (p : Params) (bs : List Byte) (j : Nat) (c : Chip)
    (h : j + bs.length ≤ addrLen) :
    WrittenAt c.txAddress j bs (Chip.storeFrom p .writeAddress j bs c).txAddress ∧
      (Chip.storeFrom p .writeAddress j bs c).config = c.config ∧
      (Chip.storeFrom p .writeAddress j bs c).txPayload = c.txPayload ∧
      (Chip.storeFrom p .writeAddress j bs c).rxPayload = c.rxPayload := by
  induction bs generalizing j c with
  | nil => exact ⟨fun a => by simp [Chip.storeFrom], rfl, rfl, rfl⟩
  | cons b bs ih =>
    simp only [List.length_cons] at h
    have hj : j < addrLen := by omega
    obtain ⟨h1, h2, h3, h4⟩ := ih (j + 1) (c.store p .writeAddress j b) (by omega)
    simp only [Chip.storeFrom]
    simp only [Chip.store, if_pos hj] at h1 h2 h3 h4 ⊢
    refine ⟨fun a => ?_, h2, h3, h4⟩
    rw [h1 a, Memory.read_write]
    simp only [List.length_cons]
    by_cases ha : a = j
    · subst ha
      simp
    · by_cases hb : j + 1 ≤ a ∧ a < j + 1 + bs.length
      · rw [if_pos hb, if_pos (by omega)]
        obtain ⟨d, hd⟩ : ∃ d, a - j = d + 1 := ⟨a - j - 1, by omega⟩
        rw [hd, List.getElem?_cons_succ]
        congr 1
        omega
      · rw [if_neg hb, if_neg ha, if_neg (by omega)]

/-- A read frame stores nothing. -/
theorem chipAfter_receiveEvents (p : Params) (ls : Lines) (op : ChipOp) (j : Nat) (spaced : Bool)
    (n : Nat) (c : Chip) (h : c.frame = .transfer op j)
    (hop : op = .readConfig ∨ op = .readPayload) :
    chipAfter p ls c (receiveEvents spaced n) = { c with frame := .transfer op (j + n) } := by
  induction n generalizing j c with
  | zero => simp [receiveEvents, ← h]
  | succ n ih =>
    have hs : c.store p op j 0 = c := by rcases hop with rfl | rfl <;> rfl
    have ho : c.observe p ls (.x 0 0) = { c with frame := .transfer op (j + 1) } := by
      simp only [Chip.observe, Chip.transfer, h, hs]
    have hd : ∀ c : Chip, chipAfter p ls c (if spaced then [.d .byte] else []) = c := by
      intro c
      cases spaced <;> rfl
    have hl : linesAfter ls (if spaced then [Event.d .byte] else []) = ls := by
      cases spaced <;> rfl
    simp only [receiveEvents, chipAfter_cons, chipAfter_append, ho, lineAfter, hd, hl]
    rw [ih (j + 1) _ rfl]
    simp only [Nat.add_assoc, Nat.add_comm 1]

/-- The reference environment after a whole read frame: nothing stored, released; the packet buffer is
emptied by a read-received-payload frame (20_memory.md R67). -/
theorem chipAfter_readFrame (p : Params) (ls : Lines) (c : Chip) (instr : Byte) (spaced : Bool)
    (n : Nat) (hop : chipOpOf p instr = .readConfig ∨ chipOpOf p instr = .readPayload) :
    chipAfter p ls c ([.w .csn false, .x instr 0] ++ (if spaced then [.d .byte] else []) ++
        receiveEvents spaced n ++ [.w .csn true]) =
      { c with
        rxPayload := if chipOpOf p instr = .readPayload then [] else c.rxPayload
        frame := .released } := by
  have h : ∀ ls, chipAfter p ls c ([.w .csn false, .x instr 0] ++
      (if spaced then [.d .byte] else [])) = { c with frame := .transfer (chipOpOf p instr) 0 } := by
    intro ls
    cases spaced <;> rfl
  rw [chipAfter_append, chipAfter_append, h, chipAfter_receiveEvents p _ _ 0 spaced n _ rfl hop]
  rcases hop with hop | hop <;> rw [hop]
  · exact Chip.release_other (c := { c with frame := .transfer .readConfig (0 + n) }) (by simp)
  · exact Chip.release_readPayload (c := { c with frame := .transfer .readPayload (0 + n) }) rfl

/-! ### Opcodes of a valid record -/

/-- What a valid record says of its opcodes (00_scope.md R6). -/
theorem Params.valid_facts {p : Params} (h : p.valid = true) :
    p.opWC &&& offsetMask = 0 ∧ p.opcodeBytes.Nodup ∧ p.cfgDefault.length = configLen ∧
      (p.cfgDefault.drop addrOffset).take addrLen = [0, 0, 0, 0] ∧ p.spinLimit ≠ some 0 := by
  simp only [Params.valid, Bool.and_eq_true, beq_iff_eq, decide_eq_true_eq, bne_iff_ne] at h
  tauto

theorem Params.wcByte_mem {p : Params} {k : Nat} (hk : k < 16) :
    p.wcByte k ∈ (List.range 16).map p.wcByte := List.mem_map_of_mem (List.mem_range.mpr hk)

/-- No write-config byte is one of the fixed opcodes, and the fixed ones differ. -/
theorem Params.opcodes_distinct {p : Params} (h : p.valid = true) :
    (∀ k, k < 16 → p.wcByte k ≠ p.opRC ∧ p.wcByte k ≠ p.opWTP ∧ p.wcByte k ≠ p.opWTA ∧
      p.wcByte k ≠ p.opRRP) ∧
    p.opRC ≠ p.opWTP ∧ p.opRC ≠ p.opWTA ∧ p.opRC ≠ p.opRRP ∧ p.opWTP ≠ p.opWTA ∧
    p.opWTP ≠ p.opRRP ∧ p.opWTA ≠ p.opRRP := by
  obtain ⟨-, hn, -⟩ := Params.valid_facts h
  rw [Params.opcodeBytes, List.nodup_append] at hn
  obtain ⟨-, hf, hd⟩ := hn
  refine ⟨fun k hk => ?_, ?_⟩
  · have hm := Params.wcByte_mem (p := p) hk
    exact ⟨hd _ hm _ (by simp), hd _ hm _ (by simp), hd _ hm _ (by simp), hd _ hm _ (by simp)⟩
  · simp only [List.nodup_cons, List.mem_cons, List.not_mem_nil, or_false, not_or] at hf
    tauto

theorem Params.highNibble_wcByte {p : Params} (h : p.valid = true) (k : Nat) :
    highNibble (p.wcByte k) = highNibble p.opWC := by
  obtain ⟨h0, -⟩ := Params.valid_facts h
  simp only [highNibble, Params.wcByte, offsetMask] at *
  rw [BitVec.and_or_distrib_right, BitVec.and_assoc]
  simp

theorem nibble_or (a b : Byte) (h : a &&& offsetMask = 0) :
    startOffset (a ||| (b &&& offsetMask)) = b.setWidth 4 := by
  have hm : (offsetMask).setWidth 4 = BitVec.allOnes 4 := rfl
  have ha : a.setWidth 4 = 0 := by
    have := congrArg (BitVec.setWidth 4) h
    rwa [BitVec.setWidth_and, hm, BitVec.and_allOnes, show (0 : Byte).setWidth 4 = 0 from rfl] at this
  rw [startOffset, BitVec.setWidth_or, ha, BitVec.setWidth_and, hm, BitVec.and_allOnes]
  exact BitVec.zero_or

theorem Params.startOffset_wcByte {p : Params} (h : p.valid = true) (k : Nat) :
    startOffset (p.wcByte k) = BitVec.ofNat 4 k := by
  obtain ⟨h0, -⟩ := Params.valid_facts h
  rw [Params.wcByte, nibble_or _ _ h0]
  apply BitVec.eq_of_toNat_eq
  simp only [BitVec.toNat_setWidth, BitVec.toNat_ofNat]
  omega

/-- The reference environment reads a write-config byte as a write from its offset. -/
theorem chipOpOf_wcByte {p : Params} (h : p.valid = true) {k : Nat} (hk : k ≤ configLen) :
    chipOpOf p (p.wcByte k) = .writeConfig k := by
  simp only [configLen] at hk
  obtain ⟨h1, h2, h3, h4⟩ := (Params.opcodes_distinct h).1 k (by omega)
  simp only [chipOpOf, if_neg h1, if_neg h2, if_neg h3, if_neg h4, Params.highNibble_wcByte h,
    if_true, Params.startOffset_wcByte h, BitVec.toNat_ofNat]
  congr 1
  omega

theorem chipOpOf_fixed {p : Params} (h : p.valid = true) :
    chipOpOf p p.opRC = .readConfig ∧ chipOpOf p p.opWTP = .writePayload ∧
      chipOpOf p p.opWTA = .writeAddress ∧ chipOpOf p p.opRRP = .readPayload := by
  obtain ⟨-, h1, h2, h3, h4, h5, h6⟩ := Params.opcodes_distinct h
  refine ⟨?_, ?_, ?_, ?_⟩ <;>
    simp [chipOpOf, h1.symm, h2.symm, h3.symm, h4.symm, h5.symm, h6.symm]

end Sys2Proof.Machine
end

