-- ==== Sys2Proof/Laws/Checker.lean ====
section
/-! SUPPORT. The trace checker along whole frames. -/

namespace Sys2Proof.Machine

/-- The checker does not look at what came in. -/
theorem checkEvents_outward (p : Params) (pos : FramePos) (evs : List Event) :
    checkEvents p pos (outward evs) = checkEvents p pos evs := by
  induction evs generalizing pos with
  | nil => rfl
  | cons e es ih =>
    have h : checkEvent p pos e.outward = checkEvent p pos e := by cases e <;> cases pos <;> rfl
    simp only [outward_cons, checkEvents, h, ih]

theorem checkEvents_append (p : Params) {pos next : FramePos} {es : List Event} (fs : List Event)
    (h : checkEvents p pos es = some next) :
    checkEvents p pos (es ++ fs) = checkEvents p next fs := by
  induction es generalizing pos with
  | nil =>
    cases h
    rfl
  | cons e es ih =>
    simp only [checkEvents, List.cons_append] at h ⊢
    split at h
    · cases h
    · exact ih h

theorem checkEvents_data (p : Params) {k : FrameKind} (hk : (k == .rrp) = false)
    (hd : ∀ o, k.dataOk o = true) (bs : List Byte) (n : Nat) :
    checkEvents p (.inside k n false) (bs.map fun b => .x b 0) =
      some (.inside k (n + bs.length) false) := by
  induction bs generalizing n with
  | nil => rfl
  | cons b bs ih =>
    simp only [List.map_cons, checkEvents, checkEvent, checkInside, hd, hk, Bool.not_false,
      Bool.and_self, if_true, ih, List.length_cons]
    simp only [Nat.add_assoc, Nat.add_comm 1]

/-- A write frame of a kind whose length its data fit (30_encoding.md R100). -/
theorem checkEvents_writeFrame (p : Params) {instr : Byte} {k : FrameKind} {bs : List Byte}
    (h : frameKind p instr = some k) (hk : (k == .rrp) = false) (hd : ∀ o, k.dataOk o = true)
    (hl : k.lengthOk p bs.length = true) :
    checkEvents p .outside (writeFrameEvents instr bs) = some .outside := by
  have h1 : checkEvents p .outside [.w .csn false, .x instr 0] = some (.inside k 0 false) := by
    simp [checkEvents, checkEvent, checkOutside, checkOpened, h, hk]
  rw [writeFrameEvents, List.append_assoc, checkEvents_append p _ h1,
    checkEvents_append p _ (checkEvents_data p hk hd bs 0)]
  simp [checkEvents, checkEvent, checkInside, hl]

theorem checkEvents_receive (p : Params) {k : FrameKind} (hd : k.dataOk 0 = true) (n j : Nat) :
    checkEvents p (.inside k j false) (receiveEvents (k == .rrp) n) =
      some (.inside k (j + n) false) := by
  induction n generalizing j with
  | zero => rfl
  | succ n ih =>
    simp only [BitVec.ofNat_eq_ofNat] at hd
    cases hk : (k == FrameKind.rrp) <;> rw [hk] at ih <;>
      simp [receiveEvents, checkEvents, checkEvent, checkInside, hd, hk, ih, Nat.add_comm,
        Nat.add_left_comm]

/-- A read frame of a kind, with its number of data bytes (30_encoding.md R100). -/
theorem checkEvents_readFrame (p : Params) {instr : Byte} {k : FrameKind} {n : Nat}
    (h : frameKind p instr = some k) (hd : k.dataOk 0 = true) (hl : k.lengthOk p n = true) :
    checkEvents p .outside
        ([.w .csn false, .x instr 0] ++ (if (k == .rrp) then [.d .byte] else []) ++
          receiveEvents (k == .rrp) n ++ [.w .csn true]) = some .outside := by
  have h1 : checkEvents p .outside
      ([.w .csn false, .x instr 0] ++ (if (k == .rrp) then [.d .byte] else [])) =
        some (.inside k 0 false) := by
    cases hk : (k == FrameKind.rrp) <;>
      simp [checkEvents, checkEvent, checkOutside, checkOpened, checkInside, h, hk]
  rw [List.append_assoc, checkEvents_append p _ h1,
    checkEvents_append p _ (checkEvents_receive p hd n 0)]
  simp [checkEvents, checkEvent, checkInside, hl]

/-- The instruction bytes of a valid record have their kinds (30_encoding.md R93 to R97). -/
theorem frameKind_opcodes {p : Params} (h : p.valid = true) :
    frameKind p p.opRC = some .rc ∧ frameKind p p.opWTP = some .wtp ∧
      frameKind p p.opWTA = some .wta ∧ frameKind p p.opRRP = some .rrp ∧
      ∀ k, k ≤ configLen → frameKind p (p.wcByte k) = some (.wc k) := by
  obtain ⟨hw, h1, h2, h3, h4, h5, h6⟩ := Params.opcodes_distinct h
  refine ⟨by simp [frameKind], by simp [frameKind, h1.symm],
    by simp [frameKind, h2.symm, h4.symm], by simp [frameKind, h3.symm, h5.symm, h6.symm],
    fun k hk => ?_⟩
  simp only [configLen] at hk
  obtain ⟨g1, g2, g3, g4⟩ := hw k (by omega)
  have hm : k % 16 = k := by omega
  simp [frameKind, g1, g2, g3, g4, Params.highNibble_wcByte h, Params.startOffset_wcByte h,
    configLen, hm, hk]

end Sys2Proof.Machine
end

