-- ==== Sys2Proof/Laws/PerInstr.lean ====
section
/-! SUPPORT. Statements about every instruction as syntax, one lemma for each. -/

namespace Sys2Proof.Laws

/-- The instruction byte of a bus instruction, the table's "bytes" of its row (30_encoding.md R93 to
R97); none for a host operation. -/
def busOpcode (p : Params) : Instr → Option Byte
  | .wc k _ => some (p.opWC ||| k.setWidth 8)
  | .rc => some p.opRC
  | .wtp _ => some p.opWTP
  | .wta _ => some p.opWTA
  | .rrp => some p.opRRP
  | _ => none

/-- The command code of a host operation (30_encoding.md R102, R103); none for a bus instruction. -/
def commandOpcode : Instr → Option Nat
  | .init => some 0
  | .setAddress _ => some 1
  | .writeConfig _ _ => some 2
  | .readConfig => some 3
  | .powerUp => some 4
  | .powerDown => some 5
  | .startReceiveMode => some 6
  | .stopReceiveMode => some 7
  | .sendPacket _ _ => some 8
  | .attachReceivedCallback _ => some 9
  | .detachReceivedCallback _ => some 10
  | .unassignedB => some 11
  | .unassignedCToF x => some (12 + x.toNat)
  | _ => none

/-- The opcode at the head of a code: of a frame, of a command. -/
def headOpcode : Code → Option Byte × Option Nat
  | .frame bytes => (bytes.head?, none)
  | .command c => (none, some c.code.toNat)

/-- An instruction is encoded under the opcode of its row. -/
def Opcode.Statement (i : Instr) : Prop :=
  ∀ p : Params, headOpcode (encode p i) = (busOpcode p i, commandOpcode i)

theorem Opcode.wc (k : Nibble) (data : List Byte) : Opcode.Statement (.wc k data) := fun _ => rfl
theorem Opcode.rc : Opcode.Statement .rc := fun _ => rfl
theorem Opcode.wtp (payload : List Byte) : Opcode.Statement (.wtp payload) := fun _ => rfl
theorem Opcode.wta (address : List Byte) : Opcode.Statement (.wta address) := fun _ => rfl
theorem Opcode.rrp : Opcode.Statement .rrp := fun _ => rfl
theorem Opcode.init : Opcode.Statement .init := fun _ => rfl
theorem Opcode.setAddress (address : List Byte) : Opcode.Statement (.setAddress address) :=
  fun _ => rfl
theorem Opcode.writeConfig (offset : Nat) (bytes : List Byte) :
    Opcode.Statement (.writeConfig offset bytes) := fun _ => rfl
theorem Opcode.readConfig : Opcode.Statement .readConfig := fun _ => rfl
theorem Opcode.powerUp : Opcode.Statement .powerUp := fun _ => rfl
theorem Opcode.powerDown : Opcode.Statement .powerDown := fun _ => rfl
theorem Opcode.startReceiveMode : Opcode.Statement .startReceiveMode := fun _ => rfl
theorem Opcode.stopReceiveMode : Opcode.Statement .stopReceiveMode := fun _ => rfl
theorem Opcode.sendPacket (address payload : List Byte) :
    Opcode.Statement (.sendPacket address payload) := fun _ => rfl
theorem Opcode.attachReceivedCallback (handler : ConsumerId) :
    Opcode.Statement (.attachReceivedCallback handler) := fun _ => rfl
theorem Opcode.detachReceivedCallback (handler : ConsumerId) :
    Opcode.Statement (.detachReceivedCallback handler) := fun _ => rfl
theorem Opcode.unassignedB : Opcode.Statement .unassignedB := fun _ => rfl
theorem Opcode.unassignedCToF (x : BitVec 2) : Opcode.Statement (.unassignedCToF x) := by
  have h : ∀ x : BitVec 2, ((0xC : Nibble) ||| x.setWidth 4).toNat = 12 + x.toNat := by decide
  exact fun _ => congrArg (fun n => (none, some n)) (h x)

end Sys2Proof.Laws
end

