-- ==== Sys2Proof/Laws/Steps.lean ====
section
/-! SUPPORT. The inner sequences of the operations complete on an access layer that does not fail:
how many micro-steps they take and which events they emit, without inbound bytes. What the step of a
busy block and the end of a dispatch do. -/

namespace Sys2Proof.Machine

/-- Steps `WC.1` to `WC.4` (40_command_framer.md R120). -/
theorem writeConfigSteps_completes (k : Nat) (bytes : List Byte) {s : State}
    (h : s.params.halFallible = false) :
    ∃ t evs, writeConfigSteps k bytes s = .ok () { t with cfg := mirrorWrite t.cfg k bytes } ∧
      Ran (5 + bytes.length) evs s t ∧ outward evs = configWriteEvents s.params k bytes := by
  obtain ⟨_, t1, e1, r1, h1, o1, -⟩ := deassertLine_completes .wc1 .pwr h
  have p1 := h1.same.params ▸ h
  obtain ⟨_, t2, e2, r2, h2, o2, -⟩ := writeFrame_completes (t1.params.wcByte k) bytes p1
  have p2 := h2.same.params ▸ p1
  obtain ⟨_, t3, e3, r3, h3, o3, -⟩ := assertLine_completes .wc4 .pwr p2
  have hr := h1.trans (h2.trans h3)
  rw [show 1 + (3 + bytes.length + 1) = 5 + bytes.length by omega] at hr
  refine ⟨t3, _, ?_, hr, ?_⟩
  · simp only [writeConfigSteps, writeConfigFrame, r1, r2, r3, Res.andThen, Res.inside]
  · simp [o1, o2, o3, configWriteEvents, h1.same.params, OutLine.asserted]

/-- The lines after a configuration write (40_command_framer.md R120). -/
theorem linesAfter_configWrite (ls : Lines) (p : Params) (k : Nat) (bytes : List Byte) :
    linesAfter ls (configWriteEvents p k bytes) = { ls with pwr := true, csn := true } := by
  simp [configWriteEvents, linesAfter_writeFrame, lineAfter, Lines.set]

/-- The reference environment after a configuration write of a valid record. -/
theorem chipAfter_configWrite {p : Params} (h : p.valid = true) (ls : Lines) (c : Chip) {k : Nat}
    (hk : k ≤ configLen) (bytes : List Byte) :
    chipAfter p ls c (configWriteEvents p k bytes) =
      { Chip.storeFrom p (.writeConfig k) 0 bytes c with frame := .released } := by
  have hop := chipOpOf_wcByte h hk
  rw [configWriteEvents, chipAfter_append, chipAfter_append,
    chipAfter_writeFrame p _ _ _ bytes (by simp [hop]), hop]
  rfl

/-- Steps `WC.1` to `WC.4`, if they complete, on any access layer (40_command_framer.md R120). -/
theorem writeConfigSteps_ok {k : Nat} {bytes : List Byte} {s u : State}
    (h : writeConfigSteps k bytes s = .ok () u) :
    ∃ t n evs, u = { t with cfg := mirrorWrite t.cfg k bytes } ∧ Ran n evs s t ∧
      outward evs = configWriteEvents s.params k bytes := by
  obtain ⟨_, t1, r1, h⟩ := Res.andThen_ok h
  obtain ⟨_, t2, r2, h⟩ := Res.andThen_ok h
  obtain ⟨_, t3, r3, h⟩ := Res.andThen_ok h
  cases h
  obtain ⟨bs, v, rf, hv⟩ := Res.andThen_ok (Res.inside_ok r2)
  cases hv
  obtain ⟨e1, h1, o1⟩ := (pinWrite_follows .wc1 .pwr _ s).ran _ _ r1
  obtain ⟨e2, h2, o2⟩ := (writeFrame_follows _ bytes t1).ran _ _ rf
  obtain ⟨e3, h3, o3⟩ := (pinWrite_follows .wc4 .pwr _ t2).ran _ _ r3
  refine ⟨t3, _, _, rfl, h1.trans (h2.trans h3), ?_⟩
  simp [o1, o2, o3, configWriteEvents, h1.same.params, OutLine.asserted]

/-- A configuration write of the whole mirror leaves a value at every offset of `CONFIG`
(20_memory.md R71). -/
theorem configHeld_of_write {p : Params} (h : p.valid = true) (ls : Lines) (c : Chip)
    {bytes : List Byte} (hb : bytes.length = configLen) (j : Nat) (hj : j < configLen) :
    (Memory.read (chipAfter p ls c (configWriteEvents p 0 bytes)).config j).isSome = true := by
  rw [chipAfter_configWrite h ls c (Nat.zero_le _) bytes]
  have hw := (Chip.storeFrom_config p 0 bytes 0 c (by omega)).1 j
  show (Memory.read (Chip.storeFrom p (.writeConfig 0) 0 bytes c).config j).isSome = true
  rw [hw, if_pos (by omega)]
  simp [hb, hj]

/-- Steps `PU.1` and `PU.2` (41_mode_controller.md R153). -/
theorem powerUpSteps_completes {s : State} (h : s.params.halFallible = false) :
    Completes (powerUpSteps s) 2 [.w .pwr true, .d .wake] s fun _ => True := by
  obtain ⟨_, t1, e1, r1, h1, o1, -⟩ := assertLine_completes .pu1 .pwr h
  obtain ⟨_, t2, e2, r2, h2, o2, -⟩ := delay_completes .pu2 .wake (h1.same.params ▸ h)
  refine ⟨(), t2, _, ?_, h1.trans h2, ?_, trivial⟩
  · simp only [powerUpSteps, r1, r2, Res.andThen]
  · simp [o1, o2, OutLine.asserted]

/-- Steps `TX.1a` to `TX.4c` (43_transmit_pipeline.md R200). -/
theorem transmitSteps_completes (address payload : List Byte) {s : State}
    (h : s.params.halFallible = false) :
    Completes (transmitSteps address payload s) (13 + payload.length + address.length)
      (transmitEvents s.params address payload) s fun _ => True := by
  obtain ⟨_, t1, e1, r1, h1, o1, -⟩ := assertLine_completes .tx1a .pwr h
  have p1 := h1.same.params ▸ h
  obtain ⟨_, t2, e2, r2, h2, o2, -⟩ := deassertLine_completes .tx1b .trig p1
  have p2 := h2.same.params ▸ p1
  obtain ⟨_, t3, e3, r3, h3, o3, -⟩ := assertLine_completes .tx1c .txen p2
  have p3 := h3.same.params ▸ p2
  obtain ⟨_, t4, e4, r4, h4, o4, -⟩ := delay_completes .tx1d .settle p3
  have p4 := h4.same.params ▸ p3
  obtain ⟨_, t5, e5, r5, h5, o5, -⟩ := writeFrame_completes t4.params.opWTP payload p4
  have p5 := h5.same.params ▸ p4
  obtain ⟨_, t6, e6, r6, h6, o6, -⟩ := writeFrame_completes t5.params.opWTA address p5
  have p6 := h6.same.params ▸ p5
  obtain ⟨_, t7, e7, r7, h7, o7, -⟩ := assertLine_completes .tx4a .trig p6
  have p7 := h7.same.params ▸ p6
  obtain ⟨_, t8, e8, r8, h8, o8, -⟩ := delay_completes .tx4b .settle p7
  have p8 := h8.same.params ▸ p7
  obtain ⟨_, t9, e9, r9, h9, o9, -⟩ := deassertLine_completes .tx4c .trig p8
  have q4 : t4.params = s.params := by
    rw [h4.same.params, h3.same.params, h2.same.params, h1.same.params]
  have q5 : t5.params = s.params := h5.same.params.trans q4
  have hr := h1.trans (h2.trans (h3.trans (h4.trans (h5.trans (h6.trans (h7.trans
    (h8.trans h9)))))))
  refine Completes.congr (n := 1 + (1 + (1 + (1 + (3 + payload.length + (3 + address.length +
    (1 + (1 + 1)))))))) ⟨(), t9, _, ?_, hr, rfl, trivial⟩ (by omega) ?_
  · simp only [transmitSteps, r1, r2, r3, r4, writeTransmitPayload, writeTransmitAddress, r5, r6,
      r7, r8, r9, Res.andThen, Res.inside]
  · simp [o1, o2, o3, o4, o5, o6, o7, o8, o9, q4, q5, transmitEvents, OutLine.asserted]

/-- The same on any access layer. -/
theorem transmitSteps_follows (address payload : List Byte) (s : State) :
    Follows (transmitSteps address payload s) (13 + payload.length + address.length)
      (transmitEvents s.params address payload) s := by
  have frameStep : ∀ {outer inner : StepLabel} {instr : Byte} {data : List Byte} {t : State},
      Follows ((((frame instr data 0 false t).inside inner).andThen fun _ t => .ok () t).inside
        outer) (3 + data.length) (writeFrameEvents instr data) t :=
    (((writeFrame_follows _ _ _).inside _).andThen fun _ t _ => Follows.ok () t).inside _ |>.congr
      (by simp) (by simp)
  refine ((pinWrite_follows .tx1a .pwr _ s).andThen fun _ t1 p1 =>
    (pinWrite_follows .tx1b .trig _ t1).andThen fun _ t2 p2 =>
    (pinWrite_follows .tx1c .txen _ t2).andThen fun _ t3 p3 =>
    (delay_follows .tx1d .settle t3).andThen fun _ t4 p4 =>
    (Follows.congr (m := 3 + payload.length) (fs := writeFrameEvents s.params.opWTP payload)
      frameStep rfl (by rw [p4, p3, p2, p1])).andThen fun _ t5 p5 =>
    (Follows.congr (m := 3 + address.length) (fs := writeFrameEvents s.params.opWTA address)
      frameStep rfl (by rw [p5, p4, p3, p2, p1])).andThen fun _ t6 p6 =>
    (pinWrite_follows .tx4a .trig _ t6).andThen fun _ t7 p7 =>
    (delay_follows .tx4b .settle t7).andThen fun _ t8 p8 =>
    (pinWrite_follows .tx4c .trig _ t8).andThen fun _ t9 p9 => Follows.ok () t9).congr ?_ ?_
  · omega
  · simp [transmitEvents, OutLine.asserted]

/-- The lines sendPacket waits with (43_transmit_pipeline.md R202). -/
theorem linesAfter_transmit (ls : Lines) (p : Params) (address payload : List Byte) :
    linesAfter ls (transmitEvents p address payload) =
      { pwr := true, csn := true, txen := true, trig := false } := by
  simp [transmitEvents, linesAfter_writeFrame, lineAfter, Lines.set]

/-- Steps `TX.6a` and `TX.6b` (43_transmit_pipeline.md R200). -/
theorem transmitClose_completes {s : State} (h : s.params.halFallible = false) :
    Completes (transmitClose s) 2 [.w .txen false, .w .trig true] s fun _ => True := by
  obtain ⟨_, t1, e1, r1, h1, o1, -⟩ := deassertLine_completes .tx6a .txen h
  obtain ⟨_, t2, e2, r2, h2, o2, -⟩ := assertLine_completes .tx6b .trig (h1.same.params ▸ h)
  refine ⟨(), t2, _, ?_, h1.trans h2, ?_, trivial⟩
  · simp only [transmitClose, r1, r2, Res.andThen]
  · simp [o1, o2, OutLine.asserted]

/-! ### The step of a busy block -/

/-- Presenting moves a command from the host to the port and does nothing else (60_exceptions.md
R228). -/
theorem State.present_eq (s : State) :
    ∃ port host, s.present = { s with port := port, host := host } := by
  simp only [State.present]
  split <;> exact ⟨_, _, rfl⟩

/-- A busy block with no call at the framer's port goes on with its operation. -/
theorem step_of_busy {s : State} (hf : s.framer = none) (hb : s.busy = true) :
    step s = continueOperation s.present := by
  obtain ⟨port, host, h⟩ := s.present_eq
  simp [step, sequencerStep, hf, runPresented, h, hb]

/-- The end of a dispatch: what `DP.3`, `DP.4` and `RX.7` do (42_receive_pipeline.md R174, R178). -/
theorem dispatchEnd_ended (aborted : Option Nat) (s : State) :
    DispatchEnded aborted s (dispatchEnd aborted s) := by
  cases aborted with
  | none =>
    exact ⟨rfl, (List.append_nil _).symm, ⟨rfl, rfl, rfl, rfl, rfl, rfl, rfl⟩, rfl, rfl, rfl, rfl,
      rfl, rfl, rfl⟩
  | some i => exact ⟨rfl, rfl, ⟨rfl, rfl, rfl, rfl, rfl, rfl, rfl⟩, rfl, rfl, rfl, rfl, rfl, rfl, rfl⟩

end Sys2Proof.Machine
end

