-- ==== Sys2Proof/Tests/Slice0.lean ====
section
/-! SUPPORT. Tests. Expected words, traces and values are those of 95_test_vectors.md (named by its
ids) or written out from the encoding tables of 30_encoding.md; each test runs one step. -/

namespace Sys2Proof.Tests
open Sys2Proof.Machine

/-! ### Well-formedness -/

theorem test_wf_wc_range : (Instr.wc 9 [1, 2]).wellFormed .initial = false := by decide
theorem test_wf_wtp_length : (Instr.wtp (List.replicate 33 0)).wellFormed .initial = false := by
  decide
theorem test_wf_wta_short : (Instr.wta [1, 2, 3]).wellFormed .initial = false := by decide
theorem test_wf_wta_long : (Instr.wta [1, 2, 3, 4, 5]).wellFormed .initial = false := by decide
theorem test_wf_set_address_short : (Instr.setAddress [1, 2, 3]).wellFormed .initial = false := by
  decide
theorem test_wf_write_config_range :
    (Instr.writeConfig 16 []).wellFormed .initial = false := by decide
theorem test_wf_send_packet_address :
    (Instr.sendPacket [1, 2, 3] []).wellFormed .initial = false := by decide
theorem test_wf_send_packet_payload :
    (Instr.sendPacket [1, 2, 3, 4] (List.replicate 33 0)).wellFormed .initial = false := by decide
theorem test_initial_params_valid : Params.initial.valid = true := by decide
theorem test_params_bad_opcode : { Params.initial with opWC := 0x08 }.valid = false := by decide
theorem test_params_same_opcodes : { Params.initial with opRC := 0x22 }.valid = false := by decide
theorem test_params_no_polls : { Params.initial with spinLimit := some 0 }.valid = false := by decide

/-! ### Decoding: words written out from 30_encoding.md R93 to R97, R102, R103 -/

theorem test_decode_wc : decodeTableWord 8 0b00000101 = some (.wc 5 []) := by decide
theorem test_decode_wc_frame :
    decodeFrame .initial [0x05, 1, 2, 3, 4] = .ok (.wc 5 [1, 2, 3, 4]) := by rfl
theorem test_decode_rc : decodeTableWord 8 0b00010000 = some .rc := by decide
theorem test_decode_wtp : decodeTableWord 8 0b00100000 = some (.wtp []) := by decide
theorem test_decode_wta : decodeTableWord 8 0b00100010 = some (.wta [0, 0, 0, 0]) := by decide
theorem test_decode_rrp : decodeTableWord 8 0b00100100 = some .rrp := by decide
theorem test_decode_never_emitted :
    decodeFrame .initial [0x21] = .error (.neverEmitted 0x21) := by rfl
theorem test_decode_empty_frame : decodeFrame .initial [] = .error .emptyFrame := by rfl
theorem test_decode_read_frame_data :
    decodeFrame .initial [0x10, 0] = .error (.dataInReadFrame 0x10) := by rfl
theorem test_decode_init : decodeTableWord 4 0b0000 = some .init := by decide
theorem test_decode_set_address :
    decodeTableWord 4 0b0001 = some (.setAddress [0, 0, 0, 0]) := by decide
theorem test_decode_write_config : decodeTableWord 4 0b0010 = some (.writeConfig 0 []) := by decide
theorem test_decode_read_config : decodeTableWord 4 0b0011 = some .readConfig := by decide
theorem test_decode_power_up : decodeTableWord 4 0b0100 = some .powerUp := by decide
theorem test_decode_power_down : decodeTableWord 4 0b0101 = some .powerDown := by decide
theorem test_decode_start_receive : decodeTableWord 4 0b0110 = some .startReceiveMode := by decide
theorem test_decode_stop_receive : decodeTableWord 4 0b0111 = some .stopReceiveMode := by decide
theorem test_decode_send_packet :
    decodeTableWord 4 0b1000 = some (.sendPacket [0, 0, 0, 0] []) := by decide
theorem test_decode_attach :
    decodeTableWord 4 0b1001 = some (.attachReceivedCallback 0) := by decide
theorem test_decode_detach :
    decodeTableWord 4 0b1010 = some (.detachReceivedCallback 0) := by decide
theorem test_decode_unassigned_b : decodeTableWord 4 0b1011 = some .unassignedB := by decide
theorem test_decode_unassigned_e :
    decodeTableWord 4 0b1110 = some (.unassignedCToF 0b10) := by decide

/-! ### Small states: configuration `K0` and the named states of 95_test_vectors.md section 0 -/

/-- The configuration `K0`. -/
def k0 : Params :=
  { Params.initial with cfgDefault := [0xE0, 0xE1, 0xE2, 0xE3, 0xE4, 0, 0, 0, 0, 0xE9] }

/-- `S_reset` with a list of answers. -/
def sReset (env : List Moment) : State := { State.resetWith k0 with env := env }

/-- The chip's `CONFIG` after init with `K0`. -/
def k0Config : Memory :=
  [(0, 0xE0), (1, 0xE1), (2, 0xE2), (3, 0xE3), (4, 0xE4), (5, 0), (6, 0), (7, 0), (8, 0), (9, 0xE9)]

/-- `S_init` with a list of answers. -/
def sInit (env : List Moment) : State :=
  { sReset env with
    lines := ⟨true, true, false, false⟩, inited := true,
    chip := { Chip.reset with config := k0Config } }

/-- `S_rx` with a list of answers. -/
def sRx (env : List Moment) : State :=
  { sInit env with lines := ⟨true, true, false, true⟩, watch := true }

/-- `n` answers in which nothing happens. -/
def quiets (n : Nat) : List Moment := List.replicate n .quiet

/-- The environment clocks back a byte. -/
def byteIn (b : Byte) : Moment := { Moment.quiet with inbound := some b }

/-- A poll reads 1. -/
def pollHigh : Moment := { Moment.quiet with level := true }

/-- The environment fails the primitive. -/
def failing : Moment := { Moment.quiet with fail := true }

/-- `AM` rises before the micro-step. -/
def edging : Moment := { Moment.quiet with edge := true }

/-- A fallible access layer. -/
def fallible (s : State) : State := { s with params := { s.params with halFallible := true } }

/-- A spin limit. -/
def limited (n : Nat) (s : State) : State :=
  { s with params := { s.params with spinLimit := some n } }

/-- A property of the next state; false of a fault or a refusal. -/
def after (r : Host.Outcome State Fault Refusal) (q : State → Bool) : Bool :=
  match r with
  | .next t => q t
  | .fault _ => false
  | .refused _ => false

/-- The trace without inbound bytes is the concatenation of the lists. -/
def traceIs (l : List (List Event)) (t : State) : Bool := decide (outward t.trace = l.flatten)

/-- The last result. -/
def lastReply (r : Reply) (t : State) : Bool := decide (t.replies = [r])

/-- Write transfers. -/
def xs (l : List Byte) : List Event := l.map fun b => .x b 0

/-! ### Command Framer -/

theorem test_vf2_write_config :
    after (exec (.writeConfig 5 [1, 2, 3, 4]) (sInit (quiets 9))) (fun t =>
      traceIs [[.w .pwr false, .w .csn false], xs [0x05, 1, 2, 3, 4],
        [.w .csn true, .w .pwr true]] t &&
      decide (t.cfg = [0xE0, 0xE1, 0xE2, 0xE3, 0xE4, 1, 2, 3, 4, 0xE9]) && lastReply .ok t) := by
  decide
theorem test_vf6_write_config_range :
    exec (.writeConfig 16 []) (sInit []) =
      .next ((sInit []).refuse .badConfigRange) := by rfl
theorem test_vf11_order_of_checks :
    exec (.writeConfig 9 [0xFF, 0xEE]) (sReset []) =
      .next ((sReset []).refuse .notInitialised) := by rfl
theorem test_vf12_read_config :
    after (exec .readConfig (sInit ((quiets 2) ++ [0xA0, 0xA1, 0xA2, 0xA3, 0xA4, 0xA5, 0xA6, 0xA7,
        0xA8, 0xA9].map byteIn ++ quiets 1))) (fun t =>
      traceIs [[.w .csn false], xs [0x10, 0, 0, 0, 0, 0, 0, 0, 0, 0, 0], [.w .csn true]] t &&
      lastReply (.bytes [0xA0, 0xA1, 0xA2, 0xA3, 0xA4, 0xA5, 0xA6, 0xA7, 0xA8, 0xA9]) t &&
      decide (t.cfg = k0.cfgDefault)) := by decide
theorem test_vf14_set_address_before_init :
    after (exec (.setAddress [0xDE, 0xAD, 0xBE, 0xEF]) (sReset [])) (fun t =>
      traceIs [[]] t && decide (t.addr = [0xDE, 0xAD, 0xBE, 0xEF])) := by decide
theorem test_vf15_set_address_clamps :
    after (exec (.setAddress [1, 2, 3, 4, 5, 6]) (sInit (quiets 9))) (fun t =>
      traceIs [[.w .pwr false, .w .csn false], xs [0x05, 1, 2, 3, 4],
        [.w .csn true, .w .pwr true]] t &&
      decide (t.addr = [1, 2, 3, 4])) := by decide
theorem test_vf19_failed_transfer :
    after (exec (.writeConfig 5 [1, 2, 3, 4])
      (fallible (sInit (quiets 4 ++ [failing] ++ quiets 2)))) (fun t =>
      traceIs [[.w .pwr false, .w .csn false], xs [0x05, 1],
        [.xFailed 2, .w .csn true, .w .pwr true]] t &&
      lastReply (.error (.halFailure [.wc2, .f3])) t && decide (t.cfg = k0.cfgDefault)) := by
  decide
theorem test_vf20_failed_select :
    after (exec .readConfig (fallible (sInit ([failing] ++ quiets 1)))) (fun t =>
      traceIs [[.wFailed .csn false, .w .csn true]] t &&
      lastReply (.error (.halFailure [.rc1, .f1])) t) := by decide
theorem test_wc_frame :
    after (exec (.wc 10 []) (sInit (quiets 3))) (fun t =>
      traceIs [[.w .csn false, .x 0x0A 0, .w .csn true]] t) := by decide
theorem test_wc_never_emitted :
    exec (.wc 11 []) (sInit []) = .next ((sInit []).refuse .badConfigRange) := by rfl
theorem test_rc_frame :
    after (exec .rc (sReset (quiets 2 ++ [0, 1, 2, 3, 4, 5, 6, 7, 8, 9].map byteIn ++ quiets 1)))
      (lastReply (.bytes [0, 1, 2, 3, 4, 5, 6, 7, 8, 9])) := by decide
theorem test_wtp_frame :
    after (exec (.wtp [0xAA, 0xBB]) (sInit (quiets 5)))
      (traceIs [[.w .csn false], xs [0x20, 0xAA, 0xBB], [.w .csn true]]) := by decide
theorem test_wta_frame :
    after (exec (.wta [1, 2, 3, 4]) (sInit (quiets 7)))
      (traceIs [[.w .csn false], xs [0x22, 1, 2, 3, 4], [.w .csn true]]) := by decide
theorem test_rc_unwritten : exec .rc (sReset (quiets 13)) = .fault .noChipValue := by rfl
theorem test_rc_from_reset :
    after (step (State.reset.withFetchWord 8 0x10)) (fun t => decide (t.trace.length = 13)) := by
  decide
theorem test_rrp_empties_the_packet_buffer :
    after (exec .rrp { sInit (quiets 68) with chip := { Chip.reset with rxPayload := [(0, 7)] } })
      (fun t => decide (t.chip.rxPayload = []) && decide (t.trace[3]? = some (.x 0 7))) := by decide
theorem test_vf22_rrp_frame :
    after (exec .rrp (sInit (quiets 68))) (fun t =>
      decide (t.trace.length = 68) && decide (t.rxbuf = none) &&
      decide (outward (t.trace.take 5) =
        [.w .csn false, .x 0x24 0, .d .byte, .x 0 0, .d .byte])) := by decide

/-! ### Mode Controller -/

theorem test_vm1_init :
    after (exec .init (sReset (quiets 18))) (fun t =>
      traceIs [[.w .pwr false, .w .csn false],
        xs [0x00, 0xE0, 0xE1, 0xE2, 0xE3, 0xE4, 0, 0, 0, 0, 0xE9],
        [.w .csn true, .w .pwr true, .w .pwr true, .d .wake]] t &&
      t.inited && decide (t.mode = .standby) && !t.busy) := by decide
theorem test_vm2_second_init :
    exec .init (sInit []) = .next ((sInit []).refuse .alreadyInitialised) := by rfl
theorem test_vm3_power_down :
    after (exec .powerDown (sRx (quiets 1))) (fun t =>
      traceIs [[.w .pwr false]] t && decide (t.mode = .poweredDown) && t.watch && t.lines.trig) := by
  decide
theorem test_vm4_power_up :
    after (exec .powerUp { sInit (quiets 2) with lines := ⟨false, true, false, false⟩ }) (fun t =>
      traceIs [[.w .pwr true, .d .wake]] t && decide (t.mode = .standby)) := by decide
theorem test_vm6_start_receive :
    after (exec .startReceiveMode (sInit (quiets 5))) (fun t =>
      traceIs [[.w .txen false, .w .pwr true, .w .trig true, .d .settle]] t &&
      decide (t.mode = .receiving) && t.watch && !t.edgePend) := by decide
theorem test_vm15_failed_trigger :
    after (exec .startReceiveMode (fallible (sInit (quiets 2 ++ [failing])))) (fun t =>
      traceIs [[.w .txen false, .w .pwr true, .wFailed .trig true]] t && !t.watch &&
      lastReply (.error (.halFailure [.er3])) t && decide (t.lines = ⟨true, true, false, false⟩)) := by
  decide
theorem test_vm9_stop_receive :
    after (exec .stopReceiveMode (sRx (quiets 1))) (fun t =>
      traceIs [[]] t && !t.watch && decide (t.mode = .receiving)) := by decide
theorem test_vm10_stop_receive_standby :
    after (exec .stopReceiveMode
      { sRx (quiets 2) with params := { k0 with exitRxToStandby := true } }) (fun t =>
      traceIs [[.w .trig false]] t && decide (t.mode = .standby)) := by decide
theorem test_vr15_edge_before_cancel :
    after (exec .stopReceiveMode (sRx [edging])) (fun t => !t.edgePend && !t.watch) := by decide
theorem test_vm16_open_fails :
    after (exec .init (fallible (sReset [failing]))) (fun t =>
      traceIs [[]] t && !t.inited && lastReply (.error (.halFailure [.in1])) t) := by decide
theorem test_vm14_unassigned :
    exec (.unassignedCToF 0) (sInit []) = .next ((sInit []).refuse .unknownCommand) := by rfl
theorem test_unassigned_b :
    exec .unassignedB (sReset []) = .next ((sReset []).refuse .unknownCommand) := by rfl

/-! ### Receive Pipeline -/

/-- The answers of a drain whose first poll reads 1 and whose bytes are `0 .. 31`. -/
def drainAnswers : List Moment :=
  [pollHigh] ++ quiets 4 ++ (List.range 32).flatMap (fun j => [byteIn (BitVec.ofNat 8 j), .quiet]) ++
    quiets 2

/-- The payload of `drainAnswers`. -/
def drainPayload : List Byte := (List.range 32).map (BitVec.ofNat 8)

/-- A block about to invoke `h1` of `[1, 2]`. -/
def sDelivering (m : Moment) : State :=
  { sRx [m] with
    busy := true, seq := .delivering [1, 2] 0, reg := [1, 2], dispatching := true,
    rxbuf := some drainPayload }

/-- A block at `DP.3`. -/
def sApplying (aborted : Option Nat) (deferq : List RegistryRequest) (port : Option PortCommand) :
    State :=
  { sDelivering .quiet with seq := .applying aborted, deferq := deferq, port := port }

theorem test_vr2_drain_without_consumers :
    after (step (sRx ([edging] ++ drainAnswers))) (fun t =>
      !t.edgePend && t.dispatching && decide (t.seq = .applying none) &&
      decide (t.mode = .receiving)) := by decide
theorem test_vr1_drain_reads :
    after (step { sRx ([edging] ++ drainAnswers) with reg := [7] }) (fun t =>
      decide (t.seq = .delivering [7] 0) && decide (t.rxbuf = some drainPayload)) := by decide
theorem test_vr1_delivery :
    after (step { sDelivering .quiet with seq := .delivering [1, 2] 1 }) (fun t =>
      traceIs [[.v 2 drainPayload]] t && t.dispatching && decide (t.seq = .applying none)) := by
  decide
theorem test_dp3_applies_the_requests :
    after (step (sApplying (some 0) [.detach 1, .attach 3] none)) (fun t =>
      traceIs [[.f (.handlerAbort 0)]] t && decide (t.reg = [2, 3]) && !t.busy &&
      !t.dispatching && decide (t.seq = .idle) && decide (t.rxbuf = none)) := by decide
theorem test_attach_before_dp3 :
    after (step (sApplying none [] (some { PortCommand.bare 9 with handler := 3 }))) (fun t =>
      decide (t.deferq = [.attach 3]) && decide (t.reg = [1, 2]) && lastReply .ok t &&
      decide (t.seq = .applying none) && decide (t.port = none)) := by decide
theorem test_vr8_detach_deferred :
    after (step (sDelivering { Moment.quiet with requests := [.detach 2] })) (fun t =>
      decide (t.seq = .delivering [1, 2] 1) && decide (t.reg = [1, 2]) &&
      decide (t.deferq = [.detach 2])) := by decide
theorem test_vr11_abort :
    after (step (sDelivering { Moment.quiet with requests := [.detach 1], abort := true })) (fun t =>
      traceIs [[.v 1 drainPayload]] t && decide (t.reg = [1, 2]) &&
      decide (t.deferq = [.detach 1]) && decide (t.seq = .applying (some 0))) := by decide
theorem test_vr12_timeout :
    after (step { limited 3 (sRx [.quiet]) with busy := true, seq := .rxWait 2 }) (fun t =>
      traceIs [[.r .dr false, .f (.timeout .rxDataReady)]] t && t.lines.trig && t.watch && !t.busy) := by
  decide
theorem test_vr13_wait_goes_on :
    after (step (sRx [edging, .quiet])) (fun t =>
      traceIs [[.r .dr false]] t && decide (t.seq = .rxWait 1) && t.busy) := by decide
theorem test_attach :
    after (exec (.attachReceivedCallback 2) { sReset [] with reg := [1] }) (fun t =>
      decide (t.reg = [1, 2]) && traceIs [[]] t) := by decide
theorem test_detach_first :
    after (exec (.detachReceivedCallback 1) { sReset [] with reg := [1, 2, 1] }) (fun t =>
      decide (t.reg = [2, 1])) := by decide

/-! ### Transmit Pipeline -/

theorem test_vt5_send_packet :
    after (exec (.sendPacket [1, 2, 3, 4, 5, 6] [0xAA]) (sInit (quiets 18 ++ [pollHigh] ++ quiets 2)))
      (fun t =>
      traceIs [[.w .pwr true, .w .trig false, .w .txen true, .d .settle, .w .csn false],
        xs [0x20, 0xAA], [.w .csn true, .w .csn false], xs [0x22, 1, 2, 3, 4],
        [.w .csn true, .w .trig true, .d .settle, .w .trig false, .r .dr true, .w .txen false,
          .w .trig true]] t && decide (t.mode = .receiving) && lastReply .ok t) := by decide
theorem test_trigger_pulse_consumes :
    let c : Chip := { Chip.reset with txPayload := [(0, 1)], txAddress := [(3, 2)] }
    c.observe k0 ⟨true, true, true, false⟩ (.w .trig true) = .reset ∧
      c.observe k0 ⟨true, true, false, false⟩ (.w .trig true) = c ∧
      c.observe k0 ⟨true, true, true, true⟩ (.w .pwr false) = c := by decide
theorem test_vt12_failed_power :
    after (exec (.sendPacket [1, 2, 3, 4] [0xAA]) (fallible (sInit ([failing] ++ quiets 2)))) (fun t =>
      traceIs [[.wFailed .pwr true, .w .txen false, .w .trig true]] t &&
      lastReply (.error (.halFailure [.tx1a])) t) := by decide

theorem test_cleanup_goes_on :
    after (exec (.sendPacket [1, 2, 3, 4] []) (fallible (sInit [failing, failing, .quiet]))) (fun t =>
      traceIs [[.wFailed .pwr true, .wFailed .txen false, .w .trig true]] t &&
      lastReply (.error (.halFailure [.tx1a])) t && !t.busy && t.lines.trig) := by decide

/-! ### Steps -/

theorem test_step_runs_command :
    after (step ((sReset (quiets 18)).withFetchWord 4 0)) (fun t => t.inited && lastReply .ok t) := by
  decide
theorem test_step_runs_frame :
    after (step (State.reset.withFetchWord 8 0x22)) (fun t =>
      traceIs [[.w .csn false], xs [0x22, 0, 0, 0, 0], [.w .csn true]] t) := by decide
theorem test_step_holds_command :
    after (step { sInit [.quiet] with
        busy := true, seq := .txWait 0, port := some (.bare 5), params := k0 }) (fun t =>
      decide (t.port = some (.bare 5)) && decide (t.seq = .txWait 1)) := by decide

/-! ### Witnesses: states and operands that meet the hypotheses of a statement, clause by clause -/

theorem valid_k0 : k0.valid = true := by decide
theorem idle_sReset (env : List Moment) : Idle (sReset env) := ⟨rfl, rfl, rfl, rfl, rfl, rfl, rfl⟩
theorem idle_sRx (env : List Moment) : Idle (sRx env) := ⟨rfl, rfl, rfl, rfl, rfl, rfl, rfl⟩
theorem ready_sInit (env : List Moment) : Ready (sInit env) where
  idle := ⟨rfl, rfl, rfl, rfl, rfl, rfl, rfl⟩
  inited := rfl
  valid := valid_k0
  infallible := rfl
  cfgLength := rfl
theorem ready_sRx (env : List Moment) : Ready (sRx env) where
  idle := idle_sRx env
  inited := rfl
  valid := valid_k0
  infallible := rfl
  cfgLength := rfl

/-- A block that waits in sendPacket. -/
def sSending (polls : Nat) (env : List Moment) : State :=
  { sInit env with
    lines := ⟨true, true, true, false⟩, busy := true, seq := .txWait polls,
    txaddr := some [1, 2, 3, 4], txbuf := some [] }

/-- A block whose drain waits. -/
def sDraining (polls : Nat) (env : List Moment) : State :=
  { sRx env with busy := true, seq := .rxWait polls }

theorem witness_DecodeOfEncodeIsTheInstruction :
    k0.valid = true ∧ (Instr.wc 10 []).wellFormed k0 = true ∧
      (Instr.wtp (List.replicate 32 0)).wellFormed k0 = true ∧
      (Instr.wta [1, 2, 3, 4]).wellFormed k0 = true ∧
      (Instr.sendPacket [1, 2, 3, 4, 5] []).wellFormed k0 = true := by decide
theorem witness_EncodeOfDecodedFrameIsTheFrame :
    k0.valid = true ∧ decodeFrame k0 [0x0F, 1] = .ok (.wc 15 [1]) ∧
      decodeFrame k0 [0x24] = .ok .rrp := ⟨by decide, rfl, rfl⟩
theorem witness_ConfigInstructionByteIsBitwise :
    10 + ([] : List Byte).length ≤ 10 ∧ k0.valid = true ∧ (sInit []).busy = false ∧
      (sInit []).inited = true ∧ 16 ≤ 16 := by decide
theorem held_k0 : ∀ j, j < configLen → (Memory.read k0Config j).isSome = true := by decide
theorem wf_k0 : { Chip.reset with config := k0Config }.wf = true := by decide
theorem hasValues_sInit (env : List Moment) : ConfigHasValues (sInit env) :=
  fun j _ hj _ _ => held_k0 j hj
theorem registersOk_sRx (env : List Moment) : RegistersOk (sRx env) :=
  ⟨valid_k0, rfl, idle_sRx env, fun _ => rfl, rfl, wf_k0, fun _ => held_k0⟩

theorem witness_ResetMeetsInvariants : State.construct k0 = .next (sReset []) := by rfl
theorem witness_ResetValues : State.construct k0 = .next (sReset []) := by rfl
theorem witness_MirrorUpdateWritesItsRange :
    9 + [(7 : Byte)].length ≤ k0.cfgDefault.length := by decide
theorem witness_AddressesAreClampedOrRefused :
    [(1 : Byte), 2, 3].length < 4 ∧ [(1 : Byte), 2, 3, 4].length = 4 ∧
      4 < [(1 : Byte), 2, 3, 4, 5].length ∧ (sInit []).busy = false ∧
      (sInit []).inited = true := by decide
theorem witness_LineWriteSucceedsOrLeavesTheLine :
    ((sInit [failing]).params.halFallible && (sInit [failing]).here.fail) = false ∧
      ((fallible (sInit [failing])).params.halFallible &&
        (fallible (sInit [failing])).here.fail) = true := by decide
theorem witness_FrameEventsAreExact : (sInit []).params.halFallible = false := by rfl
theorem witness_FailedFrameIsClosedByCleanup :
    ∃ path t, frame 0x20 [7] 0 false (fallible (sInit ([failing] ++ quiets 1))) = .failed path t ∧
      t.failsHere = false := ⟨_, _, rfl, rfl⟩
theorem witness_FailedFrameIsClosedByCleanup_fails :
    2 < (frameEvents 0x20 [7] 0 false).length ∧
      (fallible (sInit (quiets 2 ++ [failing]))).failsAt 2 = true := by decide
theorem witness_FailedFrameIsClosedByCleanup_alone :
    let s := fallible (sInit ([.quiet, failing] ++ quiets 1))
    (0xA : Nibble).toNat + ([] : List Byte).length ≤ 10 ∧ ConfigHasValues s ∧
      ([] : List Byte).length ≤ s.params.txPayloadMax ∧ 4 ≤ [(1 : Byte), 2, 3, 4, 5].length ∧
      (∃ t, (writeConfigFrame 10 [] s).inside .wc2 = .failed [.wc2, .f2] t ∧
        t.failsHere = false) ∧
      (∃ t, readConfigFrame s = .failed [.rc1, .f2] t ∧ t.failsHere = false) ∧
      (∃ t, writeTransmitPayload [] s = .failed [.wtp1, .f2] t ∧ t.failsHere = false) ∧
      (∃ t, writeTransmitAddress ([1, 2, 3, 4, 5].take 4) s = .failed [.wta1, .f2] t ∧
        t.failsHere = false) ∧
      ∃ t, readReceivedPayload s = .failed [.rrp1, .f2] t ∧ t.failsHere = false :=
  ⟨by decide, hasValues_sInit _, by decide, by decide, ⟨_, rfl, rfl⟩, ⟨_, rfl, rfl⟩,
    ⟨_, rfl, rfl⟩, ⟨_, rfl, rfl⟩, ⟨_, rfl, rfl⟩⟩
theorem witness_WriteFrameInstructionsComplete :
    k0.halFallible = false ∧ k0.valid = true ∧ (0xA : Nibble).toNat + 0 ≤ 10 ∧
      (0 : Nibble).toNat + (quiets 10).length ≤ 10 ∧
      (List.replicate 32 (0 : Byte)).length ≤ k0.txPayloadMax := by decide
theorem witness_OutOfRangeFramesAreRefused :
    10 < (0xA : Nibble).toNat + [(1 : Byte)].length ∧ 10 < (0xB : Nibble).toNat + 0 ∧
      (sInit []).params.txPayloadMax < (List.replicate 33 (0 : Byte)).length := by decide
theorem witness_InitCompletes :
    Idle (sReset []) ∧ (sReset []).inited = false ∧ (sReset []).params.valid = true ∧
      (sReset []).params.halFallible = false ∧ (sReset []).cfg.length = 10 :=
  ⟨idle_sReset [], rfl, by decide, rfl, rfl⟩
theorem witness_WriteConfigCompletes :
    Ready (sRx []) ∧ 10 + ([] : List Byte).length ≤ 10 ∧ 9 + [(1 : Byte)].length ≤ 10 :=
  ⟨ready_sRx [], by decide, by decide⟩
theorem witness_SetAddressCompletes :
    Idle (sReset []) ∧ (sReset []).inited = false ∧ (sReset []).cfg.length = 10 ∧
      Ready (sInit []) ∧ 4 ≤ [(1 : Byte), 2, 3, 4].length :=
  ⟨idle_sReset [], rfl, rfl, ready_sInit [], by decide⟩
theorem witness_StopReceiveModeCompletes :
    Ready (sRx []) ∧ (sRx []).params.exitRxToStandby = false ∧
      Ready { sRx [] with params := { k0 with exitRxToStandby := true } } :=
  ⟨ready_sRx [], rfl, ⟨⟨rfl, rfl, rfl, rfl, rfl, rfl, rfl⟩, rfl, by decide, rfl, rfl⟩⟩
theorem witness_SendPacketCompletes :
    Ready (sInit (quiets 49 ++ [pollHigh])) ∧ 4 ≤ [(1 : Byte), 2, 3, 4].length ∧
      (List.replicate 32 (0 : Byte)).length ≤ k0.txPayloadMax ∧
      (quiets 49 ++ [pollHigh])[17 + 32]? = some pollHigh ∧ pollHigh.level = true :=
  ⟨ready_sInit _, by decide, by decide, by decide, rfl⟩
theorem witness_SendPacketWaits :
    Ready (limited 2 (sInit (quiets 18))) ∧ (quiets 18)[17 + 0]? = some .quiet ∧
      (limited 2 (sInit (quiets 18))).params.spinLimit ≠ some 1 :=
  ⟨⟨⟨rfl, rfl, rfl, rfl, rfl, rfl, rfl⟩, rfl, by decide, rfl, rfl⟩, by decide, by decide⟩
theorem witness_SendPacketTimesOutAtItsFirstPoll :
    Ready (limited 1 (sInit (quiets 18))) ∧ (quiets 18)[17 + 0]? = some .quiet ∧
      Moment.quiet.level = false ∧ (limited 1 (sInit (quiets 18))).params.spinLimit = some 1 :=
  ⟨⟨⟨rfl, rfl, rfl, rfl, rfl, rfl, rfl⟩, rfl, by decide, rfl, rfl⟩, by decide, rfl, rfl⟩
theorem witness_RegistryOperationsComplete :
    (sReset []).busy = false ∧ (sReset []).dispatching = false ∧
      (sDelivering .quiet).dispatching = true ∧ 3 ∉ (sDelivering .quiet).reg ∧
      (sDelivering .quiet).reg = [1] ++ 2 :: [] ∧ 2 ∉ [1] := by decide
theorem witness_UnassignedCodesAreRefused :
    (sReset []).busy = false ∧ 0xB ≤ (PortCommand.bare 0xB).code.toNat ∧
      0xB ≤ (PortCommand.bare 0xF).code.toNat := by decide
theorem witness_MalformedCallsChangeNothing :
    (sReset []).busy = false ∧ (sReset []).inited = false ∧ (sInit []).busy = false ∧
      (sInit []).inited = true ∧ 10 < 10 + [(1 : Byte)].length ∧
      [(1 : Byte), 2, 3].length < 4 ∧ 4 ≤ [(1 : Byte), 2, 3, 4].length ∧
      (sInit []).params.txPayloadMax < (List.replicate 33 (0 : Byte)).length := by decide
theorem witness_BusyBlockHoldsCommands :
    (sSending 0 []).busy = true ∧ (sSending 0 []).port = none ∧
      (sSending 0 []).dispatching = false ∧ (sDelivering .quiet).busy = true ∧
      (sDelivering .quiet).port = none := by decide
theorem witness_BusyBlockHoldsCommands_host :
    let c : PortCommand := .bare 5
    let s : State := { sSending 0 [.quiet] with host := [some c, none] }
    s.port = none ∧ s.host = some c :: [none] ∧ (sSending 0 []).port = none ∧
      (sSending 0 []).host = [] ∧ { s with port := some c }.port = some c ∧
      registryCommand c = false ∧ s.busy = true ∧
      after (step { s with port := some c }) (fun t => decide (t.port = some c)) := by decide
theorem witness_StepRunsTheDecodedInstruction_from_the_host :
    let s : State := { sRx [.quiet] with host := [some (.bare 5)] }
    s.framer = none ∧ s.busy = false ∧ s.present.port = some (.bare 5) ∧
      s.advance.edgePend = false := by decide
theorem witness_StepRunsTheDecodedInstruction :
    let s : State := { sRx [.quiet] with port := some (.bare 5) }
    s.framer = none ∧ s.busy = false ∧ s.port = some (.bare 5) ∧ s.advance.edgePend = false ∧
      (∃ i, decodeFrame k0 [0x22, 1, 2, 3, 4] = .ok i) ∧ encode k0 .init = .command (.bare 0) ∧
      encode k0 (.wc 10 []) = .frame [0x0A] ∧ (Instr.wc 10 []).wellFormed k0 = true ∧
      k0.valid = true := ⟨rfl, rfl, rfl, rfl, ⟨_, rfl⟩, rfl, rfl, by decide, by decide⟩
theorem witness_StepRunsTheDecodedInstruction_in_a_dispatch :
    let c := { PortCommand.bare 9 with handler := 3 }
    let s := sApplying none [] (some c)
    s.framer = none ∧ s.busy = true ∧ s.present.port = some c ∧
      decodeCommand c = .attachReceivedCallback 3 ∧ s.seq = .applying none ∧
      { s with seq := .delivering [1, 2] 1 }.seq = .delivering [1, 2] 1 ∧
      { s with port := none, host := [some c] }.present.port = some c := by decide
theorem witness_LatchedEdgeGoesBeforeACommand :
    Idle (sRx [edging, .quiet]) ∧ (sRx [edging, .quiet]).framer = none ∧
      (sRx [edging, .quiet]).params.halFallible = false ∧
      (sRx [edging, .quiet]).env[0]? = some edging ∧
      (sRx [edging, .quiet]).env[1]? = some .quiet ∧ Moment.quiet.level = false ∧
      (sRx [edging, .quiet]).params.spinLimit ≠ some 1 ∧
      ((sRx [edging, .quiet]).watch = true ∧ edging.edge = true) ∧
      { sRx [.quiet, .quiet] with edgePend := true }.edgePend = true :=
  ⟨idle_sRx _, rfl, rfl, rfl, rfl, rfl, by decide, ⟨rfl, rfl⟩, rfl⟩
theorem witness_IdleBlockIsSilent :
    Idle (sReset [edging]) ∧ (sReset [edging]).framer = none ∧
      (sReset [edging]).present.port = none ∧ (sReset [edging]).edgePend = false ∧
      (sReset [edging]).watch = false ∧ Idle (sRx [.quiet]) ∧ (sRx [.quiet]).here.edge = false :=
  ⟨idle_sReset _, rfl, rfl, rfl, rfl, idle_sRx _, rfl⟩
theorem witness_TransmitWaitFollowsThePoll :
    (sSending 0 [pollHigh]).framer = none ∧ (sSending 0 [pollHigh]).busy = true ∧
      (sSending 0 [pollHigh]).seq = .txWait 0 ∧ pollHigh.level = true ∧
      (limited 1 (sSending 0 [.quiet])).params.spinLimit = some (0 + 1) ∧
      (limited 2 (sSending 0 [.quiet])).params.spinLimit ≠ some (0 + 1) ∧
      (fallible (limited 1 (sSending 0 [.quiet, failing]))).env[0]? = some .quiet ∧
      (fallible (limited 1 (sSending 0 [.quiet, failing]))).params.spinLimit = some 1 ∧
      Moment.quiet.fail = false ∧ Moment.quiet.level = false := by decide
theorem witness_DrainReadsThePacket :
    let s := sDraining 1 [pollHigh]
    s.framer = none ∧ s.busy = true ∧ s.seq = .rxWait 1 ∧ s.dispatching = false ∧ s.deferq = [] ∧
      s.params.halFallible = false ∧ s.params.valid = true ∧ s.env[0]? = some pollHigh ∧
      s.lines.txen = false ∧ s.reg = [] ∧ { s with reg := [1, 1] }.reg ≠ [] := by decide
theorem witness_DrainReadsThePacket_first_poll :
    let s := sRx [edging, pollHigh]
    Idle s ∧ s.framer = none ∧ s.params.halFallible = false ∧ s.params.valid = true ∧
      s.env[0]? = some edging ∧ s.env[1]? = some pollHigh ∧ pollHigh.level = true ∧
      (s.watch = true ∧ edging.edge = true) ∧ { s with edgePend := true }.edgePend = true :=
  ⟨idle_sRx _, rfl, rfl, by decide, rfl, rfl, rfl, ⟨rfl, rfl⟩, rfl⟩
theorem witness_DispatchDeliversInOrder :
    let s : State := { sDelivering .quiet with env := quiets 2 }
    ([1, 2] : List ConsumerId) ≠ [] ∧ s.framer = none ∧ s.port = none ∧ s.host = [] ∧
      s.busy = true ∧ s.dispatching = true ∧ s.deferq = [] ∧ s.seq = .delivering [1, 2] 0 ∧
      s.rxbuf = some drainPayload ∧ 2 ≤ s.env.length ∧ ∀ m ∈ s.env.take 2, m.abort = false := by
  decide
theorem witness_DispatchDeliversInOrder_end :
    let s := sApplying (some 0) [.attach 3] (some (.bare 5))
    s.framer = none ∧ s.busy = true ∧ s.seq = .applying (some 0) ∧
      s.present.port = some (.bare 5) ∧ registryCommand (.bare 5) = false ∧
      (sApplying none [] none).present.port = none := by decide
theorem witness_AbortEndsTheDispatch :
    let s : State := sDelivering { Moment.quiet with abort := true }
    s.framer = none ∧ s.present.port = none ∧ s.busy = true ∧ s.dispatching = true ∧
      s.seq = .delivering [1, 2] 0 ∧ ([1, 2] : List ConsumerId)[0]? = some 1 ∧
      s.rxbuf = some drainPayload ∧
      s.env[0]? = some { Moment.quiet with abort := true } ∧ s.host = [] := by decide
theorem witness_UnboundedWaitPollsForEver :
    let s := sSending 3 (quiets 2)
    let d := limited 6 (sDraining 3 (quiets 2))
    s.framer = none ∧ s.busy = true ∧ s.seq = .txWait 3 ∧ s.params.halFallible = false ∧
      s.params.spinLimit = none ∧ 2 ≤ s.env.length ∧ (∀ m ∈ s.env.take 2, m.level = false) ∧
      d.framer = none ∧ d.busy = true ∧ d.seq = .rxWait 3 ∧ d.params.halFallible = false ∧
      (∀ k, k < 2 → d.params.spinLimit ≠ some (3 + k + 1)) ∧ 2 ≤ d.env.length ∧
      ∀ m ∈ d.env.take 2, m.level = false := by decide
theorem witness_DrainTimesOutAfterExactlyItsLimit :
    let s := limited 3 (sDraining 1 (quiets 2))
    1 < 3 ∧ s.framer = none ∧ s.busy = true ∧ s.seq = .rxWait 1 ∧ s.params.halFallible = false ∧
      s.params.spinLimit = some 3 ∧ 3 - 1 ≤ s.env.length ∧
      ∀ m ∈ s.env.take (3 - 1), m.level = false := by decide
theorem witness_DrainTimesOutAfterExactlyItsLimit_from_idle :
    let s := limited 1 (sRx [edging, .quiet])
    0 < 1 ∧ Idle s ∧ s.framer = none ∧ s.params.halFallible = false ∧
      s.params.spinLimit = some 1 ∧ 1 + 1 ≤ s.env.length ∧ s.env[0]? = some edging ∧
      (s.watch = true ∧ edging.edge = true) ∧ ∀ q ∈ (s.env.drop 1).take 1, q.level = false :=
  ⟨by decide, ⟨rfl, rfl, rfl, rfl, rfl, rfl, rfl⟩, rfl, rfl, rfl, by decide, rfl, ⟨rfl, rfl⟩,
    by decide⟩
theorem witness_FailedDrainIsLeftListening :
    ∃ path t, drainReadSteps (fallible (sDraining 0 ([.quiet, failing] ++ quiets 2))) =
        .failed path t ∧ frameOpen path = true ∧ NoFailureWithin 2 t :=
  ⟨_, _, rfl, rfl, by decide, by decide⟩
theorem witness_FailedDrainIsLeftListening_step :
    let s := fallible (sDraining 0 ([pollHigh, .quiet, failing] ++ quiets 2))
    s.framer = none ∧ s.busy = true ∧ s.seq = .rxWait 0 ∧ s.env[0]? = some pollHigh ∧
      pollHigh.fail = false ∧ pollHigh.level = true ∧
      ∃ t, drainReadSteps (s.present.advance.emit (.r .dr true)) = .failed [.rx3, .rrp1, .f1] t ∧
        NoFailureWithin 2 t :=
  ⟨rfl, rfl, rfl, rfl, rfl, rfl, _, rfl, by decide, by decide⟩
theorem witness_FailedDrainIsLeftListening_first_poll :
    let s := fallible (sRx ([edging, pollHigh, .quiet, failing] ++ quiets 2))
    Idle s ∧ s.framer = none ∧ s.env[0]? = some edging ∧ (s.watch = true ∧ edging.edge = true) ∧
      s.env[1]? = some pollHigh ∧ pollHigh.fail = false ∧ pollHigh.level = true ∧
      ∃ t, drainReadSteps (State.emit (.r .dr true)
          { s.present.advance with edgePend := false, busy := true }.advance) =
        .failed [.rx3, .rrp1, .f1] t ∧ NoFailureWithin 2 t :=
  ⟨⟨rfl, rfl, rfl, rfl, rfl, rfl, rfl⟩, rfl, rfl, ⟨rfl, rfl⟩, rfl, rfl, rfl, _, rfl, by decide,
    by decide⟩
theorem witness_FailedSendPacketIsClosed_exec :
    let s := fallible (sInit (quiets 4 ++ [failing] ++ quiets 3))
    s.busy = false ∧ s.inited = true ∧ 4 ≤ [(1 : Byte), 2, 3, 4, 5].length ∧
      ([] : List Byte).length ≤ s.params.txPayloadMax ∧
      ∃ t, transmitSteps ([1, 2, 3, 4, 5].take 4) []
          { s.begin with txaddr := some ([1, 2, 3, 4, 5].take 4), txbuf := some [] } =
        .failed [.tx2, .wtp1, .f1] t ∧ NoFailureWithin 3 t :=
  ⟨rfl, rfl, by decide, by decide, _, rfl, by decide, by decide⟩
theorem witness_FailedSendPacketIsClosed :
    ∃ path t, transmitSteps [1, 2, 3, 4] [] (fallible (sInit (quiets 4 ++ [failing] ++ quiets 3))) =
        .failed path t ∧ frameOpen path = true ∧ NoFailureWithin 3 t :=
  ⟨_, _, rfl, rfl, by decide, by decide⟩
theorem witness_FailedPollsAndClosingWrites :
    let s := fallible (sDraining 1 [failing])
    s.framer = none ∧ s.busy = true ∧ s.seq = .rxWait 1 ∧ s.params.halFallible = true ∧
      s.env[0]? = some failing ∧ failing.fail = true := by decide
theorem witness_FailedPollsAndClosingWrites_first_poll :
    let s := fallible (sRx [edging, failing])
    Idle s ∧ s.framer = none ∧ s.params.halFallible = true ∧ s.env[0]? = some edging ∧
      s.env[1]? = some failing ∧ failing.fail = true ∧ (s.watch = true ∧ edging.edge = true) :=
  ⟨⟨rfl, rfl, rfl, rfl, rfl, rfl, rfl⟩, rfl, rfl, rfl, rfl, rfl, rfl, rfl⟩
theorem witness_FailedPollsAndClosingWrites_send :
    let s := fun env => fallible (sSending 1 env)
    (s []).framer = none ∧ (s []).busy = true ∧ (s []).seq = .txWait 1 ∧
      (s []).params.halFallible = true ∧
      ClosingFailure [failing, .quiet, .quiet] [.rFailed .dr, .w .txen false, .w .trig true] .tx5 ∧
      ClosingFailure [pollHigh, failing, .quiet, .quiet]
        [.r .dr true, .wFailed .txen false, .w .txen false, .w .trig true] .tx6a ∧
      ClosingFailure [pollHigh, .quiet, failing, .quiet, .quiet]
        [.r .dr true, .w .txen false, .wFailed .trig true, .w .txen false, .w .trig true] .tx6b ∧
      (s [failing, .quiet, .quiet]).env.take 3 = [failing, .quiet, .quiet] :=
  ⟨rfl, rfl, rfl, rfl, .poll _ _ _ rfl rfl rfl, .first _ _ _ _ rfl rfl rfl rfl rfl,
    .second _ _ _ _ _ rfl rfl rfl rfl rfl rfl, rfl⟩
theorem witness_FailedPollsAndClosingWrites_send_first_poll :
    let s := fallible (sInit (quiets 18 ++ [failing, .quiet, .quiet]))
    Idle s ∧ s.inited = true ∧ s.params.halFallible = true ∧
      4 ≤ [(1 : Byte), 2, 3, 4].length ∧ [(7 : Byte)].length ≤ s.params.txPayloadMax ∧
      NoFailureWithin (17 + 1) s ∧ (s.env.drop (17 + 1)).take 3 = [failing, .quiet, .quiet] :=
  ⟨⟨rfl, rfl, rfl, rfl, rfl, rfl, rfl⟩, rfl, rfl, by decide, by decide, ⟨by decide, by decide⟩, rfl⟩
theorem witness_FailedOperationsLeaveTheirFlag :
    Idle (fallible (sReset [failing])) ∧
      after (exec .init (fallible (sReset [failing]))) (fun t => !t.inited) ∧
      Idle (fallible (sRx [failing])) ∧
      after (exec .startReceiveMode (fallible (sRx [failing]))) (fun t => t.watch) ∧
      after (exec .stopReceiveMode { fallible (sRx [failing]) with edgePend := true }) (fun t =>
        t.watch && t.edgePend) :=
  ⟨⟨rfl, rfl, rfl, rfl, rfl, rfl, rfl⟩, by decide, ⟨rfl, rfl, rfl, rfl, rfl, rfl, rfl⟩, by decide,
    by decide⟩
theorem witness_FailedConfigWriteLeavesTheMirror :
    Idle (sInit (quiets 9)) ∧ (sInit (quiets 9)).inited = true ∧
      (sInit (quiets 9)).cfg.length = 10 ∧ 5 + [(1 : Byte), 2, 3, 4].length ≤ 10 ∧
      ∃ t, exec (.writeConfig 5 [1, 2, 3, 4]) (sInit (quiets 9)) = .next t :=
  ⟨(ready_sInit _).idle, rfl, rfl, by decide, ⟨_, rfl⟩⟩
theorem witness_NothingMovesBeforeInit :
    (sReset []).inited = false ∧ decodeCommand (.bare 6) ≠ .init ∧
      ∃ t, exec (decodeCommand (.bare 6)) (sReset []) = .next t := ⟨rfl, by decide, ⟨_, rfl⟩⟩
theorem witness_OperationsMoveTheModeAsTabled_init :
    Idle (sReset (quiets 18)) ∧ (sReset (quiets 18)).inited = false ∧
      (sReset (quiets 18)).params.halFallible = false ∧
      (sReset (quiets 18)).lines.txen = false ∧ (sReset (quiets 18)).lines.trig = false ∧
      (∃ t, exec .init (sReset (quiets 18)) = .next t) ∧
      ∃ t, exec (.setAddress [1, 2, 3, 4]) (sReset (quiets 18)) = .next t :=
  ⟨idle_sReset _, rfl, rfl, rfl, rfl, ⟨_, rfl⟩, ⟨_, rfl⟩⟩
theorem witness_OperationsMoveTheModeAsTabled_drain :
    let s := sDraining 0 []
    s.params.halFallible = false ∧ s.lines.txen = false ∧ s.mode = .receiving ∧
      { s with lines := ⟨false, true, false, true⟩ }.mode = .poweredDown ∧
      ∃ t, exec (.attachReceivedCallback 1) s = .next t :=
  ⟨rfl, rfl, rfl, rfl, ⟨_, rfl⟩⟩
theorem witness_OperationsMoveTheModeAsTabled :
    Ready (sRx (quiets 5)) ∧ (sRx (quiets 5)).lines.txen = false ∧
      (sRx (quiets 5)).mode = .receiving ∧
      ∃ t, exec .startReceiveMode (sRx (quiets 5)) = .next t :=
  ⟨ready_sRx _, rfl, rfl, ⟨_, rfl⟩⟩
theorem witness_StepKeepsInvariant :
    RegistersOk (sSending 0 [pollHigh]) ∧ LinesOk (sSending 0 [pollHigh]) ∧
      WellFramed (sSending 0 [pollHigh]) ∧ (sSending 0 [pollHigh]).params.valid = true ∧
      (sSending 0 [pollHigh]).params.halFallible = false ∧
      ∃ t, step (sSending 0 [pollHigh]) = .next t :=
  ⟨⟨valid_k0, rfl, ⟨rfl, rfl, rfl, rfl, rfl⟩, fun h => (by cases h), rfl, by decide,
      fun _ => held_k0⟩,
    ⟨rfl, fun h => absurd rfl (h 0), fun _ _ => ⟨rfl, rfl⟩⟩, rfl, by decide, rfl, ⟨_, rfl⟩⟩
theorem witness_StepKeepsInvariant_delivering : RegistersOk (sDelivering .quiet) :=
  ⟨valid_k0, rfl, ⟨rfl, rfl, by decide, _, rfl, rfl⟩, fun h => (by cases h), rfl, by decide,
    fun _ => held_k0⟩
theorem witness_StepKeepsInvariant_applying : RegistersOk (sApplying none [] none) :=
  ⟨valid_k0, rfl, ⟨rfl, rfl, _, rfl, rfl⟩, fun h => (by cases h), rfl, by decide,
    fun _ => held_k0⟩
theorem witness_ReadBackOfTheAddress :
    Ready (sInit (quiets 22)) ∧ 22 ≤ (quiets 22).length ∧ (∀ m ∈ quiets 22, m.inbound = none) ∧
      ∃ t u, exec (.setAddress [1, 2, 3, 4]) (sInit (quiets 22)) = .next t ∧
        exec .readConfig t = .next u :=
  ⟨ready_sInit _, by decide, by decide, ⟨_, _, rfl, rfl⟩⟩

theorem witness_ErrorCleanupOrder :
    NoFailureWithin ((if frameOpen [.wc2, .f3] then 1 else 0) + [(OutLine.pwr, true)].length)
        (fallible (sInit (quiets 2))) ∧
      NoFailureWithin ((if frameOpen [.pu1] then 1 else 0) + ([] : List (OutLine × Level)).length)
        (fallible (sInit [])) :=
  ⟨⟨by decide, by decide⟩, ⟨by decide, by decide⟩⟩
theorem witness_ErrorCleanupFollowsTheTable :
    let s := fallible (sInit ([failing] ++ quiets 2))
    s.busy = false ∧ s.inited = true ∧
      (∃ t, writeConfigSteps 5 [1] s.begin = .failed [.wc1] t ∧ NoFailureWithin 2 t) ∧
      (∃ t, setAddressSteps ([1, 2, 3, 4, 5].take 4) s.begin = .failed [.sa2, .wc1] t ∧
        NoFailureWithin 2 t) ∧
      ConfigHasValues s ∧
      (∃ t, readConfigFrame s.begin = .failed [.rc1, .f1] t ∧ NoFailureWithin 2 t) ∧
      (∃ t, powerUpSteps s.begin = .failed [.pu1] t ∧ NoFailureWithin 2 t) ∧
      (∃ t, deassertLine .pd1 .pwr s.begin = .failed [.pd1] t ∧ NoFailureWithin 2 t) ∧
      (∃ t, enterReceiveSteps s.begin = .failed [.er1] t ∧ NoFailureWithin 2 t) ∧
      ∃ t, exitReceiveSteps s.begin = .failed [.xr1] t ∧ NoFailureWithin 2 t :=
  ⟨rfl, rfl, ⟨_, rfl, by decide, by decide⟩, ⟨_, rfl, by decide, by decide⟩, hasValues_sInit _,
    ⟨_, rfl, by decide, by decide⟩, ⟨_, rfl, by decide, by decide⟩, ⟨_, rfl, by decide, by decide⟩,
    ⟨_, rfl, by decide, by decide⟩, ⟨_, rfl, by decide, by decide⟩⟩
theorem witness_ErrorCleanupFollowsTheTable_init :
    let s := fun env => fallible (sReset env)
    (s []).busy = false ∧ (s []).inited = false ∧
      (∃ t, initSteps (s ([failing] ++ quiets 2)).begin = .failed [.in1] t ∧
        NoFailureWithin 2 t) ∧
      ∃ t, initSteps (s (quiets 3 ++ [failing] ++ quiets 2)).begin =
        .failed [.in2, .wc2, .f2] t ∧ NoFailureWithin 2 t :=
  ⟨rfl, rfl, ⟨_, rfl, by decide, by decide⟩, ⟨_, rfl, by decide, by decide⟩⟩
theorem witness_EdgesDuringAnOperationAreLatched :
    let s := sRx [.quiet, edging]
    (∃ t, exec .powerUp s = .next t ∧ EdgeWithin (t.tick - s.tick) s) ∧ s.watch = true ∧
      (∃ t, step (sDraining 1 [edging]) = .next t ∧
        EdgeWithin (t.tick - (sDraining 1 [edging]).tick) (sDraining 1 [edging])) ∧
      (sDraining 1 [edging]).busy = true ∧
      (∃ t, exec .powerUp { s with edgePend := true } = .next t) ∧
      (∃ t, step { sDraining 1 [.quiet] with edgePend := true } = .next t) ∧
      EdgeWithin ((drainStart (sRx [edging])).tick - (sRx [edging]).tick) (sRx [edging]) :=
  ⟨⟨_, rfl, 1, by decide, rfl⟩, rfl, ⟨_, rfl, 0, by decide, rfl⟩, rfl, ⟨_, rfl⟩, ⟨_, rfl⟩, 0,
    by decide, rfl⟩
theorem witness_ReadFrameInstructionsComplete :
    (sReset []).params.halFallible = false ∧ (sReset []).params.valid = true ∧
      ConfigHasValues (sReset []) ∧ ConfigHasValues (sInit (quiets 13)) :=
  ⟨rfl, by decide, fun _ _ _ h => by simp [sReset] at h, hasValues_sInit _⟩
theorem witness_ReadConfigCompletes :
    Ready (sInit (quiets 13)) ∧ ConfigHasValues (sInit (quiets 13)) :=
  ⟨ready_sInit _, hasValues_sInit _⟩
theorem witness_ReadsWithoutAValueStop :
    let s : State := { sInit (quiets 12) with chip := { Chip.reset with config := k0Config.take 9 } }
    s.params.halFallible = false ∧ 9 < 10 ∧ Memory.read s.chip.config 9 = none ∧
      s.env[2 + 9]? = some .quiet ∧ Moment.quiet.inbound = none ∧ s.busy = false ∧
      s.inited = true ∧
      { sDelivering .quiet with rxbuf := none }.seq = .delivering [1, 2] 0 ∧
      (sDelivering .quiet).framer = none ∧ (sDelivering .quiet).busy = true ∧
      { sDelivering .quiet with rxbuf := none }.present.port = none ∧ (sInit []).txaddr = none ∧
      { sSending 0 [] with txbuf := none }.txaddr = some [1, 2, 3, 4] := by decide
theorem witness_EveryInstructionAnswersANextState :
    (Instr.init ≠ .rc ∧ Instr.init ≠ .readConfig) ∧ ConfigHasValues (sRx []) :=
  ⟨by decide, hasValues_sInit []⟩
theorem witness_PowerUpAndPowerDownComplete : Ready (sRx []) := ready_sRx []
theorem witness_StartReceiveModeCompletes :
    Ready (sInit []) ∧ (sInit []).watch = false ∧ Ready (sRx []) ∧ (sRx []).watch = true :=
  ⟨ready_sInit [], rfl, ready_sRx [], rfl⟩
theorem witness_OperationsMoveTheModeAsTabled_standby :
    let s : State := { sRx [] with
      lines := ⟨false, true, false, true⟩, params := { k0 with exitRxToStandby := true } }
    Ready s ∧ s.lines.txen = false ∧ s.mode = .poweredDown ∧ s.params.exitRxToStandby = true :=
  ⟨⟨⟨rfl, rfl, rfl, rfl, rfl, rfl, rfl⟩, rfl, by decide, rfl, rfl⟩, rfl, rfl, rfl⟩
theorem witness_OnlyTheListedOperationsWrite :
    after (exec .powerDown (sRx (quiets 1))) (fun t => t.lines.pwr != (sRx (quiets 1)).lines.pwr) := by
  decide
theorem witness_StepNeverStops : RegistersOk (sRx []) := registersOk_sRx []
theorem witness_StepKeepsLineInvariant :
    RegistersOk (sRx [.quiet]) ∧ LinesOk (sRx [.quiet]) ∧
      (sRx [.quiet]).params.halFallible = false ∧ ∃ t, step (sRx [.quiet]) = .next t :=
  ⟨registersOk_sRx _, ⟨rfl, fun _ => rfl, fun _ h => by cases h⟩, rfl, ⟨_, rfl⟩⟩
theorem witness_StepKeepsTraceWellFramed :
    RegistersOk (sRx [.quiet]) ∧ (sRx [.quiet]).params.halFallible = false ∧
      WellFramed (sRx [.quiet]) ∧ ∃ t, step (sRx [.quiet]) = .next t :=
  ⟨registersOk_sRx _, rfl, rfl, ⟨_, rfl⟩⟩
theorem witness_HistoryOnlyGrows :
    (∃ t, step (sRx [edging, .quiet]) = .next t) ∧ (sRx [edging, .quiet]).inited = true :=
  ⟨⟨_, rfl⟩, rfl⟩

end Sys2Proof.Tests
end

section
/-! Proofs: construction, the unbounded waits, and progress of every instruction and step. -/

namespace Sys2Proof.Machine

/-! ### Construction -/

/-- The constraints of 00_scope.md R6, as the check states them. -/
theorem Params.valid_iff (p : Params) :
    p.valid = true ↔ p.opWC &&& offsetMask = 0 ∧ p.cfgDefault.length = configLen ∧
      (p.cfgDefault.drop addrOffset).take addrLen = [0, 0, 0, 0] ∧ p.spinLimit ≠ some 0 ∧
      p.opcodeBytes.Nodup := by
  simp only [Params.valid, Bool.and_eq_true, beq_iff_eq, decide_eq_true_eq, bne_iff_ne]
  tauto

/-- The offset mask is idle on the start offsets of R6: the write-config bytes are `OP_WC | k`. -/
theorem Params.opcodeBytes_eq (p : Params) :
    p.opcodeBytes = ((List.range 16).map fun k => p.opWC ||| BitVec.ofNat 8 k) ++
      [p.opRC, p.opWTP, p.opWTA, p.opRRP] := by
  have hmask : ∀ k ∈ List.range 16, BitVec.ofNat 8 k &&& offsetMask = BitVec.ofNat 8 k := by decide
  rw [Params.opcodeBytes, List.map_congr_left fun k hk => by rw [hmask k hk]]

/-- A stretch of a list is constant exactly if each of its offsets holds that value. -/
theorem take_drop_eq_replicate_iff {α : Type} (l : List α) (k n : Nat) (a : α) :
    (l.drop k).take n = List.replicate n a ↔ ∀ j, k ≤ j → j < k + n → l[j]? = some a := by
  simp only [List.ext_getElem?_iff, List.getElem?_take, List.getElem?_drop, List.getElem?_replicate]
  constructor
  · intro h j hk hn
    obtain ⟨i, rfl⟩ := Nat.exists_eq_add_of_le hk
    have hi : i < n := by omega
    simpa [hi] using h i
  · intro h i
    split
    · exact h (k + i) (by omega) (by omega)
    · rfl

/-- The default address of R6 is zero exactly if offsets 5 to 8 of the default record are. -/
theorem defaultAddress_zero_iff (cfg : List Byte) :
    (cfg.drop addrOffset).take addrLen = [0, 0, 0, 0] ↔
      ∀ j, 5 ≤ j → j < 9 → cfg[j]? = some 0 :=
  take_drop_eq_replicate_iff cfg 5 4 0

theorem State.construct_of_valid {p : Params} (h : p.valid = true) :
    State.construct p = .next (.resetWith p) := if_pos h

theorem State.construct_of_invalid {p : Params} (h : p.valid ≠ true) :
    State.construct p = .refused .badParameters := if_neg h

theorem State.construct_next_iff (p : Params) :
    State.construct p = .next (.resetWith p) ↔ p.valid = true := by
  refine ⟨fun h => by_contra fun hv => ?_, State.construct_of_valid⟩
  rw [State.construct_of_invalid hv] at h
  cases h

/-- Settles O5: the check of construction, clause by clause, is R6. -/
theorem constructionChecksTheRecord : Obligations.ConstructionChecksTheRecord := by
  intro p
  refine ⟨?_, ?_⟩
  · by_cases h : p.valid = true
    · exact .inl (State.construct_of_valid h)
    · exact .inr (State.construct_of_invalid h)
  · rw [State.construct_next_iff, Params.valid_iff, defaultAddress_zero_iff, Params.opcodeBytes_eq]
    rfl

/-! ### Presenting while an operation waits -/

@[simp] theorem State.present_params (s : State) : s.present.params = s.params := by
  obtain ⟨_, _, h⟩ := s.present_eq
  rw [h]
@[simp] theorem State.present_lines (s : State) : s.present.lines = s.lines := by
  obtain ⟨_, _, h⟩ := s.present_eq
  rw [h]
@[simp] theorem State.present_busy (s : State) : s.present.busy = s.busy := by
  obtain ⟨_, _, h⟩ := s.present_eq
  rw [h]
@[simp] theorem State.present_seq (s : State) : s.present.seq = s.seq := by
  obtain ⟨_, _, h⟩ := s.present_eq
  rw [h]
@[simp] theorem State.present_framer (s : State) : s.present.framer = s.framer := by
  obtain ⟨_, _, h⟩ := s.present_eq
  rw [h]
@[simp] theorem State.present_chip (s : State) : s.present.chip = s.chip := by
  obtain ⟨_, _, h⟩ := s.present_eq
  rw [h]
@[simp] theorem State.present_env (s : State) : s.present.env = s.env := by
  obtain ⟨_, _, h⟩ := s.present_eq
  rw [h]
@[simp] theorem State.present_tick (s : State) : s.present.tick = s.tick := by
  obtain ⟨_, _, h⟩ := s.present_eq
  rw [h]
@[simp] theorem State.present_trace (s : State) : s.present.trace = s.trace := by
  obtain ⟨_, _, h⟩ := s.present_eq
  rw [h]
@[simp] theorem State.present_replies (s : State) : s.present.replies = s.replies := by
  obtain ⟨_, _, h⟩ := s.present_eq
  rw [h]
@[simp] theorem State.present_here (s : State) : s.present.here = s.here := by
  simp [State.here, State.momentAt]

/-- The host presents alike to two states with the same registers. -/
theorem SameRegisters.present {s t : State} (h : SameRegisters s t) :
    SameRegisters s.present t.present := by
  have hport := h.port
  have hhost := h.host
  simp only [State.present, hport, hhost]
  split
  · exact { h with port := rfl, host := rfl }
  · exact h
  · exact h

theorem SameRegisters.iterate_present {s t : State} (h : SameRegisters s t) (n : Nat) :
    SameRegisters (Nat.iterate State.present n s) (Nat.iterate State.present n t) := by
  induction n generalizing s t with
  | zero => exact h
  | succ n ih => exact ih h.present

theorem SameRegisters.withSeq {s t : State} (h : SameRegisters s t) (q : Seq) :
    SameRegisters { s with seq := q } { t with seq := q } := { h with seq := rfl }

/-- Presenting does not read where the sequencer stands. -/
theorem State.present_withSeq (s : State) (q : Seq) :
    State.present { s with seq := q } = { s.present with seq := q } := by
  simp only [State.present]
  split <;> rfl

theorem State.iterate_present_withSeq (n : Nat) (s : State) (q : Seq) :
    Nat.iterate State.present n { s with seq := q } =
      { Nat.iterate State.present n s with seq := q } := by
  induction n generalizing s with
  | zero => rfl
  | succ n ih =>
    rw [Function.iterate_succ_apply, State.present_withSeq, ih]
    rfl

/-! ### The waits -/

/-- A poll that reads 0 below the limit leaves the wait going on. -/
theorem waitHigh_low {label : StepLabel} {polls : Nat} {s : State}
    (hf : s.params.halFallible = false) (hl : s.here.level = false)
    (hn : s.params.spinLimit ≠ some (polls + 1)) :
    waitHigh label polls s = .low (s.advance.emit (.r .dr false)) := by
  simp [waitHigh, pinRead, failsHere_of_infallible hf, hl, hn]

/-- The block waits after `c` polls, and the next `n` polls read 0 without reaching the limit. -/
structure WaitsLow (wait : Nat → Seq) (c n : Nat) (s : State) : Prop where
  kind : wait = .txWait ∨ wait = .rxWait
  framerFree : s.framer = none
  busy : s.busy = true
  seq : s.seq = wait c
  infallible : s.params.halFallible = false
  limit : ∀ k, k < n → s.params.spinLimit ≠ some (c + k + 1)
  listed : n ≤ s.env.length
  low : ∀ m ∈ s.env.take n, m.level = false

/-- The block after a step of a wait whose poll read 0. -/
def State.polledLow (q : Seq) (s : State) : State :=
  { s.present.advance.emit (.r .dr false) with seq := q }

theorem State.polledLow_env (q : Seq) (s : State) : (s.polledLow q).env = s.env.tail := by
  simp [State.polledLow]

theorem SameRegisters.polledLow (q : Seq) (s : State) :
    SameRegisters { s.present with seq := q } (s.polledLow q) :=
  ((SameRegisters.advance s.present).trans (.emit _ _)).withSeq q

section
variable {wait : Nat → Seq} {c n : Nat} {s : State}

theorem WaitsLow.here_low (h : WaitsLow wait c (n + 1) s) : s.here.level = false := by
  have hpos : 0 < s.env.length := Nat.lt_of_lt_of_le n.succ_pos h.listed
  rw [State.here_listed (List.getElem?_eq_getElem hpos)]
  exact h.low _ (List.mem_take_iff_getElem.mpr ⟨0, by omega, rfl⟩)

/-- One step of either wait, its poll reading 0 below the limit. -/
theorem WaitsLow.step_eq (h : WaitsLow wait c (n + 1) s) :
    step s = .next (s.polledLow (wait (c + 1))) := by
  have hlow (label : StepLabel) :
      waitHigh label c s.present = .low (s.present.advance.emit (.r .dr false)) :=
    waitHigh_low (by simpa using h.infallible) (by simpa using h.here_low)
      (by simpa using h.limit 0 n.succ_pos)
  have hseq : s.present.seq = wait c := s.present_seq.trans h.seq
  rw [step_of_busy h.framerFree h.busy]
  rcases h.kind with rfl | rfl
  · simp only [continueOperation, hseq, transmitWait, hlow, State.polledLow]
  · simp only [continueOperation, hseq, drainWait, hlow, State.polledLow]

/-- After that step the remaining polls still read 0 without reaching the limit. -/
theorem WaitsLow.polledLow (h : WaitsLow wait c (n + 1) s) :
    WaitsLow wait (c + 1) n (s.polledLow (wait (c + 1))) := by
  have henv := State.polledLow_env (wait (c + 1)) s
  have hparams : (s.polledLow (wait (c + 1))).params = s.params := s.present_params
  refine ⟨h.kind, s.present_framer.trans h.framerFree, s.present_busy.trans h.busy, rfl,
    hparams ▸ h.infallible, fun k hk => ?_, ?_, fun m hm => ?_⟩
  · rw [hparams, show c + 1 + k + 1 = c + (k + 1) + 1 by omega]
    exact h.limit (k + 1) (by omega)
  · have hlisted := h.listed
    rw [henv, List.length_tail]
    omega
  · rw [henv, ← List.drop_one, List.take_drop, Nat.add_comm] at hm
    exact h.low m (List.mem_of_mem_drop hm)

end

/-- From `s` to `t` there were `n` polls that read 0, the host presented at each, and nothing else
happened; the sequencer stands at `q`. -/
structure PolledLow (n : Nat) (q : Seq) (s t : State) : Prop where
  trace : t.trace = s.trace ++ List.replicate n (.r .dr false)
  same : SameRegisters { Nat.iterate State.present n s with seq := q } t
  lines : t.lines = s.lines
  replies : t.replies = s.replies
  chip : t.chip = s.chip

theorem PolledLow.refl {q : Seq} {s : State} (h : s.seq = q) : PolledLow 0 q s s where
  trace := by simp
  same := { SameRegisters.refl s with seq := h }
  lines := rfl
  replies := rfl
  chip := rfl

/-- Polls that read 0 after one such poll are one more. -/
theorem PolledLow.cons {n : Nat} {q q' : Seq} {s t : State} (h : PolledLow n q (s.polledLow q') t) :
    PolledLow (n + 1) q s t where
  trace := by
    rw [h.trace]
    simp [State.polledLow, List.replicate_succ]
  same := by
    have hone := ((SameRegisters.polledLow q' s).iterate_present n).withSeq q
    rw [State.iterate_present_withSeq] at hone
    exact hone.trans h.same
  lines := h.lines.trans s.present_lines
  replies := h.replies.trans s.present_replies
  chip := h.chip.trans s.present_chip

/-- A wait whose polls read 0 below the limit does nothing but poll. -/
theorem WaitsLow.run_eq {wait : Nat → Seq} {c n : Nat} {s : State} (h : WaitsLow wait c n s) :
    ∃ t, run n s = .next t ∧ PolledLow n (wait (c + n)) s t := by
  induction n generalizing c s with
  | zero => exact ⟨s, rfl, .refl h.seq⟩
  | succ n ih =>
    obtain ⟨t, hrun, hpolled⟩ := ih h.polledLow
    refine ⟨t, ?_, ?_⟩
    · rw [run, h.step_eq]
      exact hrun
    · rw [show c + (n + 1) = c + 1 + n by omega]
      exact hpolled.cons

/-- Settles O44, by induction on the number of polls (`WaitsLow.run_eq`). -/
theorem unboundedWaitPollsForEver : Obligations.UnboundedWaitPollsForEver := by
  intro wait n c s hkind hframer hbusy hseq hinfallible hlimit hlisted hlow
  obtain ⟨t, hrun, ht⟩ := WaitsLow.run_eq
    ⟨hkind, hframer, hbusy, hseq, hinfallible, hlimit, hlisted, hlow⟩
  exact ⟨t, hrun, ht.trace, ht.same, ht.lines, ht.replies, ht.chip⟩

/-! ### Progress -/

/-- A call of the framer has a next state. -/
theorem framerCall_next {α : Type} (check : Except Malformed α) (body : α → State → Res Reply)
    (s : State) : ∃ t, framerCall check body s = .next t := by
  rcases framerCall_cases check body s with ⟨_, _, h⟩ | ⟨_, _, _, _, _, h⟩ | ⟨_, _, _, _, _, h⟩ <;>
    exact ⟨_, h⟩

/-- A host operation has a next state if its body has one wherever the checks let it start. -/
theorem acceptThen_next {α : Type} {i : Instr} {check : Except Malformed α}
    {body : α → State → Host.Outcome State Fault Refusal} {s : State}
    (h : ∀ a, check = .ok a → ∃ t, body a s.begin = .next t) :
    ∃ t, acceptThen i check body s = .next t := by
  rcases acceptThen_cases i check body s with ⟨_, hr⟩ | ⟨_, _, _, hr⟩ | ⟨_, a, ha, hr⟩
  · exact ⟨_, hr⟩
  · exact ⟨_, hr⟩
  · rw [hr]
    exact h a ha

theorem accept_next {α : Type} (i : Instr) (check : Except Malformed α) (body : α → State → State)
    (s : State) : ∃ t, accept i check body s = .next t :=
  acceptThen_next fun _ _ => ⟨_, rfl⟩

theorem registryOperation_next (i : Instr) (q : RegistryRequest) (s : State) :
    ∃ t, registryOperation i q s = .next t := by
  rw [registryOperation]
  split <;> exact ⟨_, rfl⟩

theorem unknownCommand_next (i : Instr) (s : State) : ∃ t, unknownCommand i s = .next t := by
  rw [unknownCommand]
  split <;> exact ⟨_, rfl⟩

theorem execRc_next {s : State} (h : s.configAnswered = true) : ∃ t, execRc s = .next t := by
  rw [execRc, if_pos h]
  exact framerCall_next _ _ _

theorem checkInited_ok {s : State} {u : Unit} (h : checkInited s = .ok u) : s.inited = true := by
  rw [checkInited] at h
  split at h
  · assumption
  · cases h

/-- readConfig reads only where its check has found the block initialised. -/
theorem execReadConfig_next {s : State} (h : s.inited = true → s.configAnswered = true) :
    ∃ t, execReadConfig s = .next t :=
  acceptThen_next fun _ hc =>
    ⟨_, if_pos ((State.configAnswered_begin s).trans (h (checkInited_ok hc)))⟩

/-- The operands sendPacket latches are there when it reads them back. -/
theorem execSendPacket_next (address payload : List Byte) (s : State) :
    ∃ t, execSendPacket address payload s = .next t :=
  acceptThen_next fun _ _ => ⟨_, rfl⟩

/-- Every instruction has a next state where the read-config frames are answered. -/
theorem exec_next {i : Instr} {s : State} (hrc : i = .rc → s.configAnswered = true)
    (hread : i = .readConfig → s.inited = true → s.configAnswered = true) :
    ∃ t, exec i s = .next t := by
  cases i with
  | wc k data => exact (framerCall_next _ _ s : ∃ t, execWc k data s = .next t)
  | rc => exact execRc_next (hrc rfl)
  | wtp payload => exact (framerCall_next _ _ s : ∃ t, execWtp payload s = .next t)
  | wta address => exact (framerCall_next _ _ s : ∃ t, execWta address s = .next t)
  | rrp => exact (framerCall_next _ _ s : ∃ t, execRrp s = .next t)
  | init => exact (accept_next _ _ _ s : ∃ t, execInit s = .next t)
  | setAddress address => exact (accept_next _ _ _ s : ∃ t, execSetAddress address s = .next t)
  | writeConfig offset bytes =>
    exact (accept_next _ _ _ s : ∃ t, execWriteConfig offset bytes s = .next t)
  | readConfig => exact execReadConfig_next (hread rfl)
  | powerUp => exact (accept_next _ _ _ s : ∃ t, execPowerUp s = .next t)
  | powerDown => exact (accept_next _ _ _ s : ∃ t, execPowerDown s = .next t)
  | startReceiveMode => exact (accept_next _ _ _ s : ∃ t, execStartReceiveMode s = .next t)
  | stopReceiveMode => exact (accept_next _ _ _ s : ∃ t, execStopReceiveMode s = .next t)
  | sendPacket address payload => exact execSendPacket_next address payload s
  | attachReceivedCallback handler => exact registryOperation_next _ _ s
  | detachReceivedCallback handler => exact registryOperation_next _ _ s
  | unassignedB => exact unknownCommand_next _ s
  | unassignedCToF x => exact unknownCommand_next _ s

/-- Settles O54: the exempted instructions are the only ones that ask for an answered frame. -/
theorem everyInstructionAnswersANextState : Obligations.EveryInstructionAnswersANextState := by
  rintro i s (⟨hrc, hread⟩ | hvalues)
  · exact exec_next (absurd · hrc) (absurd · hread)
  · have hanswered := configAnswered_of_values hvalues
    exact exec_next (fun _ => hanswered) (fun _ _ => hanswered)

/-- No command code is a bus instruction (30_encoding.md R104). -/
theorem decodeCommand_ne_rc (c : PortCommand) : decodeCommand c ≠ .rc := by
  rw [decodeCommand]
  split <;> exact Instr.noConfusion

/-- Once the block is initialised the reference environment holds a value for every byte of `CONFIG`:
the part of the invariant that progress needs (`RegistersOk.configHeld`). -/
def ConfigHeld (s : State) : Prop :=
  s.inited = true → ∀ j, j < configLen → (Memory.read s.chip.config j).isSome = true

/-- A command has a next state where an initialised block's `CONFIG` is held. -/
theorem exec_decodeCommand_next (c : PortCommand) {s : State} (h : ConfigHeld s) :
    ∃ t, exec (decodeCommand c) s = .next t :=
  exec_next (absurd · (decodeCommand_ne_rc c)) fun _ hi => configAnswered_of_held (h hi)

/-- The idle block has a next state. -/
theorem arbitrate_next {s : State} (h : ConfigHeld s) : ∃ t, arbitrate s = .next t := by
  rw [arbitrate]
  split
  · exact ⟨_, rfl⟩
  · split
    · exact ⟨_, rfl⟩
    · exact exec_decodeCommand_next _ h

/-- A running dispatch has a next state if its own next step has one. -/
theorem continueDispatch_next {next : State → Host.Outcome State Fault Refusal} {s : State}
    (hc : ConfigHeld s) (h : ∃ t, next s = .next t) : ∃ t, continueDispatch next s = .next t := by
  rw [continueDispatch]
  split
  · split
    · exact exec_decodeCommand_next _ hc
    · exact h
  · exact h

/-- A delivery has a next state while `RXBUF` has a value. -/
theorem dispatchStep_next (snapshot : List ConsumerId) (i : Nat) {s : State} {p : List Byte}
    (h : s.rxbuf = some p) : ∃ t, dispatchStep snapshot i s = .next t := by
  simp only [dispatchStep, h]
  split <;> exact ⟨_, rfl⟩

/-- The busy block has a next state: a delivery finds `RXBUF` with a value. -/
theorem continueOperation_next {s : State} (hc : ConfigHeld s)
    (hbuf : ∀ snapshot i, s.seq = .delivering snapshot i → ∃ p, s.rxbuf = some p) :
    ∃ t, continueOperation s = .next t := by
  rw [continueOperation]
  split
  case h_1 => exact ⟨_, rfl⟩
  case h_2 => exact ⟨_, rfl⟩
  case h_3 => exact ⟨_, rfl⟩
  case h_4 snapshot i hseq =>
    obtain ⟨p, hp⟩ := hbuf snapshot i hseq
    exact continueDispatch_next hc (dispatchStep_next snapshot i hp)
  case h_5 => exact continueDispatch_next hc ⟨_, rfl⟩

/-- Inside a dispatch `RXBUF` has a value. -/
theorem SeqOk.rxbuf_of_delivering {s : State} (h : SeqOk s) (snapshot : List ConsumerId) (i : Nat)
    (hseq : s.seq = .delivering snapshot i) : ∃ p, s.rxbuf = some p := by
  rw [SeqOk, hseq] at h
  obtain ⟨-, -, -, p, hp, -⟩ := h
  exact ⟨p, hp⟩

/-- Settles O55: the invariant rules out both faults, and no call stands at the framer's port. -/
theorem stepNeverStops : Obligations.StepNeverStops := by
  intro s h
  have hstep : step s = runPresented s.present := by simp [step, sequencerStep, h.framerFree]
  obtain ⟨port, host, hp⟩ := s.present_eq
  rw [hstep, hp, runPresented]
  split
  · exact continueOperation_next h.configHeld h.seqOk.rxbuf_of_delivering
  · exact arbitrate_next h.configHeld

end Sys2Proof.Machine
end

section
/-! Proofs: the state after reset, the mode, and the reads that have no value (10_state.md R37, R43,
R44). -/

namespace Sys2Proof.Machine

/-! ### Reset and mode -/

/-- Construction answers the reset state of a valid record and no other state. -/
theorem State.construct_next {p : Params} {s : State} (h : State.construct p = .next s) :
    p.valid = true ∧ s = .resetWith p := by
  rw [State.construct] at h
  split at h
  · cases h
    exact ⟨‹_›, rfl⟩
  · cases h

/-- Settles O6: all but the zero address are read off the definition; that is a constraint of R6. -/
theorem resetValues : Obligations.ResetValues := by
  intro p s h
  obtain ⟨hv, rfl⟩ := State.construct_next h
  have haddr : (State.resetWith p).addr = [0, 0, 0, 0] := (Params.valid_facts hv).2.2.2.1
  exact ⟨rfl, rfl, rfl, haddr, rfl, rfl, rfl, rfl, rfl, rfl, rfl, rfl, rfl, rfl, rfl, rfl⟩

theorem State.resetWith_idle (p : Params) : Idle (.resetWith p) :=
  ⟨rfl, rfl, rfl, rfl, rfl, rfl, rfl⟩

theorem State.resetWith_registersOk {p : Params} (h : p.valid = true) :
    RegistersOk (.resetWith p) where
  valid := h
  cfgLength := (Params.valid_facts h).2.2.1
  seqOk := State.resetWith_idle p
  edgeWatched := Bool.noConfusion
  framerFree := rfl
  chipWf := rfl
  configHeld := Bool.noConfusion

theorem State.resetWith_linesOk (p : Params) : LinesOk (.resetWith p) where
  csn := rfl
  txen := fun _ => rfl
  txLevels := fun _ h => Seq.noConfusion h

/-- Settles O7: an accepted record is valid, which is all the invariants ask of it at reset. -/
theorem resetMeetsInvariants : Obligations.ResetMeetsInvariants := by
  refine ⟨fun p s h => ?_, State.construct_of_valid (by decide)⟩
  obtain ⟨hv, rfl⟩ := State.construct_next h
  exact ⟨State.resetWith_registersOk hv, State.resetWith_linesOk p, rfl⟩

/-- Settles O8, by the levels of the three lines. -/
theorem modeIsTheTableOfLines : Obligations.ModeIsTheTableOfLines := by
  intro s
  rw [State.mode, Lines.mode]
  cases s.lines.pwr with
  | false => rfl
  | true => cases s.lines.txen <;> cases s.lines.trig <;> rfl

/-! ### Reads without a value -/

@[simp] theorem State.present_rxbuf (s : State) : s.present.rxbuf = s.rxbuf := by
  obtain ⟨_, _, h⟩ := s.present_eq
  rw [h]

theorem execRc_unanswered {s : State} (h : s.configAnswered = false) :
    exec .rc s = .fault .noChipValue :=
  if_neg (by simp [h])

/-- readConfig stops where its frame would, once its check has passed. -/
theorem execReadConfig_unanswered {s : State} (hb : s.busy = false) (hi : s.inited = true)
    (h : s.configAnswered = false) : exec .readConfig s = .fault .noChipValue := by
  have hbegin : s.begin.configAnswered = false := h
  show execReadConfig s = _
  simp [execReadConfig, acceptThen, hb, checkInited, hi, hbegin]

/-- A delivery without `RXBUF` stops, when no command is at the port to go before it. -/
theorem step_delivering_without_rxbuf {s : State} {snapshot : List ConsumerId} {i : Nat}
    (hf : s.framer = none) (hb : s.busy = true) (hp : s.present.port = none)
    (hseq : s.seq = .delivering snapshot i) (hbuf : s.rxbuf = none) :
    step s = .fault (.noTransientValue .rxbuf) := by
  have hseq' : s.present.seq = .delivering snapshot i := s.present_seq.trans hseq
  have hbuf' : s.present.rxbuf = none := s.present_rxbuf.trans hbuf
  rw [step_of_busy hf hb]
  simp only [continueOperation, hseq', continueDispatch, hp, dispatchStep, hbuf']

/-- Settles O21: a frame left to an unwritten byte is not answered (`configAnswered_of_unwritten`); the
other two reads look at the buffer itself. -/
theorem readsWithoutAValueStop : Obligations.ReadsWithoutAValueStop := by
  refine ⟨fun s j m hp hj hc he hm => ?_, fun s snapshot i => step_delivering_without_rxbuf,
    fun s => ⟨fun ha => ?_, fun a ha hb => ?_⟩⟩
  · have h := configAnswered_of_unwritten hj hp he hm hc
    exact ⟨execRc_unanswered h, fun hb hi => execReadConfig_unanswered hb hi h⟩
  · simp only [transmitLatched, ha]
  · simp only [transmitLatched, ha, hb]

end Sys2Proof.Machine
end

section
/-! Proofs: what an instruction can do, on any access layer and in any state (10_state.md R20): the
sequences of an operation's micro-steps, and the outcomes of an instruction. -/

namespace Sys2Proof.Machine

/-! ### Sequences and how they end -/

/-- A sequence that completes ends in a value and state with `P`; one that fails ends with `F`. -/
inductive Res.Sat {α : Type} (P : α → State → Prop) (F : StepPath → State → Prop) :
    Res α → Prop where
  | ok {a : α} {t : State} : P a t → Res.Sat P F (.ok a t)
  | failed {path : StepPath} {t : State} : F path t → Res.Sat P F (.failed path t)

/-- The sequence from `s` failed at `t` having written no line outside `ls`, and its cleanup of
chip-select, if it is due one, does not either. -/
structure FailedAt (ls : List OutLine) (s : State) (path : StepPath) (t : State) : Prop where
  touched : Touched ls s t
  frame : frameOpen path = true → OutLine.csn ∈ ls

/-- A sequence from `s` writes no line outside `ls`, nor does its cleanup of chip-select. -/
abbrev Stays {α : Type} (ls : List OutLine) (r : Res α) (s : State) : Prop :=
  r.Sat (fun _ => Touched ls s) (FailedAt ls s)

section
variable {α β : Type} {ls : List OutLine} {r : Res α} {s t : State}
  {P : α → State → Prop} {F : StepPath → State → Prop}

theorem Res.Sat.andThen {next : α → State → Res β} {Q : β → State → Prop} (h : r.Sat P F)
    (k : ∀ a t, P a t → (next a t).Sat Q F) : (r.andThen next).Sat Q F := by
  cases h with
  | ok h => exact k _ _ h
  | failed h => exact .failed h

theorem Res.Sat.mono {Q : α → State → Prop} {G : StepPath → State → Prop} (h : r.Sat P F)
    (hq : ∀ a t, P a t → Q a t) (hg : ∀ path t, F path t → G path t) : r.Sat Q G := by
  cases h with
  | ok h => exact .ok (hq _ _ h)
  | failed h => exact .failed (hg _ _ h)

theorem Res.Sat.of_ok {a : α} (h : r.Sat P F) (hr : r = .ok a t) : P a t := by
  cases h with
  | ok h =>
    cases hr
    exact h
  | failed h => cases hr

theorem Res.Sat.of_failed {path : StepPath} (h : r.Sat P F) (hr : r = .failed path t) :
    F path t := by
  cases h with
  | ok h => cases hr
  | failed h =>
    cases hr
    exact h

theorem FailedAt.after {u : State} {path : StepPath} (h : Touched ls s t)
    (k : FailedAt ls t path u) : FailedAt ls s path u :=
  ⟨h.trans k.touched, k.frame⟩

/-- A sequence that starts where another one from `s` ended. -/
theorem Res.Sat.after (h : Stays ls r t) (k : Touched ls s t) : Stays ls r s :=
  h.mono (fun _ _ => k.trans) fun _ _ => .after k

/-- A sequence that may write chip-select may be cleaned up. -/
theorem Stays.of_touched (h : Touched ls s r.state) (hc : OutLine.csn ∈ ls) : Stays ls r s := by
  cases r with
  | ok a t => exact .ok h
  | failed path t => exact .failed ⟨h, fun _ => hc⟩

/-- A sequence that fails at one label outside the frame procedure is due no cleanup of
chip-select. -/
theorem Stays.of_label {l : StepLabel} (h : Touched ls s r.state) (hl : l.inFrame = false)
    (hf : ∀ path t, r = .failed path t → path = [l]) : Stays ls r s := by
  cases r with
  | ok a t => exact .ok h
  | failed path t =>
    obtain rfl := hf path t rfl
    exact .failed ⟨h, fun ho => by simp [frameOpen, hl] at ho⟩

/-- Inside a step whose label is not of the frame procedure the same cleanup is due. -/
theorem Res.Sat.inside {l : StepLabel} (hl : l.inFrame = false) (h : r.Sat P (FailedAt ls s)) :
    (r.inside l).Sat P (FailedAt ls s) := by
  cases h with
  | ok h => exact .ok h
  | failed h => exact .failed ⟨h.touched, fun ho => h.frame (by simpa [frameOpen, hl] using ho)⟩

end

theorem assertLine_stays {label : StepLabel} {l : OutLine} {ls : List OutLine} (s : State)
    (hl : label.inFrame = false) (h : l ∈ ls) : Stays ls (assertLine label l s) s :=
  .of_label (assertLine_touched label s h) hl fun _ _ => pinWrite_failed

theorem deassertLine_stays {label : StepLabel} {l : OutLine} {ls : List OutLine} (s : State)
    (hl : label.inFrame = false) (h : l ∈ ls) : Stays ls (deassertLine label l s) s :=
  .of_label (deassertLine_touched label s h) hl fun _ _ => pinWrite_failed

theorem delay_stays {label : StepLabel} {ls : List OutLine} (d : Duration) (s : State)
    (hl : label.inFrame = false) : Stays ls (delay label d s) s :=
  .of_label (delay_touched label d s ls) hl fun _ _ => delay_failed

theorem halAction_stays {label : StepLabel} {ls : List OutLine} (s : State)
    (hl : label.inFrame = false) : Stays ls (halAction label s) s :=
  .of_label (halAction_touched label s ls) hl fun _ _ => halAction_failed

/-- Cleaning up after a failure writes chip-select, where it is due, and the closing lines. -/
theorem FailedAt.cleanup {ls : List OutLine} {s t : State} {path : StepPath}
    {closing : List (OutLine × Level)} (h : FailedAt ls s path t) (hc : ∀ w ∈ closing, w.1 ∈ ls) :
    Touched ls s (cleanup path closing t) :=
  h.touched.trans (cleanup_touched path closing t h.frame hc)

/-- A host operation returns in a state with `P`, if its sequence completes in one and every cleanup
after a failure ends in one. -/
theorem conclude_of_sat {r : Res Reply} {closing : StepPath → List (OutLine × Level)}
    {P : State → Prop} {F : StepPath → State → Prop} (h : r.Sat (fun _ => P) F)
    (hf : ∀ path t, F path t → P (cleanup path (closing path) t)) :
    ∃ reply u, P u ∧ conclude closing r = u.ret reply := by
  cases h with
  | ok h => exact ⟨_, _, h, rfl⟩
  | failed h => exact ⟨_, _, hf _ _ h, rfl⟩

/-! ### The micro-steps of each operation -/

theorem writeConfigFrame_touched (k : Nat) (data : List Byte) (s : State) {ls : List OutLine}
    (h : OutLine.csn ∈ ls) : Touched ls s (writeConfigFrame k data s).state :=
  Res.touched_andThen (frame_touched _ data 0 false s h) fun _ t _ => .refl ls t

theorem writeTransmitPayload_touched (payload : List Byte) (s : State) {ls : List OutLine}
    (h : OutLine.csn ∈ ls) : Touched ls s (writeTransmitPayload payload s).state :=
  Res.touched_andThen (by simpa using frame_touched _ payload 0 false s h) fun _ t _ => .refl ls t

theorem writeTransmitAddress_touched (address : List Byte) (s : State) {ls : List OutLine}
    (h : OutLine.csn ∈ ls) : Touched ls s (writeTransmitAddress address s).state :=
  Res.touched_andThen (by simpa using frame_touched _ address 0 false s h) fun _ t _ => .refl ls t

theorem readReceivedPayload_touched (s : State) {ls : List OutLine} (h : OutLine.csn ∈ ls) :
    Touched ls s (readReceivedPayload s).state := by
  simpa [readReceivedPayload] using frame_touched _ [] rxPayloadLen true s h

theorem readConfigSteps_touched (s : State) {ls : List OutLine} (h : OutLine.csn ∈ ls) :
    Touched ls s (readConfigSteps s).state :=
  Res.touched_andThen (by simpa [readConfigFrame] using frame_touched _ [] configLen false s h)
    fun _ t _ => .refl ls t

/-- Steps `WC.1` to `WC.4` change the mirror and no other register, and only if they complete
(40_command_framer.md R120). -/
theorem writeConfigSteps_sat (k : Nat) (bytes : List Byte) (s : State) :
    (writeConfigSteps k bytes s).Sat
      (fun _ t => ∃ u, Touched [.pwr, .csn] s u ∧ t = { u with cfg := mirrorWrite u.cfg k bytes })
      (FailedAt [.pwr, .csn] s) :=
  (deassertLine_stays s rfl (by simp)).andThen fun _ t1 h1 =>
  (((Stays.of_touched (writeConfigFrame_touched k bytes t1 (by simp)) (by simp)).inside rfl).after
    h1).andThen fun _ t2 h2 =>
  ((assertLine_stays t2 rfl (by simp)).after h2).andThen fun _ t3 h3 => .ok ⟨t3, h3, rfl⟩

/-- The mirror does not change where it already holds the bytes. -/
theorem mirrorWrite_of_held (cfg : List Byte) (k : Nat) (bytes : List Byte)
    (h : ∀ j, j < bytes.length → cfg[k + j]? = bytes[j]?) : mirrorWrite cfg k bytes = cfg := by
  induction bytes generalizing k with
  | nil => rfl
  | cons b bs ih =>
    have hb : cfg.set k b = cfg := by
      obtain ⟨hk, rfl⟩ := List.getElem?_eq_some_iff.mp (h 0 (by simp))
      exact List.set_getElem_self hk
    rw [mirrorWrite, hb]
    refine ih (k + 1) fun j hj => ?_
    simpa [Nat.add_assoc, Nat.add_comm 1] using h (j + 1) (by simpa using hj)

/-- Sending the mirror as it stands leaves it as it stands (41_mode_controller.md R152). -/
theorem mirrorWrite_self (cfg : List Byte) : mirrorWrite cfg 0 cfg = cfg :=
  mirrorWrite_of_held cfg 0 cfg fun j _ => by rw [Nat.zero_add]

/-- Steps `PU.1` and `PU.2` write the power line only. -/
theorem powerUpSteps_stays (s : State) {ls : List OutLine} (h : OutLine.pwr ∈ ls) :
    Stays ls (powerUpSteps s) s :=
  (assertLine_stays s rfl h).andThen fun _ t1 h1 =>
  ((delay_stays .wake t1 rfl).after h1).andThen fun _ _ h2 => .ok h2

/-- Every offset of `CONFIG` has a value (`RegistersOk.configHeld`). -/
def ConfigWritten (s : State) : Prop :=
  ∀ j, j < configLen → (Memory.read s.chip.config j).isSome = true

/-- A configuration write of ten bytes from offset 0 that completes has written all of `CONFIG`. -/
theorem writeConfigSteps_configWritten {bytes : List Byte} {s t : State}
    (h : writeConfigSteps 0 bytes s = .ok () t) (hv : s.params.valid = true)
    (hb : bytes.length = configLen) : ConfigWritten t := by
  obtain ⟨u, n, evs, rfl, hr, ho⟩ := writeConfigSteps_ok h
  intro j hj
  have := configHeld_of_write hv s.lines s.chip hb j hj
  rwa [← ho, chipAfter_outward, ← hr.chip] at this

/-- Steps `IN.1` to `IN.4` raise `INITED` if they complete, with all of `CONFIG` written; they change
no other register (41_mode_controller.md R152). -/
theorem initSteps_sat (s : State) :
    (initSteps s).Sat
      (fun _ t => ∃ u, Touched [.pwr, .csn] s u ∧
        (s.params.valid = true → s.cfg.length = configLen → ConfigWritten u) ∧
        t = { u with inited := true })
      (FailedAt [.pwr, .csn] s) := by
  refine (halAction_stays s rfl).andThen fun _ t1 h1 => ?_
  have hwrite : ((writeConfigSteps 0 t1.cfg t1).inside .in2).Sat
      (fun _ t => Touched [.pwr, .csn] s t ∧
        (s.params.valid = true → s.cfg.length = configLen → ConfigWritten t))
      (FailedAt [.pwr, .csn] s) := by
    refine Res.Sat.inside rfl ?_
    have hsat := writeConfigSteps_sat 0 t1.cfg t1
    cases hr : writeConfigSteps 0 t1.cfg t1 with
    | ok a t =>
      obtain ⟨u, hu, rfl⟩ := hsat.of_ok hr
      refine .ok ⟨?_, fun hv hl => ?_⟩
      · rw [← hu.same.cfg, mirrorWrite_self]
        exact h1.trans hu
      · exact writeConfigSteps_configWritten hr (h1.same.params ▸ hv) (h1.same.cfg ▸ hl)
    | failed path t => exact .failed (.after h1 (hsat.of_failed hr))
  refine hwrite.andThen fun _ t2 ⟨h2, hheld⟩ => ?_
  have hpower := (powerUpSteps_stays t2 (ls := [.pwr, .csn]) (by simp)).inside (l := .in3) rfl
  exact Res.Sat.andThen (hpower.mono (fun _ _ => id) fun _ _ => .after h2) fun _ t3 h3 =>
    .ok ⟨t3, h2.trans h3, fun hv hl j hj => h3.configHeld j (hheld hv hl j hj), rfl⟩

/-- Steps `ER.1` to `ER.5` arm the watch if they complete and change no other register
(41_mode_controller.md R155). -/
theorem enterReceiveSteps_sat (s : State) :
    (enterReceiveSteps s).Sat
      (fun _ t => ∃ u, Touched [.txen, .pwr, .trig] s u ∧ t = { u with watch := true })
      (FailedAt [.txen, .pwr, .trig] s) :=
  (deassertLine_stays s rfl (by simp)).andThen fun _ t1 h1 =>
  ((assertLine_stays t1 rfl (by simp)).after h1).andThen fun _ t2 h2 =>
  ((assertLine_stays t2 rfl (by simp)).after h2).andThen fun _ t3 h3 =>
  ((delay_stays .settle t3 rfl).after h3).andThen fun _ t4 h4 =>
  ((halAction_stays t4 rfl).after h4).andThen fun _ t5 h5 => .ok ⟨t5, h5, rfl⟩

/-- The lines exitReceive writes (41_mode_controller.md R156). -/
def exitLines (p : Params) : List OutLine := if p.exitRxToStandby then [.trig] else []

/-- `XR.1` disarms the watch and drops a latched edge, unless it fails; `XR.2` changes no register
(41_mode_controller.md R156). -/
theorem exitReceiveSteps_sat (s : State) :
    (exitReceiveSteps s).Sat
      (fun _ t => ∃ u, Touched (exitLines s.params) s u ∧
        Touched (exitLines s.params) { u with watch := false, edgePend := false } t)
      (fun path t => FailedAt (exitLines s.params) s path t ∨
        ∃ u, Touched (exitLines s.params) s u ∧
          FailedAt (exitLines s.params) { u with watch := false, edgePend := false } path t) := by
  refine ((halAction_stays s rfl).mono (fun _ _ => id) fun _ _ => .inl).andThen fun _ u hu => ?_
  dsimp only
  split
  · rename_i hexit
    have hexit : s.params.exitRxToStandby = true := hu.same.params ▸ hexit
    exact (deassertLine_stays _ rfl (by simp [exitLines, hexit])).mono (fun _ _ ht => ⟨u, hu, ht⟩)
      fun _ _ hf => .inr ⟨u, hu, hf⟩
  · exact .ok ⟨u, hu, .refl _ _⟩

/-- The lines sendPacket writes: all four (43_transmit_pipeline.md R200). -/
def transmitLines : List OutLine := [.pwr, .csn, .txen, .trig]

theorem mem_transmitLines (l : OutLine) : l ∈ transmitLines := by
  cases l <;> decide

theorem transmitSteps_stays (address payload : List Byte) (s : State) :
    Stays transmitLines (transmitSteps address payload s) s :=
  have mem := mem_transmitLines
  (assertLine_stays s rfl (mem _)).andThen fun _ t1 h1 =>
  ((deassertLine_stays t1 rfl (mem _)).after h1).andThen fun _ t2 h2 =>
  ((assertLine_stays t2 rfl (mem _)).after h2).andThen fun _ t3 h3 =>
  ((delay_stays .settle t3 rfl).after h3).andThen fun _ t4 h4 =>
  (((Stays.of_touched (writeTransmitPayload_touched payload t4 (mem _)) (mem _)).inside rfl).after
    h4).andThen fun _ t5 h5 =>
  (((Stays.of_touched (writeTransmitAddress_touched address t5 (mem _)) (mem _)).inside rfl).after
    h5).andThen fun _ t6 h6 =>
  ((assertLine_stays t6 rfl (mem _)).after h6).andThen fun _ t7 h7 =>
  ((delay_stays .settle t7 rfl).after h7).andThen fun _ t8 h8 =>
  ((deassertLine_stays t8 rfl (mem _)).after h8).andThen fun _ _ h9 => .ok h9

theorem transmitClose_stays (s : State) : Stays transmitLines (transmitClose s) s :=
  have mem := mem_transmitLines
  (deassertLine_stays s rfl (mem _)).andThen fun _ t1 h1 =>
  ((assertLine_stays t1 rfl (mem _)).after h1).andThen fun _ _ h2 => .ok h2

/-- sendPacket, from `s` on, has returned at `t`, or waits there after `polls` polls. -/
inductive TransmitEnds (polls : Nat) (s : State) : State → Prop where
  | returned {u : State} (reply : Reply) : Touched transmitLines s u →
      TransmitEnds polls s (u.ret reply)
  | waits {u : State} : Touched transmitLines s u →
      TransmitEnds polls s { u with seq := .txWait polls }

theorem TransmitEnds.after {polls : Nat} {s t u : State} (h : TransmitEnds polls t u)
    (k : Touched transmitLines s t) : TransmitEnds polls s u := by
  cases h with
  | returned reply h => exact .returned reply (k.trans h)
  | waits h => exact .waits (k.trans h)

theorem transmitFail_ends {polls : Nat} {s t : State} {path : StepPath}
    (h : Touched transmitLines s t) : TransmitEnds polls s (transmitFail path t) :=
  .returned _ (FailedAt.cleanup ⟨h, fun _ => mem_transmitLines _⟩ fun w _ => mem_transmitLines w.1)

/-- A poll touches no line. -/
theorem polled_touched (ls : List OutLine) (e : Event) (s : State) :
    Touched ls s (s.advance.emit e) := (Touched.advance ls s).trans (.emit ls e _)

/-- One poll of `TX.5` ends sendPacket or leaves it waiting (43_transmit_pipeline.md R200, R202,
R203). -/
theorem transmitWait_ends (polls : Nat) (s : State) :
    TransmitEnds (polls + 1) s (transmitWait polls s) := by
  rw [transmitWait]
  have hpoll (e : Event) := polled_touched transmitLines e s
  rcases waitHigh_cases .tx5 polls s with ⟨-, h⟩ | ⟨-, -, h⟩ | ⟨-, -, -, h⟩ | ⟨-, -, -, h⟩ <;>
    rw [h]
  · exact transmitFail_ends (hpoll _)
  · have hclose := (transmitClose_stays _).after (hpoll (.r .dr s.here.level))
    cases hr : transmitClose (s.advance.emit (.r .dr s.here.level)) with
    | ok a t =>
      simp only [hr]
      exact .returned _ (hclose.of_ok hr)
    | failed path t =>
      simp only [hr]
      exact transmitFail_ends (hclose.of_failed hr).touched
  · exact .returned _ ((hpoll _).trans (cleanupWrites_touched _ _ fun w _ => mem_transmitLines w.1))
  · exact .waits (hpoll _)

/-- sendPacket from `TX.1a` on (43_transmit_pipeline.md R200). -/
theorem transmitRun_ends (address payload : List Byte) (s : State) :
    TransmitEnds 1 s (transmitRun address payload s) := by
  have h := transmitSteps_stays address payload s
  rw [transmitRun]
  cases hr : transmitSteps address payload s with
  | ok a t => exact (transmitWait_ends 0 t).after (h.of_ok hr)
  | failed path t => exact transmitFail_ends (h.of_failed hr).touched

end Sys2Proof.Machine
end

section
/-! Proofs: the outcomes of an instruction on any access layer and in any state, and from them what it
writes (10_state.md R20 to R24, R38) and what it leaves alone before initialisation (R29). -/

namespace Sys2Proof.Machine

/-! ### What an instruction can do -/

/-- The lines an instruction writes, its cleanups included (10_state.md R21 to R24; 60_exceptions.md
R230). -/
def linesWritten (p : Params) : Instr → List OutLine
  | .wc _ _ | .rc | .wtp _ | .wta _ | .rrp | .readConfig => [.csn]
  | .init | .setAddress _ | .writeConfig _ _ => [.pwr, .csn]
  | .powerUp | .powerDown => [.pwr]
  | .startReceiveMode => [.txen, .pwr, .trig]
  | .stopReceiveMode => exitLines p
  | .sendPacket _ _ => transmitLines
  | .attachReceivedCallback _ | .detachReceivedCallback _ | .unassignedB | .unassignedCToF _ => []

/-- The block at `TX.0` with its operands latched (43_transmit_pipeline.md R200; 10_state.md R36). -/
def State.latched (a payload : List Byte) (s : State) : State :=
  { s with txaddr := some (a.take addrLen), txbuf := some payload }

/-- The micro-steps of an accepted host operation, its cleanup included, lead from `s` to a state that
has written these registers and none but these lines. -/
inductive Performed : Instr → State → State → Prop where
  | plain {i : Instr} {s t : State} : Touched (linesWritten s.params i) s t → Performed i s t
  | address {a cfg : List Byte} {s t : State} : Touched [.pwr, .csn] s t →
      cfg.length = t.cfg.length → Performed (.setAddress a) s { t with cfg := cfg }
  | config {k : Nat} {bytes cfg : List Byte} {s t : State} : Touched [.pwr, .csn] s t →
      cfg.length = t.cfg.length → Performed (.writeConfig k bytes) s { t with cfg := cfg }
  | inited {s t : State} : Touched [.pwr, .csn] s t →
      (s.params.valid = true → s.cfg.length = configLen → ConfigWritten t) →
      Performed .init s { t with inited := true }
  | armed {s t : State} : Touched [.txen, .pwr, .trig] s t →
      Performed .startReceiveMode s { t with watch := true }
  | disarmed {s u t : State} : Touched (exitLines s.params) s u →
      Touched (exitLines s.params) { u with watch := false, edgePend := false } t →
      Performed .stopReceiveMode s t
  | transmitted {a payload : List Byte} {s t : State} :
      Touched transmitLines (s.latched a payload) t → Performed (.sendPacket a payload) s t

/-- The registry request of an instruction. -/
inductive Requests : Instr → RegistryRequest → Prop where
  | attach (h : ConsumerId) : Requests (.attachReceivedCallback h) (.attach h)
  | detach (h : ConsumerId) : Requests (.detachReceivedCallback h) (.detach h)

/-- What an instruction can do (60_exceptions.md R228; 30_encoding.md R106). -/
inductive ExecOutcome (i : Instr) (s : State) : State → Prop where
  | held : s.busy = true → ExecOutcome i s (s.hold i)
  | refused (m : Malformed) : ExecOutcome i s (s.refuse m)
  | answered {u : State} (reply : Reply) : linesWritten s.params i = [.csn] → Touched [.csn] s u →
      ExecOutcome i s (u.reply reply)
  | requested {q : RegistryRequest} : Requests i q → ExecOutcome i s ((s.request q).reply .ok)
  | returned {u : State} (reply : Reply) : s.busy = false → Performed i s.begin u →
      ExecOutcome i s (u.ret reply)
  | waits {a payload : List Byte} {u : State} : i = .sendPacket a payload → s.busy = false →
      Touched transmitLines (s.begin.latched a payload) u →
      ExecOutcome i s { u with seq := .txWait 1 }

section
variable {α : Type} {i : Instr} {s t : State} {check : Except Malformed α}

theorem framerCall_outcome {body : α → State → Res Reply} (h : framerCall check body s = .next t)
    (hl : linesWritten s.params i = [.csn]) (hb : ∀ a, Touched [.csn] s (body a s).state) :
    ExecOutcome i s t := by
  rcases framerCall_cases check body s with ⟨m, -, hr⟩ | ⟨a, reply, u, -, hu, hr⟩ |
    ⟨a, path, u, -, hu, hr⟩ <;> rw [hr] at h <;> cases h
  · exact .refused m
  · have := hb a
    rw [hu] at this
    exact .answered reply hl this
  · have := hb a
    rw [hu] at this
    exact .answered _ hl (this.trans (cleanup_touched path [] u (by simp) (by simp)))

theorem acceptThen_outcome {body : α → State → Host.Outcome State Fault Refusal}
    (h : acceptThen i check body s = .next t)
    (hb : ∀ a, check = .ok a → s.busy = false → body a s.begin = .next t → ExecOutcome i s t) :
    ExecOutcome i s t := by
  rcases acceptThen_cases i check body s with ⟨hbusy, hr⟩ | ⟨-, m, -, hr⟩ | ⟨hbusy, a, ha, hr⟩ <;>
    rw [hr] at h
  · cases h
    exact .held hbusy
  · cases h
    exact .refused m
  · exact hb a ha hbusy h

/-- An operation that returns where its sequence ends. -/
theorem accept_conclude_outcome {closing : StepPath → List (OutLine × Level)}
    {steps : α → State → Res Reply} {F : StepPath → State → Prop}
    (h : accept i check (fun a s => conclude closing (steps a s)) s = .next t)
    (hs : ∀ a, (steps a s.begin).Sat (fun _ => Performed i s.begin) F)
    (hf : ∀ path u, F path u → Performed i s.begin (cleanup path (closing path) u)) :
    ExecOutcome i s t := by
  refine acceptThen_outcome h fun a _ hbusy hr => ?_
  obtain ⟨reply, u, hu, hc⟩ := conclude_of_sat (hs a) hf
  obtain rfl : u.ret reply = t := hc ▸ Host.Outcome.next.inj hr
  exact .returned reply hbusy hu

end

theorem execWc_outcome {k : Nibble} {data : List Byte} {s t : State}
    (h : execWc k data s = .next t) : ExecOutcome (.wc k data) s t :=
  framerCall_outcome h rfl fun _ => Res.touched_andThen
    (by simpa using writeConfigFrame_touched k.toNat data s (by simp)) fun _ t _ => .refl _ t

theorem execRc_outcome {s t : State} (h : execRc s = .next t) : ExecOutcome .rc s t := by
  rw [execRc] at h
  split at h
  · exact framerCall_outcome h rfl fun _ => readConfigSteps_touched s (by simp)
  · cases h

theorem execWtp_outcome {payload : List Byte} {s t : State} (h : execWtp payload s = .next t) :
    ExecOutcome (.wtp payload) s t :=
  framerCall_outcome h rfl fun _ => Res.touched_andThen
    (writeTransmitPayload_touched payload s (by simp)) fun _ t _ => .refl _ t

theorem execWta_outcome {address : List Byte} {s t : State} (h : execWta address s = .next t) :
    ExecOutcome (.wta address) s t :=
  framerCall_outcome h rfl fun a4 => Res.touched_andThen
    (writeTransmitAddress_touched a4 s (by simp)) fun _ t _ => .refl _ t

theorem execRrp_outcome {s t : State} (h : execRrp s = .next t) : ExecOutcome .rrp s t :=
  framerCall_outcome h rfl fun _ => Res.touched_andThen
    (readReceivedPayload_touched s (by simp)) fun _ t _ => .refl _ t

/-- A failed sequence of an operation is cleaned up within the operation's lines. -/
theorem FailedAt.performed {i : Instr} {ls : List OutLine} {s t : State} {path : StepPath}
    {closing : List (OutLine × Level)} (h : FailedAt ls s path t)
    (hl : linesWritten s.params i = ls) (hc : ∀ w ∈ closing, w.1 ∈ ls) :
    Performed i s (Machine.cleanup path closing t) :=
  .plain (hl ▸ h.cleanup hc)

theorem execWriteConfig_outcome {k : Nat} {bytes : List Byte} {s t : State}
    (h : execWriteConfig k bytes s = .next t) : ExecOutcome (.writeConfig k bytes) s t :=
  accept_conclude_outcome h
    (fun _ => (writeConfigSteps_sat k bytes s.begin).andThen fun _ _ ⟨_, hu, ht⟩ =>
      .ok (ht ▸ .config hu (mirrorWrite_length _ _ _)))
    fun _ _ hf => hf.performed rfl (by simp [closePower])

theorem execSetAddress_outcome {a : List Byte} {s t : State}
    (h : execSetAddress a s = .next t) : ExecOutcome (.setAddress a) s t := by
  refine accept_conclude_outcome h (F := FailedAt [.pwr, .csn] s.begin) (fun a4 => ?_)
    fun _ _ hf => hf.performed rfl (by simp [closePower])
  rw [setAddressSteps]
  split
  · exact ((writeConfigSteps_sat addrOffset a4 s.begin).inside rfl).andThen fun _ _ ⟨_, hu, ht⟩ =>
      .ok (ht ▸ .address hu (mirrorWrite_length _ _ _))
  · exact .ok (.address (.refl _ _) (mirrorWrite_length _ _ _))

theorem execReadConfig_outcome {s t : State} (h : execReadConfig s = .next t) :
    ExecOutcome .readConfig s t := by
  refine acceptThen_outcome h fun _ _ hbusy hr => ?_
  split at hr
  · have hs : Stays [.csn] (readConfigSteps s.begin) s.begin :=
      .of_touched (readConfigSteps_touched s.begin (by simp)) (by simp)
    obtain ⟨reply, u, hu, hc⟩ := conclude_of_sat (closing := noClosing)
      (hs.mono (fun _ _ => .plain (i := .readConfig)) fun _ _ => id)
      fun _ _ hf => hf.performed rfl (by simp [noClosing])
    obtain rfl : u.ret reply = t := hc ▸ Host.Outcome.next.inj hr
    exact .returned reply hbusy hu
  · cases hr

theorem mem_initClosing {path : StepPath} {w : OutLine × Level} (h : w ∈ initClosing path) :
    w.1 = .pwr := by
  unfold initClosing at h
  split at h
  · rw [List.mem_singleton.mp h]
  · cases h

theorem execInit_outcome {s t : State} (h : execInit s = .next t) : ExecOutcome .init s t :=
  accept_conclude_outcome h
    (fun _ => (initSteps_sat s.begin).andThen fun _ _ ⟨_, hu, hw, ht⟩ => .ok (ht ▸ .inited hu hw))
    fun _ _ hf => hf.performed rfl fun w hw => by simp [mem_initClosing hw]

theorem execPowerUp_outcome {s t : State} (h : execPowerUp s = .next t) :
    ExecOutcome .powerUp s t :=
  accept_conclude_outcome h
    (fun _ => (powerUpSteps_stays s.begin (ls := [.pwr]) (by simp)).andThen fun _ _ ht =>
      .ok (.plain ht))
    fun _ _ hf => hf.performed rfl (by simp [noClosing])

theorem execPowerDown_outcome {s t : State} (h : execPowerDown s = .next t) :
    ExecOutcome .powerDown s t :=
  accept_conclude_outcome h
    (fun _ => (deassertLine_stays (ls := [.pwr]) s.begin rfl (by simp)).andThen fun _ _ ht =>
      .ok (.plain ht))
    fun _ _ hf => hf.performed rfl (by simp [noClosing])

theorem execStartReceiveMode_outcome {s t : State} (h : execStartReceiveMode s = .next t) :
    ExecOutcome .startReceiveMode s t :=
  accept_conclude_outcome h
    (fun _ => (enterReceiveSteps_sat s.begin).andThen fun _ _ ⟨_, hu, ht⟩ => .ok (ht ▸ .armed hu))
    fun _ _ hf => hf.performed rfl (by simp [noClosing])

theorem execStopReceiveMode_outcome {s t : State} (h : execStopReceiveMode s = .next t) :
    ExecOutcome .stopReceiveMode s t :=
  accept_conclude_outcome h
    (fun _ => (exitReceiveSteps_sat s.begin).andThen fun _ _ ⟨_, hu, ht⟩ => .ok (.disarmed hu ht))
    fun _ _ hf => hf.elim (·.performed rfl (by simp [noClosing])) fun ⟨_, hu, hf⟩ =>
      .disarmed hu (hf.cleanup (by simp [noClosing]))

/-- `NormAddr` answers the first four bytes (30_encoding.md R105). -/
theorem normAddr_ok {a a4 : List Byte} (h : normAddr a = .ok a4) :
    a4 = a.take addrLen ∧ a4.length = addrLen := by
  rw [normAddr] at h
  split at h
  · cases h
  · cases h
    exact ⟨rfl, by rw [List.length_take]; omega⟩

/-- The address sendPacket latches is normalised, the payload fits (43_transmit_pipeline.md R201). -/
theorem checkSendPacket_ok {a payload a4 : List Byte} {s : State}
    (h : checkSendPacket a payload s = .ok a4) :
    a4 = a.take addrLen ∧ a4.length = addrLen ∧ payload.length ≤ s.params.txPayloadMax := by
  rw [checkSendPacket] at h
  split at h
  · cases h
  · split at h
    · cases h
    · rename_i ha
      rw [checkPayload, payloadFits] at h
      split at h
      · cases h
      · rename_i hp
        split at hp
        · cases h
          obtain ⟨htake, hlen⟩ := normAddr_ok ha
          exact ⟨htake, hlen, of_decide_eq_true ‹_›⟩
        · cases hp

theorem execSendPacket_outcome {a payload : List Byte} {s t : State}
    (h : execSendPacket a payload s = .next t) : ExecOutcome (.sendPacket a payload) s t := by
  refine acceptThen_outcome h fun a4 ha hbusy hr => ?_
  obtain ⟨rfl, -, -⟩ := checkSendPacket_ok ha
  obtain rfl : transmitRun (a.take addrLen) payload (s.begin.latched a payload) = t :=
    Host.Outcome.next.inj hr
  have hends := transmitRun_ends (a.take addrLen) payload (s.begin.latched a payload)
  generalize transmitRun (a.take addrLen) payload (s.begin.latched a payload) = t at hends ⊢
  cases hends with
  | returned reply hu => exact .returned reply hbusy (.transmitted hu)
  | waits hu => exact .waits rfl hbusy hu

theorem registryOperation_outcome {i : Instr} {q : RegistryRequest} {s t : State}
    (h : registryOperation i q s = .next t) (hq : Requests i q) : ExecOutcome i s t := by
  rw [registryOperation] at h
  split at h
  · rename_i hb
    cases h
    exact .held (Bool.and_eq_true_iff.mp hb).1
  · cases h
    exact .requested hq

theorem unknownCommand_outcome {i : Instr} {s t : State} (h : unknownCommand i s = .next t) :
    ExecOutcome i s t := by
  rw [unknownCommand] at h
  split at h <;> cases h
  · exact .held ‹_›
  · exact .refused _

/-- The one inversion lemma of `exec`. -/
theorem exec_outcome {i : Instr} {s t : State} (h : exec i s = .next t) : ExecOutcome i s t := by
  cases i with
  | wc k data => exact execWc_outcome h
  | rc => exact execRc_outcome h
  | wtp payload => exact execWtp_outcome h
  | wta address => exact execWta_outcome h
  | rrp => exact execRrp_outcome h
  | init => exact execInit_outcome h
  | setAddress address => exact execSetAddress_outcome h
  | writeConfig offset bytes => exact execWriteConfig_outcome h
  | readConfig => exact execReadConfig_outcome h
  | powerUp => exact execPowerUp_outcome h
  | powerDown => exact execPowerDown_outcome h
  | startReceiveMode => exact execStartReceiveMode_outcome h
  | stopReceiveMode => exact execStopReceiveMode_outcome h
  | sendPacket address payload => exact execSendPacket_outcome h
  | attachReceivedCallback handler => exact registryOperation_outcome h (.attach handler)
  | detachReceivedCallback handler => exact registryOperation_outcome h (.detach handler)
  | unassignedB => exact unknownCommand_outcome h
  | unassignedCToF x => exact unknownCommand_outcome h

end Sys2Proof.Machine
end

section
/-! Proofs: from the outcomes of an instruction, what it writes (10_state.md R20 to R24, R38), and what
no command touches before initialisation (R29). -/

namespace Sys2Proof.Machine

/-! ### Holding and requesting -/

/-- A held command goes to the port, if that is free, and nothing else happens. -/
theorem State.hold_eq (i : Instr) (s : State) :
    ∃ port, s.hold i = { s with port := port } ∧ (s.port ≠ none → port = s.port) := by
  rw [State.hold]
  split
  · refine ⟨_, rfl, fun h => ?_⟩
    obtain ⟨c, hc⟩ := Option.ne_none_iff_exists'.mp h
    rw [hc]
    rfl
  · exact ⟨s.port, rfl, fun _ => rfl⟩

/-- A request changes the registry, or in a dispatch the deferred requests, and nothing else. -/
theorem State.request_cases (q : RegistryRequest) (s : State) :
    (s.dispatching = true ∧ s.request q = { s with deferq := s.deferq ++ [q] }) ∨
      (s.dispatching = false ∧ s.request q = { s with reg := registryAfter s.reg q }) := by
  cases h : s.dispatching with
  | true => exact .inl ⟨rfl, by simp [State.request, h]⟩
  | false => exact .inr ⟨rfl, by simp [State.request, h]⟩

theorem Requests.registry {i : Instr} {q : RegistryRequest} (h : Requests i q) :
    ∃ h, i = .attachReceivedCallback h ∨ i = .detachReceivedCallback h := by
  cases h with
  | attach h => exact ⟨h, .inl rfl⟩
  | detach h => exact ⟨h, .inr rfl⟩

/-! ### What an instruction writes -/

/-- From `s` to `t` only what 10_state.md R20 lists for the instruction was written: lines, mirror,
flags and registry. -/
structure ListedWrites (i : Instr) (s t : State) : Prop where
  params : t.params = s.params
  lines : ∀ l, l ∉ linesWritten s.params i → t.lines.level l = s.lines.level l
  cfg : t.cfg = s.cfg ∨ (∃ a, i = .setAddress a) ∨ ∃ k b, i = .writeConfig k b
  inited : t.inited = s.inited ∨ i = .init ∧ t.inited = true
  watch : t.watch = s.watch ∨ i = .startReceiveMode ∨ i = .stopReceiveMode
  edgeKept : s.edgePend = true → t.edgePend = true ∨ i = .stopReceiveMode
  edgeWatched : t.edgePend = true → s.edgePend = true ∨ s.watch = true
  reg : t.reg = s.reg ∨ ∃ q, Requests i q
  dispatching : t.dispatching = s.dispatching
  deferq : t.deferq = s.deferq ∨ s.dispatching = true ∧ ∃ q, Requests i q
  framer : t.framer = s.framer
  host : t.host = s.host

theorem Touched.listedWrites {ls : List OutLine} {i : Instr} {s t : State} (h : Touched ls s t)
    (hl : linesWritten s.params i = ls) : ListedWrites i s t where
  params := h.same.params
  lines := fun l hm => h.lines l (hl ▸ hm)
  cfg := .inl h.same.cfg
  inited := .inl h.same.inited
  watch := .inl h.same.watch
  edgeKept := fun e => .inl (h.same.edgeKept e)
  edgeWatched := h.same.edgeWatched
  reg := .inl h.same.reg
  dispatching := h.same.dispatching
  deferq := .inl h.same.deferq
  framer := h.same.framer
  host := h.same.host

theorem ListedWrites.refl (i : Instr) (s : State) : ListedWrites i s s :=
  (Touched.refl _ s).listedWrites rfl

theorem Performed.listedWrites {i : Instr} {s t : State} (h : Performed i s t) :
    ListedWrites i s t := by
  cases h with
  | plain h => exact h.listedWrites rfl
  | address h _ => exact { h.listedWrites rfl with cfg := .inr (.inl ⟨_, rfl⟩) }
  | config h _ => exact { h.listedWrites rfl with cfg := .inr (.inr ⟨_, _, rfl⟩) }
  | inited h _ => exact { h.listedWrites rfl with inited := .inr ⟨rfl, rfl⟩ }
  | armed h => exact { h.listedWrites rfl with watch := .inr (.inl rfl) }
  | disarmed h k =>
    have hu : ListedWrites .stopReceiveMode s _ := h.listedWrites rfl
    exact
      { params := k.same.params.trans hu.params
        lines := fun l hl => (k.lines l hl).trans (h.lines l hl)
        cfg := .inl (k.same.cfg.trans h.same.cfg)
        inited := .inl (k.same.inited.trans h.same.inited)
        watch := .inr (.inr rfl)
        edgeKept := fun _ => .inr rfl
        edgeWatched := fun e => (k.same.edgeWatched e).elim Bool.noConfusion Bool.noConfusion
        reg := .inl (k.same.reg.trans h.same.reg)
        dispatching := k.same.dispatching.trans h.same.dispatching
        deferq := .inl (k.same.deferq.trans h.same.deferq)
        framer := k.same.framer.trans h.same.framer
        host := k.same.host.trans h.same.host }
  | transmitted h => exact { h.listedWrites (i := .sendPacket _ _) rfl with }

theorem Performed.port {i : Instr} {s t : State} (h : Performed i s t) : t.port = s.port := by
  cases h with
  | plain h => exact h.same.port
  | address h _ => exact h.same.port
  | config h _ => exact h.same.port
  | inited h _ => exact h.same.port
  | armed h => exact h.same.port
  | disarmed h k => exact k.same.port.trans h.same.port
  | transmitted h => exact h.same.port

theorem State.request_listedWrites {i : Instr} {q : RegistryRequest} (s : State)
    (h : Requests i q) : ListedWrites i s (s.request q) := by
  rcases s.request_cases q with ⟨hd, hr⟩ | ⟨-, hr⟩ <;> rw [hr]
  · exact { ListedWrites.refl i s with deferq := .inr ⟨hd, q, h⟩ }
  · exact { ListedWrites.refl i s with reg := .inr ⟨q, h⟩ }

theorem ExecOutcome.listedWrites {i : Instr} {s t : State} (h : ExecOutcome i s t) :
    ListedWrites i s t := by
  cases h with
  | held _ =>
    obtain ⟨port, hp, -⟩ := s.hold_eq i
    exact hp ▸ { ListedWrites.refl i s with }
  | refused m => exact { ListedWrites.refl i s with }
  | answered reply hl hu => exact { hu.listedWrites hl with }
  | requested hq => exact { s.request_listedWrites hq with }
  | returned reply _ hu => exact { hu.listedWrites with }
  | waits hi _ hu =>
    subst hi
    exact { hu.listedWrites (i := .sendPacket _ _) rfl with }

/-- An instruction leaves the block where it stood, or idle, or waiting in sendPacket
(10_state.md R32, R33, R36). -/
theorem ExecOutcome.position {i : Instr} {s t : State} (h : ExecOutcome i s t) :
    (t.busy = s.busy ∧ t.seq = s.seq ∧ t.rxbuf = s.rxbuf ∧ t.txbuf = s.txbuf ∧
        t.txaddr = s.txaddr) ∨
      (s.busy = false ∧ t.busy = false ∧ t.seq = .idle ∧ t.rxbuf = none ∧ t.txbuf = none ∧
        t.txaddr = none) ∨
      ∃ a p, i = .sendPacket a p ∧ t.busy = true ∧ t.seq = .txWait 1 ∧ t.rxbuf = s.rxbuf ∧
        t.txbuf = some p ∧ t.txaddr = some (a.take addrLen) := by
  cases h with
  | held _ =>
    obtain ⟨port, hp, -⟩ := s.hold_eq i
    exact .inl (hp ▸ ⟨rfl, rfl, rfl, rfl, rfl⟩)
  | refused m => exact .inl ⟨rfl, rfl, rfl, rfl, rfl⟩
  | answered reply _ hu =>
    exact .inl ⟨hu.same.busy, hu.same.seq, hu.same.rxbuf, hu.same.txbuf, hu.same.txaddr⟩
  | requested _ =>
    refine .inl ?_
    rcases s.request_cases _ with ⟨-, hr⟩ | ⟨-, hr⟩ <;> rw [hr] <;>
      exact ⟨rfl, rfl, rfl, rfl, rfl⟩
  | returned reply hb _ => exact .inr (.inl ⟨hb, rfl, rfl, rfl, rfl, rfl⟩)
  | waits hi _ hu =>
    exact .inr (.inr ⟨_, _, hi, hu.same.busy, rfl, hu.same.rxbuf, hu.same.txbuf, hu.same.txaddr⟩)

/-- An instruction puts a command at the port only where it is held and the port is free. -/
theorem ExecOutcome.port {i : Instr} {s t : State} (h : ExecOutcome i s t) :
    t.port = s.port ∨ s.busy = true ∧ s.port = none := by
  cases h with
  | held hb =>
    obtain ⟨port, hp, hfree⟩ := s.hold_eq i
    rw [hp]
    by_cases hnone : s.port = none
    · exact .inr ⟨hb, hnone⟩
    · exact .inl (hfree hnone)
  | refused m => exact .inl rfl
  | answered reply _ hu => exact .inl hu.same.port
  | requested _ =>
    refine .inl ?_
    rcases s.request_cases _ with ⟨-, hr⟩ | ⟨-, hr⟩ <;> rw [hr] <;> rfl
  | returned reply _ hu => exact .inl hu.port
  | waits _ _ hu => exact .inl hu.same.port

/-! ### The instructions that write a line -/

theorem pwr_written {p : Params} {i : Instr} (h : OutLine.pwr ∈ linesWritten p i) :
    i = .init ∨ (∃ a, i = .setAddress a) ∨ (∃ k b, i = .writeConfig k b) ∨ i = .powerUp ∨
      i = .powerDown ∨ i = .startReceiveMode ∨ ∃ a p, i = .sendPacket a p := by
  cases i <;> simp_all [linesWritten, exitLines]

theorem txen_written {p : Params} {i : Instr} (h : OutLine.txen ∈ linesWritten p i) :
    i = .startReceiveMode ∨ ∃ a p, i = .sendPacket a p := by
  cases i <;> simp_all [linesWritten, exitLines]

theorem trig_written {p : Params} {i : Instr} (h : OutLine.trig ∈ linesWritten p i) :
    i = .startReceiveMode ∨ (i = .stopReceiveMode ∧ p.exitRxToStandby = true) ∨
      ∃ a p, i = .sendPacket a p := by
  cases i <;> simp_all [linesWritten, exitLines]

theorem csn_written {p : Params} {i : Instr} (h : OutLine.csn ∈ linesWritten p i) :
    i ≠ .powerUp ∧ i ≠ .powerDown ∧ i ≠ .startReceiveMode ∧ i ≠ .stopReceiveMode ∧
      (∀ h, i ≠ .attachReceivedCallback h) ∧ (∀ h, i ≠ .detachReceivedCallback h) ∧
      i ≠ .unassignedB ∧ ∀ x, i ≠ .unassignedCToF x := by
  cases i <;> simp_all [linesWritten, exitLines]

theorem ListedWrites.written {i : Instr} {s t : State} (h : ListedWrites i s t) {l : OutLine}
    (hne : t.lines.level l ≠ s.lines.level l) : l ∈ linesWritten s.params i :=
  by_contra fun hl => hne (h.lines l hl)

/-- Settles O51, clause by clause from the outcomes of an instruction (`exec_outcome`). -/
theorem onlyTheListedOperationsWrite : Obligations.OnlyTheListedOperationsWrite := by
  intro i s t h
  have ho := exec_outcome h
  have hw := ho.listedWrites
  have hpos := ho.position
  refine ⟨hw.cfg.resolve_left, fun hne => (hw.inited.resolve_left hne).1, hw.watch.resolve_left,
    fun hne => (hw.reg.resolve_left hne).elim fun _ => Requests.registry,
    fun hne => pwr_written (hw.written (l := .pwr) hne),
    fun hne => txen_written (hw.written (l := .txen) hne),
    fun hne => trig_written (hw.written (l := .trig) hne),
    fun hne => csn_written (hw.written (l := .csn) hne),
    fun hi => hw.inited.elim (·.trans hi) And.right, hw.params, hw.dispatching,
    fun he ht => (hw.edgeKept he).resolve_left (by simp [ht]),
    fun he ht => (hw.edgeWatched ht).resolve_left (by simp [he]),
    fun hne => (hw.deferq.resolve_left hne).imp_right fun ⟨_, hq⟩ => hq.registry,
    ?rxbuf, ?txbuf, ?txaddr, ?busy, ?seq, ho.port.resolve_left, hw.framer, hw.host⟩
  case rxbuf =>
    rcases hpos with ⟨-, -, hr, -⟩ | ⟨-, -, -, hr, -⟩ | ⟨_, _, -, -, -, hr, -⟩
    · exact .inl hr
    · exact .inr hr
    · exact .inl hr
  case txbuf =>
    rcases hpos with ⟨-, -, -, hb, -⟩ | ⟨-, -, -, -, hb, -⟩ | ⟨a, p, hi, -, -, -, hb, -⟩
    · exact .inl hb
    · exact .inr (.inl hb)
    · exact .inr (.inr ⟨a, p, hi, hb⟩)
  case txaddr =>
    rcases hpos with ⟨-, -, -, -, ha⟩ | ⟨-, -, -, -, -, ha⟩ | ⟨a, p, hi, -, -, -, -, ha⟩
    · exact .inl ha
    · exact .inr (.inl ha)
    · exact .inr (.inr ⟨a, p, hi, ha⟩)
  case busy =>
    intro hne
    rcases hpos with ⟨hb, -⟩ | ⟨hs, ht, -⟩ | ⟨a, p, hi, hb, -⟩
    · exact absurd hb hne
    · exact absurd (ht.trans hs.symm) hne
    · exact ⟨hb, a, p, hi⟩
  case seq =>
    rcases hpos with ⟨-, hq, -⟩ | ⟨-, -, hq, -⟩ | ⟨a, p, hi, -, hq, -⟩
    · exact .inl hq
    · exact .inr (.inl hq)
    · exact .inr (.inr ⟨hq, a, p, hi⟩)

/-! ### Before initialisation -/

/-- From `s` to `t` nothing was sent, no line moved, the chip saw nothing, and the block neither became
initialised nor armed its watch. -/
structure Silent (s t : State) : Prop where
  trace : t.trace = s.trace
  lines : t.lines = s.lines
  chip : t.chip = s.chip
  inited : t.inited = s.inited
  watch : t.watch = s.watch

theorem Silent.refl (s : State) : Silent s s := ⟨rfl, rfl, rfl, rfl, rfl⟩

theorem State.hold_silent (i : Instr) (s : State) : Silent s (s.hold i) := by
  obtain ⟨port, hp, -⟩ := s.hold_eq i
  exact hp ▸ { Silent.refl s with }

theorem State.request_silent (q : RegistryRequest) (s : State) : Silent s (s.request q) := by
  rcases s.request_cases q with ⟨-, hr⟩ | ⟨-, hr⟩ <;> rw [hr] <;> exact { Silent.refl s with }

/-- An operation whose check fails is held or refused. -/
theorem acceptThen_silent {α : Type} {i : Instr} {check : Except Malformed α} {m : Malformed}
    {body : α → State → Host.Outcome State Fault Refusal} {s t : State}
    (h : acceptThen i check body s = .next t) (hc : check = .error m) : Silent s t := by
  rcases acceptThen_cases i check body s with ⟨-, hr⟩ | ⟨-, m', -, hr⟩ | ⟨-, a, ha, -⟩
  · cases hr.symm.trans h
    exact s.hold_silent i
  · cases hr.symm.trans h
    exact { Silent.refl s with }
  · rw [hc] at ha
    cases ha

theorem registryOperation_silent {i : Instr} {q : RegistryRequest} {s t : State}
    (h : registryOperation i q s = .next t) : Silent s t := by
  rw [registryOperation] at h
  split at h <;> cases h
  · exact s.hold_silent i
  · exact { s.request_silent q with }

theorem unknownCommand_silent {i : Instr} {s t : State} (h : unknownCommand i s = .next t) :
    Silent s t := by
  rw [unknownCommand] at h
  split at h <;> cases h
  · exact s.hold_silent i
  · exact { Silent.refl s with }

theorem accept_silent {α : Type} {i : Instr} {check : Except Malformed α} {m : Malformed}
    {body : α → State → State} {s t : State} (h : accept i check body s = .next t)
    (hc : check = .error m) : Silent s t := acceptThen_silent h hc

/-- Step `SA.1` alone (40_command_framer.md R125). -/
theorem setAddressSteps_of_uninited {a4 : List Byte} {s : State} (h : s.inited = false) :
    setAddressSteps a4 s = .ok .ok { s with cfg := mirrorWrite s.cfg addrOffset a4 } :=
  if_neg (by simp [h])

/-- Before initialisation setAddress stores the address and does nothing else
(40_command_framer.md R125). -/
theorem execSetAddress_silent {a : List Byte} {s t : State} (hi : s.inited = false)
    (h : execSetAddress a s = .next t) : Silent s t := by
  rw [execSetAddress] at h
  rcases accept_cases (.setAddress a) (normAddr a)
    (fun a4 s => conclude (fun _ => closePower) (setAddressSteps a4 s)) s with
    ⟨-, hr⟩ | ⟨-, _, -, hr⟩ | ⟨-, _, -, hr⟩ <;> cases hr.symm.trans h
  · exact s.hold_silent _
  · exact { Silent.refl s with }
  · rw [setAddressSteps_of_uninited (s := s.begin) hi]
    exact { Silent.refl s with }

/-- Settles O52: every other command checks `INITED` first (30_encoding.md R106), but those of the
registry, which touch nothing, and the unassigned codes. -/
theorem nothingMovesBeforeInit : Obligations.NothingMovesBeforeInit := by
  intro c s t hi hinit h
  have hc : checkInited s = .error .notInitialised := by simp [checkInited, hi]
  suffices hs : Silent s t from ⟨hs.trace, hs.lines, hs.chip, hs.inited.trans hi, hs.watch⟩
  unfold decodeCommand at h hinit
  split at h
  case h_1 hcode => simp [hcode] at hinit
  case h_2 => exact execSetAddress_silent hi h
  case h_3 =>
    have hcheck : checkWriteConfig c.offset c.bytes s = .error .notInitialised := by
      simp only [checkWriteConfig, hc]
    exact accept_silent (show execWriteConfig _ _ s = _ from h) hcheck
  case h_4 => exact acceptThen_silent (show execReadConfig s = _ from h) hc
  case h_5 => exact accept_silent (show execPowerUp s = _ from h) hc
  case h_6 => exact accept_silent (show execPowerDown s = _ from h) hc
  case h_7 => exact accept_silent (show execStartReceiveMode s = _ from h) hc
  case h_8 => exact accept_silent (show execStopReceiveMode s = _ from h) hc
  case h_9 =>
    have hcheck : checkSendPacket c.address c.bytes s = .error .notInitialised := by
      simp only [checkSendPacket, hc]
    exact acceptThen_silent (show execSendPacket _ _ s = _ from h) hcheck
  case h_10 => exact registryOperation_silent h
  case h_11 => exact registryOperation_silent h
  case h_12 => exact unknownCommand_silent h
  case h_13 => exact unknownCommand_silent h

end Sys2Proof.Machine
end

section
/-! Proofs: every step keeps the invariant of the registers and flags (10_state.md R42 (d), (f), (g);
42_receive_pipeline.md R171). -/

namespace Sys2Proof.Machine

/-! ### The part of the invariant that does not depend on the sequencer -/

/-- `RegistersOk` without what it says of the sequencer's position. -/
structure CoreOk (s : State) : Prop where
  valid : s.params.valid = true
  cfgLength : s.cfg.length = configLen
  edgeWatched : s.edgePend = true → s.watch = true
  framerFree : s.framer = none
  chipWf : s.chip.wf = true
  configHeld : s.inited = true → ConfigWritten s

theorem RegistersOk.core {s : State} (h : RegistersOk s) : CoreOk s where
  valid := h.valid
  cfgLength := h.cfgLength
  edgeWatched := h.edgeWatched
  framerFree := h.framerFree
  chipWf := h.chipWf
  configHeld := h.configHeld

theorem CoreOk.registersOk {s : State} (h : CoreOk s) (hs : SeqOk s) : RegistersOk s where
  valid := h.valid
  cfgLength := h.cfgLength
  seqOk := hs
  edgeWatched := h.edgeWatched
  framerFree := h.framerFree
  chipWf := h.chipWf
  configHeld := h.configHeld

theorem CoreOk.touched {ls : List OutLine} {s t : State} (h : CoreOk s) (k : Touched ls s t) :
    CoreOk t where
  valid := k.same.params ▸ h.valid
  cfgLength := k.same.cfg ▸ h.cfgLength
  edgeWatched := fun e => k.same.watch ▸ (k.same.edgeWatched e).elim h.edgeWatched id
  framerFree := k.same.framer.trans h.framerFree
  chipWf := k.chipWf h.chipWf
  configHeld := fun hi j hj => k.configHeld j (h.configHeld (k.same.inited ▸ hi) j hj)

theorem CoreOk.begin {s : State} (h : CoreOk s) : CoreOk s.begin := { h with }

theorem CoreOk.latched {s : State} (h : CoreOk s) (a payload : List Byte) :
    CoreOk (s.latched a payload) := { h with }

theorem CoreOk.performed {i : Instr} {s t : State} (h : CoreOk s) (k : Performed i s t) :
    CoreOk t := by
  cases k with
  | plain k => exact h.touched k
  | address k hl => exact { h.touched k with cfgLength := hl.trans (h.touched k).cfgLength }
  | config k hl => exact { h.touched k with cfgLength := hl.trans (h.touched k).cfgLength }
  | inited k hw => exact { h.touched k with configHeld := fun _ => hw h.valid h.cfgLength }
  | armed k => exact { h.touched k with edgeWatched := fun _ => rfl }
  | disarmed k k' =>
    refine CoreOk.touched ?_ k'
    exact { h.touched k with edgeWatched := Bool.noConfusion }
  | transmitted k => exact (h.latched _ _).touched k

theorem CoreOk.request {s : State} (h : CoreOk s) (q : RegistryRequest) : CoreOk (s.request q) := by
  rcases s.request_cases q with ⟨-, hr⟩ | ⟨-, hr⟩ <;> rw [hr] <;> exact { h with }

theorem CoreOk.exec {i : Instr} {s t : State} (h : CoreOk s) (k : ExecOutcome i s t) :
    CoreOk t := by
  cases k with
  | held _ =>
    obtain ⟨port, hp, -⟩ := s.hold_eq i
    exact hp ▸ { h with }
  | refused m => exact { h with }
  | answered reply _ hu => exact { h.touched hu with }
  | requested _ => exact { h.request _ with }
  | returned reply _ hu => exact { h.begin.performed hu with }
  | waits _ _ hu => exact { (h.begin.latched _ _).touched hu with }

/-! ### Where the sequencer stands -/

/-- No dispatch runs and no request is deferred (10_state.md R42 (f)). -/
def NoDispatch (s : State) : Prop := s.dispatching = false ∧ s.deferq = []

theorem Idle.noDispatch {s : State} (h : Idle s) : NoDispatch s := ⟨h.dispatching, h.deferq⟩

theorem NoDispatch.touched {ls : List OutLine} {s t : State} (h : NoDispatch s)
    (k : Touched ls s t) : NoDispatch t :=
  ⟨k.same.dispatching.trans h.1, k.same.deferq.trans h.2⟩

theorem NoDispatch.listedWrites {i : Instr} {s t : State} (h : NoDispatch s)
    (k : ListedWrites i s t) : NoDispatch t := by
  obtain ⟨hd, hq⟩ := h
  refine ⟨k.dispatching.trans hd, (k.deferq.resolve_right ?_).trans hq⟩
  rintro ⟨hd', -⟩
  rw [hd] at hd'
  cases hd'

theorem NoDispatch.emit {s : State} (h : NoDispatch s) (e : Event) : NoDispatch (s.emit e) := h

theorem NoDispatch.reply {s : State} (h : NoDispatch s) (r : Reply) : NoDispatch (s.reply r) := h

/-- The end of an operation outside a dispatch leaves the block idle (60_exceptions.md R231). -/
theorem NoDispatch.finish_idle {s : State} (h : NoDispatch s) : Idle s.finish :=
  ⟨rfl, rfl, h.1, h.2, rfl, rfl, rfl⟩

theorem Idle.seqOk {s : State} (h : Idle s) : SeqOk s := by
  rw [SeqOk, h.seq]
  exact h

/-- What fits the sequencer's position depends on these registers; on the deferred requests only outside
a dispatch. -/
theorem SeqOk.congr {s t : State} (h : SeqOk s) (hseq : t.seq = s.seq) (hb : t.busy = s.busy)
    (hd : t.dispatching = s.dispatching) (hq : s.dispatching = false → t.deferq = s.deferq)
    (hr : t.rxbuf = s.rxbuf) (hx : t.txbuf = s.txbuf) (ha : t.txaddr = s.txaddr) : SeqOk t := by
  rw [SeqOk] at h ⊢
  rw [hseq]
  split at h
  · exact ⟨hb.trans h.busy, hseq.trans ‹_›, hd.trans h.dispatching,
      (hq h.dispatching).trans h.deferq, hr.trans h.rxbuf, hx.trans h.txbuf, ha.trans h.txaddr⟩
  · obtain ⟨hbusy, hdisp, hdefer, htx⟩ := h
    rw [hb, hd, hq hdisp, hx, ha]
    exact ⟨hbusy, hdisp, hdefer, htx⟩
  · obtain ⟨hbusy, hdisp, hdefer⟩ := h
    rw [hb, hd, hq hdisp]
    exact ⟨hbusy, hdisp, hdefer⟩
  · rw [hb, hd, hr]
    exact h
  · rw [hb, hd, hr]
    exact h

theorem RegistersOk.present {s : State} (h : RegistersOk s) : RegistersOk s.present := by
  obtain ⟨port, host, hp⟩ := s.present_eq
  exact hp ▸ CoreOk.registersOk { h.core with }
    (h.seqOk.congr rfl rfl rfl (fun _ => rfl) rfl rfl rfl)

/-- An idle position means an idle block. -/
theorem SeqOk.idle {s : State} (h : SeqOk s) (hb : s.busy = false) : Idle s := by
  rw [SeqOk] at h
  split at h
  · exact h
  all_goals
    obtain ⟨hbusy, -⟩ := h
    rw [hb] at hbusy
    cases hbusy

/-- The two positions in which a dispatch stands between two steps. -/
theorem SeqOk.of_dispatch {s : State} {p : List Byte} (hb : s.busy = true)
    (hd : s.dispatching = true) (hp : s.rxbuf = some p) (hl : p.length = rxPayloadLen)
    (hq : (∃ aborted, s.seq = .applying aborted) ∨
      ∃ snapshot i, s.seq = dispatchPosition snapshot i) : SeqOk s := by
  rcases hq with ⟨aborted, hq⟩ | ⟨snapshot, i, hq⟩
  · rw [SeqOk, hq]
    exact ⟨hb, hd, p, hp, hl⟩
  · rw [dispatchPosition] at hq
    split at hq <;> rw [SeqOk, hq]
    · exact ⟨hb, hd, ‹_›, p, hp, hl⟩
    · exact ⟨hb, hd, p, hp, hl⟩

/-- An instruction accepted by the idle block leaves it idle or waiting in sendPacket. -/
theorem ExecOutcome.seqOk {i : Instr} {s t : State} (h : ExecOutcome i s t) (hs : Idle s) :
    SeqOk t := by
  obtain ⟨hd, hq⟩ := hs.noDispatch.listedWrites h.listedWrites
  rcases h.position with ⟨hb, hseq, hr, hx, ha⟩ | ⟨-, hb, hseq, hr, hx, ha⟩ |
    ⟨_, _, -, hb, hseq, -, hx, ha⟩
  · exact Idle.seqOk ⟨hb.trans hs.busy, hseq.trans hs.seq, hd, hq, hr.trans hs.rxbuf,
      hx.trans hs.txbuf, ha.trans hs.txaddr⟩
  · exact Idle.seqOk ⟨hb, hseq, hd, hq, hr, hx, ha⟩
  · rw [SeqOk, hseq]
    exact ⟨hb, hd, hq, by simp [hx], by simp [ha]⟩

/-! ### The drain and the dispatch -/

/-- `RXBUF` takes a value (10_state.md R36). -/
def State.withRxbuf (b : Option (List Byte)) (s : State) : State := { s with rxbuf := b }

/-- Primitives neither read nor write `RXBUF`. -/
theorem Touched.withRxbuf {ls : List OutLine} {s t : State} (h : Touched ls s t)
    (b : Option (List Byte)) : Touched ls (s.withRxbuf b) (t.withRxbuf b) :=
  { h with same := { h.same with rxbuf := rfl } }

/-- The lines a drain writes (42_receive_pipeline.md R172, R179). -/
def drainLines : List OutLine := [.trig, .csn]

/-- Steps `RX.2` to `RX.4` write `RXBUF` and no other register; if they complete it holds a whole packet
(42_receive_pipeline.md R172). -/
theorem drainReadSteps_sat (s : State) :
    (drainReadSteps s).Sat
      (fun _ t => ∃ p, p.length = rxPayloadLen ∧ Touched drainLines (s.withRxbuf (some p)) t)
      (fun path t => ∃ b, FailedAt drainLines (s.withRxbuf b) path t) := by
  have htrig : OutLine.trig ∈ drainLines := by decide
  have hcsn : OutLine.csn ∈ drainLines := by decide
  have hdrop := deassertLine_stays (label := .rx2) s rfl htrig
  refine (hdrop.mono (fun _ _ => id) fun _ _ hf => ⟨s.rxbuf, hf⟩).andThen fun _ t1 h1 => ?_
  have hread := ((Stays.of_touched (readReceivedPayload_touched t1 hcsn) hcsn).inside
    (l := .rx3) rfl).after h1
  cases hr : (readReceivedPayload t1).inside .rx3 with
  | ok p t2 =>
    have hlisten := (assertLine_stays (label := .rx4) (t2.withRxbuf (some p)) rfl htrig).after
      ((hread.of_ok hr).withRxbuf (some p))
    exact (hlisten.mono (fun _ _ => id) fun _ _ hf => ⟨some p, hf⟩).andThen fun _ _ h3 =>
      .ok ⟨p, readReceivedPayload_ok (Res.inside_ok hr), h3⟩
  | failed path t2 => exact .failed ⟨s.rxbuf, hread.of_failed hr⟩

/-- A poll of the drain from `s` ends it, leaves it waiting after `polls` polls, or leads to the dispatch
of a packet; it writes no register but `RXBUF` (42_receive_pipeline.md R172, R179). -/
inductive DrainEnds (polls : Nat) (s : State) : State → Prop where
  | ended {u : State} (b : Option (List Byte)) (e : Cause) : Touched drainLines (s.withRxbuf b) u →
      DrainEnds polls s (drainError e u)
  | waits {u : State} : Touched drainLines s u → DrainEnds polls s { u with seq := .rxWait polls }
  | read {u : State} {p : List Byte} : p.length = rxPayloadLen →
      Touched drainLines (s.withRxbuf (some p)) u → DrainEnds polls s (dispatchStart u)

theorem drainWait_ends (polls : Nat) (s : State) :
    DrainEnds (polls + 1) s (drainWait polls s) := by
  rw [drainWait]
  have hpoll (e : Event) := polled_touched drainLines e s
  rcases waitHigh_cases .rx1 polls s with ⟨-, h⟩ | ⟨-, -, h⟩ | ⟨-, -, -, h⟩ | ⟨-, -, -, h⟩ <;>
    rw [h]
  · exact .ended s.rxbuf _ (hpoll _)
  · simp only [drainRead]
    have hread := drainReadSteps_sat (s.advance.emit (.r .dr s.here.level))
    cases hr : drainReadSteps (s.advance.emit (.r .dr s.here.level)) with
    | ok a t =>
      obtain ⟨p, hp, ht⟩ := hread.of_ok hr
      exact .read hp (((hpoll _).withRxbuf (some p)).trans ht)
    | failed path t =>
      obtain ⟨b, hf⟩ := hread.of_failed hr
      exact .ended b _ (((hpoll _).withRxbuf b).trans
        (hf.cleanup (by simp [closeTrigger, drainLines])))
  · exact .ended s.rxbuf _ (hpoll _)
  · exact .waits (hpoll _)

theorem CoreOk.withRxbuf {s : State} (h : CoreOk s) (b : Option (List Byte)) :
    CoreOk (s.withRxbuf b) := { h with }

theorem CoreOk.emit {s : State} (h : CoreOk s) (e : Event) : CoreOk (s.emit e) :=
  h.touched (.emit [] e s)

/-- A poll of the drain keeps the invariant. -/
theorem DrainEnds.registersOk {polls : Nat} {s t : State} (h : DrainEnds polls s t) (hc : CoreOk s)
    (hb : s.busy = true) (hn : NoDispatch s) : RegistersOk t := by
  cases h with
  | ended b e hu =>
    have hcu := ((hc.withRxbuf b).touched hu).emit (.f e)
    have hnu := NoDispatch.touched (s := s.withRxbuf b) hn hu
    exact CoreOk.registersOk { hcu with } (NoDispatch.emit hnu (.f e)).finish_idle.seqOk
  | waits hu =>
    have hnu := hn.touched hu
    exact CoreOk.registersOk { hc.touched hu with } ⟨hu.same.busy.trans hb, hnu⟩
  | read hp hu =>
    have hbuf := hu.same.rxbuf
    have hbusy := hu.same.busy.trans hb
    exact CoreOk.registersOk { (hc.withRxbuf _).touched hu with }
      (.of_dispatch hbusy rfl hbuf hp (.inr ⟨_, 0, rfl⟩))

/-- A poll of sendPacket keeps the invariant. -/
theorem TransmitEnds.registersOk {polls : Nat} {s t : State} (h : TransmitEnds polls s t)
    (hc : CoreOk s) (hb : s.busy = true) (hn : NoDispatch s) (hx : s.txbuf.isSome)
    (ha : s.txaddr.isSome) : RegistersOk t := by
  cases h with
  | returned reply hu =>
    exact CoreOk.registersOk { hc.touched hu with }
      ((hn.touched hu).reply reply).finish_idle.seqOk
  | waits hu =>
    obtain ⟨hd, hq⟩ := hn.touched hu
    exact CoreOk.registersOk { hc.touched hu with }
      ⟨hu.same.busy.trans hb, hd, hq, hu.same.txbuf ▸ hx, hu.same.txaddr ▸ ha⟩

/-! ### What a step can do -/

/-- What a step does, from the state `s` in which the host has presented its next command
(60_exceptions.md R228). -/
inductive Stepped (s : State) : State → Prop where
  | quiet : Idle s → Stepped s s.advance
  | drain : Idle s → Stepped s (drainStart s.advance)
  | command {t : State} (c : PortCommand) : Idle s →
      exec (decodeCommand c) s.advance.takePort = .next t → Stepped s t
  | transmit {polls : Nat} : s.seq = .txWait polls → Stepped s (transmitWait polls s)
  | receive {polls : Nat} : s.seq = .rxWait polls → Stepped s (drainWait polls s)
  | requested (q : RegistryRequest) : s.dispatching = true →
      Stepped s ((s.takePort.request q).reply .ok)
  | delivered {snapshot : List ConsumerId} {i : Nat} {p : List Byte} (h : ConsumerId) (q : Seq) :
      s.seq = .delivering snapshot i → s.rxbuf = some p →
      q = .applying (some i) ∨ q = dispatchPosition snapshot (i + 1) →
      Stepped s { deliver h p s with seq := q }
  | dispatched {aborted : Option Nat} : s.seq = .applying aborted →
      Stepped s (dispatchEnd aborted s)

/-- The idle block starts a drain, accepts a command, or does nothing. -/
theorem arbitrate_stepped {s t : State} (hs : Idle s) (h : arbitrate s.advance = .next t) :
    Stepped s t := by
  rw [arbitrate] at h
  split at h
  · cases h
    exact .drain hs
  · split at h
    · cases h
      exact .quiet hs
    · exact .command _ hs h

/-- In a dispatch attach and detach are accepted and deferred (60_exceptions.md R228 (a)). -/
theorem exec_registryCommand {c : PortCommand} {s : State} (h : registryCommand c = true)
    (hd : s.dispatching = true) :
    ∃ q, exec (decodeCommand c) s = .next ((s.request q).reply .ok) := by
  rw [registryCommand] at h
  split at h
  case h_1 i handler hi =>
    exact ⟨.attach handler, by rw [hi]; exact if_neg (by simp [hd])⟩
  case h_2 i handler hi =>
    exact ⟨.detach handler, by rw [hi]; exact if_neg (by simp [hd])⟩
  case h_3 => cases h

/-- A dispatch goes on with a request at the port, or with its own next step. -/
theorem continueDispatch_stepped {next : State → Host.Outcome State Fault Refusal} {s t : State}
    (hd : s.dispatching = true) (h : continueDispatch next s = .next t)
    (hnext : next s = .next t → Stepped s t) : Stepped s t := by
  rw [continueDispatch] at h
  split at h
  · split at h
    · rename_i c _ hc
      obtain ⟨q, hq⟩ := exec_registryCommand (s := s.takePort) hc hd
      cases hq.symm.trans h
      exact .requested q hd
    · exact hnext h
  · exact hnext h

/-- A delivery leads to the next entry of the snapshot or to `DP.3`. -/
theorem dispatchStep_stepped {snapshot : List ConsumerId} {i : Nat} {s t : State}
    (hseq : s.seq = .delivering snapshot i) (hi : i < snapshot.length)
    (h : dispatchStep snapshot i s = .next t) : Stepped s t := by
  rw [dispatchStep, List.getElem?_eq_getElem hi] at h
  split at h
  · cases h
  · cases h
    refine .delivered _ _ hseq ‹_› ?_
    split
    · exact .inl rfl
    · exact .inr rfl

/-- The one inversion lemma of `step`, for a block that meets its invariant. -/
theorem step_stepped {s t : State} (hs : RegistersOk s) (h : step s = .next t) :
    Stepped s.present t := by
  have hq := hs.present.seqOk
  simp only [step, sequencerStep, hs.framerFree, runPresented] at h
  generalize s.present = s at *
  split at h
  · rename_i hb
    rw [continueOperation] at h
    rw [SeqOk] at hq
    split at h <;> rename_i hseq <;> simp only [hseq] at hq
    · rw [hq.busy] at hb
      cases hb
    · cases h
      exact .transmit hseq
    · cases h
      exact .receive hseq
    · obtain ⟨-, hd, hi, -⟩ := hq
      exact continueDispatch_stepped hd h (dispatchStep_stepped hseq hi)
    · obtain ⟨-, hd, -⟩ := hq
      refine continueDispatch_stepped hd h fun h => ?_
      cases h
      exact .dispatched hseq
  · rename_i hb
    exact arbitrate_stepped (hq.idle (by simpa using hb)) h

/-! ### Every step keeps the invariant -/

theorem Idle.touched {ls : List OutLine} {s t : State} (h : Idle s) (k : Touched ls s t) : Idle t :=
  ⟨k.same.busy.trans h.busy, k.same.seq.trans h.seq, k.same.dispatching.trans h.dispatching,
    k.same.deferq.trans h.deferq, k.same.rxbuf.trans h.rxbuf, k.same.txbuf.trans h.txbuf,
    k.same.txaddr.trans h.txaddr⟩

theorem CoreOk.dispatchEnd {s : State} (h : CoreOk s) (aborted : Option Nat) :
    CoreOk (dispatchEnd aborted s) := by
  have happly : CoreOk (applyDeferred s) := { h with }
  cases aborted with
  | none => exact { happly with }
  | some i => exact { happly.emit (.f (.handlerAbort i)) with }

/-- Settles O56, over what a step can do (`step_stepped`). -/
theorem stepKeepsInvariant : Obligations.StepKeepsInvariant := by
  intro s t hs h
  have hp := hs.present
  have hstep := step_stepped hs h
  generalize s.present = s at hp hstep
  have hc := hp.core
  have hq := hp.seqOk
  have hadv : CoreOk s.advance := hc.touched (.advance [] s)
  cases hstep with
  | quiet hi => exact hadv.registersOk (hi.touched (.advance [] s)).seqOk
  | drain hi =>
    refine (drainWait_ends 0 _).registersOk ?_ rfl (hi.touched (.advance [] s)).noDispatch
    exact { hadv with edgeWatched := Bool.noConfusion }
  | command c hi hx =>
    have ho := exec_outcome hx
    have hidle := hi.touched (.advance [] s)
    have htake : CoreOk s.advance.takePort := { hadv with }
    exact (htake.exec ho).registersOk (ho.seqOk { hidle with })
  | transmit hseq =>
    rw [SeqOk, hseq] at hq
    obtain ⟨hb, hd, hdq, hx, ha⟩ := hq
    exact (transmitWait_ends _ s).registersOk hc hb ⟨hd, hdq⟩ hx ha
  | receive hseq =>
    rw [SeqOk, hseq] at hq
    obtain ⟨hb, hn⟩ := hq
    exact (drainWait_ends _ s).registersOk hc hb hn
  | requested q hd =>
    have htake : CoreOk s.takePort := { hc with }
    refine CoreOk.registersOk { htake.request q with } ?_
    rcases s.takePort.request_cases q with ⟨-, hr⟩ | ⟨hd', -⟩
    · rw [hr]
      exact hq.congr rfl rfl rfl (fun hd' => by simp [hd] at hd') rfl rfl rfl
    · exact absurd (hd.symm.trans hd') Bool.noConfusion
  | delivered h' q hseq hbuf hpos =>
    rw [SeqOk, hseq] at hq
    obtain ⟨hb, hd, -, p, hp, hl⟩ := hq
    rw [deliver_eq _ _ hd]
    have hcore := hadv.emit (.v h' p)
    rw [hbuf] at hp
    cases hp
    refine CoreOk.registersOk { hcore with } (.of_dispatch hb hd hbuf hl ?_)
    rcases hpos with rfl | rfl
    · exact .inl ⟨_, rfl⟩
    · exact .inr ⟨_, _, rfl⟩
  | dispatched _ => exact (hc.dispatchEnd _).registersOk (dispatchEnd_ended _ s).idle.seqOk

end Sys2Proof.Machine
end

section
/-! Proofs: on an access layer that does not fail every step keeps the lines and the trace in order
(10_state.md R42 (a), (b), (c), (e), (h)). -/

namespace Sys2Proof.Machine

/-! ### Whole frames -/

/-- Events that start and end outside a frame and pass the trace checker. -/
def WholeFrames (p : Params) (evs : List Event) : Prop :=
  checkEvents p .outside evs = some .outside

theorem wellFramed_iff (s : State) : WellFramed s ↔ WholeFrames s.params s.trace := Iff.rfl

theorem WholeFrames.append {p : Params} {es fs : List Event} (h : WholeFrames p es)
    (k : WholeFrames p fs) : WholeFrames p (es ++ fs) := (checkEvents_append p fs h).trans k

/-- An event that the checker passes between frames. -/
theorem WholeFrames.cons {p : Params} {e : Event} {es : List Event}
    (h : checkOutside e = some .outside) (k : WholeFrames p es) : WholeFrames p (e :: es) :=
  WholeFrames.append (es := [e]) (by simp [WholeFrames, checkEvents, checkEvent, h]) k

/-- Between frames only asserting chip-select leaves the position outside. -/
theorem checkOutside_csn {pos' : FramePos} {e : Event} {ls : Lines}
    (h : checkOutside e = some pos') (hc : ls.csn = true) :
    (lineAfter ls e).csn = true ↔ pos' = .outside := by
  cases e with
  | w l v =>
    simp only [checkOutside] at h
    split at h
    · cases h
      cases l <;> simp_all [lineAfter, Lines.set]
    · split at h <;> cases h
      simp_all [lineAfter, Lines.set]
  | r l v =>
    simp only [checkOutside] at h
    split at h <;> cases h
    simp [lineAfter, hc]
  | d t =>
    simp only [checkOutside] at h
    split at h <;> cases h
    simp [lineAfter, hc]
  | v id payload =>
    cases h
    simp [lineAfter, hc]
  | f cause =>
    cases h
    simp [lineAfter, hc]
  | _ => cases h

/-- A frame that was opened goes on at its instruction byte. -/
theorem checkOpened_csn {p : Params} {pos' : FramePos} {e : Event} {ls : Lines}
    (h : checkOpened p e = some pos') (hc : ls.csn = false) :
    (lineAfter ls e).csn = true ↔ pos' = .outside := by
  cases e with
  | x o i =>
    obtain ⟨k, -, rfl⟩ := Option.map_eq_some_iff.mp h
    simp [lineAfter, hc]
  | _ => cases h

/-- A frame ends where chip-select is deasserted. -/
theorem checkInside_csn {p : Params} {k : FrameKind} {n : Nat} {due : Bool} {pos' : FramePos}
    {e : Event} {ls : Lines} (h : checkInside p k n due e = some pos') (hc : ls.csn = false) :
    (lineAfter ls e).csn = true ↔ pos' = .outside := by
  cases e with
  | w l v =>
    simp only [checkInside] at h
    split at h <;> cases h
    simp_all [lineAfter, Lines.set]
  | x o i =>
    simp only [checkInside] at h
    split at h <;> cases h
    simp [lineAfter, hc]
  | d t =>
    simp only [checkInside] at h
    split at h <;> cases h
    simp [lineAfter, hc]
  | _ => cases h

/-- Along a checked trace chip-select is released exactly outside frames. -/
theorem checkEvent_csn {p : Params} {pos pos' : FramePos} {e : Event} {ls : Lines}
    (h : checkEvent p pos e = some pos') (hc : ls.csn = true ↔ pos = .outside) :
    (lineAfter ls e).csn = true ↔ pos' = .outside := by
  cases pos with
  | outside => exact checkOutside_csn h (by simpa using hc)
  | opened => exact checkOpened_csn h (by simpa using hc)
  | inside k n due => exact checkInside_csn h (by simpa using hc)
theorem checkEvents_csn {p : Params} {pos pos' : FramePos} {evs : List Event} {ls : Lines}
    (h : checkEvents p pos evs = some pos') (hc : ls.csn = true ↔ pos = .outside) :
    (linesAfter ls evs).csn = true ↔ pos' = .outside := by
  induction evs generalizing pos ls with
  | nil =>
    cases h
    exact hc
  | cons e es ih =>
    simp only [checkEvents] at h
    split at h
    · cases h
    · exact ih h (checkEvent_csn ‹_› hc)

/-- Whole frames leave chip-select released where it was (10_state.md R42 (a)). -/
theorem WholeFrames.csn {p : Params} {evs : List Event} {ls : Lines} (h : WholeFrames p evs)
    (hc : ls.csn = true) : (linesAfter ls evs).csn = true :=
  (checkEvents_csn h (by simp [hc])).mpr rfl

theorem writeConfig_wholeFrames {p : Params} (h : p.valid = true) {k : Nat} {bytes : List Byte}
    (hk : k + bytes.length ≤ configLen) : WholeFrames p (configWriteEvents p k bytes) := by
  obtain ⟨-, -, -, -, hwc⟩ := frameKind_opcodes h
  have hframe : WholeFrames p (writeFrameEvents (p.wcByte k) bytes) :=
    checkEvents_writeFrame p (hwc k (by omega)) rfl (fun _ => rfl) (decide_eq_true hk)
  exact .append (.append (.cons rfl rfl) hframe) (.cons rfl rfl)

theorem transmit_wholeFrames {p : Params} (h : p.valid = true) {address payload : List Byte}
    (ha : address.length = addrLen) (hp : payload.length ≤ p.txPayloadMax) :
    WholeFrames p (transmitEvents p address payload) := by
  obtain ⟨-, hwtp, hwta, -⟩ := frameKind_opcodes h
  have hpayload : WholeFrames p (writeFrameEvents p.opWTP payload) :=
    checkEvents_writeFrame p hwtp rfl (fun _ => rfl) (decide_eq_true hp)
  have haddress : WholeFrames p (writeFrameEvents p.opWTA address) :=
    checkEvents_writeFrame p hwta rfl (fun _ => rfl) (beq_iff_eq.mpr ha)
  exact .append (.append (.append (.cons rfl (.cons rfl (.cons rfl (.cons rfl rfl)))) hpayload)
    haddress) (.cons rfl (.cons rfl (.cons rfl rfl)))

/-- The events of the read-config frame, without inbound bytes. -/
def readConfigEvents (p : Params) : List Event :=
  [.w .csn false, .x p.opRC 0] ++ receiveEvents false configLen ++ [.w .csn true]

theorem readConfig_wholeFrames {p : Params} (h : p.valid = true) :
    WholeFrames p (readConfigEvents p) := by
  obtain ⟨hrc, -⟩ := frameKind_opcodes h
  exact checkEvents_readFrame p hrc rfl rfl

/-- The events of the read-received-payload frame, without inbound bytes. -/
def readPayloadEvents (p : Params) : List Event :=
  [.w .csn false, .x p.opRRP 0, .d .byte] ++ receiveEvents true rxPayloadLen ++ [.w .csn true]

theorem readPayload_wholeFrames {p : Params} (h : p.valid = true) :
    WholeFrames p (readPayloadEvents p) := by
  obtain ⟨-, -, -, hrrp, -⟩ := frameKind_opcodes h
  exact checkEvents_readFrame p hrrp rfl rfl

/-! ### Sequences that complete, with the registers they write -/

/-- The events from `s` to `t` read `outs` without inbound bytes, and moved the lines as they say. -/
structure Traced (outs : List Event) (s t : State) : Prop where
  params : t.params = s.params
  trace : ∃ evs, t.trace = s.trace ++ evs ∧ outward evs = outs
  lines : t.lines = linesAfter s.lines outs

/-- Nothing was sent and no line moved. -/
theorem Traced.silent {s t : State} (hp : t.params = s.params) (ht : t.trace = s.trace)
    (hl : t.lines = s.lines) : Traced [] s t := ⟨hp, ⟨[], by simp [ht], rfl⟩, hl⟩

theorem Traced.trans {es fs : List Event} {s t u : State} (h : Traced es s t)
    (k : Traced fs t u) : Traced (es ++ fs) s u where
  params := k.params.trans h.params
  trace := by
    obtain ⟨e, he, rfl⟩ := h.trace
    obtain ⟨f, hf, rfl⟩ := k.trace
    exact ⟨e ++ f, by rw [hf, he, List.append_assoc], outward_append e f⟩
  lines := by rw [k.lines, h.lines, linesAfter_append]

theorem Ran.traced {n : Nat} {evs : List Event} {s t : State} (h : Ran n evs s t) :
    Traced (outward evs) s t where
  params := h.same.params
  trace := ⟨evs, h.trace, rfl⟩
  lines := by rw [h.lines, linesAfter_outward]

/-- A whole trace stays whole. -/
theorem Traced.wellFramed {outs : List Event} {s t : State} (h : Traced outs s t)
    (hw : WholeFrames s.params outs) (hs : WellFramed s) : WellFramed t := by
  obtain ⟨evs, ht, rfl⟩ := h.trace
  rw [WholeFrames, checkEvents_outward] at hw
  rw [wellFramed_iff, h.params, ht]
  exact WholeFrames.append hs hw

/-- A sequence completes, and its events read `outs` without inbound bytes. -/
def Performs {α : Type} (r : Res α) (outs : List Event) (s : State) : Prop :=
  ∃ a t, r = .ok a t ∧ Traced outs s t

theorem Completes.performs {α : Type} {r : Res α} {n : Nat} {outs : List Event} {s : State}
    {q : α → Prop} (h : Completes r n outs s q) : Performs r outs s := by
  obtain ⟨a, t, evs, hr, ht, rfl, -⟩ := h
  exact ⟨a, t, hr, ht.traced⟩

theorem Performs.andThen {α β : Type} {r : Res α} {next : α → State → Res β} {es fs : List Event}
    {s : State} (h : Performs r es s)
    (k : ∀ a t, t.params = s.params → Performs (next a t) fs t) :
    Performs (r.andThen next) (es ++ fs) s := by
  obtain ⟨a, t, rfl, ht⟩ := h
  obtain ⟨b, u, hu, hn⟩ := k a t ht.params
  exact ⟨b, u, hu, ht.trans hn⟩

theorem Performs.after {α : Type} {r : Res α} {es fs : List Event} {s t : State}
    (h : Performs r fs t) (k : Traced es s t) : Performs r (es ++ fs) s := by
  obtain ⟨a, u, rfl, hu⟩ := h
  exact ⟨a, u, rfl, k.trans hu⟩

theorem Performs.inside {α : Type} {r : Res α} {outs : List Event} {s : State} (l : StepLabel)
    (h : Performs r outs s) : Performs (r.inside l) outs s := by
  obtain ⟨a, t, rfl, ht⟩ := h
  exact ⟨a, t, rfl, ht⟩

/-- The end of a sequence that has written registers only. -/
theorem Performs.ok {α : Type} (a : α) {s t : State} (hp : t.params = s.params)
    (ht : t.trace = s.trace) (hl : t.lines = s.lines) : Performs (.ok a t) [] s :=
  ⟨a, t, rfl, .silent hp ht hl⟩

theorem Performs.congr {α : Type} {r : Res α} {es fs : List Event} {s : State}
    (h : Performs r es s) (he : es = fs) : Performs r fs s := he ▸ h

theorem writeConfigSteps_performs (k : Nat) (bytes : List Byte) {s : State}
    (h : s.params.halFallible = false) :
    Performs (writeConfigSteps k bytes s) (configWriteEvents s.params k bytes) s := by
  obtain ⟨t, evs, hr, ht, ho⟩ := writeConfigSteps_completes k bytes h
  exact ⟨(), _, hr, ho ▸ { ht.traced with }⟩

/-- The events of init, without inbound bytes (41_mode_controller.md R152). -/
def initEvents (s : State) : List Event :=
  configWriteEvents s.params 0 s.cfg ++ [.w .pwr true, .d .wake]

theorem initSteps_performs {s : State} (h : s.params.halFallible = false) :
    Performs (initSteps s) (initEvents s) s := by
  have hopen : halAction .in1 s = .ok () s.advance := by
    simp [halAction, failsHere_of_infallible h]
  have hbody : Performs (((writeConfigSteps 0 s.cfg s.advance).inside .in2).andThen fun _ s =>
      ((powerUpSteps s).inside .in3).andThen fun _ s => .ok () { s with inited := true })
      (initEvents s) s.advance :=
    ((writeConfigSteps_performs 0 s.cfg (s := s.advance) h).inside .in2).andThen fun _ t ht =>
    ((powerUpSteps_completes (ht ▸ h)).performs.inside .in3).andThen fun _ u _ =>
    .ok () rfl rfl rfl
  have hadvance : Traced [] s s.advance := .silent rfl rfl rfl
  rw [initSteps, hopen]
  exact hbody.after hadvance

theorem enterReceiveSteps_performs {s : State} (h : s.params.halFallible = false) :
    Performs (enterReceiveSteps s) [.w .txen false, .w .pwr true, .w .trig true, .d .settle] s :=
  (deassertLine_completes .er1 .txen h).performs.andThen fun _ _ h1 =>
  (assertLine_completes .er2 .pwr (h1 ▸ h)).performs.andThen fun _ _ h2 =>
  (assertLine_completes .er3 .trig (h2 ▸ h1 ▸ h)).performs.andThen fun _ _ h3 =>
  (delay_completes .er4 .settle (h3 ▸ h2 ▸ h1 ▸ h)).performs.andThen fun _ _ h4 =>
  (halAction_completes .er5 (h4 ▸ h3 ▸ h2 ▸ h1 ▸ h)).performs.andThen fun _ _ _ =>
  .ok () rfl rfl rfl

/-- The events of stopReceiveMode (41_mode_controller.md R156). -/
def exitEvents (p : Params) : List Event := if p.exitRxToStandby then [.w .trig false] else []

theorem exitReceiveSteps_performs {s : State} (h : s.params.halFallible = false) :
    Performs (exitReceiveSteps s) (exitEvents s.params) s := by
  refine (halAction_completes .xr1 h).performs.andThen (fs := exitEvents s.params) fun _ t ht => ?_
  have hquiet : Traced [] t { t with watch := false, edgePend := false } := .silent rfl rfl rfl
  simp only [exitEvents, ← ht]
  split
  · exact (deassertLine_completes .xr2 .trig (ht ▸ h)).performs.after hquiet
  · exact .ok () rfl rfl rfl

/-- Steps `RX.2` to `RX.4` (42_receive_pipeline.md R172). -/
theorem drainReadSteps_performs {s : State} (h : s.params.halFallible = false) :
    Performs (drainReadSteps s)
      ([.w .trig false] ++ (readPayloadEvents s.params ++ [.w .trig true])) s := by
  refine (deassertLine_completes .rx2 .trig h).performs.andThen fun _ t ht => ?_
  have hread : Performs ((readReceivedPayload t).inside .rx3) (readPayloadEvents s.params) t := by
    refine (((frame_completes _ [] rxPayloadLen true (ht ▸ h)).inside .rrp1).inside
      .rx3).performs.congr ?_
    simp [readPayloadEvents, ht]
  refine hread.andThen fun p u hu => ?_
  have hbuf : Traced [] u (u.withRxbuf (some p)) := .silent rfl rfl rfl
  exact Performs.after ((assertLine_completes .rx4 .trig (hu ▸ ht ▸ h)).performs.andThen
    (fs := []) fun _ _ _ => .ok () rfl rfl rfl) hbuf

/-! ### Steps that keep the lines and the trace in order -/

/-- From `s` to `t` the lines stay in order between steps and the trace stays well framed. -/
structure InOrder (s t : State) : Prop where
  params : t.params = s.params
  lines : LinesOk s → LinesOk t
  framed : WellFramed s → WellFramed t

/-- Between two states that differ in neither lines, trace nor position. -/
theorem InOrder.of_same {s t : State} (hp : t.params = s.params) (ht : t.trace = s.trace)
    (hl : t.lines = s.lines) (hseq : t.seq = s.seq) : InOrder s t where
  params := hp
  lines := fun h => ⟨hl ▸ h.csn, hl ▸ hseq ▸ h.txen, hl ▸ hseq ▸ h.txLevels⟩
  framed := fun h => by rwa [wellFramed_iff, hp, ht]

theorem InOrder.trans {s t u : State} (h : InOrder s t) (k : InOrder t u) : InOrder s u :=
  ⟨k.params.trans h.params, k.lines ∘ h.lines, k.framed ∘ h.framed⟩

/-- The sequencer does not wait in sendPacket. -/
def NotTransmitting (s : State) : Prop := ∀ n, s.seq ≠ .txWait n

theorem Idle.notTransmitting {s : State} (h : Idle s) : NotTransmitting s := fun n hn => by
  rw [h.seq] at hn
  cases hn

/-- Whole frames that leave transmit-enable low are in order where sendPacket does not wait. -/
theorem Traced.inOrder {outs : List Event} {s t : State} (h : Traced outs s t)
    (hw : WholeFrames s.params outs) (ht : NotTransmitting t)
    (htx : LinesOk s → (linesAfter s.lines outs).txen = false) : InOrder s t where
  params := h.params
  lines := fun hs =>
    { csn := h.lines ▸ hw.csn hs.csn
      txen := fun _ => h.lines ▸ htx hs
      txLevels := fun n hn => absurd hn (ht n) }
  framed := h.wellFramed hw

/-- Whole frames that end in the levels of `TX.5` are in order where sendPacket waits. -/
theorem Traced.inOrder_waiting {outs : List Event} {s t : State} {n : Nat} (h : Traced outs s t)
    (hw : WholeFrames s.params outs) (ht : t.seq = .txWait n)
    (htx : LinesOk s →
      (linesAfter s.lines outs).txen = true ∧ (linesAfter s.lines outs).trig = false) :
    InOrder s t where
  params := h.params
  lines := fun hs =>
    { csn := h.lines ▸ hw.csn hs.csn
      txen := fun hne => absurd ht (hne n)
      txLevels := fun _ _ => h.lines ▸ htx hs }
  framed := h.wellFramed hw

/-- Outside sendPacket transmit-enable stays low along events that do not raise it. -/
theorem LinesOk.txen_after {s : State} {outs : List Event} (h : LinesOk s) (hs : NotTransmitting s)
    (htx : ∀ ls : Lines, ls.txen = false → (linesAfter ls outs).txen = false) :
    (linesAfter s.lines outs).txen = false := htx _ (h.txen hs)

/-- A host operation whose sequence completes in whole frames, transmit-enable staying low, is in
order. -/
theorem Performs.conclude_inOrder {r : Res Reply} {outs : List Event} {s : State}
    (h : Performs r outs s.begin) (closing : StepPath → List (OutLine × Level)) (hs : Idle s)
    (hw : WholeFrames s.params outs)
    (htx : ∀ ls : Lines, ls.txen = false → (linesAfter ls outs).txen = false) :
    InOrder s (conclude closing r) := by
  obtain ⟨reply, t, rfl, ht⟩ := h
  have ht' : Traced outs s (t.ret reply) := { ht with }
  exact ht'.inOrder hw (fun _ h => nomatch h) fun hl => hl.txen_after hs.notTransmitting htx

/-- The result of a sequence that has no value of its own is ok. -/
theorem Performs.thenOk {r : Res Unit} {outs : List Event} {s : State} (h : Performs r outs s) :
    Performs (r.andThen fun _ s => .ok Reply.ok s) outs s :=
  (h.andThen fun _ _ _ => .ok Reply.ok rfl rfl rfl).congr (List.append_nil outs)

end Sys2Proof.Machine
end

section
/-! Proofs: every command and every step, on an access layer that does not fail, keeps the lines and the
trace in order. -/

namespace Sys2Proof.Machine

/-! ### Commands -/

/-- An idle block on an access layer that does not fail, its record valid and its mirror whole. -/
structure IdleOk (s : State) : Prop where
  idle : Idle s
  infallible : s.params.halFallible = false
  valid : s.params.valid = true
  cfgLength : s.cfg.length = configLen

section
variable {α : Type} {i : Instr} {s t : State} {check : Except Malformed α}

theorem acceptThen_inOrder {body : α → State → Host.Outcome State Fault Refusal}
    (h : acceptThen i check body s = .next t) (hs : Idle s)
    (hrun : ∀ a, check = .ok a → body a s.begin = .next t → InOrder s t) : InOrder s t := by
  rcases acceptThen_cases i check body s with ⟨hb, -⟩ | ⟨-, m, -, hr⟩ | ⟨-, a, ha, hr⟩
  · exact absurd (hb.symm.trans hs.busy) Bool.noConfusion
  · cases hr.symm.trans h
    exact .of_same rfl rfl rfl rfl
  · exact hrun a ha (hr.symm.trans h)

theorem accept_inOrder {body : α → State → State} (h : accept i check body s = .next t)
    (hs : Idle s) (hrun : ∀ a, check = .ok a → InOrder s (body a s.begin)) : InOrder s t :=
  acceptThen_inOrder h hs fun a ha hr => Host.Outcome.next.inj hr ▸ hrun a ha

end

theorem execInit_inOrder {s t : State} (hs : IdleOk s) (h : execInit s = .next t) :
    InOrder s t := by
  refine accept_inOrder h hs.idle fun _ _ => ?_
  have hsteps := (initSteps_performs (s := s.begin) hs.infallible).thenOk
  refine hsteps.conclude_inOrder _ hs.idle ?_ fun ls hl => ?_
  · exact (writeConfig_wholeFrames hs.valid (by simp [hs.cfgLength])).append
      (.cons rfl (.cons rfl rfl))
  · simpa [initEvents, linesAfter_configWrite, lineAfter, Lines.set] using hl

theorem checkWriteConfig_ok {k : Nat} {bytes : List Byte} {s : State} {u : Unit}
    (h : checkWriteConfig k bytes s = .ok u) : k + bytes.length ≤ configLen := by
  rw [checkWriteConfig] at h
  split at h
  · cases h
  · rw [checkConfigRange, configRangeFits] at h
    split at h
    · exact of_decide_eq_true ‹_›
    · cases h

theorem execWriteConfig_inOrder {k : Nat} {bytes : List Byte} {s t : State} (hs : IdleOk s)
    (h : execWriteConfig k bytes s = .next t) : InOrder s t := by
  refine accept_inOrder h hs.idle fun _ hc => ?_
  have hrange := checkWriteConfig_ok hc
  have hsteps := (writeConfigSteps_performs k bytes (s := s.begin) hs.infallible).thenOk
  refine hsteps.conclude_inOrder _ hs.idle (writeConfig_wholeFrames hs.valid hrange) fun ls hl => ?_
  simpa [linesAfter_configWrite] using hl

theorem execSetAddress_inOrder {a : List Byte} {s t : State} (hs : IdleOk s)
    (h : execSetAddress a s = .next t) : InOrder s t := by
  refine accept_inOrder h hs.idle fun a4 hc => ?_
  have hrange : addrOffset + a4.length ≤ configLen := by
    rw [(normAddr_ok hc).2]
    decide
  cases hi : s.inited with
  | false =>
    rw [setAddressSteps_of_uninited (s := s.begin) hi]
    exact .of_same rfl rfl rfl hs.idle.seq.symm
  | true =>
    rw [setAddressSteps, if_pos (by exact hi)]
    have hsteps := ((writeConfigSteps_performs addrOffset a4 (s := s.begin)
      hs.infallible).inside .sa2).thenOk
    refine hsteps.conclude_inOrder _ hs.idle (writeConfig_wholeFrames hs.valid hrange)
      fun ls hl => ?_
    simpa [linesAfter_configWrite] using hl

theorem readConfigSteps_performs {s : State} (h : s.params.halFallible = false) :
    Performs (readConfigSteps s) (readConfigEvents s.params) s := by
  refine Performs.congr (((frame_completes s.params.opRC [] configLen false h).inside
    .rc1).performs.andThen (fs := []) fun bytes t _ => .ok (Reply.bytes bytes) rfl rfl rfl) ?_
  simp [readConfigEvents]

theorem execReadConfig_inOrder {s t : State} (hs : IdleOk s) (h : execReadConfig s = .next t) :
    InOrder s t := by
  refine acceptThen_inOrder h hs.idle fun _ _ hr => ?_
  split at hr
  · cases hr
    have hsteps := readConfigSteps_performs (s := s.begin) hs.infallible
    refine hsteps.conclude_inOrder _ hs.idle (readConfig_wholeFrames hs.valid) fun ls hl => ?_
    simpa [readConfigEvents, linesAfter_receiveEvents, lineAfter, Lines.set] using hl
  · cases hr

theorem execPowerUp_inOrder {s t : State} (hs : IdleOk s) (h : execPowerUp s = .next t) :
    InOrder s t := by
  refine accept_inOrder h hs.idle fun _ _ => ?_
  have hsteps := (powerUpSteps_completes (s := s.begin) hs.infallible).performs.thenOk
  exact hsteps.conclude_inOrder _ hs.idle (.cons rfl (.cons rfl rfl)) fun ls hl => hl

theorem execPowerDown_inOrder {s t : State} (hs : IdleOk s) (h : execPowerDown s = .next t) :
    InOrder s t := by
  refine accept_inOrder h hs.idle fun _ _ => ?_
  have hsteps := (deassertLine_completes .pd1 .pwr (s := s.begin) hs.infallible).performs.thenOk
  exact hsteps.conclude_inOrder _ hs.idle (.cons rfl rfl) fun ls hl => hl

theorem execStartReceiveMode_inOrder {s t : State} (hs : IdleOk s)
    (h : execStartReceiveMode s = .next t) : InOrder s t := by
  refine accept_inOrder h hs.idle fun _ _ => ?_
  have hsteps := (enterReceiveSteps_performs (s := s.begin) hs.infallible).thenOk
  exact hsteps.conclude_inOrder _ hs.idle (.cons rfl (.cons rfl (.cons rfl (.cons rfl rfl))))
    fun _ _ => rfl

theorem exit_wholeFrames (p : Params) : WholeFrames p (exitEvents p) := by
  rw [exitEvents]
  split
  · exact .cons rfl rfl
  · rfl

theorem execStopReceiveMode_inOrder {s t : State} (hs : IdleOk s)
    (h : execStopReceiveMode s = .next t) : InOrder s t := by
  refine accept_inOrder h hs.idle fun _ _ => ?_
  have hsteps := (exitReceiveSteps_performs (s := s.begin) hs.infallible).thenOk
  refine hsteps.conclude_inOrder _ hs.idle (exit_wholeFrames s.params) fun ls hl => ?_
  rw [exitEvents]
  split <;> exact hl

/-! ### Polls -/

theorem polled_traced (s : State) :
    Traced [.r .dr s.here.level] s (s.advance.emit (.r .dr s.here.level)) :=
  Ran.traced ((Ran.advance s).trans (.emit (.r .dr s.here.level) _ (by simp)))

/-- What one poll of `TX.5` does on an access layer that does not fail: sendPacket ends with
transmit-enable low, or goes on waiting with the lines as they are (43_transmit_pipeline.md R202). -/
inductive TransmitPolled (s t : State) : Prop where
  | ended {outs : List Event} : Traced outs s t → WholeFrames s.params outs → NotTransmitting t →
      (∀ ls : Lines, (linesAfter ls outs).txen = false) → TransmitPolled s t
  | waits {outs : List Event} {n : Nat} : Traced outs s t → WholeFrames s.params outs →
      t.seq = .txWait n → (∀ ls : Lines, linesAfter ls outs = ls) → TransmitPolled s t

theorem transmitWait_polled (polls : Nat) {s : State} (hf : s.params.halFallible = false) :
    TransmitPolled s (transmitWait polls s) := by
  have hpoll := polled_traced s
  rw [transmitWait]
  rcases waitHigh_cases .tx5 polls s with ⟨hfail, -⟩ | ⟨-, -, h⟩ | ⟨-, -, -, h⟩ | ⟨-, -, -, h⟩
  · exact absurd (hfail.symm.trans (failsHere_of_infallible hf)) Bool.noConfusion
  · obtain ⟨a, u, hr, hu⟩ := (transmitClose_completes
      (s := s.advance.emit (.r .dr s.here.level)) hf).performs
    simp only [h, hr]
    exact .ended { hpoll.trans hu with } (.cons rfl (.cons rfl (.cons rfl rfl)))
      (fun _ h => nomatch h) fun _ => rfl
  · have hu := (cleanupWrites_ran closeTransmit (s := s.advance.emit (.r .dr s.here.level))
      fun k _ => failsAt_of_infallible (s := s.advance.emit _) hf k).traced
    simp only [h]
    exact .ended { hpoll.trans hu with } (.cons rfl (.cons rfl (.cons rfl rfl)))
      (fun _ h => nomatch h) fun _ => rfl
  · simp only [h]
    exact .waits { hpoll with } (.cons rfl rfl) rfl fun _ => rfl

theorem transmitWait_inOrder {polls : Nat} {s : State} (hf : s.params.halFallible = false)
    (hs : s.seq = .txWait polls) : InOrder s (transmitWait polls s) := by
  cases transmitWait_polled polls hf with
  | ended ht hw hq htx => exact ht.inOrder hw hq fun _ => htx _
  | waits ht hw hq hl => exact ht.inOrder_waiting hw hq fun h => hl _ ▸ h.txLevels polls hs

theorem execSendPacket_inOrder {a payload : List Byte} {s t : State} (hs : IdleOk s)
    (h : execSendPacket a payload s = .next t) : InOrder s t := by
  refine acceptThen_inOrder h hs.idle fun a4 hc hr => ?_
  obtain ⟨-, hlen, hpay⟩ := checkSendPacket_ok hc
  obtain ⟨_, u, hu, hsent⟩ := (transmitSteps_completes a4 payload
    (s := { s.begin with txaddr := some a4, txbuf := some payload }) hs.infallible).performs
  have hsent' : Traced (transmitEvents s.params a4 payload) s u := { hsent with }
  have hw := transmit_wholeFrames hs.valid hlen hpay
  have hf : u.params.halFallible = false := hsent.params ▸ hs.infallible
  have hrun : transmitRun a4 payload { s.begin with txaddr := some a4, txbuf := some payload } =
      transmitWait 0 u := by rw [transmitRun, hu]
  obtain rfl : transmitWait 0 u = t := hrun ▸ Host.Outcome.next.inj hr
  cases transmitWait_polled 0 hf with
  | ended ht hw' hq htx =>
    refine (hsent'.trans ht).inOrder (hw.append (hsent.params ▸ hw')) hq fun _ => ?_
    rw [linesAfter_append]
    exact htx _
  | waits ht hw' hq hl =>
    refine (hsent'.trans ht).inOrder_waiting (hw.append (hsent.params ▸ hw')) hq fun _ => ?_
    rw [linesAfter_append, hl, linesAfter_transmit]
    exact ⟨rfl, rfl⟩

theorem State.request_inOrder (q : RegistryRequest) (s : State) : InOrder s (s.request q) := by
  rcases s.request_cases q with ⟨-, hr⟩ | ⟨-, hr⟩ <;> rw [hr] <;> exact .of_same rfl rfl rfl rfl

theorem State.reply_inOrder (r : Reply) (s : State) : InOrder s (s.reply r) :=
  .of_same rfl rfl rfl rfl

theorem registryOperation_inOrder {i : Instr} {q : RegistryRequest} {s t : State} (hs : Idle s)
    (h : registryOperation i q s = .next t) : InOrder s t := by
  rw [registryOperation, if_neg (by simp [hs.busy])] at h
  cases h
  exact (s.request_inOrder q).trans (State.reply_inOrder _ _)

theorem unknownCommand_inOrder {i : Instr} {s t : State} (hs : Idle s)
    (h : unknownCommand i s = .next t) : InOrder s t := by
  rw [unknownCommand, if_neg (by simp [hs.busy])] at h
  cases h
  exact State.reply_inOrder _ _

/-- Every command accepted by the idle block is in order. -/
theorem exec_decodeCommand_inOrder {c : PortCommand} {s t : State} (hs : IdleOk s)
    (h : exec (decodeCommand c) s = .next t) : InOrder s t := by
  rw [decodeCommand] at h
  split at h
  case h_1 => exact execInit_inOrder hs h
  case h_2 => exact execSetAddress_inOrder hs h
  case h_3 => exact execWriteConfig_inOrder hs h
  case h_4 => exact execReadConfig_inOrder hs h
  case h_5 => exact execPowerUp_inOrder hs h
  case h_6 => exact execPowerDown_inOrder hs h
  case h_7 => exact execStartReceiveMode_inOrder hs h
  case h_8 => exact execStopReceiveMode_inOrder hs h
  case h_9 => exact execSendPacket_inOrder hs h
  case h_10 => exact registryOperation_inOrder hs.idle h
  case h_11 => exact registryOperation_inOrder hs.idle h
  case h_12 => exact unknownCommand_inOrder hs.idle h
  case h_13 => exact unknownCommand_inOrder hs.idle h

/-! ### The drain and the dispatch -/

/-- A dispatch stands in no wait. -/
theorem dispatchPosition_ne_txWait (snapshot : List ConsumerId) (i n : Nat) :
    dispatchPosition snapshot i ≠ .txWait n := by
  rw [dispatchPosition]
  split <;> exact Seq.noConfusion

theorem drainError_traced (e : Cause) (s : State) : Traced [.f e] s (drainError e s) :=
  { Ran.traced (Ran.emit (.f e) s (by simp)) with }

theorem drainWait_inOrder (polls : Nat) {s : State} (hf : s.params.halFallible = false)
    (hv : s.params.valid = true) (hs : NotTransmitting s) : InOrder s (drainWait polls s) := by
  have hpoll := polled_traced s
  rw [drainWait]
  rcases waitHigh_cases .rx1 polls s with ⟨hfail, -⟩ | ⟨-, -, h⟩ | ⟨-, -, -, h⟩ | ⟨-, -, -, h⟩
  · exact absurd (hfail.symm.trans (failsHere_of_infallible hf)) Bool.noConfusion
  · obtain ⟨a, u, hr, hu⟩ := drainReadSteps_performs
      (s := s.advance.emit (.r .dr s.here.level)) hf
    simp only [h, drainRead, hr]
    have ht : Traced ([.r .dr s.here.level] ++ ([.w .trig false] ++
        (readPayloadEvents s.params ++ [.w .trig true]))) s (dispatchStart u) :=
      { hpoll.trans hu with }
    have hread := (readPayload_wholeFrames hv).append (.cons rfl rfl : WholeFrames _ [.w .trig true])
    refine ht.inOrder (.cons rfl (.cons rfl hread)) (fun n => dispatchPosition_ne_txWait _ 0 n)
      fun hl => hl.txen_after hs fun ls hls => ?_
    simpa [readPayloadEvents, linesAfter_receiveEvents, lineAfter, Lines.set] using hls
  · simp only [h]
    exact (hpoll.trans (drainError_traced _ _)).inOrder (.cons rfl (.cons rfl rfl))
      (fun _ h => nomatch h) fun hl => hl.txen hs
  · simp only [h]
    have ht : Traced _ s { s.advance.emit (.r .dr s.here.level) with seq := .rxWait (polls + 1) } :=
      { hpoll with }
    exact ht.inOrder (.cons rfl rfl) (fun _ h => nomatch h) fun hl => hl.txen hs

theorem dispatchEnd_inOrder (aborted : Option Nat) {s : State} (hs : NotTransmitting s) :
    InOrder s (dispatchEnd aborted s) := by
  cases aborted with
  | none =>
    have ht : Traced [] s (dispatchEnd none s) := .silent rfl rfl rfl
    exact ht.inOrder rfl (fun _ h => nomatch h) fun hl => hl.txen hs
  | some i =>
    have ht : Traced _ s (dispatchEnd (some i) s) :=
      { drainError_traced (.handlerAbort i) (applyDeferred s) with }
    exact ht.inOrder (.cons rfl rfl) (fun _ h => nomatch h) fun hl => hl.txen hs

/-! ### Every step -/

/-- Every step of a block that meets its invariant is in order, on an access layer that does not
fail. -/
theorem step_inOrder {s t : State} (hs : RegistersOk s) (hf : s.params.halFallible = false)
    (h : step s = .next t) : InOrder s t := by
  have hstep := step_stepped hs h
  have hp := hs.present
  have hpresent : InOrder s s.present :=
    .of_same s.present_params s.present_trace s.present_lines s.present_seq
  replace hf : s.present.params.halFallible = false := hpresent.params ▸ hf
  refine hpresent.trans ?_
  generalize s.present = s at *
  have hadvance : InOrder s s.advance := .of_same rfl rfl rfl rfl
  cases hstep with
  | quiet _ => exact hadvance
  | drain hi =>
    have hstart : InOrder s { s.advance with edgePend := false, busy := true } :=
      .of_same rfl rfl rfl rfl
    exact hstart.trans (drainWait_inOrder 0 hf hp.valid hi.notTransmitting)
  | command c hi hx =>
    have htake : InOrder s s.advance.takePort := .of_same rfl rfl rfl rfl
    have hidle := hi.touched (.advance [] s)
    exact htake.trans
      (exec_decodeCommand_inOrder ⟨{ hidle with }, hf, hp.valid, hp.cfgLength⟩ hx)
  | transmit hseq => exact transmitWait_inOrder hf hseq
  | receive hseq => exact drainWait_inOrder _ hf hp.valid fun n hn => nomatch hseq.symm.trans hn
  | requested q _ =>
    have htake : InOrder s s.takePort := .of_same rfl rfl rfl rfl
    exact (htake.trans (s.takePort.request_inOrder q)).trans (State.reply_inOrder _ _)
  | @delivered snapshot i p h' q hseq _ hpos =>
    have hq := hp.seqOk
    rw [SeqOk, hseq] at hq
    obtain ⟨-, hd, -⟩ := hq
    have ht : Traced [.v h' p] s { deliver h' p s with seq := q } := by
      rw [deliver_eq _ _ hd]
      exact { Ran.traced ((Ran.advance s).trans (.emit (.v h' p) _ (by simp))) with }
    have hnot : NotTransmitting { deliver h' p s with seq := q } := by
      rcases hpos with rfl | rfl
      · exact fun _ hn => nomatch hn
      · exact fun n => dispatchPosition_ne_txWait snapshot (i + 1) n
    exact ht.inOrder (.cons rfl rfl) hnot fun hl =>
      hl.txen fun n hn => nomatch hseq.symm.trans hn
  | dispatched hseq =>
    exact dispatchEnd_inOrder _ fun n hn => nomatch hseq.symm.trans hn

/-- Settles O57 (`step_inOrder`): chip-select by the trace checker, transmit-enable by the events of each
operation. -/
theorem stepKeepsLineInvariant : Obligations.StepKeepsLineInvariant :=
  fun _ _ hs hl hf h => (step_inOrder hs hf h).lines hl

/-- Settles O58 (`step_inOrder`): every operation sends whole frames. -/
theorem stepKeepsTraceWellFramed : Obligations.StepKeepsTraceWellFramed :=
  fun _ _ hs hf hw h => (step_inOrder hs hf h).framed hw

end Sys2Proof.Machine
end

section
/-! Proofs: frames out of range are refused, and the reference environment gives back what was written
to `CONFIG` (20_memory.md R64, R71). -/

namespace Sys2Proof.Machine

/-! ### Frames out of range -/

theorem checkConfigRange_of_gt {k : Nat} {bytes : List Byte} (h : configLen < k + bytes.length) :
    checkConfigRange k bytes = .error .badConfigRange := by
  simp [checkConfigRange, configRangeFits, h]

theorem checkPayload_of_gt {p : Params} {payload : List Byte}
    (h : p.txPayloadMax < payload.length) : checkPayload p payload = .error .badPayloadLength := by
  simp [checkPayload, payloadFits, h]

/-- A call of the framer that its operand check refuses is only answered (30_encoding.md R106). -/
theorem framerCall_of_error {α : Type} {check : Except Malformed α} {m : Malformed}
    (body : α → State → Res Reply) (s : State) (h : check = .error m) :
    framerCall check body s = .next (s.refuse m) := by
  rw [h, framerCall]

theorem execWc_of_gt {k : Nibble} {data : List Byte} (s : State)
    (h : configLen < k.toNat + data.length) :
    execWc k data s = .next (s.refuse .badConfigRange) :=
  framerCall_of_error _ s (checkConfigRange_of_gt h)

theorem execWtp_of_gt {payload : List Byte} {s : State}
    (h : s.params.txPayloadMax < payload.length) :
    execWtp payload s = .next (s.refuse .badPayloadLength) :=
  framerCall_of_error _ s (checkPayload_of_gt h)

/-- Settles O22: the operand check of each frame, made before its first micro-step. -/
theorem outOfRangeFramesAreRefused : Obligations.OutOfRangeFramesAreRefused := fun s =>
  ⟨fun _ _ h => execWc_of_gt s h, fun _ h => execWtp_of_gt h⟩

/-! ### What a read-config frame reads -/

/-- Where no primitive fails, a read-config frame that is answered has all its values (log 13). -/
theorem configHasValues_of_answered {s : State} (hf : s.params.halFallible = false)
    (h : s.configAnswered = true) : ConfigHasValues s := by
  intro j m hj he hm
  rcases (State.configAnswered_iff s).mp h j hj with h | h | ⟨k, -, h⟩
  · simp [State.momentAt_listed he, hm] at h
  · exact h
  · simp [failsAt_of_infallible hf] at h

/-- Byte `j` of a read-config frame is the environment's own, else what `CONFIG` holds
(20_memory.md R71): the instruction byte puts the reference environment at data byte 0. -/
theorem readConfigFrame_reads {s t : State} {bytes : List Byte} (hv : s.params.valid = true)
    (hc : ConfigHasValues s) (h : readConfigFrame s = .ok bytes t) : ReadFromConfig s bytes := by
  have hframe := Res.inside_ok h
  refine ⟨frame_length hframe, fun j m hj he => ?_⟩
  obtain ⟨_, t1, r1, h⟩ := Res.andThen_ok hframe
  obtain ⟨_, t2, r2, h⟩ := Res.andThen_ok h
  obtain ⟨_, _, ⟨⟩, h⟩ := Res.andThen_ok h
  obtain ⟨_, _, ⟨⟩, h⟩ := Res.andThen_ok h
  obtain ⟨_, t3, r3, h⟩ := Res.andThen_ok h
  obtain ⟨_, _, _, ⟨⟩⟩ := Res.andThen_ok h
  obtain ⟨e1, h1, o1⟩ := (pinWrite_follows .f1 .csn _ s).ran _ _ r1
  obtain ⟨e2, h2, o2⟩ := (xfer_follows .f2 s.params.opRC t1).ran _ _ r2
  have hran := h1.trans h2
  have hchip : t2.chip = { s.chip with frame := .transfer .readConfig 0 } := by
    rw [hran.chip, ← chipAfter_outward, outward_append, o1, o2, ← (chipOpOf_fixed hv).1]
    rfl
  have hread := receiveBytes_config configLen 0 r3 (by rw [hchip]) j m hj (by rwa [Nat.zero_add])
    (by rwa [hran.env, List.getElem?_drop])
  rw [Nat.zero_add, hchip] at hread
  exact hread (hc j m hj he)

/-! ### Ready blocks -/

/-- An operation that changes no register but the bytes of the mirror returns to a ready block. -/
theorem Ready.ret {s t : State} (hs : Ready s) (h : SameRegisters s.begin t) (cfg : List Byte)
    (hl : cfg.length = t.cfg.length) (r : Reply) : Ready (State.ret r { t with cfg := cfg }) where
  idle := ⟨rfl, rfl, h.dispatching.trans hs.idle.dispatching, h.deferq.trans hs.idle.deferq, rfl,
    rfl, rfl⟩
  inited := h.inited.trans hs.inited
  valid := h.params ▸ hs.valid
  infallible := h.params ▸ hs.infallible
  cfgLength := hl.trans (h.cfg ▸ hs.cfgLength)

theorem checkInited_of_inited {s : State} (h : s.inited = true) : checkInited s = .ok () :=
  if_pos h

/-- An idle block runs an operation that its checks accept. -/
theorem acceptThen_of_ok {α : Type} {i : Instr} {check : Except Malformed α} {a : α}
    (body : α → State → Host.Outcome State Fault Refusal) {s : State} (hb : s.busy = false)
    (h : check = .ok a) : acceptThen i check body s = body a s.begin := by
  simp [acceptThen, hb, h]

theorem normAddr_of_length {a : List Byte} (h : a.length = addrLen) : normAddr a = .ok a := by
  rw [normAddr, if_neg (by omega), ← h, List.take_length]

/-- The reference environment holds the bytes of a configuration write (20_memory.md R71). -/
theorem config_of_configWrite {p : Params} (h : p.valid = true) (ls : Lines) (c : Chip) {k : Nat}
    {bytes : List Byte} (hk : k + bytes.length ≤ configLen) :
    WrittenAt c.config k bytes (chipAfter p ls c (configWriteEvents p k bytes)).config := by
  rw [chipAfter_configWrite h ls c (by omega) bytes]
  exact (Chip.storeFrom_config p k bytes 0 c hk).1

/-- setAddress of a ready block uses nine answers, leaves it ready, and its bytes are in `CONFIG`
(40_command_framer.md R125; 20_memory.md R71). -/
theorem execSetAddress_written {s t : State} {a : List Byte} (hs : Ready s)
    (ha : a.length = addrLen) (h : execSetAddress a s = .next t) :
    Ready t ∧ t.env = s.env.drop 9 ∧ WrittenAt s.chip.config addrOffset a t.chip.config := by
  rw [execSetAddress, accept, acceptThen_of_ok _ hs.idle.busy (normAddr_of_length ha)] at h
  obtain ⟨v, evs, hw, hran, ho⟩ :=
    writeConfigSteps_completes addrOffset a (s := s.begin) hs.infallible
  have hsteps : setAddressSteps a s.begin =
      .ok .ok { v with cfg := mirrorWrite v.cfg addrOffset a } := by
    rw [setAddressSteps, if_pos (show s.begin.inited = true from hs.inited), hw]
    rfl
  rw [hsteps] at h
  cases h
  refine ⟨hs.ret hran.same _ (mirrorWrite_length _ _ _) _, ?_, ?_⟩
  · exact hran.env.trans (by rw [ha]; rfl)
  · have hchip := hran.chip
    rw [← chipAfter_outward, ho] at hchip
    show WrittenAt s.begin.chip.config addrOffset a v.chip.config
    rw [hchip]
    exact config_of_configWrite hs.valid _ _ (by simp [ha, addrOffset, addrLen, configLen])

/-- readConfig of a ready block, where it answers, returns what its frame reads
(40_command_framer.md R121). -/
theorem execReadConfig_reads {s t : State} (hs : Ready s) (h : execReadConfig s = .next t) :
    ∃ data, t.replies = s.replies ++ [.bytes data] ∧ ReadFromConfig s data := by
  rw [execReadConfig, acceptThen_of_ok _ hs.idle.busy (checkInited_of_inited hs.inited)] at h
  split at h
  · rename_i hanswered
    obtain ⟨data, v, evs, hframe, hran, -, -⟩ :=
      (frame_completes s.begin.params.opRC [] configLen false (s := s.begin) hs.infallible).inside
        .rc1
    have hread := readConfigFrame_reads (s := s.begin) hs.valid
      (configHasValues_of_answered hs.infallible hanswered) hframe
    rw [readConfigSteps, readConfigFrame, hframe] at h
    cases h
    refine ⟨data, ?_, hread⟩
    show v.replies ++ [.bytes data] = s.begin.replies ++ [.bytes data]
    rw [hran.replies]
  · cases h

/-- Settles O60: the frame of readConfig meets the bytes the frame of setAddress has written. -/
theorem readBackOfTheAddress : Obligations.ReadBackOfTheAddress := by
  intro s t u a hs ha hlen hquiet hset hread
  obtain ⟨ht, henv, hwritten⟩ := execSetAddress_written hs ha hset
  obtain ⟨data, hreplies, hdata, hbytes⟩ := execReadConfig_reads ht hread
  have hbyte (j : Nat) (hj : j < 4) : data[5 + j]? = a[j]? := by
    have hi : 9 + (2 + (5 + j)) < s.env.length := by omega
    have he : t.env[2 + (5 + j)]? = some s.env[9 + (2 + (5 + j))] := by
      rw [henv, List.getElem?_drop, List.getElem?_eq_getElem hi]
    rw [hbytes (5 + j) _ (by simp only [configLen]; omega) he, hquiet _ (List.getElem_mem hi),
      Option.none_or, hwritten, if_pos (by simp only [addrOffset]; omega), addrOffset,
      Nat.add_sub_cancel_left]
  refine ⟨data, hreplies, hdata, List.ext_getElem? fun j => ?_⟩
  rw [List.getElem?_take, List.getElem?_drop]
  split
  · exact hbyte j ‹_›
  · exact (List.getElem?_eq_none (by omega)).symm

end Sys2Proof.Machine
end

section
/-! Proofs: no step takes back what was observed (20_memory.md R68; 00_scope.md R5; 10_state.md
R29). -/

namespace Sys2Proof.Machine

/-! ### What is observed stays observed -/

/-- `t` comes after `s`: events and results are only appended, the record stands, and an initialised
block stays so. -/
structure Extends (s t : State) : Prop where
  trace : s.trace <+: t.trace
  replies : s.replies <+: t.replies
  params : t.params = s.params
  inited : s.inited = true → t.inited = true

theorem Extends.refl (s : State) : Extends s s where
  trace := ⟨[], List.append_nil _⟩
  replies := ⟨[], List.append_nil _⟩
  params := rfl
  inited := id

theorem Extends.trans {s t u : State} (h : Extends s t) (k : Extends t u) : Extends s u where
  trace := h.trace.trans k.trace
  replies := h.replies.trans k.replies
  params := k.params.trans h.params
  inited := k.inited ∘ h.inited

theorem Touched.toExtends {ls : List OutLine} {s t : State} (h : Touched ls s t) : Extends s t where
  trace := h.trace.imp fun _ => Eq.symm
  replies := ⟨[], by rw [h.replies, List.append_nil]⟩
  params := h.same.params
  inited := fun hi => h.same.inited.trans hi

theorem Extends.emit {s t : State} (h : Extends s t) (e : Event) : Extends s (t.emit e) :=
  h.trans (Touched.emit [] e t).toExtends

theorem Extends.reply {s t : State} (h : Extends s t) (r : Reply) : Extends s (t.reply r) :=
  { h with replies := h.replies.trans ⟨[r], rfl⟩ }

theorem Extends.finish {s t : State} (h : Extends s t) : Extends s t.finish := { h with }

theorem Extends.ret {s t : State} (h : Extends s t) (r : Reply) : Extends s (t.ret r) :=
  (h.reply r).finish

theorem Extends.request {s t : State} (h : Extends s t) (q : RegistryRequest) :
    Extends s (t.request q) := by
  rcases t.request_cases q with ⟨-, hr⟩ | ⟨-, hr⟩ <;> rw [hr] <;> exact { h with }

theorem Extends.requests {s t : State} (h : Extends s t) (qs : List RegistryRequest) :
    Extends s (qs.foldl (fun s q => s.request q) t) := by
  induction qs generalizing t with
  | nil => exact h
  | cons q qs ih => exact ih (h.request q)

/-! ### Instructions -/

theorem Performed.toExtends {i : Instr} {s t : State} (h : Performed i s t) : Extends s t := by
  cases h with
  | plain h => exact h.toExtends
  | address h _ => exact { h.toExtends with }
  | config h _ => exact { h.toExtends with }
  | inited h _ => exact { h.toExtends with inited := fun _ => rfl }
  | armed h => exact { h.toExtends with }
  | disarmed h k => exact h.toExtends.trans { k.toExtends with }
  | transmitted h => exact { h.toExtends with }

theorem ExecOutcome.toExtends {i : Instr} {s t : State} (h : ExecOutcome i s t) : Extends s t := by
  cases h with
  | held _ =>
    obtain ⟨port, hp, -⟩ := s.hold_eq i
    exact hp ▸ { Extends.refl s with }
  | refused m => exact (Extends.refl s).reply _
  | answered reply _ hu => exact hu.toExtends.reply reply
  | requested _ => exact ((Extends.refl s).request _).reply _
  | returned reply _ hu =>
    have hbegin : Extends s s.begin := { Extends.refl s with }
    exact (hbegin.trans hu.toExtends).ret reply
  | waits _ _ hu => exact { hu.toExtends with }

/-- An instruction only appends, in any state and on any access layer. -/
theorem exec_extends {i : Instr} {s t : State} (h : exec i s = .next t) : Extends s t :=
  (exec_outcome h).toExtends

/-! ### Polls, deliveries, the end of a dispatch -/

theorem TransmitEnds.toExtends {polls : Nat} {s t : State} (h : TransmitEnds polls s t) :
    Extends s t := by
  cases h with
  | returned reply hu => exact hu.toExtends.ret reply
  | waits hu => exact { hu.toExtends with }

theorem DrainEnds.toExtends {polls : Nat} {s t : State} (h : DrainEnds polls s t) :
    Extends s t := by
  cases h with
  | ended b e hu =>
    have hs : Extends s (s.withRxbuf b) := { Extends.refl s with }
    exact ((hs.trans hu.toExtends).emit _).finish
  | waits hu => exact { hu.toExtends with }
  | read _ hu => exact { hu.toExtends with }

/-- `RX.0` is no event. -/
theorem drainStart_extends (s : State) : Extends s (drainStart s) :=
  { (drainWait_ends 0 _).toExtends with }

/-- A delivery is an event; the requests of the consumer are answered to it and not to the host
(log 18). -/
theorem deliver_extends (h : ConsumerId) (payload : List Byte) (s : State) :
    Extends s (deliver h payload s) :=
  (polled_touched [] (.v h payload) s).toExtends.requests _

theorem dispatchStep_extends {snapshot : List ConsumerId} {i : Nat} {s t : State}
    (h : dispatchStep snapshot i s = .next t) : Extends s t := by
  rw [dispatchStep] at h
  split at h
  · cases h
  · split at h <;> cases h
    · exact { Extends.refl s with }
    · exact { deliver_extends _ _ s with }

theorem dispatchEnd_extends (aborted : Option Nat) (s : State) :
    Extends s (dispatchEnd aborted s) := by
  have happly : Extends s (applyDeferred s) := { Extends.refl s with }
  cases aborted with
  | none => exact happly.finish
  | some i => exact (happly.emit _).finish

/-! ### Every step, from every state -/

theorem exec_takePort_extends {i : Instr} {s t : State} (h : exec i s.takePort = .next t) :
    Extends s t :=
  { exec_extends h with }

theorem continueDispatch_extends {next : State → Host.Outcome State Fault Refusal} {s t : State}
    (h : continueDispatch next s = .next t) (hn : next s = .next t → Extends s t) :
    Extends s t := by
  rw [continueDispatch] at h
  split at h
  · split at h
    · exact exec_takePort_extends h
    · exact hn h
  · exact hn h

theorem continueOperation_extends {s t : State} (h : continueOperation s = .next t) :
    Extends s t := by
  rw [continueOperation] at h
  split at h
  case h_1 =>
    cases h
    exact .refl s
  case h_2 polls _ =>
    cases h
    exact (transmitWait_ends polls s).toExtends
  case h_3 polls _ =>
    cases h
    exact (drainWait_ends polls s).toExtends
  case h_4 => exact continueDispatch_extends h dispatchStep_extends
  case h_5 aborted _ =>
    refine continueDispatch_extends h fun h => ?_
    cases h
    exact dispatchEnd_extends aborted s

theorem arbitrate_extends {s t : State} (h : arbitrate s = .next t) : Extends s t := by
  rw [arbitrate] at h
  split at h
  · cases h
    exact drainStart_extends s
  · split at h
    · cases h
      exact .refl s
    · exact exec_takePort_extends h

theorem runPresented_extends {s t : State} (h : runPresented s = .next t) : Extends s t := by
  rw [runPresented] at h
  split at h
  · exact continueOperation_extends h
  · exact (Touched.advance [] s).toExtends.trans (arbitrate_extends h)

theorem runFramerCall_extends {bytes : List Byte} {s t : State}
    (h : runFramerCall bytes s = .next t) : Extends s t := by
  rw [runFramerCall] at h
  split at h
  · exact exec_extends h
  · cases h

/-- The host's next command and the call taken from the framer's port are no observations. -/
theorem step_extends {s t : State} (h : step s = .next t) : Extends s t := by
  rw [step, sequencerStep] at h
  split at h
  · exact { runFramerCall_extends h with }
  · obtain ⟨port, host, hp⟩ := s.present_eq
    rw [hp] at h
    exact { runPresented_extends h with }

/-- Settles O59: a step is a call of the framer, an instruction, or the next part of a drain, a
dispatch or a sendPacket, and each of these extends what was observed (`step_extends`). -/
theorem historyOnlyGrows : Obligations.HistoryOnlyGrows := by
  intro s t h
  obtain ⟨⟨evs, htrace⟩, ⟨rs, hreplies⟩, hparams, hinited⟩ := step_extends h
  exact ⟨⟨evs, htrace.symm⟩, ⟨rs, hreplies.symm⟩, hparams, hinited⟩

end Sys2Proof.Machine
end

section
/-! Proofs: decode and encode agree in both directions, and what the write-config byte carries
(30_encoding.md R92 to R103). -/

namespace Sys2Proof.Machine

/-! ### The bits of the write-config byte -/

/-- On the sixteen start offsets the mask is idle. -/
theorem ofNat_and_offsetMask {k : Nat} (hk : k < 16) :
    BitVec.ofNat 8 k &&& offsetMask = BitVec.ofNat 8 k := by
  have hmask : ∀ k ∈ List.range 16, BitVec.ofNat 8 k &&& offsetMask = BitVec.ofNat 8 k := by decide
  exact hmask k (List.mem_range.mpr hk)

/-- The encoder's write-config byte is the framer's. -/
theorem Params.wcByte_toNat (p : Params) (k : Nibble) :
    p.wcByte k.toNat = p.opWC ||| k.setWidth 8 := by
  rw [Params.wcByte, ofNat_and_offsetMask k.isLt, BitVec.ofNat_toNat]

theorem highNibble_or_offsetMask (b : Byte) : highNibble b ||| (b &&& offsetMask) = b := by
  rw [highNibble, offsetMask, ← BitVec.and_or_distrib_left]
  exact BitVec.and_allOnes

/-- The low nibble widened again is the byte under the offset mask. -/
theorem setWidth_startOffset (b : Byte) : (startOffset b).setWidth 8 = b &&& offsetMask := by
  apply BitVec.eq_of_toNat_eq
  rw [startOffset, BitVec.toNat_setWidth, BitVec.toNat_setWidth, BitVec.toNat_and,
    show (offsetMask : Byte).toNat = 2 ^ 4 - 1 from rfl, Nat.and_two_pow_sub_one_eq_mod]
  omega

/-- The base opcode of a valid record has nothing in its low nibble (00_scope.md R6). -/
theorem Params.highNibble_opWC {p : Params} (h : p.valid = true) : highNibble p.opWC = p.opWC := by
  obtain ⟨h0, -⟩ := Params.valid_facts h
  have hsplit := highNibble_or_offsetMask p.opWC
  rwa [h0, BitVec.ofNat_eq_ofNat, BitVec.or_zero] at hsplit

/-- An indexed byte is the base opcode with its own low nibble (30_encoding.md R93). -/
theorem Params.wcByte_startOffset {p : Params} (h : p.valid = true) {b : Byte}
    (hb : highNibble b = highNibble p.opWC) : p.opWC ||| (startOffset b).setWidth 8 = b := by
  rw [setWidth_startOffset, ← Params.highNibble_opWC h, ← hb, highNibble_or_offsetMask]

/-! ### Decoding what was encoded -/

theorem decodeFirstByte_wcByte {p : Params} (h : p.valid = true) (k : Nibble) (data : List Byte) :
    decodeFirstByte p (p.wcByte k.toNat) data = .ok (.wc k data) := by
  obtain ⟨hrc, hwtp, hwta, hrrp⟩ := (Params.opcodes_distinct h).1 k.toNat k.isLt
  rw [decodeFirstByte, if_neg hrc, if_neg hwtp, if_neg hwta, if_neg hrrp,
    if_pos (Params.highNibble_wcByte h _), Params.startOffset_wcByte h, BitVec.ofNat_toNat,
    BitVec.setWidth_eq]

theorem decodeFirstByte_opRC (p : Params) : decodeFirstByte p p.opRC [] = .ok .rc := by
  rw [decodeFirstByte, if_pos rfl, if_pos rfl]

theorem decodeFirstByte_opWTP {p : Params} (h : p.valid = true) (payload : List Byte) :
    decodeFirstByte p p.opWTP payload = .ok (.wtp payload) := by
  obtain ⟨-, hrc, -⟩ := Params.opcodes_distinct h
  rw [decodeFirstByte, if_neg hrc.symm, if_pos rfl]

theorem decodeFirstByte_opWTA {p : Params} (h : p.valid = true) (address : List Byte) :
    decodeFirstByte p p.opWTA address = .ok (.wta address) := by
  obtain ⟨-, -, hrc, -, hwtp, -⟩ := Params.opcodes_distinct h
  rw [decodeFirstByte, if_neg hrc.symm, if_neg hwtp.symm, if_pos rfl]

theorem decodeFirstByte_opRRP {p : Params} (h : p.valid = true) :
    decodeFirstByte p p.opRRP [] = .ok .rrp := by
  obtain ⟨-, -, -, hrc, -, hwtp, hwta⟩ := Params.opcodes_distinct h
  rw [decodeFirstByte, if_neg hrc.symm, if_neg hwtp.symm, if_neg hwta.symm, if_pos rfl, if_pos rfl]

/-- The two low bits of the codes 0xC to 0xF (30_encoding.md R103). -/
theorem decodeCommand_unassigned (x : BitVec 2) :
    decodeCommand (.bare (0xC ||| x.setWidth 4)) = .unassignedCToF x := by
  revert x
  decide

/-- Settles O2: an instruction byte meets none of the tests before its own, since the opcodes of a
valid record differ; a command code selects its own row. -/
theorem decodeOfEncodeIsTheInstruction : Obligations.DecodeOfEncodeIsTheInstruction := by
  intro p i h _
  cases i with
  | wc k data =>
    rw [encode, ← Params.wcByte_toNat]
    exact decodeFirstByte_wcByte h k data
  | rc => exact decodeFirstByte_opRC p
  | wtp payload => exact decodeFirstByte_opWTP h payload
  | wta address => exact decodeFirstByte_opWTA h address
  | rrp => exact decodeFirstByte_opRRP h
  | unassignedCToF x => exact congrArg Except.ok (decodeCommand_unassigned x)
  | _ => rfl

/-! ### Encoding what was decoded -/

theorem encode_decodeFirstByte {p : Params} (h : p.valid = true) {b : Byte} {data : List Byte}
    {i : Instr} (hd : decodeFirstByte p b data = .ok i) : encode p i = .frame (b :: data) := by
  rw [decodeFirstByte] at hd
  split at hd
  case isTrue hb =>
    split at hd <;> cases hd
    rw [encode, hb, ‹data = []›]
  split at hd
  case isTrue hb =>
    cases hd
    rw [encode, hb]
  split at hd
  case isTrue hb =>
    cases hd
    rw [encode, hb]
  split at hd
  case isTrue hb =>
    split at hd <;> cases hd
    rw [encode, hb, ‹data = []›]
  split at hd <;> cases hd
  rw [encode, Params.wcByte_startOffset h ‹_›]

/-- Settles O3, over the rows of the decoder (`encode_decodeFirstByte`). -/
theorem encodeOfDecodedFrameIsTheFrame : Obligations.EncodeOfDecodedFrameIsTheFrame := by
  intro p bytes i h hd
  cases bytes with
  | nil => cases hd
  | cons b data => exact encode_decodeFirstByte h hd

/-- Settles O1: the words are literals, the decoder computes. -/
theorem writtenWordsDecode : Obligations.WrittenWordsDecode := by
  unfold Obligations.WrittenWordsDecode
  decide

end Sys2Proof.Machine
end

section
/-! Proofs: the operand checks in their order, and the calls they refuse (30_encoding.md R99, R103, R105,
R106). -/

namespace Sys2Proof.Machine

/-! ### Address normalisation -/

theorem normAddr_of_lt {a : List Byte} (h : a.length < addrLen) :
    normAddr a = .error .badAddressLength := if_pos h

theorem normAddr_of_le {a : List Byte} (h : addrLen ≤ a.length) :
    normAddr a = .ok (a.take addrLen) := if_neg (Nat.not_lt.mpr h)

/-- The first four bytes of an address stand for it (30_encoding.md R105). -/
theorem normAddr_take {a : List Byte} (h : addrLen ≤ a.length) :
    normAddr (a.take addrLen) = normAddr a := by
  rw [normAddr_of_le h, normAddr_of_length (List.length_take_of_le h)]

/-! ### The checks in their order -/

theorem checkInited_of_uninited {s : State} (h : s.inited = false) :
    checkInited s = .error .notInitialised := by simp [checkInited, h]

theorem checkNotInited_of_inited {s : State} (h : s.inited = true) :
    checkNotInited s = .error .alreadyInitialised := if_pos h

theorem checkWriteConfig_of_uninited {s : State} (h : s.inited = false) (k : Nat)
    (bytes : List Byte) : checkWriteConfig k bytes s = .error .notInitialised := by
  rw [checkWriteConfig, checkInited_of_uninited h]

theorem checkWriteConfig_of_gt {s : State} (h : s.inited = true) {k : Nat} {bytes : List Byte}
    (hk : configLen < k + bytes.length) : checkWriteConfig k bytes s = .error .badConfigRange := by
  rw [checkWriteConfig, checkInited_of_inited h]
  exact checkConfigRange_of_gt hk

theorem checkSendPacket_of_uninited {s : State} (h : s.inited = false) (a payload : List Byte) :
    checkSendPacket a payload s = .error .notInitialised := by
  rw [checkSendPacket, checkInited_of_uninited h]

theorem checkSendPacket_of_shortAddress {s : State} (h : s.inited = true) {a : List Byte}
    (ha : a.length < addrLen) (payload : List Byte) :
    checkSendPacket a payload s = .error .badAddressLength := by
  rw [checkSendPacket, checkInited_of_inited h, normAddr_of_lt ha]

theorem checkSendPacket_of_longPayload {s : State} (h : s.inited = true) {a payload : List Byte}
    (ha : addrLen ≤ a.length) (hp : s.params.txPayloadMax < payload.length) :
    checkSendPacket a payload s = .error .badPayloadLength := by
  rw [checkSendPacket, checkInited_of_inited h, normAddr_of_le ha, checkPayload_of_gt hp]

theorem checkSendPacket_take {a : List Byte} (ha : addrLen ≤ a.length) (payload : List Byte)
    (s : State) : checkSendPacket (a.take addrLen) payload s = checkSendPacket a payload s := by
  simp only [checkSendPacket, normAddr_take ha]

/-! ### Refused calls -/

/-- An idle block refuses a command whose check fails, and runs nothing (30_encoding.md R106). -/
theorem acceptThen_of_error {α : Type} {i : Instr} {check : Except Malformed α} {m : Malformed}
    {body : α → State → Host.Outcome State Fault Refusal} {s : State} (hb : s.busy = false)
    (h : check = .error m) : acceptThen i check body s = .next (s.refuse m) := by
  simp [acceptThen, hb, h]

/-- The same of a command that always has a next state. -/
theorem accept_of_error {α : Type} {i : Instr} {check : Except Malformed α} {m : Malformed}
    {body : α → State → State} {s : State} (hb : s.busy = false) (h : check = .error m) :
    accept i check body s = .next (s.refuse m) := acceptThen_of_error hb h

/-- Which instruction it is matters to a busy block only, which holds it. -/
theorem acceptThen_of_idle {α : Type} (i j : Instr) (check : Except Malformed α)
    (body : α → State → Host.Outcome State Fault Refusal) {s : State} (hb : s.busy = false) :
    acceptThen i check body s = acceptThen j check body s := by
  simp [acceptThen, hb]

theorem execSetAddress_of_shortAddress {s : State} (hb : s.busy = false) {a : List Byte}
    (ha : a.length < addrLen) : execSetAddress a s = .next (s.refuse .badAddressLength) :=
  accept_of_error hb (normAddr_of_lt ha)

theorem execSendPacket_of_shortAddress {s : State} (hb : s.busy = false) (hi : s.inited = true)
    {a : List Byte} (ha : a.length < addrLen) (payload : List Byte) :
    execSendPacket a payload s = .next (s.refuse .badAddressLength) :=
  acceptThen_of_error hb (checkSendPacket_of_shortAddress hi ha payload)

theorem execWriteConfig_of_gt {s : State} (hb : s.busy = false) (hi : s.inited = true) {k : Nat}
    {bytes : List Byte} (hk : configLen < k + bytes.length) :
    execWriteConfig k bytes s = .next (s.refuse .badConfigRange) :=
  accept_of_error hb (checkWriteConfig_of_gt hi hk)

theorem execWta_of_shortAddress {a : List Byte} (ha : a.length < addrLen) (s : State) :
    execWta a s = .next (s.refuse .badAddressLength) :=
  framerCall_of_error _ s (normAddr_of_lt ha)

theorem execInit_of_inited {s : State} (hb : s.busy = false) (hi : s.inited = true) :
    execInit s = .next (s.refuse .alreadyInitialised) :=
  accept_of_error hb (checkNotInited_of_inited hi)

theorem execSendPacket_of_longPayload {s : State} (hb : s.busy = false) (hi : s.inited = true)
    {a payload : List Byte} (ha : addrLen ≤ a.length) (hp : s.params.txPayloadMax < payload.length) :
    execSendPacket a payload s = .next (s.refuse .badPayloadLength) :=
  acceptThen_of_error hb (checkSendPacket_of_longPayload hi ha hp)

theorem execWriteConfig_of_uninited {s : State} (hb : s.busy = false) (h : s.inited = false)
    (k : Nat) (bytes : List Byte) :
    execWriteConfig k bytes s = .next (s.refuse .notInitialised) :=
  accept_of_error hb (checkWriteConfig_of_uninited h k bytes)

theorem execSendPacket_of_uninited {s : State} (hb : s.busy = false) (h : s.inited = false)
    (a payload : List Byte) : execSendPacket a payload s = .next (s.refuse .notInitialised) :=
  acceptThen_of_error hb (checkSendPacket_of_uninited h a payload)

/-- Settles O4: the base opcode has no low nibble (R6), and an accepted offset has no high one. -/
theorem configInstructionByteIsBitwise : Obligations.ConfigInstructionByteIsBitwise := by
  refine ⟨fun _ _ => rfl, fun k bytes hk => ofNat_and_offsetMask (by omega),
    fun p k h _ => Params.startOffset_wcByte h k, fun s k bytes hb hi hk => ?_⟩
  exact execWriteConfig_of_gt hb hi (by simp only [configLen]; omega)

/-! ### Clamped addresses -/

theorem execSetAddress_take {s : State} (hb : s.busy = false) {a : List Byte}
    (ha : addrLen ≤ a.length) : execSetAddress a s = execSetAddress (a.take addrLen) s := by
  rw [execSetAddress, execSetAddress, normAddr_take ha]
  exact acceptThen_of_idle _ _ _ _ hb

theorem execSendPacket_take {s : State} (hb : s.busy = false) {a : List Byte}
    (ha : addrLen ≤ a.length) (payload : List Byte) :
    execSendPacket a payload s = execSendPacket (a.take addrLen) payload s := by
  rw [execSendPacket, execSendPacket, checkSendPacket_take ha]
  exact acceptThen_of_idle _ _ _ _ hb

theorem execWta_take {a : List Byte} (ha : addrLen ≤ a.length) (s : State) :
    execWta a s = execWta (a.take addrLen) s := by
  rw [execWta, execWta, normAddr_take ha]

/-- Settles O11: each user of an address sees it through `normAddr` only. -/
theorem addressesAreClampedOrRefused : Obligations.AddressesAreClampedOrRefused :=
  ⟨fun _ ha => normAddr_of_length ha, fun _ ha => normAddr_of_le (Nat.le_of_lt ha),
    fun _ ha => normAddr_of_lt ha, fun _ _ hb ha => execSetAddress_of_shortAddress hb ha,
    fun _ _ payload hb hi ha => execSendPacket_of_shortAddress hb hi ha payload,
    fun s _ ha => execWta_of_shortAddress ha s,
    fun s _ payload hb ha =>
      ⟨execSetAddress_take hb ha, execSendPacket_take hb ha payload, execWta_take ha s⟩⟩

/-! ### Unassigned codes -/

theorem unknownCommand_of_idle (i : Instr) {s : State} (hb : s.busy = false) :
    unknownCommand i s = .next (s.refuse .unknownCommand) := by simp [unknownCommand, hb]

/-- From 0xB on no code has an operation (30_encoding.md R103). -/
theorem decodeCommand_of_unassigned {c : PortCommand} (h : 0xB ≤ c.code.toNat) :
    decodeCommand c = .unassignedB ∨ ∃ x, decodeCommand c = .unassignedCToF x := by
  rw [decodeCommand]
  split
  case h_12 => exact .inl rfl
  case h_13 => exact .inr ⟨_, rfl⟩
  all_goals omega

/-- Settles O34: the codes from 0xB on decode to the two rows without an operation. -/
theorem unassignedCodesAreRefused : Obligations.UnassignedCodesAreRefused := by
  intro s hb
  refine ⟨unknownCommand_of_idle _ hb, fun x => unknownCommand_of_idle _ hb, fun c hc => ?_⟩
  rcases decodeCommand_of_unassigned hc with h | ⟨x, h⟩ <;> rw [h]
  · exact unknownCommand_of_idle _ hb
  · exact unknownCommand_of_idle _ hb

/-! ### Malformed calls -/

/-- Before initialisation an idle block refuses every operation that checks `INITED` (10_state.md
R29). -/
theorem exec_of_uninited {s : State} (hb : s.busy = false) (h : s.inited = false) {i : Instr}
    (hi : i = .readConfig ∨ i = .powerUp ∨ i = .powerDown ∨ i = .startReceiveMode ∨
      i = .stopReceiveMode ∨ (∃ k b, i = .writeConfig k b) ∨ ∃ a p, i = .sendPacket a p) :
    exec i s = .next (s.refuse .notInitialised) := by
  have hc := checkInited_of_uninited h
  rcases hi with rfl | rfl | rfl | rfl | rfl | ⟨k, bytes, rfl⟩ | ⟨a, payload, rfl⟩
  · exact (acceptThen_of_error hb hc : execReadConfig s = _)
  · exact (accept_of_error hb hc : execPowerUp s = _)
  · exact (accept_of_error hb hc : execPowerDown s = _)
  · exact (accept_of_error hb hc : execStartReceiveMode s = _)
  · exact (accept_of_error hb hc : execStopReceiveMode s = _)
  · exact execWriteConfig_of_uninited hb h k bytes
  · exact execSendPacket_of_uninited hb h a payload

/-- Settles O35: the first check that fails, in the order of R106, gives the answer, and the operation is
not begun. -/
theorem malformedCallsChangeNothing : Obligations.MalformedCallsChangeNothing := fun _ hb =>
  ⟨fun hi => execInit_of_inited hb hi, fun h _ hi => exec_of_uninited hb h hi,
    fun hi _ _ hk => execWriteConfig_of_gt hb hi hk,
    fun _ ha => execSetAddress_of_shortAddress hb ha,
    fun hi _ payload ha => execSendPacket_of_shortAddress hb hi ha payload,
    fun hi _ _ ha hp => execSendPacket_of_longPayload hb hi ha hp,
    fun _ => rfl⟩

end Sys2Proof.Machine
end

section
/-! Proofs: the five bus instructions complete on an access layer that does not fail (30_encoding.md R93
to R97; 20_memory.md R63, R67, R71). -/

namespace Sys2Proof.Machine

/-! ### Calls of the framer -/

/-- A sequence that completes does so with any result put in the place of its own. -/
theorem Completes.returning {α β : Type} {r : Res α} {n : Nat} {outs : List Event} {s : State}
    {q : α → Prop} (h : Completes r n outs s q) (b : β) :
    Completes (r.andThen fun _ s => .ok b s) n outs s (· = b) := by
  obtain ⟨a, t, evs, rfl, hran, ho, -⟩ := h
  exact ⟨b, t, evs, rfl, hran, ho, rfl⟩

/-- A call of the framer whose frame completes answers its result after that run. -/
theorem framerCall_of_completes {α : Type} {check : Except Malformed α} {a : α}
    {body : α → State → Res Reply} {n : Nat} {outs : List Event} {s : State} {reply : Reply}
    (hc : check = .ok a) (h : Completes (body a s) n outs s (· = reply)) :
    ∃ t evs, framerCall check body s = .next (t.reply reply) ∧ Ran n evs s t ∧
      outward evs = outs := by
  obtain ⟨_, t, evs, hr, hran, ho, rfl⟩ := h
  exact ⟨t, evs, by rw [hc, framerCall, hr, concludeCall], hran, ho⟩

/-! ### Write frames -/

/-- A call of the framer at `s` has sent the frame of `instr` and `data` and was answered ok at `t`: no
register changed, the lines are as before with chip-select released, the reference environment has stored
the data. -/
structure WriteFrameAnswered (instr : Byte) (data : List Byte) (s t : State) : Prop where
  same : SameRegisters s t
  lines : t.lines = { s.lines with csn := true }
  trace : outward t.trace = outward s.trace ++ writeFrameEvents instr data
  replies : t.replies = s.replies ++ [.ok]
  chip : t.chip =
    { Chip.storeFrom s.params (chipOpOf s.params instr) 0 data s.chip with frame := .released }

theorem writeConfigFrame_completes (k : Nat) (data : List Byte) {s : State}
    (h : s.params.halFallible = false) :
    Completes (writeConfigFrame k data s) (3 + data.length)
      (writeFrameEvents (s.params.wcByte k) data) s (· = ()) :=
  (writeFrame_completes (s.params.wcByte k) data h).returning ()

theorem writeTransmitPayload_completes (payload : List Byte) {s : State}
    (h : s.params.halFallible = false) :
    Completes (writeTransmitPayload payload s) (3 + payload.length)
      (writeFrameEvents s.params.opWTP payload) s (· = ()) :=
  ((writeFrame_completes s.params.opWTP payload h).inside .wtp1).returning ()

theorem writeTransmitAddress_completes (address : List Byte) {s : State}
    (h : s.params.halFallible = false) :
    Completes (writeTransmitAddress address s) (3 + address.length)
      (writeFrameEvents s.params.opWTA address) s (· = ()) :=
  ((writeFrame_completes s.params.opWTA address h).inside .wta1).returning ()

/-- A call of the framer that its check accepts sends its write frame. -/
theorem framerCall_writeFrame {α : Type} {check : Except Malformed α} {a : α}
    {body : α → State → Res Reply} {instr : Byte} {data : List Byte} {n : Nat} {s : State}
    (hop : chipOpOf s.params instr ≠ .readPayload) (hc : check = .ok a)
    (h : Completes (body a s) n (writeFrameEvents instr data) s (· = .ok)) :
    ∃ t, framerCall check body s = .next t ∧ WriteFrameAnswered instr data s t := by
  obtain ⟨t, evs, hcall, hran, ho⟩ := framerCall_of_completes hc h
  refine ⟨_, hcall, hran.same.trans (.reply _ _), ?_, ?_, ?_, ?_⟩
  · rw [State.reply_lines, hran.lines, ← linesAfter_outward, ho, linesAfter_writeFrame]
  · rw [State.reply_trace, hran.trace, outward_append, ho]
  · rw [State.reply_replies, hran.replies]
  · rw [State.reply_chip, hran.chip, ← chipAfter_outward, ho, chipAfter_writeFrame _ _ _ _ _ hop]

theorem execWc_answered {s : State} (hf : s.params.halFallible = false)
    (hv : s.params.valid = true) {k : Nibble} {data : List Byte}
    (hk : k.toNat + data.length ≤ configLen) :
    ∃ t, execWc k data s = .next t ∧ WriteFrameAnswered (s.params.wcByte k.toNat) data s t := by
  have hop := chipOpOf_wcByte hv (Nat.le_of_add_right_le hk)
  have hc : checkConfigRange k.toNat data = .ok () := if_pos (decide_eq_true hk)
  exact framerCall_writeFrame (by simp [hop]) hc
    (((writeConfigFrame_completes k.toNat data hf).inside .wc2).returning Reply.ok)

theorem execWtp_answered {s : State} (hf : s.params.halFallible = false)
    (hv : s.params.valid = true) {payload : List Byte}
    (hp : payload.length ≤ s.params.txPayloadMax) :
    ∃ t, execWtp payload s = .next t ∧ WriteFrameAnswered s.params.opWTP payload s t := by
  obtain ⟨-, hop, -⟩ := chipOpOf_fixed hv
  have hc : checkPayload s.params payload = .ok () := if_pos (decide_eq_true hp)
  exact framerCall_writeFrame (by simp [hop]) hc
    ((writeTransmitPayload_completes payload hf).returning Reply.ok)

theorem execWta_answered {s : State} (hf : s.params.halFallible = false)
    (hv : s.params.valid = true) {address : List Byte} (ha : address.length = addrLen) :
    ∃ t, execWta address s = .next t ∧ WriteFrameAnswered s.params.opWTA address s t := by
  obtain ⟨-, -, hop, -⟩ := chipOpOf_fixed hv
  exact framerCall_writeFrame (by simp [hop]) (normAddr_of_length ha)
    ((writeTransmitAddress_completes address hf).returning Reply.ok)

/-- Settles O19: each call sends its frame (`framerCall_writeFrame`), and the opcodes of a valid record
select the space the data are stored in. -/
theorem writeFrameInstructionsComplete : Obligations.WriteFrameInstructionsComplete := by
  intro s hf hv
  obtain ⟨-, hwtp, hwta, -⟩ := chipOpOf_fixed hv
  refine ⟨fun k data hk => ?_, fun payload hp => ?_, fun address ha => ?_⟩
  · obtain ⟨t, hexec, hsame, hlines, htrace, hreplies, hchip⟩ := execWc_answered hf hv hk
    rw [chipOpOf_wcByte hv (Nat.le_of_add_right_le hk)] at hchip
    rw [Params.wcByte_toNat] at htrace
    exact ⟨t, hexec, hsame, hlines, htrace, hreplies, hchip ▸
      Chip.storeFrom_config s.params k.toNat data 0 s.chip hk⟩
  · obtain ⟨t, hexec, hsame, hlines, htrace, hreplies, hchip⟩ := execWtp_answered hf hv hp
    rw [hwtp] at hchip
    exact ⟨t, hexec, hsame, hlines, htrace, hreplies, hchip ▸
      Chip.storeFrom_payload s.params payload 0 s.chip (by omega)⟩
  · obtain ⟨t, hexec, hsame, hlines, htrace, hreplies, hchip⟩ := execWta_answered hf hv ha
    rw [hwta] at hchip
    exact ⟨t, hexec, hsame, hlines, htrace, hreplies, hchip ▸
      Chip.storeFrom_address s.params address 0 s.chip (by simp [ha, addrLen])⟩

end Sys2Proof.Machine
end

section
/-! Proofs: the two read frames, the bytes they return and the moments these came in at
(40_command_framer.md R121, R124, R126; 20_memory.md R62, R67, R71). -/

namespace Sys2Proof.Machine

/-! ### Primitives that complete, with their events -/

theorem pinWrite_ran {label : StepLabel} {l : OutLine} {v : Level} {s t : State} {a : Unit}
    (h : pinWrite label l v s = .ok a t) : Ran 1 [.w l v] s t := by
  rw [pinWrite] at h
  split at h <;> cases h
  exact (Ran.advance s).trans (.write l v _)

/-- The byte a transfer returns is the byte of its event. -/
theorem xfer_ran {label : StepLabel} {o i : Byte} {s t : State} (h : xfer label o s = .ok i t) :
    Ran 1 [.x o i] s t := by
  rw [xfer] at h
  split at h <;> cases h
  exact (Ran.advance s).trans (.emit _ _ (by simp))

theorem delay_ran {label : StepLabel} {d : Duration} {s t : State} {a : Unit}
    (h : delay label d s = .ok a t) : Ran 1 [.d d] s t := by
  rw [delay] at h
  split at h <;> cases h
  exact (Ran.advance s).trans (.emit _ _ (by simp))

theorem spacing_ran {label : StepLabel} {spaced : Bool} {s t : State} {a : Unit}
    (h : spacing label spaced s = .ok a t) :
    Ran (if spaced then 1 else 0) (if spaced then [.d .byte] else []) s t := by
  cases spaced with
  | false =>
    cases h
    exact .refl s
  | true => exact delay_ran h

/-! ### Read frames -/

/-- The events at the start of a read frame, up to its first data byte (40_command_framer.md R126). -/
def openingEvents (spaced : Bool) (instr i : Byte) : List Event :=
  [Event.w .csn false, .x instr i] ++ if spaced then [.d .byte] else []

/-- The events of a read frame of either kind. -/
def readEvents : Bool → Byte → Byte → List Byte → List Event
  | false => readFrameEvents
  | true => spacedFrameEvents

theorem readEvents_eq (spaced : Bool) (instr i : Byte) (data : List Byte) :
    readEvents spaced instr i data =
      openingEvents spaced instr i ++ receivedEvents spaced data ++ [Event.w .csn true] := by
  cases spaced with
  | false => simp [readEvents, readFrameEvents, openingEvents, receivedEvents, List.map_eq_flatMap]
  | true => rfl

/-- What a read frame that completes is: its opening, its data bytes, the release of the chip
(40_command_framer.md R126). -/
theorem readFrame_ok {instr : Byte} {n : Nat} {spaced : Bool} {s t : State} {data : List Byte}
    (h : frame instr [] n spaced s = .ok data t) :
    ∃ i u v, Ran (if spaced then 3 else 2) (openingEvents spaced instr i) s u ∧
      receiveBytes spaced n u = .ok data v ∧ Ran 1 [.w .csn true] v t := by
  obtain ⟨_, s1, hopen, h⟩ := Res.andThen_ok h
  obtain ⟨i, s2, hinstr, h⟩ := Res.andThen_ok h
  obtain ⟨_, u, hspacing, h⟩ := Res.andThen_ok h
  obtain ⟨_, _, ⟨⟩, h⟩ := Res.andThen_ok h
  obtain ⟨_, v, hdata, h⟩ := Res.andThen_ok h
  obtain ⟨_, _, hclose, ⟨⟩⟩ := Res.andThen_ok h
  refine ⟨i, u, v, ?_, hdata, pinWrite_ran hclose⟩
  have hran := (pinWrite_ran hopen).trans ((xfer_ran hinstr).trans (spacing_ran hspacing))
  cases spaced <;> exact hran

/-- The trace of a read frame holds the bytes it returns. -/
theorem readFrame_trace {instr : Byte} {n : Nat} {spaced : Bool} {s t : State} {data : List Byte}
    (h : frame instr [] n spaced s = .ok data t) :
    ∃ i, t.trace = s.trace ++ readEvents spaced instr i data := by
  obtain ⟨i, u, v, hopen, hdata, hclose⟩ := readFrame_ok h
  refine ⟨i, ?_⟩
  rw [hclose.trace, receiveBytes_events spaced n hdata, hopen.trace, readEvents_eq]
  simp only [List.append_assoc]

/-- Byte `j` of a read frame comes in behind its opening, one or two micro-steps a byte. -/
theorem readFrame_clockedIn {instr : Byte} {n : Nat} {spaced : Bool} {s t : State}
    {data : List Byte} (h : frame instr [] n spaced s = .ok data t) :
    ClockedIn s (if spaced then 3 else 2) (if spaced then 2 else 1) data := by
  obtain ⟨i, u, v, hopen, hdata, -⟩ := readFrame_ok h
  intro j m b hj he hb
  rw [receiveBytes_length hdata] at hj
  refine receiveBytes_clocked spaced n hdata j m b hj ?_ hb
  rwa [hopen.env, List.getElem?_drop]

theorem linesAfter_readFrame (ls : Lines) (instr : Byte) (spaced : Bool) (n : Nat) :
    linesAfter ls (openingEvents spaced instr 0 ++ receiveEvents spaced n ++
      [Event.w .csn true]) = { ls with csn := true } := by
  rw [linesAfter_append, linesAfter_append, linesAfter_receiveEvents]
  cases spaced <;> rfl

/-- A call of the framer at `s` has run the read frame of `instr` and was answered with the bytes `data`
at `t`: these are the bytes that came in, no register changed, the lines are as before with chip-select
released, the reference environment has stored nothing, and has given up its packet to a
read-received-payload frame. -/
structure ReadFrameAnswered (instr : Byte) (spaced : Bool) (data : List Byte) (s t : State) :
    Prop where
  trace : ∃ i, t.trace = s.trace ++ readEvents spaced instr i data
  replies : t.replies = s.replies ++ [.bytes data]
  same : SameRegisters s t
  lines : t.lines = { s.lines with csn := true }
  config : t.chip.config = s.chip.config
  txPayload : t.chip.txPayload = s.chip.txPayload
  txAddress : t.chip.txAddress = s.chip.txAddress
  rxPayload : t.chip.rxPayload =
    if chipOpOf s.params instr = .readPayload then [] else s.chip.rxPayload

/-- On an access layer that does not fail a read frame completes, and its bytes are the answer of a call
that returns them. -/
theorem readFrame_answered {instr : Byte} (n : Nat) (spaced : Bool) {s : State}
    (hf : s.params.halFallible = false)
    (hop : chipOpOf s.params instr = .readConfig ∨ chipOpOf s.params instr = .readPayload) :
    ∃ data t, frame instr [] n spaced s = .ok data t ∧
      ReadFrameAnswered instr spaced data s (t.reply (.bytes data)) := by
  obtain ⟨data, t, evs, hframe, hran, ho, -⟩ := frame_completes instr [] n spaced hf
  rw [List.map_nil, List.append_nil, ← openingEvents] at ho
  obtain ⟨i, htrace⟩ := readFrame_trace hframe
  have hlines := hran.lines
  rw [← linesAfter_outward, ho, linesAfter_readFrame] at hlines
  have hchip := hran.chip
  rw [← chipAfter_outward, ho, openingEvents, chipAfter_readFrame _ _ _ _ _ _ hop] at hchip
  exact ⟨data, t, hframe,
    { trace := ⟨i, htrace⟩
      replies := by rw [State.reply_replies, hran.replies]
      same := hran.same.trans (.reply _ _)
      lines := hlines
      config := by rw [State.reply_chip, hchip]
      txPayload := by rw [State.reply_chip, hchip]
      txAddress := by rw [State.reply_chip, hchip]
      rxPayload := by rw [State.reply_chip, hchip] }⟩

/-! ### The read-config frame -/

theorem execRc_answered {s : State} (hf : s.params.halFallible = false)
    (hv : s.params.valid = true) (hc : ConfigHasValues s) :
    ∃ data t, execRc s = .next t ∧ ReadFromConfig s data ∧
      ReadFrameAnswered s.params.opRC false data s t := by
  obtain ⟨hop, -⟩ := chipOpOf_fixed hv
  obtain ⟨data, t, hframe, ht⟩ := readFrame_answered configLen false hf (.inl hop)
  have hread : readConfigFrame s = .ok data t := by rw [readConfigFrame, hframe, Res.inside]
  refine ⟨data, _, ?_, readConfigFrame_reads hv hc hread, ht⟩
  rw [execRc, if_pos (configAnswered_of_values hc), framerCall, readConfigSteps, hread]
  rfl

/-! ### The read-received-payload frame -/

theorem execRrp_answered {s : State} (hf : s.params.halFallible = false)
    (hv : s.params.valid = true) :
    ∃ data t, execRrp s = .next t ∧ data.length = rxPayloadLen ∧ ClockedIn s 3 2 data ∧
      ReadFrameAnswered s.params.opRRP true data s t := by
  obtain ⟨-, -, -, hop⟩ := chipOpOf_fixed hv
  obtain ⟨data, t, hframe, ht⟩ := readFrame_answered rxPayloadLen true hf (.inr hop)
  have hread : readReceivedPayload s = .ok data t := by
    rw [readReceivedPayload, hframe, Res.inside]
  refine ⟨data, _, ?_, frame_length hframe, readFrame_clockedIn hframe, ht⟩
  rw [execRrp, framerCall, hread]
  rfl

/-- Settles O20: both calls answer the bytes of their frame (`readFrame_answered`), which came in at the
moments of its transfers. -/
theorem readFrameInstructionsComplete : Obligations.ReadFrameInstructionsComplete := by
  intro s hf hv
  obtain ⟨hrc, -, -, hrrp⟩ := chipOpOf_fixed hv
  refine ⟨fun hc => ?_, ?_⟩
  · obtain ⟨data, t, hexec, hdata, ht⟩ := execRc_answered hf hv hc
    obtain ⟨i, htrace⟩ := ht.trace
    have hpacket : t.chip.rxPayload = s.chip.rxPayload := by simp [ht.rxPayload, hrc]
    exact ⟨i, data, t, hexec, hdata, htrace, ht.replies, ht.same,
      ⟨ht.config, ht.txPayload, ht.txAddress, hpacket⟩, ht.lines⟩
  · obtain ⟨data, t, hexec, hlen, hclocked, ht⟩ := execRrp_answered hf hv
    obtain ⟨i, htrace⟩ := ht.trace
    have hpacket : t.chip.rxPayload = [] := by simp [ht.rxPayload, hrrp]
    exact ⟨i, data, t, hexec, hlen, hclocked, htrace, ht.replies, ht.same, ht.config,
      ht.txPayload, ht.txAddress, hpacket, ht.lines⟩

end Sys2Proof.Machine
end

section
/-! Proofs: the mirror update, and configuration writes on any access layer (40_command_framer.md R120,
R125). -/

namespace Sys2Proof.Machine

/-! ### The mirror update -/

/-- Step `WC.3`, byte by byte. -/
theorem mirrorWrite_getElem? (cfg : List Byte) (k : Nat) (bytes : List Byte) (j : Nat)
    (h : k + bytes.length ≤ cfg.length) :
    (mirrorWrite cfg k bytes)[j]? =
      if k ≤ j ∧ j < k + bytes.length then bytes[j - k]? else cfg[j]? := by
  induction bytes generalizing cfg k with
  | nil => simp [mirrorWrite, show ¬(k ≤ j ∧ j < k) by omega]
  | cons b bs ih =>
    rw [List.length_cons] at h ⊢
    rw [mirrorWrite, ih (cfg.set k b) (k + 1) (by rw [List.length_set]; omega), List.getElem?_set]
    obtain hj | rfl | hj := Nat.lt_trichotomy j k
    · rw [if_neg (by omega), if_neg (by omega), if_neg (by omega)]
    · rw [if_neg (by omega), if_pos rfl, if_pos (by omega), if_pos (by omega), Nat.sub_self,
        List.getElem?_cons_zero]
    · obtain ⟨d, rfl⟩ : ∃ d, j = k + 1 + d := ⟨j - (k + 1), by omega⟩
      rw [show k + 1 + d - k = d + 1 by omega, List.getElem?_cons_succ, Nat.add_sub_cancel_left,
        if_neg (show k ≠ k + 1 + d by omega)]
      exact if_congr (by omega) rfl rfl

/-- Settles O12: each byte of the update lands at its offset (`mirrorWrite_getElem?`). -/
theorem mirrorUpdateWritesItsRange : Obligations.MirrorUpdateWritesItsRange :=
  fun cfg k bytes h => ⟨mirrorWrite_length cfg k bytes, fun j => mirrorWrite_getElem? cfg k bytes j h⟩

/-- The address after an address-only configuration write (10_state.md R28). -/
theorem MirrorWrittenAt.addr {before a4 : List Byte} {t : State}
    (h : MirrorWrittenAt before addrOffset a4 t.cfg) (ha : a4.length = addrLen) : t.addr = a4 := by
  obtain ⟨-, hbytes⟩ := h
  refine List.ext_getElem? fun j => ?_
  rw [State.addr, List.getElem?_take, List.getElem?_drop, hbytes]
  split
  · rw [if_pos (by omega), Nat.add_sub_cancel_left]
  · exact (List.getElem?_eq_none (by omega)).symm

/-! ### Returns of an idle block -/

/-- An operation of an idle block that changed the mirror only returns with every other register as it
was (60_exceptions.md R231). -/
theorem Idle.ret_cfg {s t : State} (hs : Idle s) (h : SameRegisters s.begin t) (cfg : List Byte)
(r : Reply) : SameRegisters { s with cfg := cfg } (State.ret r { t with cfg := cfg }) :=
  { h with
    cfg := rfl
    busy := hs.busy.symm
    seq := hs.seq.symm
    rxbuf := hs.rxbuf.symm
    txbuf := hs.txbuf.symm
    txaddr := hs.txaddr.symm }

/-- An operation of an idle block that changed no register returns with every register as it was. -/
theorem Idle.ret_same {s t : State} (hs : Idle s) (h : SameRegisters s.begin t) (r : Reply) :
    SameRegisters s (t.ret r) :=
  { hs.ret_cfg h t.cfg r with cfg := h.cfg }

theorem checkWriteConfig_of_le {s : State} (hi : s.inited = true) {k : Nat} {bytes : List Byte}
    (hk : k + bytes.length ≤ configLen) : checkWriteConfig k bytes s = .ok () := by
  rw [checkWriteConfig, checkInited_of_inited hi]
  exact if_pos (decide_eq_true hk)

/-! ### Configuration writes on any access layer -/

/-- An accepted writeConfig ends its steps, and cleans up if they fail. -/
theorem execWriteConfig_of_le {s : State} (hb : s.busy = false) (hi : s.inited = true) {k : Nat}
    {bytes : List Byte} (hk : k + bytes.length ≤ configLen) :
    execWriteConfig k bytes s = .next (conclude (fun _ => closePower)
      ((writeConfigSteps k bytes s.begin).andThen fun _ s => .ok .ok s)) := by
  rw [execWriteConfig, accept]
  exact acceptThen_of_ok _ hb (checkWriteConfig_of_le hi hk)

/-- Settles O50: the steps change the mirror only where all of them completed
(`writeConfigSteps_sat`), and no cleanup changes it. -/
theorem failedConfigWriteLeavesTheMirror : Obligations.FailedConfigWriteLeavesTheMirror := by
  intro s t k bytes hs hi hl hk h
  obtain rfl := Host.Outcome.next.inj ((execWriteConfig_of_le hs.busy hi hk).symm.trans h)
  have hsat := writeConfigSteps_sat k bytes s.begin
  cases hr : writeConfigSteps k bytes s.begin with
  | ok a t =>
    obtain ⟨u, hu, rfl⟩ := hsat.of_ok hr
    refine ⟨.inl ⟨congrArg (· ++ [Reply.ok]) hu.replies, ?_⟩, hs.ret_cfg hu.same _ _⟩
    show MirrorWrittenAt s.cfg k bytes (mirrorWrite u.cfg k bytes)
    rw [show u.cfg = s.cfg from hu.same.cfg]
    exact mirrorUpdateWritesItsRange s.cfg k bytes (hl.symm ▸ hk)
  | failed path t =>
    have hclean := (hsat.of_failed hr).cleanup (closing := closePower) (by simp [closePower])
    exact ⟨.inr ⟨path, congrArg (· ++ [Reply.error (.halFailure path)]) hclean.replies,
      hclean.same.cfg⟩, hs.ret_cfg hclean.same _ _⟩

end Sys2Proof.Machine
end

section
/-! Proofs: writeConfig, setAddress and readConfig complete on an access layer that does not fail
(40_command_framer.md R120, R121, R125). -/

namespace Sys2Proof.Machine

/-! ### Configuration writes that complete -/

/-- A configuration write of `bytes` from offset `k` on, begun at `s`, was answered ok at `t`: the mirror
took the bytes and no other register changed, the frame was sent in a power cycle, the reference
environment has stored the bytes. -/
structure ConfigWriteAnswered (k : Nat) (bytes : List Byte) (s t : State) : Prop where
  mirror : MirrorWrittenAt s.cfg k bytes t.cfg
  same : SameRegisters { s with cfg := t.cfg } t
  lines : t.lines = { s.lines with pwr := true, csn := true }
  trace : outward t.trace = outward s.trace ++ configWriteEvents s.params k bytes
  replies : t.replies = s.replies ++ [.ok]
  chip : t.chip = { Chip.storeFrom s.params (.writeConfig k) 0 bytes s.chip with frame := .released }

/-- The chip-side spaces after a configuration write (20_memory.md R71). -/
theorem ConfigWriteAnswered.spaces {k : Nat} {bytes : List Byte} {s t : State}
    (h : ConfigWriteAnswered k bytes s t) (hk : k + bytes.length ≤ configLen) :
    WrittenAt s.chip.config k bytes t.chip.config ∧ t.chip.txPayload = s.chip.txPayload ∧
      t.chip.txAddress = s.chip.txAddress ∧ t.chip.rxPayload = s.chip.rxPayload := by
  rw [h.chip]
  exact Chip.storeFrom_config s.params k bytes 0 s.chip hk

/-- On an access layer that does not fail the steps of a configuration write complete. -/
theorem writeConfigSteps_answered {s : State} (hs : Ready s) {k : Nat} {bytes : List Byte}
    (hk : k + bytes.length ≤ configLen) :
    ∃ u, writeConfigSteps k bytes s.begin = .ok () u ∧
      ConfigWriteAnswered k bytes s (u.ret .ok) := by
  obtain ⟨v, evs, hsteps, hran, ho⟩ :=
    writeConfigSteps_completes k bytes (s := s.begin) hs.infallible
  refine ⟨_, hsteps, ?_, hs.idle.ret_cfg hran.same _ _, ?_, ?_, ?_, ?_⟩
  · show MirrorWrittenAt s.cfg k bytes (mirrorWrite v.cfg k bytes)
    rw [show v.cfg = s.cfg from hran.same.cfg]
    exact mirrorUpdateWritesItsRange s.cfg k bytes (hs.cfgLength.symm ▸ hk)
  · show v.lines = _
    rw [hran.lines, ← linesAfter_outward, ho, linesAfter_configWrite, State.begin_lines]
  · show outward v.trace = _
    rw [hran.trace, outward_append, ho, State.begin_trace, State.begin_params]
  · exact congrArg (· ++ [Reply.ok]) hran.replies
  · show v.chip = _
    rw [hran.chip, ← chipAfter_outward, ho]
    exact chipAfter_configWrite hs.valid _ _ (Nat.le_of_add_right_le hk) bytes

theorem execWriteConfig_answered {s : State} (hs : Ready s) {k : Nat} {bytes : List Byte}
    (hk : k + bytes.length ≤ configLen) :
    ∃ t, execWriteConfig k bytes s = .next t ∧ ConfigWriteAnswered k bytes s t := by
  obtain ⟨u, hsteps, hu⟩ := writeConfigSteps_answered hs hk
  refine ⟨_, ?_, hu⟩
  rw [execWriteConfig_of_le hs.idle.busy hs.inited hk, hsteps]
  rfl

/-- Settles O24: the accepted call runs its steps to the end (`writeConfigSteps_answered`). -/
theorem writeConfigCompletes : Obligations.WriteConfigCompletes := by
  intro s k bytes hs hk
  obtain ⟨t, hexec, ht⟩ := execWriteConfig_answered hs hk
  exact ⟨t, hexec, ht.mirror, ht.same, ht.lines, ht.trace, ht.replies, ht.spaces hk⟩

/-! ### The address -/

/-- An accepted setAddress ends its steps, and cleans up if they fail. -/
theorem execSetAddress_of_le {s : State} (hb : s.busy = false) {a : List Byte}
    (ha : addrLen ≤ a.length) :
    execSetAddress a s =
      .next (conclude (fun _ => closePower) (setAddressSteps (a.take addrLen) s.begin)) := by
  rw [execSetAddress, accept]
  exact acceptThen_of_ok _ hb (normAddr_of_le ha)

/-- Before initialisation setAddress writes the mirror and nothing else (40_command_framer.md R125). -/
theorem execSetAddress_stored {s : State} (hs : Idle s) (hi : s.inited = false) {a : List Byte}
    (ha : addrLen ≤ a.length) :
    execSetAddress a s = .next (State.ret .ok
      { s.begin with cfg := mirrorWrite s.cfg addrOffset (a.take addrLen) }) := by
  rw [execSetAddress_of_le hs.busy ha, setAddressSteps, if_neg (by simp [hi])]
  rfl

/-- After initialisation setAddress is the configuration write at the address's offset
(40_command_framer.md R125). -/
theorem execSetAddress_answered {s : State} (hs : Ready s) {a : List Byte}
    (ha : addrLen ≤ a.length) :
    ∃ t, execSetAddress a s = .next t ∧
      ConfigWriteAnswered addrOffset (a.take addrLen) s t := by
  obtain ⟨u, hsteps, hu⟩ := writeConfigSteps_answered hs (k := addrOffset)
    (bytes := a.take addrLen) (by rw [List.length_take_of_le ha]; decide)
  refine ⟨_, ?_, hu⟩
  rw [execSetAddress_of_le hs.idle.busy ha, setAddressSteps, if_pos (by exact hs.inited), hsteps]
  rfl

/-- Settles O25: in both forms the mirror takes the normalised address at offset 5, which is what the
address view shows (`MirrorWrittenAt.addr`). -/
theorem setAddressCompletes : Obligations.SetAddressCompletes := by
  refine ⟨fun s a hs hi hl ha => ?_, fun s a hs ha => ?_⟩
  · have hlen : (a.take addrLen).length = addrLen := List.length_take_of_le ha
    have hmirror := mirrorUpdateWritesItsRange s.cfg addrOffset (a.take addrLen)
      (by rw [hl, hlen]; decide)
    exact ⟨_, execSetAddress_stored hs hi ha, MirrorWrittenAt.addr hmirror hlen, hmirror,
      hs.ret_cfg (.refl _) _ _, rfl, rfl, rfl, rfl⟩
  · have hlen : (a.take addrLen).length = addrLen := List.length_take_of_le ha
    obtain ⟨t, hexec, ht⟩ := execSetAddress_answered hs ha
    exact ⟨t, hexec, ht.mirror.addr hlen, ht.mirror, ht.same, ht.lines, ht.trace, ht.replies,
      ht.spaces (by rw [hlen]; decide)⟩

/-! ### readConfig -/

/-- Settles O26: the frame of the accepted call completes (`readFrame_answered`) and its bytes are the
result; ending the operation changes no register of an idle block. -/
theorem readConfigCompletes : Obligations.ReadConfigCompletes := by
  intro s hs hc
  obtain ⟨hop, -⟩ := chipOpOf_fixed hs.valid
  obtain ⟨data, t, hframe, ht⟩ :=
    readFrame_answered (s := s.begin) configLen false hs.infallible (.inl hop)
  obtain ⟨i, htrace⟩ := ht.trace
  have hread : readConfigFrame s.begin = .ok data t := congrArg (Res.inside .rc1) hframe
  have hexec : execReadConfig s = .next (t.ret (.bytes data)) := by
    rw [execReadConfig, acceptThen_of_ok _ hs.idle.busy (checkInited_of_inited hs.inited),
      if_pos (by exact configAnswered_of_values hc), readConfigSteps, hread]
    rfl
  have hsame : SameRegisters s.begin t := { ht.same with }
  have hpacket : t.chip.rxPayload = s.chip.rxPayload := by
    have h := ht.rxPayload
    rwa [State.begin_params, hop, if_neg (by simp)] at h
  exact ⟨i, data, _, hexec, readConfigFrame_reads (s := s.begin) hs.valid hc hread, htrace,
    ht.replies, hs.idle.ret_same hsame _, ⟨ht.config, ht.txPayload, ht.txAddress, hpacket⟩, ht.lines⟩

end Sys2Proof.Machine
end

section
/-! Proofs: the events of a frame, on an access layer that does not fail and on any other
(40_command_framer.md R126, R127; 60_exceptions.md R224). -/

namespace Sys2Proof.Machine

/-! ### Frames that complete -/

/-- A read frame returns the bytes of its transfers and writes chip-select only (40_command_framer.md
R126). -/
theorem readFrame_exact (instr : Byte) (n : Nat) (spaced : Bool) {s : State}
    (h : s.params.halFallible = false) :
    ∃ i data t, frame instr [] n spaced s = .ok data t ∧ data.length = n ∧
      ClockedIn s (if spaced then 3 else 2) (if spaced then 2 else 1) data ∧
      t.trace = s.trace ++ readEvents spaced instr i data ∧
      t.lines = { s.lines with csn := true } ∧ SameRegisters s t ∧ t.replies = s.replies := by
  obtain ⟨data, t, evs, hframe, hran, ho, hlen⟩ := frame_completes instr [] n spaced h
  rw [List.map_nil, List.append_nil, ← openingEvents] at ho
  obtain ⟨i, htrace⟩ := readFrame_trace hframe
  have hlines := hran.lines
  rw [← linesAfter_outward, ho, linesAfter_readFrame] at hlines
  exact ⟨i, data, t, hframe, hlen, readFrame_clockedIn hframe, htrace, hlines, hran.same,
    hran.replies⟩

/-- Settles O15: the events of a write frame by `writeFrame_completes`, those of both read frames by
`readFrame_exact`. -/
theorem frameEventsAreExact : Obligations.FrameEventsAreExact := by
  intro s instr h
  refine ⟨fun out => ?_, fun n => readFrame_exact instr n false h,
    fun n => readFrame_exact instr n true h⟩
  obtain ⟨_, t, evs, hframe, hran, ho, rfl⟩ := writeFrame_completes instr out h
  refine ⟨t, hframe, ?_, ?_, hran.same, hran.replies⟩
  · rw [hran.trace, outward_append, ho]
  · rw [hran.lines, ← linesAfter_outward, ho, linesAfter_writeFrame]

/-! ### Sequences in which every micro-step is an event -/

@[simp] theorem Event.failed_outward (e : Event) : e.failed.outward = e.failed := by
  cases e <;> rfl

/-- From `s` to `t` no primitive failed; one event a micro-step, these without their inbound bytes. -/
structure Passed (outs : List Event) (s t : State) : Prop where
  ran : ∃ evs, Ran outs.length evs s t ∧ outward evs = outs
  clear : ∀ j, j < outs.length → s.failsAt j = false

/-- A sequence that emits `outs` from `s` on has stopped at `t`: the primitive of one of these events is
the first that failed, and its failed form the last event (40_command_framer.md R127). -/
def Stopped (outs : List Event) (s t : State) : Prop :=
  ∃ pre e post u, outs = pre ++ e :: post ∧ Passed pre s u ∧ u.failsHere = true ∧
    t = u.advance.emit e.failed

/-- A sequence emits `outs`, one event a micro-step, up to the first primitive that fails. -/
abbrev Emits {α : Type} (r : Res α) (outs : List Event) (s : State) : Prop :=
  r.Sat (fun _ => Passed outs s) fun _ => Stopped outs s

theorem Passed.refl (s : State) : Passed [] s s :=
  ⟨⟨[], .refl s, rfl⟩, fun _ hj => absurd hj (Nat.not_lt_zero _)⟩

/-- The failures ahead of a state that a sequence has led to. -/
theorem Passed.failsAt {outs : List Event} {s t : State} (h : Passed outs s t) (k : Nat) :
    t.failsAt k = s.failsAt (outs.length + k) := by
  obtain ⟨⟨_, hran, -⟩, -⟩ := h
  exact State.failsAt_used hran.env hran.tick hran.same.params k

theorem Passed.trans {es fs : List Event} {s t u : State} (h : Passed es s t)
    (k : Passed fs t u) : Passed (es ++ fs) s u := by
  obtain ⟨e, he, ho⟩ := h.ran
  obtain ⟨f, hf, hp⟩ := k.ran
  refine ⟨⟨e ++ f, List.length_append ▸ he.trans hf, by rw [outward_append, ho, hp]⟩,
    fun j hj => ?_⟩
  rw [List.length_append] at hj
  by_cases hlt : j < es.length
  · exact h.clear j hlt
  · have := k.clear (j - es.length) (by omega)
    rwa [h.failsAt, Nat.add_sub_cancel' (Nat.le_of_not_lt hlt)] at this

theorem Stopped.append {es : List Event} {s t : State} (h : Stopped es s t) (fs : List Event) :
    Stopped (es ++ fs) s t := by
  obtain ⟨pre, e, post, u, rfl, hu⟩ := h
  exact ⟨pre, e, post ++ fs, u, by simp, hu⟩

theorem Stopped.after {es fs : List Event} {s t u : State} (h : Stopped fs t u)
    (k : Passed es s t) : Stopped (es ++ fs) s u := by
  obtain ⟨pre, e, post, v, rfl, hv, hu⟩ := h
  exact ⟨es ++ pre, e, post, v, (List.append_assoc ..).symm, k.trans hv, hu⟩

theorem Emits.ok {α : Type} (a : α) (s : State) : Emits (.ok a s) [] s :=
  Res.Sat.ok (Passed.refl s)

theorem Emits.andThen {α β : Type} {r : Res α} {next : α → State → Res β} {es fs : List Event}
    {s : State} (h : Emits r es s) (k : ∀ a t, Emits (next a t) fs t) :
    Emits (r.andThen next) (es ++ fs) s :=
  (h.mono (fun _ _ => id) fun _ _ ht => ht.append fs).andThen fun a t ht =>
    (k a t).mono (fun _ _ hu => ht.trans hu) fun _ _ hu => hu.after ht

theorem Emits.congr {α : Type} {r : Res α} {es fs : List Event} {s : State} (h : Emits r es s)
    (he : es = fs) : Emits r fs s := he ▸ h

/-- The failed primitive is the one of the first micro-step that the environment fails. -/
theorem Stopped.first {outs : List Event} {s t : State} (h : Stopped outs s t) :
    ∃ k e u, s.failsAt k = true ∧ (∀ j, j < k → s.failsAt j = false) ∧ outs[k]? = some e ∧
      Passed (outs.take k) s u ∧ t = u.advance.emit e.failed := by
  obtain ⟨pre, e, post, u, rfl, hu, hf, ht⟩ := h
  refine ⟨pre.length, e, u, ?_, hu.clear, ?_, ?_, ht⟩
  · rw [← hf, ← State.failsAt_zero, hu.failsAt, Nat.add_zero]
  · rw [List.getElem?_append_right (Nat.le_refl _), Nat.sub_self, List.getElem?_cons_zero]
  · rwa [List.take_left]

/-- A primitive with an event fails or is a run of that event. -/
theorem emits_of_cases {α : Type} {e : Event} {a : α} {path : StepPath} {s t : State}
    (h : s.failsHere = false → Ran 1 [e] s t) :
    Emits (if s.failsHere then .failed path (s.advance.emit e.outward.failed) else .ok a t)
      [e.outward] s := by
  split
  · have hstop : Stopped [e.outward] s (s.advance.emit e.outward.failed) :=
      ⟨[], e.outward, [], s, rfl, .refl s, ‹_›, rfl⟩
    exact Res.Sat.failed hstop
  · rename_i hf
    have hf : s.failsHere = false := Bool.eq_false_iff.mpr hf
    have hpass : Passed [e.outward] s t := ⟨⟨[e], h hf, rfl⟩, fun j hj => by
      obtain rfl : j = 0 := Nat.lt_one_iff.mp hj
      exact hf⟩
    exact Res.Sat.ok hpass

theorem pinWrite_emits (label : StepLabel) (l : OutLine) (v : Level) (s : State) :
    Emits (pinWrite label l v s) [.w l v] s :=
  emits_of_cases (e := .w l v) fun _ => (Ran.advance s).trans (.write l v _)

theorem xfer_emits (label : StepLabel) (o : Byte) (s : State) :
    Emits (xfer label o s) [.x o 0] s :=
  emits_of_cases (e := .x o s.inbound) fun _ => (Ran.advance s).trans (.emit _ _ (by simp))

theorem delay_emits (label : StepLabel) (d : Duration) (s : State) :
    Emits (delay label d s) [.d d] s :=
  emits_of_cases (e := .d d) fun _ => (Ran.advance s).trans (.emit _ _ (by simp))

theorem spacing_emits (label : StepLabel) (spaced : Bool) (s : State) :
    Emits (spacing label spaced s) (if spaced then [.d .byte] else []) s := by
  cases spaced with
  | false => exact Emits.ok () s
  | true => exact delay_emits label .byte s

theorem sendBytes_emits (out : List Byte) (s : State) :
    Emits (sendBytes out s) (out.map fun b => .x b 0) s := by
  induction out generalizing s with
  | nil => exact Emits.ok () s
  | cons b bs ih => exact (xfer_emits .f3 b s).andThen fun _ t => ih t

theorem receiveBytes_emits (spaced : Bool) (n : Nat) (s : State) :
    Emits (receiveBytes spaced n s)
      (List.replicate n (Event.x 0 0 :: if spaced then [.d .byte] else [])).flatten s := by
  induction n generalizing s with
  | zero => exact Emits.ok [] s
  | succ n ih =>
    refine Emits.congr ((xfer_emits .f4 0x00 s).andThen fun b t =>
      (spacing_emits .f4 spaced t).andThen fun _ u => (ih u).andThen fun bs v =>
      Emits.ok (b :: bs) v) ?_
    simp [List.replicate_succ]

/-- A frame emits its events, one a micro-step, up to the first primitive that fails
(40_command_framer.md R126, R127). -/
theorem frame_emits (instr : Byte) (out : List Byte) (nIn : Nat) (spaced : Bool) (s : State) :
    Emits (frame instr out nIn spaced s) (frameEvents instr out nIn spaced) s := by
  refine Emits.congr ((pinWrite_emits .f1 .csn _ s).andThen fun _ t1 =>
    (xfer_emits .f2 instr t1).andThen fun _ t2 =>
    (spacing_emits .f2d spaced t2).andThen fun _ t3 =>
    (sendBytes_emits out t3).andThen fun _ t4 =>
    (receiveBytes_emits spaced nIn t4).andThen fun bytes t5 =>
    (pinWrite_emits .f5 .csn _ t5).andThen fun _ t6 => Emits.ok bytes t6) ?_
  simp [frameEvents, OutLine.asserted]

end Sys2Proof.Machine
end

section
/-! Proofs: a frame that failed, its cleanup, and the calls of the framer it was presented with
(40_command_framer.md R127; 60_exceptions.md R224, R230). -/

namespace Sys2Proof.Machine

/-! ### Frames that fail -/

/-- The events of a frame between its two writes of chip-select (40_command_framer.md R126). -/
def frameBody (instr : Byte) (out : List Byte) (nIn : Nat) (spaced : Bool) : List Event :=
  .x instr 0 :: ((if spaced then [.d .byte] else []) ++ out.map (fun b => .x b 0) ++
    (List.replicate nIn (Event.x 0 0 :: if spaced then [.d .byte] else [])).flatten)

theorem frameEvents_eq (instr : Byte) (out : List Byte) (nIn : Nat) (spaced : Bool) :
    frameEvents instr out nIn spaced =
      .w .csn false :: (frameBody instr out nIn spaced ++ [.w .csn true]) := by
  simp [frameEvents, frameBody]

theorem linesAfter_of_noWrite (ls : Lines) {evs : List Event} (h : ∀ l v, Event.w l v ∉ evs) :
    linesAfter ls evs = ls := by
  induction evs with
  | nil => rfl
  | cons e es ih =>
    have he : lineAfter ls e = ls := by
      cases e with
      | w l v => exact absurd List.mem_cons_self (h l v)
      | _ => rfl
    rw [linesAfter_cons, he]
    exact ih fun l v hm => h l v (List.mem_cons_of_mem e hm)

theorem frameBody_noWrite (instr : Byte) (out : List Byte) (nIn : Nat) (spaced : Bool)
    (l : OutLine) (v : Level) : Event.w l v ∉ frameBody instr out nIn spaced := by
  cases spaced <;> simp [frameBody]

/-- Before its last event a frame has driven chip-select low, once `F.1` completed, and no other line
(40_command_framer.md R126). -/
theorem linesAfter_frameStart (ls : Lines) (instr : Byte) (out : List Byte) (nIn : Nat)
    (spaced : Bool) {k : Nat} (h : k < (frameEvents instr out nIn spaced).length) :
    linesAfter ls ((frameEvents instr out nIn spaced).take k) =
      if k = 0 then ls else { ls with csn := false } := by
  rw [frameEvents_eq] at h ⊢
  cases k with
  | zero => rfl
  | succ k =>
    rw [List.length_cons, List.length_append, List.length_singleton] at h
    rw [List.take_succ_cons, List.take_append_of_le_length (by omega), linesAfter_cons,
      linesAfter_of_noWrite _ fun l v hm => frameBody_noWrite _ _ _ _ l v (List.mem_of_mem_take hm)]
    rfl

/-- What a failure leaves alone: every register, the results, and the lines as the steps before it left
them (60_exceptions.md R224). -/
theorem Passed.failure {outs : List Event} {s u : State} (h : Passed outs s u) (e : Event) :
    let t := u.advance.emit e.failed
    SameRegisters s t ∧ t.replies = s.replies ∧ t.lines = linesAfter s.lines outs ∧
      outward t.trace = outward s.trace ++ outs ++ [e.failed] := by
  obtain ⟨⟨evs, hran, ho⟩, -⟩ := h
  refine ⟨hran.same.trans ((SameRegisters.advance u).trans (.emit _ _)), hran.replies, ?_, ?_⟩
  · rw [State.emit_lines, State.advance_lines, hran.lines, ← linesAfter_outward, ho]
  · rw [State.emit_trace, State.advance_trace, hran.trace, outward_append, outward_append, ho,
      outward_cons, Event.failed_outward, outward_nil]

theorem frame_failed_open {instr : Byte} {out : List Byte} {nIn : Nat} {spaced : Bool} {s t : State}
    {path : StepPath} (h : frame instr out nIn spaced s = .failed path t) :
    frameOpen path = true := by
  obtain ⟨l, rfl, hl⟩ := frame_failed h
  simp [frameOpen, hl]

/-- Chip-select is the first line a cleanup releases after a failure in a frame (60_exceptions.md
R230). -/
theorem cleanup_trace_of_open {path : StepPath} {t : State} (hp : frameOpen path = true)
    (hf : t.failsHere = false) (closing : List (OutLine × Level)) :
    ∃ rest, (cleanup path closing t).trace = t.trace ++ .w .csn true :: rest := by
  obtain ⟨rest, hrest⟩ :=
    (cleanupWrites_touched closing (cleanupWrite t (.csn, true)) (ls := closing.map Prod.fst)
      fun w hw => List.mem_map_of_mem hw).trace
  refine ⟨rest, ?_⟩
  have hclean : cleanup path closing t =
      cleanupWrites closing (cleanupWrite t (.csn, true)) := by
    rw [cleanup, if_pos hp]
    rfl
  rw [hclean, hrest, cleanupWrite_trace, hf]
  simp

/-! ### Frames presented alone -/

/-- A sequence of one frame writes chip-select only, and a failure of it is one in the frame. -/
abbrev OneFrame {α : Type} (r : Res α) (s : State) : Prop :=
  r.Sat (fun _ => Touched [.csn] s) fun path t => Touched [.csn] s t ∧ frameOpen path = true

theorem frame_oneFrame (instr : Byte) (out : List Byte) (nIn : Nat) (spaced : Bool) (s : State) :
    OneFrame (frame instr out nIn spaced s) s := by
  have htouched := frame_touched instr out nIn spaced s (ls := [.csn]) (by simp)
  cases hr : frame instr out nIn spaced s with
  | ok a t => exact .ok (by rwa [hr] at htouched)
  | failed path t => exact .failed ⟨by rwa [hr] at htouched, frame_failed_open hr⟩

theorem OneFrame.inside {α : Type} {r : Res α} {s : State} (l : StepLabel) (h : OneFrame r s) :
    OneFrame (r.inside l) s := by
  cases h with
  | ok h => exact .ok h
  | failed h =>
    obtain ⟨ht, hp⟩ := h
    exact .failed ⟨ht, by rw [frameOpen, List.any_cons, ← frameOpen, hp, Bool.or_true]⟩

/-- A frame whose bytes are not returned. -/
theorem OneFrame.returning {α β : Type} {r : Res α} {s : State} (h : OneFrame r s) (b : β) :
    OneFrame (r.andThen fun _ s => .ok b s) s := h.andThen fun _ _ ht => .ok ht

/-- Where only chip-select was written, driving it leaves the lines as they were but for it. -/
theorem Touched.set_csn {s t : State} (h : Touched [.csn] s t) (v : Level) :
    t.lines.set .csn v = { s.lines with csn := v } := by
  have hpwr : t.lines.pwr = s.lines.pwr := h.lines .pwr (by simp)
  have htxen : t.lines.txen = s.lines.txen := h.lines .txen (by simp)
  have htrig : t.lines.trig = s.lines.trig := h.lines .trig (by simp)
  simp [Lines.set, hpwr, htxen, htrig]

/-- The cleanup after a failure in a frame is one write of chip-select (60_exceptions.md R230). -/
theorem cleanup_ran_of_open {path : StepPath} {t : State} (hp : frameOpen path = true)
    (hf : t.failsHere = false) : Ran 1 [.w .csn true] t (cleanup path [] t) := by
  rw [cleanup, if_pos hp]
  refine cleanupWrites_ran [(.csn, true)] fun k hk => ?_
  obtain rfl : k = 0 := Nat.lt_one_iff.mp hk
  exact hf

/-- A call whose frame failed releases chip-select, and answers the error (40_command_framer.md R127;
log 14). -/
theorem framerCall_failed {α : Type} {check : Except Malformed α} {a : α}
    {body : α → State → Res Reply} {s t : State} {path : StepPath} (hc : check = .ok a)
    (hone : OneFrame (body a s) s) (hr : body a s = .failed path t) (hf : t.failsHere = false) :
    ∃ u, framerCall check body s = .next u ∧ CallFailed path s t u := by
  obtain ⟨ht, hp⟩ := hone.of_failed hr
  have hran := cleanup_ran_of_open hp hf
  refine ⟨(cleanup path [] t).reply (.error (.halFailure path)), ?_,
    ⟨hran.trace, hran.lines.trans (ht.set_csn true), ?_,
      ht.same.trans (hran.same.trans (.reply _ _))⟩⟩
  · rw [hc, framerCall, hr, concludeCall]
  · rw [State.reply_replies, hran.replies, ht.replies]

/-- A frame that fails, fails whatever was to come after it. -/
theorem Res.andThen_of_failed {α β : Type} {r : Res α} {path : StepPath} {t : State}
    (h : r = .failed path t) (next : α → State → Res β) : r.andThen next = .failed path t := by
  rw [h, Res.andThen]

theorem execWc_failed {k : Nibble} {data : List Byte} {s t : State} {path : StepPath}
    (hk : k.toNat + data.length ≤ configLen) (hf : t.failsHere = false)
    (h : (writeConfigFrame k.toNat data s).inside .wc2 = .failed path t) :
    ∃ u, execWc k data s = .next u ∧ CallFailed path s t u := by
  have hc : checkConfigRange k.toNat data = .ok () := if_pos (decide_eq_true hk)
  exact framerCall_failed hc
    ((((frame_oneFrame _ data 0 false s).returning ()).inside .wc2).returning Reply.ok)
    (Res.andThen_of_failed h _) hf

theorem execRc_failed {s t : State} {path : StepPath} (hc : ConfigHasValues s)
    (hf : t.failsHere = false) (h : readConfigFrame s = .failed path t) :
    ∃ u, execRc s = .next u ∧ CallFailed path s t u := by
  have hone : OneFrame (readConfigSteps s) s :=
    ((frame_oneFrame _ [] configLen false s).inside .rc1).andThen fun _ _ ht => .ok ht
  rw [execRc, if_pos (configAnswered_of_values hc)]
  exact framerCall_failed rfl hone (Res.andThen_of_failed h _) hf

theorem execWtp_failed {payload : List Byte} {s t : State} {path : StepPath}
    (hp : payload.length ≤ s.params.txPayloadMax) (hf : t.failsHere = false)
    (h : writeTransmitPayload payload s = .failed path t) :
    ∃ u, execWtp payload s = .next u ∧ CallFailed path s t u := by
  have hc : checkPayload s.params payload = .ok () := if_pos (decide_eq_true hp)
  exact framerCall_failed hc
    ((((frame_oneFrame _ payload 0 false s).inside .wtp1).returning ()).returning Reply.ok)
    (Res.andThen_of_failed h _) hf

theorem execWta_failed {address : List Byte} {s t : State} {path : StepPath}
    (ha : addrLen ≤ address.length) (hf : t.failsHere = false)
    (h : writeTransmitAddress (address.take addrLen) s = .failed path t) :
    ∃ u, execWta address s = .next u ∧ CallFailed path s t u :=
  framerCall_failed (normAddr_of_le ha)
    ((((frame_oneFrame _ (address.take addrLen) 0 false s).inside .wta1).returning ()).returning
      Reply.ok)
    (Res.andThen_of_failed h _) hf

theorem execRrp_failed {s t : State} {path : StepPath} (hf : t.failsHere = false)
    (h : readReceivedPayload s = .failed path t) :
    ∃ u, execRrp s = .next u ∧ CallFailed path s t u :=
  framerCall_failed rfl
    (((frame_oneFrame _ [] rxPayloadLen true s).inside .rrp1).andThen fun _ _ ht => .ok ht)
    (Res.andThen_of_failed h _) hf

/-- Settles O16: a frame emits its events up to the first primitive that fails (`frame_emits`), and a
call whose frame failed ends with the release of chip-select (`framerCall_failed`). -/
theorem failedFrameIsClosedByCleanup : Obligations.FailedFrameIsClosedByCleanup := by
  refine ⟨fun instr out nIn spaced s t path h => ?_,
    fun instr out nIn spaced s k hk hfail => ?_, fun s t path hf => ?_⟩
  · have hp := frame_failed_open h
    obtain ⟨k, e, u, hfail, hfirst, he, hpass, rfl⟩ :=
      ((frame_emits instr out nIn spaced s).of_failed h).first
    obtain ⟨hsame, hreplies, hlines, htrace⟩ := hpass.failure e
    obtain ⟨hk, -⟩ := List.getElem?_eq_some_iff.mp he
    rw [linesAfter_frameStart _ _ _ _ _ hk] at hlines
    exact ⟨hp, hsame, hreplies, ⟨k, e, hfail, hfirst, he, htrace, hlines⟩,
      fun hf closing => cleanup_trace_of_open hp hf closing⟩
  · cases hr : frame instr out nIn spaced s with
    | ok a t =>
      have hclear := ((frame_emits instr out nIn spaced s).of_ok hr).clear k hk
      rw [hfail] at hclear
      cases hclear
    | failed path t => exact ⟨path, t, rfl⟩
  · exact ⟨fun _ _ hk h => execWc_failed hk hf h, fun hc h => execRc_failed hc hf h,
      fun _ hp h => execWtp_failed hp hf h, fun _ ha h => execWta_failed ha hf h,
      fun h => execRrp_failed hf h⟩

end Sys2Proof.Machine
end

section
/-! Proofs: each primitive of the access layer completes or fails (00_scope.md R9; 60_exceptions.md
R224; 41_mode_controller.md R151). -/

namespace Sys2Proof.Machine

/-! ### What a primitive does -/

section
variable {label : StepLabel} {s : State}

theorem pinWrite_of_clear (h : s.failsHere = false) (l : OutLine) (v : Level) :
    pinWrite label l v s = .ok () ((s.advance.emit (.w l v)).setLine l v) := if_neg (by simp [h])

theorem pinWrite_of_failing (h : s.failsHere = true) (l : OutLine) (v : Level) :
    pinWrite label l v s = .failed [label] (s.advance.emit (.wFailed l v)) := if_pos h

theorem pinRead_of_clear (h : s.failsHere = false) (l : InLine) :
    pinRead label l s = .ok s.here.level (s.advance.emit (.r l s.here.level)) :=
  if_neg (by simp [h])

theorem pinRead_of_failing (h : s.failsHere = true) (l : InLine) :
    pinRead label l s = .failed [label] (s.advance.emit (.rFailed l)) := if_pos h

theorem xfer_of_clear (h : s.failsHere = false) (o : Byte) :
    xfer label o s = .ok s.inbound (s.advance.emit (.x o s.inbound)) := if_neg (by simp [h])

theorem xfer_of_failing (h : s.failsHere = true) (o : Byte) :
    xfer label o s = .failed [label] (s.advance.emit (.xFailed o)) := if_pos h

theorem delay_of_clear (h : s.failsHere = false) (d : Duration) :
    delay label d s = .ok () (s.advance.emit (.d d)) := if_neg (by simp [h])

theorem delay_of_failing (h : s.failsHere = true) (d : Duration) :
    delay label d s = .failed [label] (s.advance.emit (.dFailed d)) := if_pos h

theorem halAction_of_clear (h : s.failsHere = false) : halAction label s = .ok () s.advance :=
  if_neg (by simp [h])

theorem halAction_of_failing (h : s.failsHere = true) :
    halAction label s = .failed [label] s.advance := if_pos h

end

/-- An answer of the environment comes before the reference environment's (20_memory.md R72). -/
theorem State.inbound_of_given {s : State} {b : Byte} (h : s.here.inbound = some b) :
    s.inbound = b := by simp [State.inbound, h]

/-- A primitive writes no register but the latch. -/
theorem advance_emit_same (e : Event) (s : State) : SameRegisters s (s.advance.emit e) :=
  (SameRegisters.advance s).trans (.emit e _)

/-- Settles O14: each primitive asks whether it fails and does nothing but its event and, of a line
write that completes, its level. -/
theorem lineWriteSucceedsOrLeavesTheLine : Obligations.LineWriteSucceedsOrLeavesTheLine := by
  intro label s
  have hsame (e : Event) := advance_emit_same e s
  refine ⟨fun h => ⟨fun l v => ?_, fun l => ?_, fun o => ?_, fun d => ?_, ?_⟩,
    fun h => ⟨fun l v => ?_, fun l => ?_, fun o => ?_, fun d => ?_, ?_⟩⟩
  · exact ⟨_, pinWrite_of_clear h l v, rfl, rfl, rfl, (hsame _).trans (.setLine l v _)⟩
  · exact ⟨_, pinRead_of_clear h l, rfl, rfl, rfl, rfl, hsame _⟩
  · exact ⟨_, _, xfer_of_clear h o, fun _ => State.inbound_of_given, rfl, rfl, rfl, hsame _⟩
  · exact ⟨_, delay_of_clear h d, rfl, rfl, rfl, rfl, hsame _⟩
  · exact ⟨_, halAction_of_clear h, rfl, rfl, rfl, rfl, .advance s⟩
  · exact ⟨_, pinWrite_of_failing h l v, rfl, rfl, rfl, rfl, hsame _⟩
  · exact ⟨_, pinRead_of_failing h l, rfl, rfl, rfl, rfl, hsame _⟩
  · exact ⟨_, xfer_of_failing h o, rfl, rfl, rfl, rfl, hsame _⟩
  · exact ⟨_, delay_of_failing h d, rfl, rfl, rfl, rfl, hsame _⟩
  · exact ⟨_, halAction_of_failing h, rfl, rfl, rfl, rfl, .advance s⟩

end Sys2Proof.Machine
end

section
/-! Proofs: the flags of init, startReceiveMode and stopReceiveMode, on any access layer
(41_mode_controller.md R152, R155, R156). -/

namespace Sys2Proof.Machine

/-! ### Accepted operations -/

/-- An idle block runs an operation that its check accepts. -/
theorem accept_of_ok {α : Type} {i : Instr} {check : Except Malformed α} {a : α}
    {body : α → State → State} {s : State} (hb : s.busy = false) (h : check = .ok a) :
    accept i check body s = .next (body a s.begin) := acceptThen_of_ok _ hb h

theorem checkNotInited_of_uninited {s : State} (h : s.inited = false) :
    checkNotInited s = .ok () := if_neg (by simp [h])

/-- The result of steps without a value of their own is ok; a failure is the operation's. -/
abbrev Res.thenOk (r : Res Unit) : Res Reply := r.andThen fun _ s => .ok .ok s

theorem execInit_of_uninited {s : State} (hb : s.busy = false) (h : s.inited = false) :
    execInit s = .next (conclude initClosing (initSteps s.begin).thenOk) :=
  accept_of_ok hb (checkNotInited_of_uninited h)

section
variable {s : State} (hb : s.busy = false) (hi : s.inited = true)
include hb hi

theorem execPowerUp_of_inited :
    execPowerUp s = .next (conclude noClosing (powerUpSteps s.begin).thenOk) :=
  accept_of_ok hb (checkInited_of_inited hi)

theorem execPowerDown_of_inited :
    execPowerDown s = .next (conclude noClosing (deassertLine .pd1 .pwr s.begin).thenOk) :=
  accept_of_ok hb (checkInited_of_inited hi)

theorem execStartReceiveMode_of_inited :
    execStartReceiveMode s = .next (conclude noClosing (enterReceiveSteps s.begin).thenOk) :=
  accept_of_ok hb (checkInited_of_inited hi)

theorem execStopReceiveMode_of_inited :
    execStopReceiveMode s = .next (conclude noClosing (exitReceiveSteps s.begin).thenOk) :=
  accept_of_ok hb (checkInited_of_inited hi)

end

/-- An operation returns ok where its steps completed, and takes the error where they failed
(60_exceptions.md R220, R231). -/
theorem Res.Sat.concluded {r : Res Unit} {P : State → Prop} {F : StepPath → State → Prop}
    (h : r.Sat (fun _ => P) F) (closing : StepPath → List (OutLine × Level)) :
    (∃ t, P t ∧ conclude closing r.thenOk = t.ret .ok) ∨
      ∃ path t, F path t ∧ conclude closing r.thenOk = t.raise (closing path) path := by
  cases h with
  | ok h => exact .inl ⟨_, h, rfl⟩
  | failed h => exact .inr ⟨_, _, h, rfl⟩

/-- The same where the steps are known to complete. -/
theorem conclude_thenOk {r : Res Unit} {u : State} (h : r = .ok () u)
    (closing : StepPath → List (OutLine × Level)) : conclude closing r.thenOk = u.ret .ok := by
  rw [h]
  rfl

/-! ### stopReceiveMode step by step -/

/-- `XR.1`: the watch is cancelled, a latched edge is dropped (41_mode_controller.md R156). -/
def State.disarmed (s : State) : State := { s with watch := false, edgePend := false }

/-- With the watch disarmed no edge is latched (42_receive_pipeline.md R170). -/
theorem SameRegisters.edgePend_of_unwatched {s t : State} (h : SameRegisters s t)
    (hw : s.watch = false) : t.edgePend = s.edgePend := by
  cases he : s.edgePend with
  | true => exact h.edgeKept he
  | false =>
    refine Bool.eq_false_iff.mpr fun ht => ?_
    rcases h.edgeWatched ht with h | h
    · exact Bool.noConfusion (he.symm.trans h)
    · exact Bool.noConfusion (hw.symm.trans h)

theorem pinWrite_ends (label : StepLabel) (l : OutLine) (v : Level) (s : State) :
    (pinWrite label l v s).Sat (fun _ => Touched [l] s)
      (fun path t => path = [label] ∧ Touched [l] s t) := by
  have ht := pinWrite_touched label v s (List.mem_singleton_self l)
  cases hr : pinWrite label l v s with
  | ok a t =>
    rw [hr] at ht
    exact .ok ht
  | failed path t =>
    rw [hr] at ht
    exact .failed ⟨pinWrite_failed hr, ht⟩

/-- With the watch cancelled what is left is `XR.2` (41_mode_controller.md R156). -/
theorem exitReceiveSteps_of_clear {s : State} (h : s.failsHere = false) :
    exitReceiveSteps s =
      if s.params.exitRxToStandby then deassertLine .xr2 .trig s.advance.disarmed
      else .ok () s.advance.disarmed := by
  rw [exitReceiveSteps, halAction_of_clear h]
  rfl

/-- Where stopReceiveMode can fail, and what it has done by then (41_mode_controller.md R156). -/
theorem exitReceiveSteps_ends (s : State) :
    (exitReceiveSteps s).Sat (fun _ => Touched [.trig] s.advance.disarmed)
      (fun path t => (path = [.xr1] ∧ t = s.advance) ∨
        path = [.xr2] ∧ Touched [.trig] s.advance.disarmed t) := by
  cases hf : s.failsHere with
  | true =>
    rw [exitReceiveSteps, halAction_of_failing hf]
    exact .failed (.inl ⟨rfl, rfl⟩)
  | false =>
    rw [exitReceiveSteps_of_clear hf]
    split
    · exact (pinWrite_ends _ _ _ _).mono (fun _ _ => id) fun _ _ => .inr
    · exact .ok (.refl _ _)

/-! ### The flags -/

/-- init raises `INITED` where all of it completed, and else changes no register
(41_mode_controller.md R152). -/
theorem execInit_flag {s t : State} (hs : Idle s) (hi : s.inited = false)
    (h : execInit s = .next t) :
    SameRegisters { s with inited := t.inited } t ∧
      ((t.replies = s.replies ++ [.ok] ∧ t.inited = true) ∨
      ∃ path, t.replies = s.replies ++ [.error (.halFailure path)] ∧ t.inited = false) := by
  obtain rfl := Host.Outcome.next.inj ((execInit_of_uninited hs.busy hi).symm.trans h)
  rcases (initSteps_sat s.begin).concluded initClosing with
    ⟨_, ⟨u, hu, -, rfl⟩, ht⟩ | ⟨path, u, hu, ht⟩ <;> rw [ht]
  · have hsame := hs.ret_same hu.same .ok
    exact ⟨{ hsame with inited := rfl }, .inl ⟨congrArg (· ++ [Reply.ok]) hu.replies, rfl⟩⟩
  · have hclean := hu.cleanup (closing := initClosing path) fun w hw => by
      simp [mem_initClosing hw]
    have hsame := hs.ret_same hclean.same (.error (.halFailure path))
    exact ⟨{ hsame with inited := rfl }, .inr ⟨path,
      congrArg (· ++ [Reply.error (.halFailure path)]) hclean.replies, hsame.inited.trans hi⟩⟩

/-- startReceiveMode arms the watch where all of it completed, and else changes no register
(41_mode_controller.md R155). -/
theorem execStartReceiveMode_flag {s t : State} (hs : Idle s) (hi : s.inited = true)
    (h : execStartReceiveMode s = .next t) :
    SameRegisters { s with watch := t.watch } t ∧
      ((t.replies = s.replies ++ [.ok] ∧ t.watch = true) ∨
      ∃ path, t.replies = s.replies ++ [.error (.halFailure path)] ∧ t.watch = s.watch) := by
  obtain rfl := Host.Outcome.next.inj ((execStartReceiveMode_of_inited hs.busy hi).symm.trans h)
  rcases (enterReceiveSteps_sat s.begin).concluded noClosing with
    ⟨_, ⟨u, hu, rfl⟩, ht⟩ | ⟨path, u, hu, ht⟩ <;> rw [ht]
  · have hsame := hs.ret_same hu.same .ok
    exact ⟨{ hsame with watch := rfl, edgeWatched := fun _ => .inr rfl },
      .inl ⟨congrArg (· ++ [Reply.ok]) hu.replies, rfl⟩⟩
  · have hclean := hu.cleanup (closing := []) (by simp)
    have hsame := hs.ret_same hclean.same (.error (.halFailure path))
    have hw : (u.raise [] path).watch = s.watch := hsame.watch
    exact ⟨hw.symm ▸ hsame, .inr ⟨path,
      congrArg (· ++ [Reply.error (.halFailure path)]) hclean.replies, hw⟩⟩

/-- Ending an operation of an idle block after `XR.1` leaves watch and latch dropped and every other
register as it was (41_mode_controller.md R156; 60_exceptions.md R231). -/
theorem Idle.ret_disarmed {s t : State} (hs : Idle s)
    (h : SameRegisters s.begin.advance.disarmed t) (r : Reply) :
    SameRegisters s.disarmed (t.ret r) :=
  Idle.ret_same (s := s.disarmed) { hs with } { h with } r

theorem SameRegisters.as_disarmed {s t : State} (h : SameRegisters s.disarmed t) :
    SameRegisters { s with watch := t.watch, edgePend := t.edgePend } t :=
  { h with watch := rfl, edgeKept := id, edgeWatched := .inl }

/-- stopReceiveMode drops watch and latch where `XR.1` completed; where that failed an edge of its own
moment may have been latched (41_mode_controller.md R156; log 11). -/
theorem execStopReceiveMode_flag {s t : State} (hs : Idle s) (hi : s.inited = true)
    (h : execStopReceiveMode s = .next t) :
    SameRegisters { s with watch := t.watch, edgePend := t.edgePend } t ∧
      ((t.replies = s.replies ++ [.ok] ∧ t.watch = false ∧ t.edgePend = false) ∨
      (t.replies = s.replies ++ [.error (.halFailure [.xr1])] ∧ t.watch = s.watch ∧
        t.edgePend = (s.edgePend || (s.watch && s.here.edge))) ∨
      (t.replies = s.replies ++ [.error (.halFailure [.xr2])] ∧ t.watch = false ∧
        t.edgePend = false)) := by
  obtain rfl := Host.Outcome.next.inj ((execStopReceiveMode_of_inited hs.busy hi).symm.trans h)
  rcases (exitReceiveSteps_ends s.begin).concluded noClosing with
    ⟨u, hu, ht⟩ | ⟨path, u, ⟨rfl, rfl⟩ | ⟨rfl, hu⟩, ht⟩ <;> rw [ht]
  · have hsame := hs.ret_disarmed hu.same .ok
    exact ⟨hsame.as_disarmed, .inl ⟨congrArg (· ++ [Reply.ok]) hu.replies, hsame.watch,
      hsame.edgePend_of_unwatched rfl⟩⟩
  · have hsame := hs.ret_same (.advance s.begin) (.error (.halFailure [.xr1]))
    exact ⟨{ hsame with edgeKept := id, edgeWatched := .inl },
      .inr (.inl ⟨rfl, rfl, rfl⟩)⟩
  · have hsame := hs.ret_disarmed hu.same (.error (.halFailure [.xr2]))
    exact ⟨hsame.as_disarmed, .inr (.inr ⟨congrArg (· ++ [_]) hu.replies, hsame.watch,
      hsame.edgePend_of_unwatched rfl⟩)⟩

/-- Settles O49: the step that writes the flag is reached only where all before it completed, and no
cleanup writes a register. -/
theorem failedOperationsLeaveTheirFlag : Obligations.FailedOperationsLeaveTheirFlag :=
  fun _ _ hs => ⟨execInit_flag hs, execStartReceiveMode_flag hs, execStopReceiveMode_flag hs⟩

end Sys2Proof.Machine
end

section
/-! Proofs: init, powerUp, powerDown, startReceiveMode and stopReceiveMode complete on an access layer
that does not fail (41_mode_controller.md R152 to R156). -/

namespace Sys2Proof.Machine

/-! ### Steps that complete, with their events -/

section
variable {s : State} (h : s.params.halFallible = false)
include h

theorem pinWrite_runs (label : StepLabel) (l : OutLine) (v : Level) :
    ∃ t, pinWrite label l v s = .ok () t ∧ Ran 1 [.w l v] s t :=
  ⟨_, pinWrite_of_clear (failsHere_of_infallible h) l v, (Ran.advance s).trans (.write l v _)⟩

theorem assertLine_runs (label : StepLabel) (l : OutLine) :
    ∃ t, assertLine label l s = .ok () t ∧ Ran 1 [.w l l.asserted] s t := pinWrite_runs h label l _

theorem deassertLine_runs (label : StepLabel) (l : OutLine) :
    ∃ t, deassertLine label l s = .ok () t ∧ Ran 1 [.w l (!l.asserted)] s t :=
  pinWrite_runs h label l _

theorem delay_runs (label : StepLabel) (d : Duration) :
    ∃ t, delay label d s = .ok () t ∧ Ran 1 [.d d] s t :=
  ⟨_, delay_of_clear (failsHere_of_infallible h) d, (Ran.advance s).trans (.emit _ _ (by simp))⟩

theorem powerUpSteps_runs :
    ∃ t, powerUpSteps s = .ok () t ∧ Ran 2 [.w .pwr true, .d .wake] s t := by
  obtain ⟨t1, r1, h1⟩ := assertLine_runs h .pu1 .pwr
  obtain ⟨t2, r2, h2⟩ := delay_runs (h1.same.params ▸ h) .pu2 .wake
  exact ⟨t2, by simp only [powerUpSteps, r1, r2, Res.andThen], h1.trans h2⟩

/-- Steps `IN.1` to `IN.4` (41_mode_controller.md R152): the mirror is sent as it stands, so `WC.3`
leaves it. -/
theorem initSteps_runs :
    ∃ t n evs, initSteps s = .ok () { t with inited := true } ∧ Ran n evs s t ∧
      outward evs = initEvents s := by
  have hopen : halAction .in1 s = .ok () s.advance :=
    halAction_of_clear (failsHere_of_infallible h)
  obtain ⟨t1, e1, r1, h1, o1⟩ := writeConfigSteps_completes 0 s.cfg (s := s.advance) h
  have hmirror : mirrorWrite t1.cfg 0 s.cfg = t1.cfg := by
    rw [h1.same.cfg]
    exact mirrorWrite_self s.cfg
  rw [hmirror] at r1
  obtain ⟨t2, r2, h2⟩ := powerUpSteps_runs (s := t1) (h1.same.params ▸ h)
  refine ⟨t2, _, _, ?_, (Ran.advance s).trans (h1.trans h2), ?_⟩
  · simp only [initSteps, hopen, State.advance_cfg, r1, r2, Res.andThen, Res.inside]
  · simp [o1, initEvents, Event.outward]

theorem enterReceiveSteps_runs :
    ∃ t, enterReceiveSteps s = .ok () { t with watch := true } ∧
      Ran 5 [.w .txen false, .w .pwr true, .w .trig true, .d .settle] s t := by
  obtain ⟨t1, r1, h1⟩ := deassertLine_runs h .er1 .txen
  have p1 := h1.same.params ▸ h
  obtain ⟨t2, r2, h2⟩ := assertLine_runs p1 .er2 .pwr
  have p2 := h2.same.params ▸ p1
  obtain ⟨t3, r3, h3⟩ := assertLine_runs p2 .er3 .trig
  have p3 := h3.same.params ▸ p2
  obtain ⟨t4, r4, h4⟩ := delay_runs p3 .er4 .settle
  have r5 : halAction .er5 t4 = .ok () t4.advance :=
    halAction_of_clear (failsHere_of_infallible (h4.same.params ▸ p3))
  exact ⟨t4.advance, by simp only [enterReceiveSteps, r1, r2, r3, r4, r5, Res.andThen],
    h1.trans (h2.trans (h3.trans (h4.trans (.advance t4))))⟩

/-- Steps `XR.1` and `XR.2` (41_mode_controller.md R156). -/
theorem exitReceiveSteps_runs :
    ∃ t n, exitReceiveSteps s = .ok () t ∧
      Ran n (exitEvents s.params) s.advance.disarmed t := by
  rw [exitReceiveSteps_of_clear (failsHere_of_infallible h), exitEvents]
  split
  · obtain ⟨t, hr, ht⟩ := deassertLine_runs (s := s.advance.disarmed) h .xr2 .trig
    exact ⟨t, 1, hr, ht⟩
  · exact ⟨_, 0, rfl, .refl _⟩

end

/-! ### Operations that complete -/

section
variable {s : State} (hs : Ready s)
include hs

theorem execPowerUp_runs :
    ∃ t, execPowerUp s = .next (t.ret .ok) ∧ Ran 2 [.w .pwr true, .d .wake] s.begin t := by
  obtain ⟨t, hr, ht⟩ := powerUpSteps_runs (s := s.begin) hs.infallible
  exact ⟨t, by rw [execPowerUp_of_inited hs.idle.busy hs.inited, conclude_thenOk hr], ht⟩

theorem execPowerDown_runs :
    ∃ t, execPowerDown s = .next (t.ret .ok) ∧ Ran 1 [.w .pwr false] s.begin t := by
  obtain ⟨t, hr, ht⟩ := deassertLine_runs (s := s.begin) hs.infallible .pd1 .pwr
  exact ⟨t, by rw [execPowerDown_of_inited hs.idle.busy hs.inited, conclude_thenOk hr], ht⟩

theorem execStartReceiveMode_runs :
    ∃ t, execStartReceiveMode s = .next (State.ret .ok { t with watch := true }) ∧
      Ran 5 [.w .txen false, .w .pwr true, .w .trig true, .d .settle] s.begin t := by
  obtain ⟨t, hr, ht⟩ := enterReceiveSteps_runs (s := s.begin) hs.infallible
  exact ⟨t, by rw [execStartReceiveMode_of_inited hs.idle.busy hs.inited, conclude_thenOk hr], ht⟩

theorem execStopReceiveMode_runs :
    ∃ t n, execStopReceiveMode s = .next (t.ret .ok) ∧
      Ran n (exitEvents s.params) s.begin.advance.disarmed t := by
  obtain ⟨t, n, hr, ht⟩ := exitReceiveSteps_runs (s := s.begin) hs.infallible
  exact ⟨t, n, by rw [execStopReceiveMode_of_inited hs.idle.busy hs.inited, conclude_thenOk hr], ht⟩

end

theorem execInit_runs {s : State} (hb : s.busy = false) (hi : s.inited = false)
    (hf : s.params.halFallible = false) :
    ∃ t n evs, execInit s = .next (State.ret .ok { t with inited := true }) ∧
      Ran n evs s.begin t ∧ outward evs = initEvents s := by
  obtain ⟨t, n, evs, hr, ht, ho⟩ := initSteps_runs (s := s.begin) hf
  exact ⟨t, n, evs, by rw [execInit_of_uninited hb hi, conclude_thenOk hr], ht, ho⟩

/-- The lines after init (41_mode_controller.md R152). -/
theorem linesAfter_init (s : State) (ls : Lines) :
    linesAfter ls (initEvents s) = { ls with pwr := true, csn := true } := by
  rw [initEvents, linesAfter_append, linesAfter_configWrite]
  rfl

/-- The reference environment after init has stored the mirror (20_memory.md R71; log 12). -/
theorem chipAfter_init {s : State} (hv : s.params.valid = true) (ls : Lines) (c : Chip) :
    chipAfter s.params ls c (initEvents s) =
      { Chip.storeFrom s.params (.writeConfig 0) 0 s.cfg c with frame := .released } := by
  rw [initEvents, chipAfter_append, chipAfter_configWrite hv _ _ (Nat.zero_le _)]
  rfl

/-- Settles O23: the run of init (`execInit_runs`), its lines and its chip-side spaces as functions of
its events. -/
theorem initCompletes : Obligations.InitCompletes := by
  intro s hs hi hv hf hl
  obtain ⟨t, n, evs, hexec, ht, ho⟩ := execInit_runs hs.busy hi hf
  have hlines := ht.lines
  rw [← linesAfter_outward, ho, linesAfter_init] at hlines
  have hchip := ht.chip
  rw [← chipAfter_outward, ho] at hchip
  replace hchip := hchip.trans (chipAfter_init hv _ _)
  have hsame := hs.ret_same ht.same .ok
  have hspaces := Chip.storeFrom_config s.params 0 s.cfg 0 s.chip (by simp [hl, configLen])
  refine ⟨_, hexec, { hsame with inited := rfl }, hlines, ?_, congrArg (· ++ [Reply.ok]) ht.replies,
    ?_⟩
  · show outward t.trace = _
    rw [ht.trace, outward_append, ho, initEvents, List.append_assoc]
    rfl
  · show WrittenAt s.chip.config 0 s.cfg t.chip.config ∧ t.chip.txPayload = s.chip.txPayload ∧
      t.chip.txAddress = s.chip.txAddress ∧ t.chip.rxPayload = s.chip.rxPayload
    rw [hchip]
    exact hspaces

/-- Settles O27, by the runs of both operations. -/
theorem powerUpAndPowerDownComplete : Obligations.PowerUpAndPowerDownComplete := by
  intro s hs
  obtain ⟨t, hup, ht⟩ := execPowerUp_runs hs
  obtain ⟨u, hdown, hu⟩ := execPowerDown_runs hs
  exact ⟨⟨_, hup, hs.idle.ret_same ht.same _, ht.chip, ht.lines, ht.trace,
      congrArg (· ++ [Reply.ok]) ht.replies⟩,
    ⟨_, hdown, hs.idle.ret_same hu.same _, hu.chip, hu.lines, hu.trace,
      congrArg (· ++ [Reply.ok]) hu.replies⟩⟩

/-- Settles O28: the watch is armed after the run of the other steps, in which a disarmed watch latched
no edge. -/
theorem startReceiveModeCompletes : Obligations.StartReceiveModeCompletes := by
  intro s hs
  obtain ⟨t, hexec, ht⟩ := execStartReceiveMode_runs hs
  have hsame := hs.idle.ret_same ht.same .ok
  have hmode : t.mode = .receiving := by rw [State.mode, ht.lines]; rfl
  exact ⟨_, hexec, { hsame with watch := rfl, edgeWatched := fun _ => .inr rfl }, rfl,
    ht.same.edgePend_of_unwatched, hmode, ht.lines, ht.chip, ht.trace,
    congrArg (· ++ [Reply.ok]) ht.replies⟩

/-- A write of `TRIG` to 0 concerns no chip-side space (log 12). -/
theorem chipAfter_exit (p : Params) (ls : Lines) (c : Chip) :
    chipAfter p ls c (exitEvents p) = c := by
  rw [exitEvents]
  split <;> rfl

/-- Settles O29: watch and latch are dropped before the run of what is left, so nothing is latched
again. -/
theorem stopReceiveModeCompletes : Obligations.StopReceiveModeCompletes := by
  intro s hs
  obtain ⟨t, n, hexec, ht⟩ := execStopReceiveMode_runs hs
  have hsame := hs.idle.ret_disarmed ht.same .ok
  refine ⟨_, hexec, hsame, hsame.edgePend_of_unwatched rfl, ht.chip.trans (chipAfter_exit _ _ _),
    congrArg (· ++ [Reply.ok]) ht.replies, fun he => ?_, fun he => ?_⟩
  · have hnone : exitEvents s.params = [] := if_neg (by simp [he])
    rw [hnone] at ht
    exact ⟨ht.lines, ht.trace.trans (List.append_nil _)⟩
  · have htrig : exitEvents s.params = [.w .trig false] := if_pos he
    rw [htrig] at ht
    exact ⟨ht.lines, ht.trace⟩

end Sys2Proof.Machine
end

section
/-! Proofs: the modes the host operations and the drain lead to (41_mode_controller.md R157). -/

namespace Sys2Proof.Machine

/-! ### The mode as a function of the lines -/

/-- Chip-select does not matter for the mode (10_state.md R37). -/
theorem Lines.mode_eq_of_level {l k : Lines} (hp : l.level .pwr = k.level .pwr)
    (hx : l.level .txen = k.level .txen) (ht : l.level .trig = k.level .trig) :
    l.mode = k.mode := by
  simp only [Lines.level] at hp hx ht
  rw [Lines.mode, Lines.mode, hp, hx, ht]

/-- The mode that powering up leads to: a powered-down chip goes where its trigger line says, a powered
one stays (41_mode_controller.md R157). -/
def State.modePoweredUp (s : State) : Mode :=
  if s.mode = .poweredDown then (if s.lines.trig then .receiving else .standby) else s.mode

/-- Outside a transmission asserting `PWR` is powering up. -/
theorem State.mode_of_powered {s t : State} {csn : Level} (htx : s.lines.txen = false)
    (h : t.lines = { s.lines with pwr := true, csn := csn }) : t.mode = s.modePoweredUp := by
  rw [State.modePoweredUp, State.mode, State.mode, h]
  generalize s.lines = l at htx
  obtain ⟨pwr, _, txen, trig⟩ := l
  obtain rfl : txen = false := htx
  cases pwr <;> cases trig <;> rfl

theorem Lines.mode_eq_poweredDown_iff (l : Lines) : l.mode = .poweredDown ↔ l.pwr = false := by
  obtain ⟨pwr, _, txen, trig⟩ := l
  cases pwr with
  | false => exact iff_of_true rfl rfl
  | true => cases txen <;> cases trig <;> simp [Lines.mode]

theorem Lines.pwr_of_receiving {l : Lines} (h : l.mode = .receiving) : l.pwr = true := by
  cases hp : l.pwr with
  | true => rfl
  | false =>
    rw [(Lines.mode_eq_poweredDown_iff l).mpr hp] at h
    cases h

/-- An instruction that writes chip-select only leaves the mode. -/
theorem exec_mode_of_csn {i : Instr} {s t : State} (h : exec i s = .next t)
    (hl : ∀ l ∈ linesWritten s.params i, l = .csn) : t.mode = s.mode := by
  have hlines := (exec_outcome h).listedWrites.lines
  have hkept (l : OutLine) (hne : l ≠ .csn) : t.lines.level l = s.lines.level l :=
    hlines l fun hm => hne (hl l hm)
  exact Lines.mode_eq_of_level (hkept _ (by decide)) (hkept _ (by decide)) (hkept _ (by decide))

/-! ### sendPacket and the drain -/

/-- A poll of `TX.5` on an access layer that does not fail ends sendPacket with the closing writes done,
or leaves it waiting with the lines as they are (43_transmit_pipeline.md R200, R202). -/
theorem transmitWait_lines (polls : Nat) {s : State} (hf : s.params.halFallible = false) :
    ((transmitWait polls s).busy = false ∧
        (transmitWait polls s).lines = { s.lines with txen := false, trig := true }) ∨
      ((transmitWait polls s).busy = s.busy ∧ (transmitWait polls s).lines = s.lines) := by
  rw [transmitWait]
  rcases waitHigh_cases .tx5 polls s with ⟨hfail, -⟩ | ⟨-, -, h⟩ | ⟨-, -, -, h⟩ | ⟨-, -, -, h⟩
  · exact absurd (hfail.symm.trans (failsHere_of_infallible hf)) Bool.noConfusion
  · obtain ⟨a, u, hr, hu⟩ := (transmitClose_completes
      (s := s.advance.emit (.r .dr s.here.level)) hf).performs
    simp only [h, hr]
    exact .inl ⟨rfl, hu.lines⟩
  · have hu := cleanupWrites_ran closeTransmit (s := s.advance.emit (.r .dr s.here.level))
      fun k _ => failsAt_of_infallible (s := s.advance.emit _) hf k
    simp only [h]
    exact .inl ⟨rfl, hu.lines⟩
  · simp only [h]
    exact .inr ⟨rfl, rfl⟩

theorem checkSendPacket_of_le {s : State} (hi : s.inited = true) {a payload : List Byte}
    (ha : addrLen ≤ a.length) (hp : payload.length ≤ s.params.txPayloadMax) :
    checkSendPacket a payload s = .ok (a.take addrLen) := by
  have hc : checkPayload s.params payload = .ok () := if_pos (decide_eq_true hp)
  rw [checkSendPacket, checkInited_of_inited hi, normAddr_of_le ha, hc]

/-- An accepted sendPacket reaches its first poll with the levels of `TX.5`
(43_transmit_pipeline.md R202). -/
theorem execSendPacket_waits {s : State} (hs : Ready s) {a payload : List Byte}
    (ha : addrLen ≤ a.length) (hp : payload.length ≤ s.params.txPayloadMax) :
    ∃ u, execSendPacket a payload s = .next (transmitWait 0 u) ∧ u.busy = true ∧
      u.params = s.params ∧ u.lines = { pwr := true, csn := true, txen := true, trig := false } := by
  obtain ⟨_, u, evs, hr, hu, ho, -⟩ := transmitSteps_completes (a.take addrLen) payload
    (s := s.begin.latched a payload) hs.infallible
  refine ⟨u, ?_, hu.same.busy, hu.same.params, ?_⟩
  · rw [execSendPacket, acceptThen_of_ok _ hs.idle.busy (checkSendPacket_of_le hs.inited ha hp)]
    show Host.Outcome.next (transmitRun (a.take addrLen) payload (s.begin.latched a payload)) = _
    rw [transmitRun, hr]
  · rw [hu.lines, ← linesAfter_outward, ho, linesAfter_transmit]

theorem execSendPacket_mode {s t : State} (hs : Ready s) {a payload : List Byte}
    (ha : addrLen ≤ a.length) (hp : payload.length ≤ s.params.txPayloadMax)
    (h : execSendPacket a payload s = .next t) :
    t.mode = if t.busy then .transmitting else .receiving := by
  obtain ⟨u, hexec, hbusy, hparams, hlines⟩ := execSendPacket_waits hs ha hp
  obtain rfl := Host.Outcome.next.inj (hexec.symm.trans h)
  rcases transmitWait_lines 0 (hparams ▸ hs.infallible) with ⟨hb, hl⟩ | ⟨hb, hl⟩
  · rw [State.mode, hl, hb, hlines]
    rfl
  · rw [State.mode, hl, hb, hlines, hbusy]
    rfl

/-- The read of the drain ends with the trigger asserted again (42_receive_pipeline.md R172). -/
theorem drainRead_lines {s : State} (hf : s.params.halFallible = false) :
    (drainRead s).lines = { s.lines with csn := true, trig := true } := by
  obtain ⟨_, t, hr, ht⟩ := drainReadSteps_performs hf
  rw [drainRead, hr]
  show t.lines = _
  rw [ht.lines]
  simp [readPayloadEvents, linesAfter_receiveEvents, lineAfter, Lines.set]

theorem drainRead_mode {s : State} (hf : s.params.halFallible = false)
    (htx : s.lines.txen = false) :
    (s.mode = .receiving → (drainRead s).mode = .receiving) ∧
      (s.mode = .poweredDown → (drainRead s).mode = .poweredDown ∧
        (drainRead s).lines.trig = true) := by
  rw [State.mode, State.mode, drainRead_lines hf]
  refine ⟨fun h => ?_, fun h => ⟨?_, rfl⟩⟩
  · simp [Lines.mode, Lines.pwr_of_receiving h, htx]
  · rw [Lines.mode_eq_poweredDown_iff] at h ⊢
    exact h

/-! ### The operations -/

theorem execInit_mode {s t : State} (hs : Idle s) (hi : s.inited = false)
    (hf : s.params.halFallible = false) (htx : s.lines.txen = false) (htrig : s.lines.trig = false)
    (h : execInit s = .next t) : t.mode = .standby := by
  obtain ⟨u, n, evs, hexec, hu, ho⟩ := execInit_runs hs.busy hi hf
  obtain rfl := Host.Outcome.next.inj (hexec.symm.trans h)
  show u.lines.mode = _
  rw [hu.lines, ← linesAfter_outward, ho, linesAfter_init]
  simp [Lines.mode, htx, htrig]

section
variable {s t : State} (hs : Ready s) (htx : s.lines.txen = false)
include hs

theorem execPowerDown_mode (h : execPowerDown s = .next t) : t.mode = .poweredDown := by
  obtain ⟨u, hexec, hu⟩ := execPowerDown_runs hs
  obtain rfl := Host.Outcome.next.inj (hexec.symm.trans h)
  exact (Lines.mode_eq_poweredDown_iff _).mpr (congrArg Lines.pwr hu.lines)

theorem execStartReceiveMode_mode (h : execStartReceiveMode s = .next t) :
    t.mode = .receiving := by
  obtain ⟨u, hexec, -, -, -, hmode, -⟩ := startReceiveModeCompletes s hs
  obtain rfl := Host.Outcome.next.inj (hexec.symm.trans h)
  exact hmode

theorem execStopReceiveMode_lines (h : execStopReceiveMode s = .next t) :
    (s.params.exitRxToStandby = false → t.lines = s.lines) ∧
      (s.params.exitRxToStandby = true → t.lines = { s.lines with trig := false }) := by
  obtain ⟨u, hexec, -, -, -, -, hstay, hexit⟩ := stopReceiveModeCompletes s hs
  obtain rfl := Host.Outcome.next.inj (hexec.symm.trans h)
  exact ⟨fun he => (hstay he).1, fun he => (hexit he).1⟩

include htx

theorem execPowerUp_mode (h : execPowerUp s = .next t) : t.mode = s.modePoweredUp := by
  obtain ⟨u, hexec, hu⟩ := execPowerUp_runs hs
  obtain rfl := Host.Outcome.next.inj (hexec.symm.trans h)
  exact State.mode_of_powered (csn := s.lines.csn) htx hu.lines

theorem execWriteConfig_mode {k : Nat} {bytes : List Byte} (hk : k + bytes.length ≤ configLen)
    (h : execWriteConfig k bytes s = .next t) : t.mode = s.modePoweredUp := by
  obtain ⟨u, hexec, hu⟩ := execWriteConfig_answered hs hk
  obtain rfl := Host.Outcome.next.inj (hexec.symm.trans h)
  exact State.mode_of_powered htx hu.lines

theorem execSetAddress_mode {a : List Byte} (ha : addrLen ≤ a.length)
    (h : execSetAddress a s = .next t) : t.mode = s.modePoweredUp := by
  obtain ⟨u, hexec, hu⟩ := execSetAddress_answered hs ha
  obtain rfl := Host.Outcome.next.inj (hexec.symm.trans h)
  exact State.mode_of_powered htx hu.lines

theorem execStopReceiveMode_standby (he : s.params.exitRxToStandby = true)
    (h : execStopReceiveMode s = .next t) :
    (s.mode = .receiving → t.mode = .standby) ∧
      (s.mode = .poweredDown → t.mode = .poweredDown ∧ t.lines.trig = false) := by
  have hlines := (execStopReceiveMode_lines hs h).2 he
  rw [State.mode, State.mode, hlines]
  refine ⟨fun hm => ?_, fun hm => ⟨?_, rfl⟩⟩
  · simp [Lines.mode, Lines.pwr_of_receiving hm, htx]
  · rw [Lines.mode_eq_poweredDown_iff] at hm ⊢
    exact hm

end

/-- Settles O53: the lines after each operation, read by the table of R37. -/
theorem operationsMoveTheModeAsTabled : Obligations.OperationsMoveTheModeAsTabled := by
  refine ⟨fun s hs hi hf => ⟨fun t htx htrig h => execInit_mode hs hi hf htx htrig h,
      fun a t h => congrArg Lines.mode (execSetAddress_silent hi h).lines⟩,
    fun s h t he => ?_, fun s hf htx => drainRead_mode hf htx, fun s hs htx => ?_⟩
  · rcases he with he | he <;> exact exec_mode_of_csn he (by simp [linesWritten])
  · exact ⟨fun _ => execPowerDown_mode hs, fun _ => execStartReceiveMode_mode hs,
      fun _ => execPowerUp_mode hs htx, fun _ _ _ hk => execWriteConfig_mode hs htx hk,
      fun _ _ ha => execSetAddress_mode hs htx ha,
      fun _ h => exec_mode_of_csn h (by simp [linesWritten]),
      fun _ h he => congrArg Lines.mode ((execStopReceiveMode_lines hs h).1 he),
      fun _ h he => execStopReceiveMode_standby hs htx he h,
      fun _ _ _ ha hp => execSendPacket_mode hs ha hp⟩

end Sys2Proof.Machine
end

section
/-! Proofs: a rising edge of `AM` is latched under an armed watch, at every primitive and over every
operation, busy step and drain (42_receive_pipeline.md R170, R180; 60_exceptions.md R228 (d)). -/

namespace Sys2Proof.Machine

/-! ### One edge -/

theorem State.latchEdge_true (s : State) :
    s.latchEdge true = if s.watch = true then { s with edgePend := true } else s := by
  split
  · simp [State.latchEdge, *]
  · have hlatch : (s.edgePend || (s.watch && true)) = s.edgePend := by simp [*]
    rw [State.latchEdge, hlatch]

theorem State.latchEdge_false (s : State) : s.latchEdge false = s := by simp [State.latchEdge]

/-- A request concerns the registry and no edge. -/
@[simp] theorem State.request_edgePend (q : RegistryRequest) (s : State) :
    (s.request q).edgePend = s.edgePend := by
  rcases s.request_cases q with ⟨-, h⟩ | ⟨-, h⟩ <;> rw [h]

@[simp] theorem State.request_tick (q : RegistryRequest) (s : State) :
    (s.request q).tick = s.tick := by
  rcases s.request_cases q with ⟨-, h⟩ | ⟨-, h⟩ <;> rw [h]

/-- The requests of a delivery leave the latch and the moments. -/
theorem requests_latch (qs : List RegistryRequest) (s : State) :
    (qs.foldl (fun s q => s.request q) s).edgePend = s.edgePend ∧
      (qs.foldl (fun s q => s.request q) s).tick = s.tick := by
  induction qs generalizing s with
  | nil => exact ⟨rfl, rfl⟩
  | cons q qs ih => simpa using ih (s.request q)

/-- A primitive latches the edge of its moment whether it fails or not. -/
theorem edgePend_of_cases {α : Type} {r : Res α} {path : StepPath} {a : α} {s t u : State}
    (hf : s.failsHere = true → r = .failed path t) (hc : s.failsHere = false → r = .ok a u)
    (ht : t.edgePend = s.advance.edgePend) (hu : u.edgePend = s.advance.edgePend) :
    r.state.edgePend = s.advance.edgePend := by
  cases h : s.failsHere with
  | true => rw [hf h, Res.state_failed, ht]
  | false => rw [hc h, Res.state_ok, hu]

section
variable (s : State)

theorem pinWrite_edgePend (label : StepLabel) (l : OutLine) (v : Level) :
    (pinWrite label l v s).state.edgePend = s.advance.edgePend :=
  edgePend_of_cases (pinWrite_of_failing · l v) (pinWrite_of_clear · l v) rfl rfl

theorem pinRead_edgePend (label : StepLabel) (l : InLine) :
    (pinRead label l s).state.edgePend = s.advance.edgePend :=
  edgePend_of_cases (pinRead_of_failing · l) (pinRead_of_clear · l) rfl rfl

theorem xfer_edgePend (label : StepLabel) (o : Byte) :
    (xfer label o s).state.edgePend = s.advance.edgePend :=
  edgePend_of_cases (xfer_of_failing · o) (xfer_of_clear · o) rfl rfl

theorem delay_edgePend (label : StepLabel) (d : Duration) :
    (delay label d s).state.edgePend = s.advance.edgePend :=
  edgePend_of_cases (delay_of_failing · d) (delay_of_clear · d) rfl rfl

theorem halAction_edgePend (label : StepLabel) :
    (halAction label s).state.edgePend = s.advance.edgePend :=
  edgePend_of_cases halAction_of_failing halAction_of_clear rfl rfl

theorem cleanupWrite_edgePend (write : OutLine × Level) :
    (cleanupWrite s write).edgePend = s.advance.edgePend := by
  rw [cleanupWrite]
  split <;> rfl

theorem deliver_edgePend (h : ConsumerId) (payload : List Byte) :
    (deliver h payload s).edgePend = s.advance.edgePend :=
  (requests_latch s.here.requests (s.advance.emit (.v h payload))).1

end

/-- Settles O9: every primitive and every delivery first takes its moment (`State.advance`), which
latches the edge the moment carries. -/
theorem addressMatchEdgeIsLatchedWhenWatched : Obligations.AddressMatchEdgeIsLatchedWhenWatched :=
  ⟨State.latchEdge_true, State.latchEdge_false, fun s =>
    ⟨rfl, rfl, rfl, rfl, rfl, .advance s, pinWrite_edgePend s, pinRead_edgePend s, xfer_edgePend s,
      delay_edgePend s, halAction_edgePend s, cleanupWrite_edgePend s, deliver_edgePend s⟩⟩

/-! ### The edges of an operation -/

/-- What was latched at `s`, and every edge under an armed watch among the moments used from `s` to
`t`, is latched at `t`. -/
def Latches (s t : State) : Prop :=
  (s.edgePend = true ∨ (s.watch = true ∧ EdgeWithin (t.tick - s.tick) s)) → t.edgePend = true

theorem Touched.latches {ls : List OutLine} {s t : State} (h : Touched ls s t) : Latches s t := by
  obtain ⟨n, -, htick, hedges⟩ := h.used
  rintro (he | ⟨hw, he⟩)
  · exact h.same.edgeKept he
  · rw [htick, Nat.add_sub_cancel_left] at he
    exact hedges hw he

theorem Latches.refl (s : State) : Latches s s := (Touched.refl [] s).latches

/-- Only the latch and the count of the moments used matter of the later state. -/
theorem Latches.congr {s t u : State} (h : Latches s t) (he : u.edgePend = t.edgePend)
    (ht : u.tick = t.tick) : Latches s u := by
  rwa [Latches, he, ht]

theorem Performed.latches {i : Instr} {s t : State} (h : Performed i s t)
    (hi : i ≠ .stopReceiveMode) : Latches s t := by
  cases h with
  | plain h => exact h.latches
  | address h _ => exact h.latches
  | config h _ => exact h.latches
  | inited h _ => exact h.latches
  | armed h => exact h.latches
  | disarmed _ _ => exact absurd rfl hi
  | transmitted h => exact h.latches

theorem ExecOutcome.latches {i : Instr} {s t : State} (h : ExecOutcome i s t)
    (hi : i ≠ .stopReceiveMode) : Latches s t := by
  cases h with
  | held _ =>
    obtain ⟨port, hp, -⟩ := s.hold_eq i
    exact hp ▸ Latches.refl s
  | refused m => exact Latches.refl s
  | answered reply _ hu => exact hu.latches
  | requested _ => exact (Latches.refl s).congr (s.request_edgePend _) (s.request_tick _)
  | returned reply _ hu => exact hu.latches hi
  | waits _ _ hu => exact hu.latches

theorem exec_latches {i : Instr} {s t : State} (h : exec i s = .next t)
    (hi : i ≠ .stopReceiveMode) : Latches s t := (exec_outcome h).latches hi

/-! ### The edges of a step of the busy block -/

theorem TransmitEnds.latches {polls : Nat} {s t : State} (h : TransmitEnds polls s t) :
    Latches s t := by
  cases h with
  | returned reply hu => exact hu.latches
  | waits hu => exact hu.latches

theorem DrainEnds.latches {polls : Nat} {s t : State} (h : DrainEnds polls s t) : Latches s t := by
  cases h with
  | ended b e hu => exact hu.latches
  | waits hu => exact hu.latches
  | read _ hu => exact hu.latches

theorem deliver_latches (h : ConsumerId) (payload : List Byte) (s : State) :
    Latches s (deliver h payload s) :=
  have hrequests := requests_latch s.here.requests (s.advance.emit (.v h payload))
  (polled_touched [] (.v h payload) s).latches.congr hrequests.1 hrequests.2

theorem dispatchStep_latches {snapshot : List ConsumerId} {i : Nat} {s t : State}
    (h : dispatchStep snapshot i s = .next t) : Latches s t := by
  rw [dispatchStep] at h
  split at h
  · cases h
  · split at h <;> cases h
    · exact Latches.refl s
    · exact deliver_latches _ _ s

/-- The end of a dispatch uses no moment. -/
theorem dispatchEnd_latches (aborted : Option Nat) (s : State) :
    Latches s (dispatchEnd aborted s) := by
  cases aborted with
  | none => exact Latches.refl s
  | some i => exact Latches.refl s

/-- Attach and detach are not stopReceiveMode. -/
theorem decodeCommand_of_registryCommand {c : PortCommand} (h : registryCommand c = true) :
    decodeCommand c ≠ .stopReceiveMode := by
  intro hc
  rw [registryCommand, hc] at h
  cases h

theorem continueDispatch_latches {next : State → Host.Outcome State Fault Refusal} {s t : State}
    (h : continueDispatch next s = .next t) (hn : next s = .next t → Latches s t) :
    Latches s t := by
  rw [continueDispatch] at h
  split at h
  · split at h
    · exact exec_latches (s := s.takePort) h (decodeCommand_of_registryCommand ‹_›)
    · exact hn h
  · exact hn h

theorem continueOperation_latches {s t : State} (h : continueOperation s = .next t) :
    Latches s t := by
  rw [continueOperation] at h
  split at h
  case h_1 =>
    cases h
    exact .refl s
  case h_2 polls _ =>
    cases h
    exact (transmitWait_ends polls s).latches
  case h_3 polls _ =>
    cases h
    exact (drainWait_ends polls s).latches
  case h_4 => exact continueDispatch_latches h dispatchStep_latches
  case h_5 aborted _ =>
    refine continueDispatch_latches h fun h => ?_
    cases h
    exact dispatchEnd_latches aborted s

/-- The framer's internal port takes no host operation (30_encoding.md R102, R104). -/
theorem decodeFrame_ne_stopReceiveMode {p : Params} {bytes : List Byte} {i : Instr}
    (h : decodeFrame p bytes = .ok i) : i ≠ .stopReceiveMode := by
  rintro rfl
  cases bytes with
  | nil => cases h
  | cons b data =>
    rw [decodeFrame, decodeFirstByte] at h
    split_ifs at h <;> cases h

theorem runFramerCall_latches {bytes : List Byte} {s t : State}
    (h : runFramerCall bytes s = .next t) : Latches s t := by
  rw [runFramerCall] at h
  split at h
  · exact exec_latches h (decodeFrame_ne_stopReceiveMode ‹_›)
  · cases h

/-- What a call at the framer's port or the running operation does to the latch of a busy block. -/
theorem step_latches_of_busy {s t : State} (h : step s = .next t) (hb : s.busy = true) :
    Latches s t := by
  cases hf : s.framer with
  | some bytes =>
    rw [step, sequencerStep, hf] at h
    exact runFramerCall_latches (s := { s with framer := none }) h
  | none =>
    rw [step_of_busy hf hb] at h
    obtain ⟨port, host, hp⟩ := s.present_eq
    rw [hp] at h
    exact continueOperation_latches (s := { s with port := port, host := host }) h

/-- Settles O10: every micro-step of an instruction, of a step of the busy block and of a drain
latches its edge (`Touched`), and of the instructions only stopReceiveMode clears the latch; `RX.0`
clears it before the drain's first micro-step. -/
theorem edgesDuringAnOperationAreLatched : Obligations.EdgesDuringAnOperationAreLatched :=
  ⟨fun _ _ _ h hi => exec_latches h hi, fun _ _ h hb => step_latches_of_busy h hb,
    fun _ hw he => (drainWait_ends 0 _).latches (.inr ⟨hw, he⟩)⟩

end Sys2Proof.Machine
end

section
/-! Proofs: the registry operations, and the dispatch of a packet to its consumers
(42_receive_pipeline.md R174 to R178, R182). -/

namespace Sys2Proof.Machine

/-! ### The registry -/

theorem registryOperation_of_idle (i : Instr) (q : RegistryRequest) {s : State}
    (hb : s.busy = false) (hd : s.dispatching = false) :
    registryOperation i q s =
      .next { s with reg := registryAfter s.reg q, replies := s.replies ++ [.ok] } := by
  have hq : s.request q = { s with reg := registryAfter s.reg q } := by simp [State.request, hd]
  rw [registryOperation, if_neg (by simp [hb]), hq]
  rfl

theorem registryOperation_of_dispatching (i : Instr) (q : RegistryRequest) {s : State}
    (hd : s.dispatching = true) :
    registryOperation i q s =
      .next { s with deferq := s.deferq ++ [q], replies := s.replies ++ [.ok] } := by
  have hq : s.request q = { s with deferq := s.deferq ++ [q] } := by simp [State.request, hd]
  rw [registryOperation, if_neg (by simp [hd]), hq]
  rfl

/-- Settles O33: a registry operation is its request (`State.request`), answered ok. -/
theorem registryOperationsComplete : Obligations.RegistryOperationsComplete := fun s h =>
  ⟨fun hb hd => ⟨registryOperation_of_idle _ (.attach h) hb hd,
      registryOperation_of_idle _ (.detach h) hb hd⟩,
    fun hd => ⟨registryOperation_of_dispatching _ (.attach h) hd,
      registryOperation_of_dispatching _ (.detach h) hd⟩,
    List.erase_of_not_mem, fun pre post hreg hpre => by
      rw [hreg, List.erase_append_right _ hpre, List.erase_cons_head]⟩

/-! ### One step of a dispatch -/

/-- A host with nothing left to present presents nothing. -/
theorem State.present_of_done {s : State} (h : s.host = []) : s.present = s := by
  cases hp : s.port <;> simp [State.present, h, hp]

@[simp] theorem State.present_dispatching (s : State) :
    s.present.dispatching = s.dispatching := by
  obtain ⟨_, _, h⟩ := s.present_eq
  rw [h]

/-- A command other than attach and detach waits for the dispatch to end (60_exceptions.md R228
(a)). -/
theorem continueDispatch_of_held {next : State → Host.Outcome State Fault Refusal} {s : State}
    (h : ∀ c, s.port = some c → registryCommand c = false) : continueDispatch next s = next s := by
  rw [continueDispatch]
  split
  · rename_i c hc
    simp [h c hc]
  · rfl

/-- The block after one delivery, the sequencer at `q`. -/
def State.delivered (h : ConsumerId) (p : List Byte) (q : Seq) (s : State) : State :=
  { s.advance.emit (.v h p) with deferq := s.deferq ++ s.here.requests, seq := q }

/-- Where a delivery of entry `i` leads: to `DP.3` if its consumer aborts, else to the next entry
(42_receive_pipeline.md R178). -/
def State.afterDelivery (snapshot : List ConsumerId) (i : Nat) (s : State) : Seq :=
  if s.here.abort then .applying (some i) else dispatchPosition snapshot (i + 1)

theorem dispatchStep_delivers {snapshot : List ConsumerId} {i : Nat} {h : ConsumerId}
    {p : List Byte} {s : State} (hd : s.dispatching = true) (hbuf : s.rxbuf = some p)
    (hi : snapshot[i]? = some h) :
    dispatchStep snapshot i s = .next (s.delivered h p (s.afterDelivery snapshot i)) := by
  simp only [dispatchStep, hbuf, hi, deliver_eq h p hd]
  rfl

/-- A step at `DP.2`, with no command at the port. -/
theorem step_delivers {snapshot : List ConsumerId} {i : Nat} {h : ConsumerId} {p : List Byte}
    {s : State} (hf : s.framer = none) (hport : s.present.port = none) (hb : s.busy = true)
    (hd : s.dispatching = true) (hseq : s.seq = .delivering snapshot i)
    (hbuf : s.rxbuf = some p) (hi : snapshot[i]? = some h) :
    step s = .next (s.present.delivered h p (s.present.afterDelivery snapshot i)) := by
  rw [step_of_busy hf hb]
  simp only [continueOperation, State.present_seq, hseq]
  rw [continueDispatch_of_held fun c hc => nomatch hport.symm.trans hc]
  exact dispatchStep_delivers (s.present_dispatching.trans hd) (s.present_rxbuf.trans hbuf) hi

/-- A step at `DP.3`, with no command at the port that a dispatch accepts. -/
theorem step_applies {aborted : Option Nat} {s : State} (hf : s.framer = none)
    (hb : s.busy = true) (hseq : s.seq = .applying aborted)
    (hport : ∀ c, s.present.port = some c → registryCommand c = false) :
    step s = .next (dispatchEnd aborted s.present) := by
  rw [step_of_busy hf hb]
  simp only [continueOperation, State.present_seq, hseq]
  exact continueDispatch_of_held hport

/-- The same where no command is left. -/
theorem step_applies_of_done {aborted : Option Nat} {s : State} (hf : s.framer = none)
    (hb : s.busy = true) (hseq : s.seq = .applying aborted) (hport : s.port = none)
    (hhost : s.host = []) : step s = .next (dispatchEnd aborted s) := by
  have hpresent := State.present_of_done hhost
  have happlies := step_applies hf hb hseq fun c hc => by
    rw [hpresent, hport] at hc
    cases hc
  rwa [hpresent] at happlies

/-! ### The rest of a dispatch -/

/-- From `s` to `t` a dispatch has run to its end: it emitted `evs`, the requests `qs` were issued
meanwhile, and all deferred ones were applied in their order; no other register changed
(42_receive_pipeline.md R174, R177). -/
structure DispatchDone (evs : List Event) (qs : List RegistryRequest) (s t : State) : Prop where
  trace : t.trace = s.trace ++ evs
  reg : t.reg = (s.deferq ++ qs).foldl registryAfter s.reg
  idle : Idle t
  same : SameRegisters { s.finish with reg := t.reg, dispatching := false, deferq := [] } t
  lines : t.lines = s.lines
  replies : t.replies = s.replies
  chip : t.chip = s.chip

/-- What `DP.4` reports (42_receive_pipeline.md R178). -/
def abortEvents : Option Nat → List Event
  | none => []
  | some i => [.f (.handlerAbort i)]

theorem dispatchEnd_done (aborted : Option Nat) (s : State) :
    DispatchDone (abortEvents aborted) [] s (dispatchEnd aborted s) := by
  have hend := dispatchEnd_ended aborted s
  have hreg : (dispatchEnd aborted s).reg = (s.deferq ++ []).foldl registryAfter s.reg := by
    rw [List.append_nil, hend.reg]
  have hsame : SameRegisters (applyDeferred s).finish (dispatchEnd aborted s) := by
    cases aborted with
    | none => exact .refl _
    | some i => exact (SameRegisters.emit (.f (.handlerAbort i)) (applyDeferred s)).finish
  refine ⟨?_, hreg, hend.idle, { hsame with reg := rfl }, hend.lines, hend.replies, hend.chip⟩
  cases aborted with
  | none => exact hend.trace
  | some i => exact hend.trace

/-- A delivery before the rest of the dispatch. -/
theorem DispatchDone.cons {evs : List Event} {qs : List RegistryRequest} {h : ConsumerId}
    {p : List Byte} {q : Seq} {s t : State} (hdone : DispatchDone evs qs (s.delivered h p q) t) :
    DispatchDone (.v h p :: evs) (s.here.requests ++ qs) s t where
  trace := by
    rw [hdone.trace]
    simp [State.delivered]
  reg := by
    rw [hdone.reg]
    simp [State.delivered]
  idle := hdone.idle
  same :=
    have hadvance : SameRegisters { s.finish with reg := t.reg, dispatching := false, deferq := [] }
        { (s.delivered h p q).finish with reg := t.reg, dispatching := false, deferq := [] } :=
      { (SameRegisters.advance s).finish with reg := rfl, dispatching := rfl, deferq := rfl }
    hadvance.trans hdone.same
  lines := hdone.lines
  replies := hdone.replies
  chip := hdone.chip

/-- A dispatch of `p` stands before entry `i` of its snapshot, or at `DP.3` behind the last one; no
command comes, and none of the `n` consumers left aborts. -/
structure Dispatching (snapshot : List ConsumerId) (p : List Byte) (i n : Nat) (s : State) :
    Prop where
  framerFree : s.framer = none
  portFree : s.port = none
  hostDone : s.host = []
  busy : s.busy = true
  dispatching : s.dispatching = true
  seq : s.seq = dispatchPosition snapshot i
  rxbuf : s.rxbuf = some p
  left : i + n = snapshot.length
  listed : n ≤ s.env.length
  noAbort : ∀ m ∈ s.env.take n, m.abort = false

section
variable {snapshot : List ConsumerId} {p : List Byte} {i n : Nat} {s : State}

theorem Dispatching.present_eq (h : Dispatching snapshot p i n s) : s.present = s :=
  State.present_of_done h.hostDone

/-- Behind the last entry the next step ends the dispatch. -/
theorem Dispatching.step_last (h : Dispatching snapshot p i 0 s) :
    step s = .next (dispatchEnd none s) := by
  have hseq : s.seq = .applying none :=
    h.seq.trans (dispatchPosition_of_le (Nat.le_of_eq h.left.symm))
  exact step_applies_of_done h.framerFree h.busy hseq h.portFree h.hostDone

/-- The moment of the next delivery. -/
theorem Dispatching.env_cons (h : Dispatching snapshot p i (n + 1) s) :
    s.env = s.here :: s.env.tail := by
  have hlisted := h.listed
  cases henv : s.env with
  | nil => simp [henv] at hlisted
  | cons m rest => rw [State.here_listed (m := m) (by simp [henv]), List.tail_cons]

theorem Dispatching.step_next (h : Dispatching snapshot p i (n + 1) s) {c : ConsumerId}
    (hc : snapshot[i]? = some c) :
    step s = .next (s.delivered c p (dispatchPosition snapshot (i + 1))) := by
  obtain ⟨hi, -⟩ := List.getElem?_eq_some_iff.mp hc
  have hseq := h.seq.trans (dispatchPosition_of_lt hi)
  have habort : s.here.abort = false := by
    refine h.noAbort _ ?_
    rw [h.env_cons, List.take_succ_cons]
    exact List.mem_cons_self
  have hport : s.present.port = none := by rw [h.present_eq, h.portFree]
  rw [step_delivers h.framerFree hport h.busy h.dispatching hseq h.rxbuf hc, h.present_eq,
    State.afterDelivery, habort]
  rfl

theorem Dispatching.delivered (h : Dispatching snapshot p i (n + 1) s) (c : ConsumerId) :
    Dispatching snapshot p (i + 1) n
      (s.delivered c p (dispatchPosition snapshot (i + 1))) where
  framerFree := h.framerFree
  portFree := h.portFree
  hostDone := h.hostDone
  busy := h.busy
  dispatching := h.dispatching
  seq := rfl
  rxbuf := h.rxbuf
  left := by
    have := h.left
    omega
  listed := by
    have hlisted := h.listed
    show n ≤ s.env.tail.length
    rw [List.length_tail]
    omega
  noAbort := fun m hm => h.noAbort m (by
    rw [h.env_cons, List.take_succ_cons]
    exact List.mem_cons_of_mem _ hm)

end

/-- The rest of a dispatch hands the payload to each entry left, once and in order. -/
theorem Dispatching.run_eq {snapshot : List ConsumerId} {p : List Byte} {i n : Nat} {s : State}
    (h : Dispatching snapshot p i n s) :
    ∃ t, run (n + 1) s = .next t ∧
      DispatchDone ((snapshot.drop i).map fun c => .v c p)
        ((s.env.take n).flatMap Moment.requests) s t := by
  induction n generalizing i s with
  | zero =>
    have hleft : snapshot.length ≤ i := Nat.le_of_eq h.left.symm
    refine ⟨dispatchEnd none s, by simp only [run, h.step_last], ?_⟩
    rw [List.drop_eq_nil_of_le hleft]
    exact dispatchEnd_done none s
  | succ n ih =>
    have hi : i < snapshot.length := by
      have := h.left
      omega
    obtain ⟨t, hrun, hdone⟩ := ih (h.delivered snapshot[i])
    refine ⟨t, by rw [run, h.step_next (List.getElem?_eq_getElem hi)]; exact hrun, ?_⟩
    rw [List.drop_eq_getElem_cons hi, h.env_cons, List.take_succ_cons, List.flatMap_cons]
    exact hdone.cons

/-- The end of a dispatch leaves a held command and what the host has yet to present. -/
theorem dispatchEnd_port (aborted : Option Nat) (s : State) :
    (dispatchEnd aborted s).port = s.port ∧ (dispatchEnd aborted s).host = s.host := by
  cases aborted <;> exact ⟨rfl, rfl⟩

/-- What the host presents at the step of `DP.3` makes no difference to the dispatch. -/
theorem DispatchEnded.of_present {aborted : Option Nat} {s t : State}
    (h : DispatchEnded aborted s.present t) : DispatchEnded aborted s t := by
  obtain ⟨port, host, hp⟩ := s.present_eq
  rw [hp] at h
  exact { h with }

/-- Settles O42: the run by induction on the entries left (`Dispatching.run_eq`), the step at `DP.3`
by `step_applies`. -/
theorem dispatchDeliversInOrder : Obligations.DispatchDeliversInOrder := by
  refine ⟨fun s snapshot p hne hframer hport hhost hbusy hdisp hdefer hseq hbuf hlisted hnone => ?_,
    fun s aborted hframer hbusy hseq hport => ?_⟩
  · have hstart : Dispatching snapshot p 0 snapshot.length s :=
      { framerFree := hframer, portFree := hport, hostDone := hhost, busy := hbusy
        dispatching := hdisp, rxbuf := hbuf, left := Nat.zero_add _, listed := hlisted
        noAbort := hnone
        seq := hseq.trans (dispatchPosition_of_lt (List.length_pos_iff.mpr hne)).symm }
    obtain ⟨t, hrun, hdone⟩ := hstart.run_eq
    have hreg := hdone.reg
    rw [hdefer, List.nil_append] at hreg
    exact ⟨t, hrun, hdone.trace, hreg, hdone.idle, hdone.same, hdone.lines, hdone.replies,
      hdone.chip⟩
  · exact ⟨_, step_applies hframer hbusy hseq hport, (dispatchEnd_ended aborted _).of_present,
      dispatchEnd_port aborted _⟩

/-! ### A consumer that aborts -/

/-- The step of a delivery changes the position and the deferred requests, and no other register. -/
theorem State.delivered_same (h : ConsumerId) (p : List Byte) (q : Seq) (s : State) :
    SameRegisters { s with seq := q, deferq := s.deferq ++ s.here.requests } (s.delivered h p q) :=
  { SameRegisters.advance s with seq := rfl, deferq := rfl }

/-- Settles O43: the step of the aborting delivery leads to `DP.3`, and the step there ends the
dispatch. -/
theorem abortEndsTheDispatch : Obligations.AbortEndsTheDispatch := by
  intro s snapshot i h p m hframer hport hbusy hdisp hseq hi hbuf hm habort
  have hhere : s.here = m := State.here_listed hm
  have hstep := step_delivers hframer hport hbusy hdisp hseq hbuf hi
  rw [State.afterDelivery, State.present_here, hhere, habort, if_pos rfl] at hstep
  refine ⟨⟨_, hstep, ?_⟩, fun hhost => ?_⟩
  · obtain ⟨port, host, hp⟩ := s.present_eq
    have hsame := s.present.delivered_same h p (.applying (some i))
    rw [State.present_here, hhere] at hsame
    rw [hp] at hsame ⊢
    exact ⟨rfl, hsame, rfl, rfl, rfl⟩
  · have hpresent := State.present_of_done hhost
    rw [hpresent] at hstep hport
    have hend := step_applies_of_done (s := s.delivered h p (.applying (some i))) hframer hbusy rfl
      hport hhost
    have hdone := (dispatchEnd_done (some i) (s.delivered h p (.applying (some i)))).cons
    rw [hhere, List.append_nil] at hdone
    exact ⟨_, by rw [run, hstep]; simp only [run, hend], hdone.trace, hdone.reg, hdone.idle,
      hdone.same, hdone.lines, hdone.replies, hdone.chip⟩

end Sys2Proof.Machine
end

section
/-! Proofs: the idle block, and the drain it starts on a latched edge, on an access layer that does
not fail (42_receive_pipeline.md R171 to R174, R181; 60_exceptions.md R228 (b)). -/

namespace Sys2Proof.Machine

/-! ### The idle block -/

/-- The idle block takes one moment and decides (log 11). -/
theorem step_of_idle {s : State} (hf : s.framer = none) (hb : s.busy = false) :
    step s = arbitrate s.present.advance := by
  obtain ⟨port, host, h⟩ := s.present_eq
  simp [step, sequencerStep, hf, runPresented, h, hb]

@[simp] theorem State.present_watch (s : State) : s.present.watch = s.watch := by
  obtain ⟨_, _, h⟩ := s.present_eq
  rw [h]

@[simp] theorem State.present_edgePend (s : State) : s.present.edgePend = s.edgePend := by
  obtain ⟨_, _, h⟩ := s.present_eq
  rw [h]

theorem Idle.present {s : State} (h : Idle s) : Idle s.present := by
  obtain ⟨port, host, hp⟩ := s.present_eq
  exact hp ▸ { h with }

/-- Settles O39: with no edge latched and nothing at the port the arbitration does nothing. -/
theorem idleBlockIsSilent : Obligations.IdleBlockIsSilent := by
  intro s hs hframer hport hedge hquiet
  have hlatch : s.present.advance.edgePend = false := by
    rcases hquiet with h | h <;> simp [hedge, h]
  refine ⟨s.present.advance, ?_, s.present_trace, s.present_replies, s.present_lines,
    s.present_chip, .advance _, hlatch⟩
  rw [step_of_idle hframer hs.busy, arbitrate, State.drainDue, hlatch, Bool.and_false,
    State.advance_port, hport]
  rfl

/-! ### The start of the drain -/

/-- The block before the first poll of a drain, one moment after `s`: `RX.0` has cleared the latch
(42_receive_pipeline.md R171, R172). -/
def State.drainBegun (s : State) : State := { s.advance with edgePend := false, busy := true }

/-- A latched edge starts the drain, whatever stands at the port. -/
theorem step_drains {s : State} {m : Moment} (hs : Idle s) (hf : s.framer = none)
    (hm : s.env[0]? = some m) (he : s.edgePend = true ∨ (s.watch = true ∧ m.edge = true)) :
    step s = .next (drainWait 0 s.present.drainBegun) := by
  have hlatch : s.present.advance.edgePend = true := by
    rcases he with he | ⟨hw, he⟩
    · simp [he]
    · simp [hw, State.here_listed hm, he]
  have hdue : s.present.advance.drainDue = true := by
    rw [State.drainDue, hlatch, State.advance_busy, State.present_busy, hs.busy]
    rfl
  rw [step_of_idle hf hs.busy, arbitrate, if_pos hdue]
  rfl

/-- A busy block in the drain's wait polls again. -/
theorem step_polls {s : State} {c : Nat} (hf : s.framer = none) (hb : s.busy = true)
    (hseq : s.seq = .rxWait c) : step s = .next (drainWait c s.present) := by
  rw [step_of_busy hf hb]
  simp only [continueOperation, State.present_seq, hseq]

/-- The first poll of a drain takes the moment after the one of the arbitration. -/
theorem State.drainBegun_here {s : State} {n : Moment} (h : s.env[1]? = some n) :
    s.present.drainBegun.here = n := by
  refine State.here_listed ?_
  show s.present.env.tail[0]? = some n
  simpa using h

/-- What `RX.0` writes. -/
theorem State.drainBegun_same (s : State) :
    SameRegisters { s with edgePend := false, busy := true } s.drainBegun :=
  { SameRegisters.refl { s with edgePend := false, busy := true } with }

/-- A micro-step that writes no line, a failed one too, is its one event. -/
theorem advance_emit_ran (e : Event) (s : State) (h : ∀ l v, e ≠ .w l v) :
    Ran 1 [e] s (s.advance.emit e) := (Ran.advance s).trans (.emit e _ h)

/-- The poll at `b` belongs to the drain of `s`, `pre` moments later: the block is busy, nothing
else has happened. -/
structure PollsFor (pre : Nat) (s b : State) : Prop where
  same : SameRegisters { s with busy := true } b
  trace : b.trace = s.trace
  lines : b.lines = s.lines
  replies : b.replies = s.replies
  chip : b.chip = s.chip
  env : b.env = s.env.drop pre

/-- A later poll of a drain. -/
theorem PollsFor.waiting {s : State} (hb : s.busy = true) : PollsFor 0 s s where
  same := { SameRegisters.refl s with busy := hb }
  trace := rfl
  lines := rfl
  replies := rfl
  chip := rfl
  env := rfl

/-- The first poll of a drain. -/
theorem PollsFor.begun (s : State) : PollsFor 1 { s with edgePend := false } s.drainBegun where
  same := s.drainBegun_same
  trace := rfl
  lines := rfl
  replies := rfl
  chip := rfl
  env := List.drop_one.symm

/-- A poll that reads 0 below the limit leaves the drain waiting (42_receive_pipeline.md R172). -/
theorem drainWait_low {polls : Nat} {s : State} (hf : s.params.halFallible = false)
    (hl : s.here.level = false) (hn : s.params.spinLimit ≠ some (polls + 1)) :
    drainWait polls s =
      { s.advance.emit (.r .dr false) with seq := .rxWait (polls + 1) } := by
  rw [drainWait, waitHigh_low hf hl hn]

/-- No register but the latch changed if none but the latch may have. -/
theorem SameRegisters.withEdge {s t : State} (h : SameRegisters s t) :
    SameRegisters { s with edgePend := t.edgePend } t :=
  { h with edgeKept := id, edgeWatched := .inl }

/-- Settles O38: the drain starts (`step_drains`), and its first poll leaves it waiting. -/
theorem latchedEdgeGoesBeforeACommand : Obligations.LatchedEdgeGoesBeforeACommand := by
  intro s m n hs hframer hf hm hn hlow hlimit he
  have hstep := step_drains hs hframer hm he
  have hpoll := PollsFor.begun s.present
  have hhere := State.drainBegun_here hn
  have hedge : s.present.drainBegun.edgePend = false := rfl
  generalize s.present.drainBegun = b at *
  have hparams : b.params = s.params := hpoll.same.params.trans s.present_params
  have hwatch : b.watch = s.watch := hpoll.same.watch.trans s.present_watch
  rw [drainWait_low (hparams ▸ hf) (hhere ▸ hlow) (hparams ▸ hlimit)] at hstep
  have hsame := (hpoll.same.trans (advance_emit_same (.r .dr false) b)).withSeq (.rxWait 1)
  refine ⟨_, hstep, hpoll.same.busy, rfl, ?_, hsame.withEdge, ?_, ?_, ?_, ?_⟩
  · show (b.edgePend || (b.watch && b.here.edge)) = _
    rw [hedge, hwatch, hhere, Bool.false_or]
  · exact congrArg (· ++ [Event.r .dr false]) (hpoll.trace.trans s.present_trace)
  · exact hpoll.lines.trans s.present_lines
  · exact hpoll.replies.trans s.present_replies
  · exact hpoll.chip.trans s.present_chip

/-! ### The packet -/

/-- A read frame without the bytes that came in. -/
theorem outward_readEvents (spaced : Bool) (instr i : Byte) (data : List Byte) :
    outward (readEvents spaced instr i data) =
      openingEvents spaced instr 0 ++ receiveEvents spaced data.length ++ [Event.w .csn true] := by
  have hopen : outward (openingEvents spaced instr i) = openingEvents spaced instr 0 := by
    cases spaced <;> rfl
  have hdata : outward (receivedEvents spaced data) = receiveEvents spaced data.length := by
    induction data with
    | nil => rfl
    | cons b bs ih =>
      rw [receivedEvents] at ih ⊢
      rw [List.flatMap_cons, outward_append, ih]
      cases spaced <;> rfl
  rw [readEvents_eq, outward_append, outward_append, hopen, hdata]
  rfl

theorem linesAfter_readEvents (ls : Lines) (spaced : Bool) (instr i : Byte) (data : List Byte) :
    linesAfter ls (readEvents spaced instr i data) = { ls with csn := true } := by
  rw [← linesAfter_outward, outward_readEvents, linesAfter_readFrame]

/-- A read-received-payload frame empties the chip's packet buffer (20_memory.md R67). -/
theorem chipAfter_readEvents {p : Params} (hv : p.valid = true) (ls : Lines) (c : Chip)
    (spaced : Bool) (i : Byte) (data : List Byte) :
    chipAfter p ls c (readEvents spaced p.opRRP i data) =
      { c with rxPayload := [], frame := .released } := by
  obtain ⟨-, -, -, hop⟩ := chipOpOf_fixed hv
  rw [← chipAfter_outward, outward_readEvents, openingEvents,
    chipAfter_readFrame _ _ _ _ _ _ (.inr hop), if_pos hop]

/-- A read frame is a run of its events, with the bytes that came in. -/
theorem readFrame_ran (instr : Byte) (n : Nat) (spaced : Bool) {s : State}
    (hf : s.params.halFallible = false) :
    ∃ i data t k, frame instr [] n spaced s = .ok data t ∧ data.length = n ∧
      ClockedIn s (if spaced then 3 else 2) (if spaced then 2 else 1) data ∧
      Ran k (readEvents spaced instr i data) s t := by
  obtain ⟨data, t, evs, hframe, hran, -, hlen⟩ := frame_completes instr [] n spaced hf
  obtain ⟨i, htrace⟩ := readFrame_trace hframe
  obtain rfl := List.append_cancel_left (hran.trace.symm.trans htrace)
  exact ⟨i, data, t, _, hframe, hlen, readFrame_clockedIn hframe, hran⟩

theorem SameRegisters.withRxbuf {s t : State} (h : SameRegisters s t) (b : Option (List Byte)) :
    SameRegisters (s.withRxbuf b) (t.withRxbuf b) := { h with rxbuf := rfl }

/-- Primitives neither read nor write `RXBUF`. -/
theorem Ran.withRxbuf {n : Nat} {evs : List Event} {s t : State} (h : Ran n evs s t)
    (b : Option (List Byte)) : Ran n evs (s.withRxbuf b) (t.withRxbuf b) :=
  { h with same := h.same.withRxbuf b }

/-- The events of `RX.2` to `RX.4` (42_receive_pipeline.md R172). -/
def packetEvents (p : Params) (i : Byte) (data : List Byte) : List Event :=
  [.w .trig false] ++ spacedFrameEvents p.opRRP i data ++ [.w .trig true]

theorem linesAfter_packet (ls : Lines) (p : Params) (i : Byte) (data : List Byte) :
    linesAfter ls (packetEvents p i data) = { ls with csn := true, trig := true } := by
  rw [packetEvents, linesAfter_append, linesAfter_append,
    show spacedFrameEvents p.opRRP i data = readEvents true p.opRRP i data from rfl,
    linesAfter_readEvents]
  rfl

/-- Resuming to listen is a trigger pulse only under transmit-enable (20_memory.md R67). -/
theorem chipAfter_packet {p : Params} (hv : p.valid = true) (ls : Lines) (c : Chip) (i : Byte)
    (data : List Byte) :
    chipAfter p ls c (packetEvents p i data) =
      Chip.trigger { ls with csn := true, trig := false }
        { c with rxPayload := [], frame := .released } := by
  rw [packetEvents, chipAfter_append, chipAfter_append, linesAfter_append,
    show spacedFrameEvents p.opRRP i data = readEvents true p.opRRP i data from rfl,
    linesAfter_readEvents, chipAfter_readEvents hv]
  rfl

theorem Chip.trigger_kept (ls : Lines) (c : Chip) :
    (c.trigger ls).config = c.config ∧ (c.trigger ls).rxPayload = c.rxPayload := by
  rw [Chip.trigger]
  split <;> exact ⟨rfl, rfl⟩

theorem Chip.trigger_of_receiving {ls : Lines} (h : ls.txen = false) (c : Chip) :
    c.trigger ls = c := by
  rw [Chip.trigger, Lines.pulses, h]
  simp

/-- Steps `RX.2` to `RX.4` (42_receive_pipeline.md R172): the packet stands in `RXBUF` from `RX.3`
on. -/
theorem drainReadSteps_ran {s : State} (hf : s.params.halFallible = false) :
    ∃ i data t k, drainReadSteps s = .ok () t ∧ data.length = rxPayloadLen ∧
      ClockedIn s 4 2 data ∧
      Ran k (packetEvents s.params i data) (s.withRxbuf (some data)) t := by
  obtain ⟨t1, r1, h1⟩ := deassertLine_runs hf .rx2 .trig
  have p1 := h1.same.params ▸ hf
  obtain ⟨i, data, t2, k, r2, hlen, hclocked, h2⟩ :=
    readFrame_ran t1.params.opRRP rxPayloadLen true p1
  obtain ⟨t3, r3, h3⟩ := assertLine_runs (s := t2.withRxbuf (some data))
    (h2.same.params ▸ p1 : t2.params.halFallible = false) .rx4 .trig
  rw [State.withRxbuf] at r3
  refine ⟨i, data, t3, 1 + k + 1, ?_, hlen, fun j m b hj he hb => hclocked j m b hj ?_ hb, ?_⟩
  · simp only [drainReadSteps, readReceivedPayload, r1, r2, r3, Res.andThen, Res.inside]
  · rw [h1.env, List.getElem?_drop, ← he]
    congr 1
    show 1 + (3 + 2 * j) = _
    omega
  · have hran := ((h1.withRxbuf (some data)).trans (h2.withRxbuf (some data))).trans h3
    rwa [h1.same.params] at hran

/-! ### The dispatch starts -/

theorem dispatchPosition_zero (reg : List ConsumerId) :
    dispatchPosition reg 0 = if reg = [] then .applying none else .delivering reg 0 := by
  cases reg <;> rfl

/-- A poll that reads 1. -/
theorem waitHigh_high {label : StepLabel} {polls : Nat} {s : State} (hf : s.failsHere = false)
    (hl : s.here.level = true) :
    waitHigh label polls s = .high (s.advance.emit (.r .dr true)) := by
  simp [waitHigh, pinRead_of_clear hf, hl]

/-- A poll that reads 1 leads to the read. -/
theorem drainWait_high {polls : Nat} {s : State} (hf : s.failsHere = false)
    (hl : s.here.level = true) :
    drainWait polls s = drainRead (s.advance.emit (.r .dr true)) := by
  rw [drainWait, waitHigh_high hf hl]

/-- The drain from a poll that reads 1 (42_receive_pipeline.md R172 to R174). -/
theorem PollsFor.packetRead {pre polls : Nat} {s b : State} (h : PollsFor pre s b)
    (hf : s.params.halFallible = false) (hv : s.params.valid = true) (hl : b.here.level = true) :
    PacketRead pre s (drainWait polls b) := by
  have hp : b.params = s.params := h.same.params
  have hbf := hp ▸ hf
  obtain ⟨i, data, u, k, hread, hlen, hclocked, hran⟩ :=
    drainReadSteps_ran (s := b.advance.emit (.r .dr true)) hbf
  have hall := ((advance_emit_ran (.r .dr true) b (by simp)).withRxbuf (some data)).trans hran
  rw [drainWait_high (failsHere_of_infallible hbf) hl, drainRead, hread]
  have hlines : u.lines = { s.lines with csn := true, trig := true } := by
    rw [hall.lines]
    show linesAfter b.lines (packetEvents _ i data) = _
    rw [linesAfter_packet, h.lines]
  have hchip : u.chip = Chip.trigger { s.lines with csn := true, trig := false }
      { s.chip with rxPayload := [], frame := .released } := by
    rw [hall.chip]
    show chipAfter b.params b.lines b.chip (packetEvents b.params i data) = _
    rw [hp, chipAfter_packet hv, h.lines, h.chip]
  obtain ⟨hconfig, hpacket⟩ := Chip.trigger_kept { s.lines with csn := true, trig := false }
    { s.chip with rxPayload := [], frame := .released }
  refine ⟨i, data, hlen, fun j m c hj he hc => hclocked j m c hj ?_ hc, ?_, hlines,
    hall.replies.trans h.replies, ?_, ?_, ?_, fun htx => ?_⟩
  · rw [State.emit_env, State.advance_env, h.env, ← he, List.getElem?_tail, List.getElem?_drop]
    congr 1
    omega
  · show u.trace = _
    rw [hall.trace, ← h.trace]
    simp [packetEvents, hp, State.withRxbuf]
  · have hsame : SameRegisters _ u := (h.same.withRxbuf (some data)).trans hall.same
    have hseq : dispatchPosition u.reg 0 =
        if s.reg = [] then .applying none else .delivering s.reg 0 := by
      rw [hsame.reg]
      exact dispatchPosition_zero s.reg
    exact { hsame with dispatching := rfl, seq := hseq }
  · show u.chip.config = _
    rw [hchip, hconfig]
  · show u.chip.rxPayload = _
    rw [hchip, hpacket]
  · show u.chip.txPayload = _ ∧ u.chip.txAddress = _
    rw [hchip, Chip.trigger_of_receiving (by exact htx)]
    exact ⟨rfl, rfl⟩

/-- Settles O41: the steps of the read on an access layer that does not fail (`drainReadSteps_ran`),
after the first poll or a later one. -/
theorem drainReadsThePacket : Obligations.DrainReadsThePacket := by
  refine ⟨fun s c m hframer hbusy hseq _ _ hf hv hm hl => ?_,
    fun s m n hs hframer hf hv hm hn hl he => ?_⟩
  · refine ⟨_, step_polls hframer hbusy hseq, ?_⟩
    exact (PollsFor.waiting (s.present_busy.trans hbusy)).packetRead (s.present_params ▸ hf)
      (s.present_params ▸ hv) (by rw [State.present_here, State.here_listed hm, hl])
  · refine ⟨_, step_drains hs hframer hm he, ?_⟩
    exact (PollsFor.begun s.present).packetRead (s.present_params ▸ hf)
      (s.present_params ▸ hv) (by rw [State.drainBegun_here hn, hl])

end Sys2Proof.Machine
end

section
/-! Proofs: a drain whose read or poll fails (42_receive_pipeline.md R179; 60_exceptions.md R228,
R230, R231). -/

namespace Sys2Proof.Machine

/-! ### A read that fails -/

/-- A read-received-payload frame that completes has released the chip (40_command_framer.md R126).
-/
theorem readReceivedPayload_csn {s t : State} {data : List Byte}
    (h : readReceivedPayload s = .ok data t) : t.lines.csn = true := by
  obtain ⟨_, _, v, -, -, hclose⟩ := readFrame_ok (Res.inside_ok h)
  rw [hclose.lines]
  rfl

/-- Chip-select is low after a failed read only if the failure lay in the frame. -/
theorem drainReadSteps_csn {s t : State} {path : StepPath}
    (h : drainReadSteps s = .failed path t) (ho : frameOpen path = false)
    (hs : s.lines.csn = true) : t.lines.csn = true := by
  have hcsn : OutLine.csn ∉ [OutLine.trig] := by decide
  rcases Res.andThen_failed h with hdrop | ⟨_, t1, -, h⟩
  · have ht := deassertLine_touched .rx2 (l := .trig) s (ls := [.trig]) List.mem_cons_self
    rw [hdrop] at ht
    exact (ht.lines .csn hcsn).trans hs
  rcases Res.andThen_failed h with hread | ⟨data, t2, hread, h⟩
  · have hone := ((frame_oneFrame t1.params.opRRP [] rxPayloadLen true t1).inside .rrp1).inside .rx3
    obtain ⟨-, hopen⟩ := hone.of_failed hread
    exact Bool.noConfusion (ho.symm.trans hopen)
  rcases Res.andThen_failed h with hlisten | ⟨_, _, -, h⟩
  · have ht := assertLine_touched .rx4 (l := .trig) (t2.withRxbuf (some data)) (ls := [.trig])
      List.mem_cons_self
    rw [State.withRxbuf, hlisten] at ht
    have hreleased : t2.lines.csn = true := readReceivedPayload_csn (Res.inside_ok hread)
    exact (ht.lines .csn hcsn).trans hreleased
  · cases h

/-- The line writes of a drain's cleanup (42_receive_pipeline.md R179; 60_exceptions.md R230). -/
theorem cleanup_drain_ran {path : StepPath} {t : State} (h : NoFailureWithin 2 t) :
    ∃ k, Ran k ((if frameOpen path then [.w .csn true] else []) ++ [.w .trig true]) t
      (cleanup path closeTrigger t) := by
  have hran := cleanupWrites_ran
    ((if frameOpen path then [(OutLine.csn, true)] else []) ++ closeTrigger) (s := t) fun k hk =>
      h.failsAt (by
        refine Nat.lt_of_lt_of_le hk ?_
        split <;> decide)
  rw [cleanup]
  cases ho : frameOpen path <;> rw [ho] at hran <;> exact ⟨_, hran⟩

/-- Lines that agree on all but chip-select and the trigger. -/
theorem Touched.drain_lines {s t : State} (h : Touched drainLines s t) :
    t.lines.pwr = s.lines.pwr ∧ t.lines.txen = s.lines.txen :=
  ⟨h.lines .pwr (by decide), h.lines .txen (by decide)⟩

/-- A drain whose read fails is closed and reported (42_receive_pipeline.md R179). -/
theorem drainRead_failed {s t : State} {path : StepPath} (h : drainReadSteps s = .failed path t)
    (hclear : NoFailureWithin 2 t) : DrainFailed path s t (drainRead s) := by
  obtain ⟨b, hfailed⟩ := (drainReadSteps_sat s).of_failed h
  obtain ⟨k, hran⟩ := cleanup_drain_ran (path := path) hclear
  obtain ⟨hpwr, htxen⟩ := hfailed.touched.drain_lines
  have hlines : (drainRead s).lines =
      { s.lines with csn := t.lines.csn || frameOpen path, trig := true } := by
    rw [drainRead, h]
    show (cleanup path closeTrigger t).lines = _
    rw [hran.lines]
    cases frameOpen path <;> simp [lineAfter, Lines.set, hpwr, htxen, State.withRxbuf]
  refine ⟨?_, hlines, fun hs => ?_, ?_, ?_⟩
  · rw [drainRead, h]
    show (cleanup path closeTrigger t).trace ++ [_] = _
    rw [hran.trace]
    simp
  · rw [hlines]
    cases ho : frameOpen path with
    | true => exact Bool.or_true _
    | false => exact (Bool.or_false _).trans (drainReadSteps_csn h ho hs)
  · rw [drainRead, h]
    exact hran.replies.trans hfailed.touched.replies
  · rw [drainRead, h]
    exact (hfailed.touched.same.trans (hran.same.trans (.emit _ _))).finish

/-- The drain of `s` whose poll stood at `b`. -/
theorem DrainFailed.of_poll {pre : Nat} {path : StepPath} {s b t u : State}
    (hb : PollsFor pre s b)
    (h : DrainFailed path (b.advance.emit (.r .dr true)) t u) : DrainFailed path s t u where
  trace := h.trace
  lines := by
    have hlines := h.lines
    rwa [State.emit_lines, State.advance_lines, hb.lines] at hlines
  released := fun hs => h.released (by
    show b.lines.csn = true
    rw [hb.lines, hs])
  replies := h.replies.trans hb.replies
  same :=
    have hsame := (hb.same.trans (advance_emit_same (.r .dr true) b)).finish
    hsame.trans h.same

theorem failsHere_of_clear {s : State} (h : s.here.fail = false) : s.failsHere = false := by
  rw [State.failsHere, h, Bool.and_false]

/-- Settles O46: the cleanup of the failed read (`drainRead_failed`), after the first poll or a
later one. -/
theorem failedDrainIsLeftListening : Obligations.FailedDrainIsLeftListening := by
  refine ⟨fun s t path h hclear => drainRead_failed h hclear,
    fun s t c m path hframer hbusy hseq hm hfail hl h hclear => ?_,
    fun s t m n path hs hframer hm he hn hfail hl h hclear => ?_⟩
  · have hhere : s.present.here = m := s.present_here.trans (State.here_listed hm)
    refine ⟨_, step_polls hframer hbusy hseq, ?_⟩
    rw [drainWait_high (failsHere_of_clear (hhere ▸ hfail)) (hhere ▸ hl)]
    exact (drainRead_failed h hclear).of_poll (.waiting (s.present_busy.trans hbusy))
  · have hhere := State.drainBegun_here hn
    refine ⟨_, step_drains hs hframer hm he, ?_⟩
    rw [drainWait_high (failsHere_of_clear (hhere ▸ hfail)) (hhere ▸ hl)]
    exact (drainRead_failed h hclear).of_poll (.begun s.present)

/-! ### A poll that fails -/

/-- A drain of `s` whose poll fails is reported, with nothing to clean up (42_receive_pipeline.md
R179). -/
structure PollFailed (s t : State) : Prop where
  trace : t.trace = s.trace ++ [.rFailed .dr, .f (.halFailure [.rx1])]
  lines : t.lines = s.lines
  chip : t.chip = s.chip
  replies : t.replies = s.replies
  same : SameRegisters s.finish t

theorem waitHigh_failing {label : StepLabel} {polls : Nat} {s : State} (h : s.failsHere = true) :
    waitHigh label polls s = .failed [label] (s.advance.emit (.rFailed .dr)) := by
  simp [waitHigh, pinRead_of_failing h]

theorem drainWait_failing {polls : Nat} {s : State} (h : s.failsHere = true) :
    drainWait polls s =
      drainError (.halFailure [.rx1]) (s.advance.emit (.rFailed .dr)) := by
  rw [drainWait, waitHigh_failing h]

theorem PollsFor.failed {pre polls : Nat} {s b : State} (h : PollsFor pre s b)
    (hf : b.failsHere = true) : PollFailed s (drainWait polls b) := by
  rw [drainWait_failing hf]
  refine ⟨?_, h.lines, h.chip, h.replies, ?_⟩
  · show b.trace ++ [_] ++ [_] = _
    rw [h.trace, List.append_assoc]
    rfl
  · have hsame := h.same.trans (advance_emit_same (.rFailed .dr) b)
    exact (hsame.trans (.emit (.f (.halFailure [.rx1])) _)).finish

theorem failsHere_of_failing {s : State} (hp : s.params.halFallible = true)
    (h : s.here.fail = true) : s.failsHere = true := by
  rw [State.failsHere, hp, h]
  rfl

/-- A later poll of the drain fails. -/
theorem step_pollFailed {s : State} {c : Nat} {m : Moment} (hf : s.framer = none)
    (hb : s.busy = true) (hseq : s.seq = .rxWait c) (hp : s.params.halFallible = true)
    (hm : s.env[0]? = some m) (hfail : m.fail = true) :
    ∃ t, step s = .next t ∧ PollFailed s.present t := by
  have hhere : s.present.here = m := s.present_here.trans (State.here_listed hm)
  exact ⟨_, step_polls hf hb hseq, (PollsFor.waiting (s.present_busy.trans hb)).failed
    (failsHere_of_failing (s.present_params ▸ hp) (hhere ▸ hfail))⟩

/-- The first poll of a drain fails. -/
theorem step_firstPollFailed {s : State} {m n : Moment} (hs : Idle s) (hf : s.framer = none)
    (hp : s.params.halFallible = true) (hm : s.env[0]? = some m) (hn : s.env[1]? = some n)
    (hfail : n.fail = true) (he : s.edgePend = true ∨ (s.watch = true ∧ m.edge = true)) :
    ∃ t, step s = .next t ∧ PollFailed { s.present with edgePend := false } t ∧
      t.edgePend = (s.watch && n.edge) := by
  have hhere := State.drainBegun_here hn
  have hfails : s.present.drainBegun.failsHere = true :=
    failsHere_of_failing (s.present_params.symm ▸ hp : s.present.params.halFallible = true)
      (hhere ▸ hfail)
  refine ⟨_, step_drains hs hf hm he, (PollsFor.begun s.present).failed hfails, ?_⟩
  rw [drainWait_failing hfails]
  show (false || (s.present.watch && s.present.drainBegun.here.edge)) = _
  rw [hhere, State.present_watch, Bool.false_or]

/-- An idle block whose registers were left alone up to the end of an operation is idle. -/
theorem Idle.of_finish {s t : State} (hs : Idle s) (h : SameRegisters s.finish t) : Idle t where
  busy := h.busy
  seq := h.seq
  dispatching := h.dispatching.trans hs.dispatching
  deferq := h.deferq.trans hs.deferq
  rxbuf := h.rxbuf
  txbuf := h.txbuf
  txaddr := h.txaddr

/-- The end of an operation is nothing to an idle block. -/
theorem Idle.same_finish {s : State} (hs : Idle s) : SameRegisters s s.finish :=
  { SameRegisters.refl s with
    busy := hs.busy.symm
    seq := hs.seq.symm
    rxbuf := hs.rxbuf.symm
    txbuf := hs.txbuf.symm
    txaddr := hs.txaddr.symm }

end Sys2Proof.Machine
end

section
/-! Proofs: a poll or a closing write of sendPacket that fails (43_transmit_pipeline.md R203;
60_exceptions.md R224, R228, R230, R231), and with it both waits on a fallible access layer. -/

namespace Sys2Proof.Machine

/-! ### The moments of a failure -/

/-- On a fallible access layer the next micro-steps get the answers `moments`. -/
structure Answers (moments : List Moment) (s : State) : Prop where
  fallible : s.params.halFallible = true
  listed : s.env.take moments.length = moments

section
variable {m : Moment} {ms : List Moment} {s t : State}

theorem Answers.here (h : Answers (m :: ms) s) : s.here = m := by
  refine State.here_listed ?_
  have hfirst := congrArg (·[0]?) h.listed
  simpa using hfirst

theorem Answers.failsHere (h : Answers (m :: ms) s) : s.failsHere = m.fail := by
  rw [State.failsHere, h.fallible, h.here, Bool.true_and]

/-- One micro-step later. -/
theorem Answers.after {evs : List Event} (h : Answers (m :: ms) s) (k : Ran 1 evs s t) :
    Answers ms t where
  fallible := k.same.params ▸ h.fallible
  listed := by
    have hrest := congrArg List.tail h.listed
    rw [List.length_cons, List.tail_cons, ← List.drop_one, List.drop_take] at hrest
    rw [k.env]
    exact hrest

theorem Answers.noFailure (h : Answers ms s) (hn : ∀ m ∈ ms, m.fail = false) :
    NoFailureWithin ms.length s := by
  refine ⟨?_, fun m hm => hn m (h.listed ▸ hm)⟩
  have hlen := congrArg List.length h.listed
  rw [List.length_take] at hlen
  omega

end

/-! ### The closing writes -/

/-- The events of a failure of `TX.5` or `TX.6` leave the lines of a closed sendPacket. -/
theorem ClosingFailure.lines {moments : List Moment} {tail : List Event} {label : StepLabel}
    (h : ClosingFailure moments tail label) (ls : Lines) :
    linesAfter ls tail = { ls with txen := false, trig := true } := by
  cases h <;> rfl

/-- They hold no transfer. -/
theorem ClosingFailure.outward_eq {moments : List Moment} {tail : List Event} {label : StepLabel}
    (h : ClosingFailure moments tail label) : outward tail = tail := by
  cases h <;> rfl

/-- sendPacket ends after a failure outside a frame with its two closing writes
(43_transmit_pipeline.md R203). -/
theorem transmitFail_ran {label : StepLabel} {t : State} (hl : label.inFrame = false)
    (h : NoFailureWithin 2 t) :
    ∃ v, transmitFail [label] t = v.ret (.error (.halFailure [label])) ∧
      Ran 2 [.w .txen false, .w .trig true] t v := by
  refine ⟨cleanupWrites closeTransmit t, ?_,
    cleanupWrites_ran closeTransmit fun k hk => h.failsAt hk⟩
  rw [transmitFail, State.raise, cleanup, frameOpen, List.any_cons, hl]
  rfl

/-- A poll of `TX.5` that reads 1 before a closing write that fails. -/
theorem transmitWait_of_closeFailed {polls : Nat} {s u : State} {path : StepPath}
    (hf : s.failsHere = false) (hl : s.here.level = true)
    (h : transmitClose (s.advance.emit (.r .dr true)) = .failed path u) :
    transmitWait polls s = transmitFail path u := by
  rw [transmitWait, waitHigh_high hf hl]
  simp only [h]

/-- A poll of `TX.5` that fails, or reads 1 before a closing write that fails, is closed and
returned (43_transmit_pipeline.md R203). -/
theorem transmitWait_closes (polls : Nat) {s : State} {moments : List Moment} {tail : List Event}
    {label : StepLabel} (hc : ClosingFailure moments tail label) (h : Answers moments s) :
    ∃ k v, transmitWait polls s = v.ret (.error (.halFailure [label])) ∧ Ran k tail s v := by
  cases hc with
  | poll m0 m1 m2 h0 h1 h2 =>
    have hpoll := advance_emit_ran (.rFailed .dr) s (by simp)
    obtain ⟨v, hend, hv⟩ := transmitFail_ran (label := .tx5) rfl
      ((h.after hpoll).noFailure (by simp [h1, h2]))
    rw [transmitWait, waitHigh_failing (h.failsHere.trans h0)]
    exact ⟨_, v, hend, hpoll.trans hv⟩
  | first m0 m1 m2 m3 h0 hl h1 h2 h3 =>
    have hpoll := advance_emit_ran (.r .dr true) s (by simp)
    have ha1 := h.after hpoll
    have hwrite := advance_emit_ran (.wFailed .txen false) (s.advance.emit (.r .dr true)) (by simp)
    obtain ⟨v, hend, hv⟩ := transmitFail_ran (label := .tx6a) rfl
      ((ha1.after hwrite).noFailure (by simp [h2, h3]))
    have hclose : transmitClose (s.advance.emit (.r .dr true)) = .failed [.tx6a] _ :=
      Res.andThen_of_failed (pinWrite_of_failing (ha1.failsHere.trans h1) .txen _) _
    rw [transmitWait_of_closeFailed (h.failsHere.trans h0) (h.here ▸ hl) hclose]
    exact ⟨_, v, hend, hpoll.trans (hwrite.trans hv)⟩
  | second m0 m1 m2 m3 m4 h0 hl h1 h2 h3 h4 =>
    have hpoll := advance_emit_ran (.r .dr true) s (by simp)
    have ha1 := h.after hpoll
    obtain ⟨t1, hlow⟩ :
        ∃ t1, deassertLine .tx6a .txen (s.advance.emit (.r .dr true)) = .ok () t1 :=
      ⟨_, pinWrite_of_clear (ha1.failsHere.trans h1) .txen _⟩
    have hdrop := pinWrite_ran hlow
    have ha2 := ha1.after hdrop
    have hwrite := advance_emit_ran (.wFailed .trig true) t1 (by simp)
    obtain ⟨v, hend, hv⟩ := transmitFail_ran (label := .tx6b) rfl
      ((ha2.after hwrite).noFailure (by simp [h3, h4]))
    have hclose : transmitClose (s.advance.emit (.r .dr true)) =
        .failed [.tx6b] (t1.advance.emit (.wFailed .trig true)) := by
      rw [transmitClose, hlow]
      exact Res.andThen_of_failed (pinWrite_of_failing (ha2.failsHere.trans h2) .trig _) _
    rw [transmitWait_of_closeFailed (h.failsHere.trans h0) (h.here ▸ hl) hclose]
    exact ⟨_, v, hend, hpoll.trans (hdrop.trans (hwrite.trans hv))⟩

/-! ### sendPacket from its wait, and from its start -/

/-- A busy block in sendPacket's wait polls again. -/
theorem step_transmitPolls {s : State} {c : Nat} (hf : s.framer = none) (hb : s.busy = true)
    (hseq : s.seq = .txWait c) : step s = .next (transmitWait c s.present) := by
  rw [step_of_busy hf hb]
  simp only [continueOperation, State.present_seq, hseq]

/-- An accepted sendPacket none of whose steps before the wait fails comes to its first poll
(43_transmit_pipeline.md R200). -/
theorem execSendPacket_reaches {s : State} (hb : s.busy = false) (hi : s.inited = true)
    {a payload : List Byte} (ha : addrLen ≤ a.length) (hp : payload.length ≤ s.params.txPayloadMax)
    (hn : NoFailureWithin (17 + payload.length) s) :
    ∃ u evs, execSendPacket a payload s = .next (transmitWait 0 u) ∧
      Ran (17 + payload.length) evs (s.begin.latched a payload) u ∧
      outward evs = transmitEvents s.params (a.take addrLen) payload := by
  have hlen : 13 + payload.length + (a.take addrLen).length = 17 + payload.length := by
    rw [List.length_take, Nat.min_eq_left ha, addrLen]
    omega
  have hfollows := (transmitSteps_follows (a.take addrLen) payload
    (s.begin.latched a payload)).congr hlen rfl
  obtain ⟨_, u, evs, hr, hu, ho, -⟩ := hfollows.completes fun k hk => hn.failsAt hk
  refine ⟨u, evs, ?_, hu, ho⟩
  rw [execSendPacket, acceptThen_of_ok _ hb (checkSendPacket_of_le hi ha hp)]
  show Host.Outcome.next (transmitRun (a.take addrLen) payload (s.begin.latched a payload)) = _
  rw [transmitRun, hr]

/-- A sendPacket that waits fails. -/
theorem step_closes {s : State} {c : Nat} {moments : List Moment} {tail : List Event}
    {label : StepLabel} (hf : s.framer = none) (hb : s.busy = true) (hseq : s.seq = .txWait c)
    (hc : ClosingFailure moments tail label) (h : Answers moments s) :
    ∃ t, step s = .next t ∧ t.trace = s.trace ++ tail ∧
      t.lines = { s.lines with txen := false, trig := true } ∧
      t.replies = s.replies ++ [.error (.halFailure [label])] ∧
      SameRegisters s.present.finish t := by
  have hpresent : Answers moments s.present :=
    ⟨s.present_params ▸ h.fallible, s.present_env ▸ h.listed⟩
  obtain ⟨k, v, hend, hv⟩ := transmitWait_closes c hc hpresent
  refine ⟨_, (step_transmitPolls hf hb hseq).trans (congrArg _ hend), ?_, ?_, ?_,
    (hv.same.trans (.reply _ _)).finish⟩
  · exact hv.trace.trans (congrArg (· ++ tail) s.present_trace)
  · exact hv.lines.trans (s.present_lines ▸ hc.lines _)
  · exact congrArg (· ++ [_]) (hv.replies.trans s.present_replies)

/-- A sendPacket fails from its first poll on. -/
theorem execSendPacket_closes {s : State} (hs : Idle s) (hi : s.inited = true)
    (hfal : s.params.halFallible = true) {a payload : List Byte} (ha : addrLen ≤ a.length)
    (hp : payload.length ≤ s.params.txPayloadMax) (hn : NoFailureWithin (17 + payload.length) s)
    {moments : List Moment} {tail : List Event} {label : StepLabel}
    (hc : ClosingFailure moments tail label)
    (he : (s.env.drop (17 + payload.length)).take moments.length = moments) :
    ∃ t, execSendPacket a payload s = .next t ∧ SameRegisters s t ∧
      t.lines = { pwr := true, csn := true, txen := false, trig := true } ∧
      outward t.trace =
        outward s.trace ++ transmitEvents s.params (a.take addrLen) payload ++ tail ∧
      t.replies = s.replies ++ [.error (.halFailure [label])] := by
  obtain ⟨u, evs, hexec, hu, ho⟩ := execSendPacket_reaches hs.busy hi ha hp hn
  have hanswers : Answers moments u := ⟨hu.same.params ▸ hfal, by rw [hu.env]; exact he⟩
  obtain ⟨k, v, hend, hv⟩ := transmitWait_closes 0 hc hanswers
  have hall := hu.trans hv
  refine ⟨_, hexec.trans (congrArg _ hend), ?_, ?_, ?_, ?_⟩
  · have hsame := (hall.same.trans (.reply (.error (.halFailure [label])) _)).finish
    exact hs.same_finish.trans hsame
  · have hlines : u.lines = { pwr := true, csn := true, txen := true, trig := false } := by
      rw [hu.lines, ← linesAfter_outward, ho, linesAfter_transmit]
    exact hv.lines.trans (hlines ▸ hc.lines _)
  · show outward v.trace = _
    rw [hall.trace, outward_append, outward_append, ho, hc.outward_eq, List.append_assoc]
    rfl
  · exact congrArg (· ++ [_]) hall.replies

/-- Settles O48: a failed poll of the drain by `PollsFor.failed`, a sendPacket that fails at its
poll or behind it by `transmitWait_closes`. -/
theorem failedPollsAndClosingWrites : Obligations.FailedPollsAndClosingWrites := by
  refine ⟨fun s c m hframer hbusy hseq hp hm hfail => ?_,
    fun s m n hs hframer hp hm hn hfail he => ?_,
    fun s c moments tail label hframer hbusy hseq hp hc he =>
      step_closes hframer hbusy hseq hc ⟨hp, he⟩,
    fun s a payload moments tail label hs hi hp ha hlen hn hc he =>
      execSendPacket_closes hs hi hp ha hlen hn hc he⟩
  · obtain ⟨t, hstep, ht⟩ := step_pollFailed hframer hbusy hseq hp hm hfail
    exact ⟨t, hstep, ht.trace.trans (congrArg (· ++ _) s.present_trace),
      ht.lines.trans s.present_lines, ht.chip.trans s.present_chip,
      ht.replies.trans s.present_replies, ht.same⟩
  · obtain ⟨t, hstep, ht, hedge⟩ := step_firstPollFailed hs hframer hp hm hn hfail he
    have hbegun : Idle { s.present with edgePend := false } := { hs.present with }
    have hidle : Idle { s.present with edgePend := t.edgePend } := { hs.present with }
    have hsame : SameRegisters { s.present with edgePend := t.edgePend } t :=
      hidle.same_finish.trans ht.same.withEdge
    exact ⟨t, hstep, ht.trace.trans (congrArg (· ++ _) s.present_trace),
      ht.lines.trans s.present_lines, ht.chip.trans s.present_chip,
      ht.replies.trans s.present_replies, hbegun.of_finish ht.same, hedge, hsame⟩

end Sys2Proof.Machine
end

section
/-! Proofs: the line writes of a cleanup, each of which the environment fails or not
(60_exceptions.md R224; log 24). -/

namespace Sys2Proof.Machine

/-- A cleanup write takes one moment, whether it fails or not. -/
theorem cleanupWrite_failsAt (s : State) (w : OutLine × Level) (k : Nat) :
    (cleanupWrite s w).failsAt k = s.failsAt (k + 1) := by
  have henv : s.advance.env = s.env.drop 1 := List.drop_one.symm
  have hused := State.failsAt_used henv rfl rfl k
  rw [Nat.add_comm, cleanupWrite]
  split <;> exact hused

/-- A cleanup write that fails leaves the line (60_exceptions.md R224). -/
theorem cleanupWrite_lines (s : State) (w : OutLine × Level) :
    (cleanupWrite s w).lines = if s.failsHere then s.lines else s.lines.set w.1 w.2 := by
  rw [cleanupWrite]
  split <;> rfl

theorem cleanupEvents_cons (s : State) (w : OutLine × Level) (ws : List (OutLine × Level)) :
    cleanupEvents s (w :: ws) =
      (if s.failsHere then .wFailed w.1 w.2 else .w w.1 w.2) ::
        cleanupEvents (cleanupWrite s w) ws := by
  rw [cleanupEvents, List.mapIdx_cons, State.failsAt_zero, cleanupEvents]
  congr 2
  funext k v
  rw [cleanupWrite_failsAt]

theorem cleanupLines_cons (s : State) (w : OutLine × Level) (ws : List (OutLine × Level)) :
    cleanupLines s (w :: ws) = cleanupLines (cleanupWrite s w) ws := by
  simp only [cleanupLines, List.zipIdx_cons, List.zipIdx_succ, List.filter_cons, List.filter_map,
    Function.comp_def, cleanupWrite_failsAt, cleanupWrite_lines, State.failsAt_zero]
  cases s.failsHere <;> simp [List.foldl_map]

/-- Each write of a cleanup leaves its event, failed or not, in order (60_exceptions.md R224). -/
theorem cleanupWrites_trace (ws : List (OutLine × Level)) (s : State) :
    (cleanupWrites ws s).trace = s.trace ++ cleanupEvents s ws := by
  induction ws generalizing s with
  | nil => exact (List.append_nil _).symm
  | cons w ws ih =>
    refine (ih (cleanupWrite s w)).trans ?_
    rw [cleanupWrite_trace, cleanupEvents_cons, List.append_assoc, List.singleton_append]

/-- The writes of a cleanup that do not fail drive their lines, in order (60_exceptions.md R224). -/
theorem cleanupWrites_lines (ws : List (OutLine × Level)) (s : State) :
    (cleanupWrites ws s).lines = cleanupLines s ws := by
  induction ws generalizing s with
  | nil => rfl
  | cons w ws ih => exact (ih (cleanupWrite s w)).trans (cleanupLines_cons s w ws).symm

end Sys2Proof.Machine
end

section
/-! Proofs: the polls of sendPacket's wait (43_transmit_pipeline.md R200, R202, R204;
60_exceptions.md R223, R224). -/

namespace Sys2Proof.Machine

/-! ### One poll of `TX.5` -/

/-- The events of a poll that ends sendPacket: the level it reads, then `TX.6`
(43_transmit_pipeline.md R200). -/
def closingPoll (level : Level) : List Event := [.r .dr level, .w .txen false, .w .trig true]

theorem linesAfter_closingPoll (ls : Lines) (level : Level) :
    linesAfter ls (closingPoll level) = { ls with txen := false, trig := true } := rfl

theorem outward_closingPoll (level : Level) : outward (closingPoll level) = closingPoll level := rfl

/-- With transmit-enable low the rising trigger is no transmission: the chip-side spaces stand
(20_memory.md R67; log 12). -/
theorem chipAfter_closingPoll (p : Params) (ls : Lines) (c : Chip) (level : Level) :
    chipAfter p ls c (closingPoll level) = c :=
  Chip.trigger_of_receiving (ls := { ls with txen := false }) rfl c

/-- The poll of `TX.5` at `s` reads `level`, the closing writes lead to `v`, and sendPacket returns
`reply` there. -/
structure PollCloses (polls : Nat) (level : Level) (reply : Reply) (s v : State) : Prop where
  returns : transmitWait polls s = v.ret reply
  ran : Ran 3 (closingPoll level) s v

/-- A poll that reads 0 and reaches the limit. -/
theorem waitHigh_expired {label : StepLabel} {polls : Nat} {s : State} (hf : s.failsHere = false)
    (hl : s.here.level = false) (hn : s.params.spinLimit = some (polls + 1)) :
    waitHigh label polls s = .expired (s.advance.emit (.r .dr false)) := by
  simp [waitHigh, pinRead_of_clear hf, hl, hn]

/-- A poll that reads 0 at the limit ends sendPacket with the timeout, whichever of the closing
writes fail (60_exceptions.md R223, R224). -/
theorem transmitWait_expired {polls : Nat} {s : State} (hf : s.failsHere = false)
    (hl : s.here.level = false) (hn : s.params.spinLimit = some (polls + 1)) :
    transmitWait polls s =
      (cleanupWrites closeTransmit (s.advance.emit (.r .dr false))).ret
        (.error (.timeout .txDataReady)) := by
  rw [transmitWait, waitHigh_expired hf hl hn]

section
variable {polls : Nat} {s : State} (hf : s.params.halFallible = false)
include hf

/-- Steps `TX.6a` and `TX.6b` (43_transmit_pipeline.md R200). -/
theorem transmitClose_runs :
    ∃ t, transmitClose s = .ok () t ∧ Ran 2 [.w .txen false, .w .trig true] s t := by
  obtain ⟨t1, r1, h1⟩ := deassertLine_runs hf .tx6a .txen
  obtain ⟨t2, r2, h2⟩ := assertLine_runs (h1.same.params ▸ hf) .tx6b .trig
  exact ⟨t2, by simp only [transmitClose, r1, r2, Res.andThen], h1.trans h2⟩

/-- A poll that reads 1 closes and returns ok (43_transmit_pipeline.md R200). -/
theorem transmitWait_high (hl : s.here.level = true) :
    ∃ v, PollCloses polls true .ok s v := by
  have hpoll := advance_emit_ran (.r .dr true) s (by simp)
  obtain ⟨v, hclose, hv⟩ := transmitClose_runs (s := s.advance.emit (.r .dr true)) hf
  refine ⟨v, ?_, hpoll.trans hv⟩
  rw [transmitWait, waitHigh_high (failsHere_of_infallible hf) hl]
  simp only [hclose]

/-- A poll that reads 0 at the limit closes and returns the timeout (43_transmit_pipeline.md R202).
-/
theorem transmitWait_timeout (hl : s.here.level = false)
    (hn : s.params.spinLimit = some (polls + 1)) :
    ∃ v, PollCloses polls false (.error (.timeout .txDataReady)) s v := by
  have hpoll := advance_emit_ran (.r .dr false) s (by simp)
  have hclose := cleanupWrites_ran closeTransmit (s := s.advance.emit (.r .dr false)) fun k _ =>
    failsAt_of_infallible (s := s.advance.emit _) hf k
  exact ⟨_, transmitWait_expired (failsHere_of_infallible hf) hl hn, hpoll.trans hclose⟩

/-- Any other poll that reads 0 waits on (43_transmit_pipeline.md R202). -/
theorem transmitWait_low (hl : s.here.level = false)
    (hn : s.params.spinLimit ≠ some (polls + 1)) :
    transmitWait polls s =
      { s.advance.emit (.r .dr false) with seq := .txWait (polls + 1) } := by
  rw [transmitWait, waitHigh_low hf hl hn]

end

/-! ### A step of the wait -/

/-- A step of the wait whose poll ends sendPacket (43_transmit_pipeline.md R200, R204;
60_exceptions.md R231). -/
theorem PollCloses.step {c : Nat} {level : Level} {reply : Reply} {s v : State}
    (h : PollCloses c level reply s.present v) (hf : s.framer = none) (hb : s.busy = true)
    (hseq : s.seq = .txWait c) :
    ∃ t, step s = .next t ∧ t.trace = s.trace ++ closingPoll level ∧
      t.lines = { s.lines with txen := false, trig := true } ∧ t.replies = s.replies ++ [reply] ∧
      t.chip = s.chip ∧ SameRegisters s.present.finish t := by
  have hlines := h.ran.lines.trans (linesAfter_closingPoll _ level)
  have hchip := h.ran.chip.trans (chipAfter_closingPoll _ _ _ level)
  refine ⟨_, (step_transmitPolls hf hb hseq).trans (congrArg _ h.returns), ?_, ?_, ?_,
    hchip.trans s.present_chip, (h.ran.same.trans (.reply reply _)).finish⟩
  · exact h.ran.trace.trans (congrArg (· ++ closingPoll level) s.present_trace)
  · exact hlines.trans (s.present_lines ▸ rfl)
  · exact congrArg (· ++ [reply]) (h.ran.replies.trans s.present_replies)

/-- Settles O40: the three outcomes of the poll (`transmitWait_high`, `transmitWait_timeout`,
`transmitWait_low`), and the timeout on any access layer (`transmitWait_expired`). -/
theorem transmitWaitFollowsThePoll : Obligations.TransmitWaitFollowsThePoll := by
  refine ⟨fun s c m hframer hbusy hseq hf hm => ?_,
    fun s c m hframer hbusy hseq hm hfail hl hn => ?_⟩
  · have hpf : s.present.params.halFallible = false := s.present_params ▸ hf
    have hhere : s.present.here = m := s.present_here.trans (State.here_listed hm)
    refine ⟨fun hl => ?_, fun hl hn => ?_, fun hl hn => ?_⟩
    · obtain ⟨v, hv⟩ := transmitWait_high (polls := c) hpf (hhere ▸ hl)
      exact hv.step hframer hbusy hseq
    · obtain ⟨v, hv⟩ := transmitWait_timeout hpf (hhere ▸ hl) (s.present_params ▸ hn)
      exact hv.step hframer hbusy hseq
    · have hlow := transmitWait_low hpf (hhere ▸ hl) (s.present_params ▸ hn)
      exact ⟨_, (step_transmitPolls hframer hbusy hseq).trans (congrArg _ hlow),
        congrArg (· ++ [_]) s.present_trace, s.present_lines, s.present_replies, s.present_chip,
        .polledLow _ s⟩
  · have hhere : s.present.here = m := s.present_here.trans (State.here_listed hm)
    have hclear := failsHere_of_clear (hhere ▸ hfail)
    have hend := transmitWait_expired hclear (hhere ▸ hl) (s.present_params ▸ hn)
    have hclose := cleanupWrites_touched closeTransmit
      (s.present.advance.emit (.r .dr false)) fun w _ => mem_transmitLines w.1
    have hsame := (advance_emit_same (.r .dr false) s.present).trans hclose.same
    refine ⟨_, (step_transmitPolls hframer hbusy hseq).trans (congrArg _ hend), ?_,
      cleanupWrites_lines closeTransmit _, ?_, (hsame.trans (.reply _ _)).finish⟩
    · refine (cleanupWrites_trace closeTransmit _).trans ?_
      exact congrArg (· ++ [_] ++ _) s.present_trace
    · exact congrArg (· ++ [_]) (hclose.replies.trans s.present_replies)

end Sys2Proof.Machine
end

section
/-! Proofs: sendPacket up to its first poll and what that poll leads to, on an access layer that
does not fail (43_transmit_pipeline.md R200, R202, R205). -/

namespace Sys2Proof.Machine

/-! ### The first poll -/

/-- An accepted sendPacket latches its operands and runs from `TX.1a` on (43_transmit_pipeline.md
R200, R201). -/
theorem execSendPacket_latches {s : State} (hb : s.busy = false) (hi : s.inited = true)
    {a payload : List Byte} (ha : addrLen ≤ a.length)
    (hp : payload.length ≤ s.params.txPayloadMax) :
    execSendPacket a payload s =
      .next (transmitRun (a.take addrLen) payload (s.begin.latched a payload)) := by
  rw [execSendPacket, acceptThen_of_ok _ hb (checkSendPacket_of_le hi ha hp)]
  rfl

/-- The accepted call stands at its first poll at `u`, everything before it having completed. -/
structure FirstPoll (a payload : List Byte) (s u : State) : Prop where
  reached : execSendPacket a payload s = .next (transmitWait 0 u)
  ran : ∃ evs, Ran (17 + payload.length) evs (s.begin.latched a payload) u ∧
    outward evs = transmitEvents s.params (a.take addrLen) payload

theorem execSendPacket_firstPoll {s : State} (hs : Ready s) {a payload : List Byte}
    (ha : addrLen ≤ a.length) (hp : payload.length ≤ s.params.txPayloadMax) :
    ∃ u, FirstPoll a payload s u := by
  have hlen : 13 + payload.length + (a.take addrLen).length = 17 + payload.length := by
    rw [List.length_take, Nat.min_eq_left ha, addrLen]
    omega
  obtain ⟨_, u, evs, hr, hu, ho, -⟩ := (transmitSteps_completes (a.take addrLen) payload
    (s := s.begin.latched a payload) hs.infallible).congr hlen rfl
  refine ⟨u, ?_, evs, hu, ho⟩
  rw [execSendPacket_latches hs.idle.busy hs.inited ha hp, transmitRun, hr]

/-- A payload frame, an address frame and one trigger pulse: what was loaded is consumed, the other
chip-side spaces stand (20_memory.md R67; log 12). -/
theorem chipAfter_transmit {p : Params} (hv : p.valid = true) (ls : Lines) (c : Chip)
    {address payload : List Byte} (ha : address.length ≤ addrLen)
    (hp : payload.length ≤ p.txPayloadMax) :
    chipAfter p ls c (transmitEvents p address payload) =
      { c with txPayload := [], txAddress := [], frame := .released } := by
  obtain ⟨-, hwtp, hwta, -⟩ := chipOpOf_fixed hv
  have hstart :
      chipAfter p ls c [.w .pwr true, .w .trig false, .w .txen true, .d .settle] = c := rfl
  have hpulse : ∀ c : Chip, chipAfter p { pwr := true, csn := true, txen := true, trig := false } c
      [.w .trig true, .d .settle, .w .trig false] = { c with txPayload := [], txAddress := [] } :=
    fun _ => rfl
  have hlines : linesAfter ls [.w .pwr true, .w .trig false, .w .txen true, .d .settle] =
      { ls with pwr := true, txen := true, trig := false } := rfl
  obtain ⟨-, hconfig, -, hpacket⟩ := Chip.storeFrom_payload p payload 0 c (by omega)
  obtain ⟨-, hconfig', -, hpacket'⟩ := Chip.storeFrom_address p address 0
    (Chip.storeFrom p .writePayload 0 payload c) (by omega)
  rw [transmitEvents, chipAfter_append, chipAfter_append, chipAfter_append, linesAfter_append,
    linesAfter_append, hstart, hlines, chipAfter_writeFrame p _ _ _ payload (by simp [hwtp]),
    chipAfter_writeFrame p _ _ _ address (by simp [hwta]), linesAfter_writeFrame,
    linesAfter_writeFrame, hpulse, hwtp, hwta, Chip.storeFrom_setFrame]
  simp only [hconfig', hconfig, hpacket', hpacket]

section
variable {a payload : List Byte} {s u : State} (h : FirstPoll a payload s u)
include h

theorem FirstPoll.same : SameRegisters (s.begin.latched a payload) u := by
  obtain ⟨_, hu, -⟩ := h.ran
  exact hu.same

theorem FirstPoll.here {m : Moment} (hm : s.env[17 + payload.length]? = some m) : u.here = m := by
  obtain ⟨_, hu, -⟩ := h.ran
  refine State.here_listed ?_
  rw [hu.env, List.getElem?_drop]
  exact hm

theorem FirstPoll.lines : u.lines = { pwr := true, csn := true, txen := true, trig := false } := by
  obtain ⟨_, hu, ho⟩ := h.ran
  rw [hu.lines, ← linesAfter_outward, ho, linesAfter_transmit]

theorem FirstPoll.trace :
    outward u.trace = outward s.trace ++ transmitEvents s.params (a.take addrLen) payload := by
  obtain ⟨_, hu, ho⟩ := h.ran
  rw [hu.trace, outward_append, ho]
  rfl

theorem FirstPoll.replies : u.replies = s.replies := by
  obtain ⟨_, hu, -⟩ := h.ran
  exact hu.replies

theorem FirstPoll.chip (hv : s.params.valid = true) (hp : payload.length ≤ s.params.txPayloadMax) :
    u.chip = { s.chip with txPayload := [], txAddress := [], frame := .released } := by
  obtain ⟨_, hu, ho⟩ := h.ran
  rw [hu.chip, ← chipAfter_outward, ho]
  exact chipAfter_transmit hv _ _ (List.length_take_le _ _) hp

/-- A first poll that ends sendPacket: every register as before the call (43_transmit_pipeline.md
R200; 60_exceptions.md R231). -/
theorem FirstPoll.closes (hs : Idle s) {level : Level} {reply : Reply} {v : State}
    (hc : PollCloses 0 level reply u v) :
    execSendPacket a payload s = .next (v.ret reply) ∧ SameRegisters s (v.ret reply) ∧
      v.lines = { pwr := true, csn := true, txen := false, trig := true } ∧
      outward v.trace = outward s.trace ++ transmitEvents s.params (a.take addrLen) payload ++
        closingPoll level ∧
      (v.ret reply).replies = s.replies ++ [reply] ∧ v.chip = u.chip := by
  have hsame := ((h.same.trans hc.ran.same).trans (.reply reply v)).finish
  refine ⟨h.reached.trans (congrArg _ hc.returns), hs.same_finish.trans hsame, ?_, ?_,
    congrArg (· ++ [reply]) (hc.ran.replies.trans h.replies),
    hc.ran.chip.trans (chipAfter_closingPoll _ _ _ level)⟩
  · rw [hc.ran.lines, linesAfter_closingPoll, h.lines]
  · rw [hc.ran.trace, outward_append, h.trace, outward_closingPoll]

end

/-! ### What the first poll leads to -/

/-- Settles O30: the run up to the first poll (`execSendPacket_firstPoll`), which closes and returns
ok. -/
theorem sendPacketCompletes : Obligations.SendPacketCompletes := by
  intro s a payload m hs ha hp hm hl
  obtain ⟨u, hu⟩ := execSendPacket_firstPoll hs ha hp
  obtain ⟨v, hv⟩ := transmitWait_high (polls := 0) (hu.same.params ▸ hs.infallible)
    (hu.here hm ▸ hl)
  obtain ⟨hexec, hsame, hlines, htrace, hreplies, hchip⟩ := hu.closes hs.idle hv
  replace hchip := hchip.trans (hu.chip hs.valid hp)
  refine ⟨_, hexec, hsame, hlines, htrace, hreplies, ?_⟩
  show v.chip.config = s.chip.config ∧ v.chip.txPayload = [] ∧ v.chip.txAddress = [] ∧
    v.chip.rxPayload = s.chip.rxPayload
  rw [hchip]
  exact ⟨rfl, rfl, rfl, rfl⟩

/-- Settles O31: the run up to the first poll, which leaves sendPacket waiting. -/
theorem sendPacketWaits : Obligations.SendPacketWaits := by
  intro s a payload m hs ha hp hm hl hn
  obtain ⟨u, hu⟩ := execSendPacket_firstPoll hs ha hp
  have hlow := transmitWait_low (polls := 0) (hu.same.params ▸ hs.infallible) (hu.here hm ▸ hl)
    (hu.same.params ▸ hn)
  have hsame := (hu.same.trans (advance_emit_same (.r .dr false) u)).withSeq (.txWait 1)
  refine ⟨_, hu.reached.trans (congrArg _ hlow), hsame, hu.lines, ?_, hu.replies⟩
  show outward (u.trace ++ [.r .dr false]) = _
  rw [outward_append, hu.trace]
  rfl

/-- Settles O32: the run up to the first poll, which closes and returns the timeout. -/
theorem sendPacketTimesOutAtItsFirstPoll : Obligations.SendPacketTimesOutAtItsFirstPoll := by
  intro s a payload m hs ha hp hm hl hn
  obtain ⟨u, hu⟩ := execSendPacket_firstPoll hs ha hp
  obtain ⟨v, hv⟩ := transmitWait_timeout (polls := 0) (hu.same.params ▸ hs.infallible)
    (hu.here hm ▸ hl) (hu.same.params ▸ hn)
  obtain ⟨hexec, hsame, hlines, htrace, hreplies, -⟩ := hu.closes hs.idle hv
  exact ⟨_, hexec, hsame, hlines, htrace, hreplies⟩

end Sys2Proof.Machine
end

section
/-! Proofs: a sendPacket that fails before its wait (43_transmit_pipeline.md R203; 60_exceptions.md
R230, R231; 10_state.md R42 (a)). -/

namespace Sys2Proof.Machine

/-! ### The lines where a step before the wait fails -/

/-- From `TX.1a` on the chip is powered; chip-select is released where it was released at `s`. -/
structure TransmitPowered (s t : State) : Prop where
  power : t.lines.pwr = true
  released : s.lines.csn = true → t.lines.csn = true

/-- A sendPacket that began at `s` fails at `t`, before its wait: the chip is powered unless `TX.1a`
is the step that failed, and chip-select is low only where it was at `s` or a frame is open. -/
structure TransmitStopped (s : State) (path : StepPath) (t : State) : Prop where
  power : t.lines.pwr = if path = [.tx1a] then s.lines.pwr else true
  released : frameOpen path = false → s.lines.csn = true → t.lines.csn = true

/-- The steps of `r` keep the chip powered, and chip-select released outside a frame. -/
abbrev StaysPowered {α : Type} (r : Res α) (s : State) : Prop :=
  r.Sat (fun _ => TransmitPowered s) (TransmitStopped s)

/-- `TX.1a` powers the chip (43_transmit_pipeline.md R200). -/
theorem assertPower_powers (s : State) : StaysPowered (assertLine .tx1a .pwr s) s := by
  cases hf : s.failsHere with
  | true =>
    rw [assertLine, pinWrite_of_failing hf]
    exact .failed ⟨rfl, fun _ => id⟩
  | false =>
    rw [assertLine, pinWrite_of_clear hf]
    exact .ok ⟨rfl, id⟩

/-- A write frame as a step of sendPacket (43_transmit_pipeline.md R200). -/
abbrev transmitFrame (outer inner : StepLabel) (instr : Byte) (data : List Byte) (s : State) :
    Res Unit :=
  (((frame instr data 0 false s).inside inner).andThen fun _ s => .ok () s).inside outer

/-- A write frame that completes has released the chip (40_command_framer.md R126). -/
theorem writeFrame_csn {instr : Byte} {out bytes : List Byte} {s t : State}
    (h : frame instr out 0 false s = .ok bytes t) : t.lines.csn = true := by
  obtain ⟨evs, hran, ho⟩ := (writeFrame_follows instr out s).ran bytes t h
  rw [hran.lines, ← linesAfter_outward, ho, linesAfter_writeFrame]

section
variable {s t : State} (h : TransmitPowered s t)
include h

/-- A later step that writes transmit-enable or the trigger, or no line. -/
theorem TransmitPowered.step {α : Type} {r : Res α} {label : StepLabel}
    (ht : Touched [.txen, .trig] t r.state) (hl : label ≠ .tx1a)
    (hp : ∀ path u, r = .failed path u → path = [label]) : StaysPowered r s := by
  have hpower : r.state.lines.pwr = true := (ht.lines .pwr (by decide)).trans h.power
  have hreleased (hs : s.lines.csn = true) : r.state.lines.csn = true :=
    (ht.lines .csn (by decide)).trans (h.released hs)
  cases r with
  | ok a u => exact .ok ⟨hpower, hreleased⟩
  | failed path u =>
    obtain rfl := hp path u rfl
    have hlater : [label] ≠ [StepLabel.tx1a] := fun he => hl (List.cons.inj he).1
    exact .failed ⟨hpower.trans (if_neg hlater).symm, fun _ => hreleased⟩

theorem TransmitPowered.write {label : StepLabel} {l : OutLine} (v : Level)
    (hw : l ∈ [OutLine.txen, .trig]) (hl : label ≠ .tx1a) :
    StaysPowered (pinWrite label l v t) s :=
  h.step (pinWrite_touched label v t hw) hl fun _ _ => pinWrite_failed

theorem TransmitPowered.delay {label : StepLabel} (d : Duration) (hl : label ≠ .tx1a) :
    StaysPowered (delay label d t) s :=
  h.step (delay_touched label d t _) hl fun _ _ => delay_failed

/-- A frame that fails is left open, one that completes has released the chip. -/
theorem TransmitPowered.writeFrame (outer inner : StepLabel) (instr : Byte) (data : List Byte) :
    StaysPowered (transmitFrame outer inner instr data t) s := by
  have hone := (((frame_oneFrame instr data 0 false t).inside inner).returning ()).inside outer
  cases hr : transmitFrame outer inner instr data t with
  | ok a u =>
    have hkept : u.lines.pwr = t.lines.pwr := (hone.of_ok hr).lines .pwr (by decide)
    obtain ⟨_, _, hframe, ⟨⟩⟩ := Res.andThen_ok (Res.inside_ok hr)
    exact .ok ⟨hkept.trans h.power, fun _ => writeFrame_csn (Res.inside_ok hframe)⟩
  | failed path u =>
    obtain ⟨ht, hopen⟩ := hone.of_failed hr
    have hkept : u.lines.pwr = t.lines.pwr := ht.lines .pwr (by decide)
    have hlater : path ≠ [.tx1a] := by
      rintro rfl
      cases hopen
    refine .failed ⟨(hkept.trans h.power).trans (if_neg hlater).symm, fun hclosed => ?_⟩
    exact Bool.noConfusion (hclosed.symm.trans hopen)

end

/-- Steps `TX.1a` to `TX.4c` (43_transmit_pipeline.md R200). -/
theorem transmitSteps_powered (address payload : List Byte) (s : State) :
    StaysPowered (transmitSteps address payload s) s :=
  (assertPower_powers s).andThen fun _ _ h1 =>
  (h1.write _ (by decide) (by decide)).andThen fun _ _ h2 =>
  (h2.write _ (by decide) (by decide)).andThen fun _ _ h3 =>
  (h3.delay .settle (by decide)).andThen fun _ t4 h4 =>
  (h4.writeFrame .tx2 .wtp1 t4.params.opWTP payload).andThen fun _ t5 h5 =>
  (h5.writeFrame .tx3 .wta1 t5.params.opWTA address).andThen fun _ _ h6 =>
  (h6.write _ (by decide) (by decide)).andThen fun _ _ h7 =>
  (h7.delay .settle (by decide)).andThen fun _ _ h8 =>
  (h8.write _ (by decide) (by decide)).andThen fun _ _ h9 => .ok h9

/-! ### The cleanup -/

/-- The lines after the cleanup of a failed sendPacket (43_transmit_pipeline.md R203). -/
theorem cleanup_transmit_lines {path : StepPath} {t : State} (h : NoFailureWithin 3 t) :
    (cleanup path closeTransmit t).lines =
      { pwr := t.lines.pwr
        csn := t.lines.csn || frameOpen path, txen := false, trig := true } := by
  have hran := cleanupWrites_ran
    ((if frameOpen path then [(OutLine.csn, true)] else []) ++ closeTransmit) (s := t) fun k hk =>
      h.failsAt (by
        refine Nat.lt_of_lt_of_le hk ?_
        split <;> decide)
  rw [cleanup, hran.lines]
  cases frameOpen path with
  | true => rw [Bool.or_true]; rfl
  | false => rw [Bool.or_false]; rfl

theorem NoFailureWithin.mono {n m : Nat} {s : State} (h : NoFailureWithin m s) (hn : n ≤ m) :
    NoFailureWithin n s := by
  obtain ⟨hlisted, hclear⟩ := h
  exact ⟨hn.trans hlisted, fun m hm => hclear m (List.take_subset_take_left _ hn hm)⟩

/-- A sendPacket that began at `s` and failed at `t` before its wait has been closed at `u`
(43_transmit_pipeline.md R203; 10_state.md R42 (a)). -/
structure TransmitClosed (path : StepPath) (s t u : State) : Prop where
  closed : ClosedBy closeTransmit path s t u
  lines : u.lines =
    { pwr := if path = [.tx1a] then s.lines.pwr else true
      csn := t.lines.csn || frameOpen path, txen := false, trig := true }
  released : s.lines.csn = true → u.lines.csn = true

theorem transmitRun_failed {s t : State} {a payload : List Byte} {path : StepPath}
    (h : transmitSteps a payload s = .failed path t) (hclear : NoFailureWithin 3 t) :
    TransmitClosed path s t (transmitRun a payload s) := by
  have hrun : transmitRun a payload s = t.raise closeTransmit path := by
    rw [transmitRun, h]
    rfl
  obtain ⟨htouched, -⟩ := (transmitSteps_stays a payload s).of_failed h
  obtain ⟨hpower, hreleased⟩ := (transmitSteps_powered a payload s).of_failed h
  obtain ⟨htrace, hreplies, hsame⟩ := State.raise_closed (closing := closeTransmit) (path := path)
    (hclear.mono (by split <;> decide))
  have hlines := cleanup_transmit_lines (path := path) hclear
  rw [hpower] at hlines
  rw [hrun]
  refine ⟨⟨htrace, htouched.replies ▸ hreplies, htouched.same.finish.trans hsame⟩, hlines,
    fun hs => ?_⟩
  show (cleanup path closeTransmit t).lines.csn = true
  rw [hlines]
  cases ho : frameOpen path with
  | true => exact Bool.or_true _
  | false => exact (Bool.or_false _).trans (hreleased ho hs)

/-- Settles O47: the steps that failed are cleaned up (`transmitRun_failed`); the instruction runs
these steps with its operands latched, which its end takes back. -/
theorem failedSendPacketIsClosed : Obligations.FailedSendPacketIsClosed := by
  refine ⟨fun s t a payload path h hclear => ?_,
    fun s t a payload path hb hi ha hp h hclear => ?_⟩
  · obtain ⟨hclosed, hlines, hreleased⟩ := transmitRun_failed h hclear
    exact ⟨hclosed, hlines, hreleased⟩
  · obtain ⟨⟨htrace, hreplies, hsame⟩, hlines, hreleased⟩ := transmitRun_failed h hclear
    exact ⟨_, execSendPacket_latches hb hi ha hp, ⟨htrace, hreplies, hsame⟩, hlines, hreleased⟩

end Sys2Proof.Machine
end

section
/-! Proofs: the cleanup of a failed operation, and which closing writes each host operation uses
(60_exceptions.md R220, R224, R230, R231; log 24). -/

namespace Sys2Proof.Machine

/-! ### Taking an error -/

/-- The line writes of a cleanup: chip-select if a frame was open, then the closing ones
(60_exceptions.md R230). -/
def cleanupList (path : StepPath) (closing : List (OutLine × Level)) : List (OutLine × Level) :=
  (if frameOpen path then [(OutLine.csn, true)] else []) ++ closing

theorem cleanupList_length (path : StepPath) (closing : List (OutLine × Level)) :
    (cleanupList path closing).length = (if frameOpen path then 1 else 0) + closing.length := by
  rw [cleanupList, List.length_append]
  cases frameOpen path <;> rfl

/-- The writes of a cleanup change no register and give no result, whichever of them fail
(60_exceptions.md R224). -/
theorem cleanupWrites_kept (ws : List (OutLine × Level)) (s : State) :
    (cleanupWrites ws s).replies = s.replies ∧ SameRegisters s (cleanupWrites ws s) :=
  have ht := cleanupWrites_touched ws s (ls := ws.map Prod.fst) fun _ hw => List.mem_map_of_mem hw
  ⟨ht.replies, ht.same⟩

theorem linesAfter_writes (ls : Lines) (ws : List (OutLine × Level)) :
    linesAfter ls (ws.map fun w => Event.w w.1 w.2) = ws.foldl (fun ls w => ls.set w.1 w.2) ls :=
  List.foldl_map

/-- The lines after a cleanup none of whose writes fails (60_exceptions.md R230). -/
theorem State.raise_lines {closing : List (OutLine × Level)} {path : StepPath} {s : State}
    (h : NoFailureWithin ((if frameOpen path then 1 else 0) + closing.length) s) :
    (s.raise closing path).lines =
      (cleanupList path closing).foldl (fun ls w => ls.set w.1 w.2) s.lines := by
  have hran := cleanupWrites_ran (cleanupList path closing) (s := s) fun k hk =>
    h.failsAt (cleanupList_length path closing ▸ hk)
  exact hran.lines.trans (linesAfter_writes _ _)

/-- Whichever cleanup writes fail, the block ends idle and returns the original error
(60_exceptions.md R230, R231). -/
theorem State.raise_kept (closing : List (OutLine × Level)) (path : StepPath) (s : State) :
    (s.raise closing path).replies = s.replies ++ [.error (.halFailure path)] ∧
      SameRegisters s.finish (s.raise closing path) := by
  obtain ⟨hreplies, hsame⟩ := cleanupWrites_kept (cleanupList path closing) s
  exact ⟨congrArg (· ++ [Reply.error (.halFailure path)]) hreplies,
    (hsame.trans (.reply _ _)).finish⟩

/-- Settles O17: where no write fails the cleanup is a run of its writes (`State.raise_closed`), and
else each write leaves its event and, unless it failed, its level (`cleanupWrites_trace`,
`cleanupWrites_lines`). -/
theorem errorCleanupOrder : Obligations.ErrorCleanupOrder := by
  refine ⟨fun s closing path h => ⟨State.raise_closed h, State.raise_lines h⟩,
    fun s closing path => ?_, fun s writes => ?_⟩
  · obtain ⟨hreplies, hsame⟩ := State.raise_kept closing path s
    exact ⟨cleanupWrites_trace _ s, cleanupWrites_lines _ s, hreplies, hsame⟩
  · exact ⟨cleanupWrites_trace _ s, cleanupWrites_lines _ s, cleanupWrites_kept writes s⟩

end Sys2Proof.Machine
end

section
/-! Proofs: which closing writes each host operation uses after a failed primitive, and the lines it
leaves (60_exceptions.md R230, R231; 10_state.md R42 (a)). -/

namespace Sys2Proof.Machine

/-! ### Primitives, with the lines they leave -/

/-- A step that fails at its own label and leaves the lines at `ls`. -/
abbrev StopsAt (label : StepLabel) (ls : Lines) (path : StepPath) (t : State) : Prop :=
  path = [label] ∧ t.lines = ls

theorem pinWrite_lines (label : StepLabel) (l : OutLine) (v : Level) (s : State) :
    (pinWrite label l v s).Sat (fun _ t => t.lines = s.lines.set l v) (StopsAt label s.lines) := by
  rw [pinWrite]
  split
  · exact .failed ⟨rfl, rfl⟩
  · exact .ok rfl

theorem delay_lines (label : StepLabel) (d : Duration) (s : State) :
    (delay label d s).Sat (fun _ t => t.lines = s.lines) (StopsAt label s.lines) := by
  rw [delay]
  split
  · exact .failed ⟨rfl, rfl⟩
  · exact .ok rfl

theorem halAction_lines (label : StepLabel) (s : State) :
    (halAction label s).Sat (fun _ t => t.lines = s.lines) (StopsAt label s.lines) := by
  rw [halAction]
  split
  · exact .failed ⟨rfl, rfl⟩
  · exact .ok rfl

/-- A failure outside every frame, at which the lines stand as `ls` tells for its path. -/
structure StoppedWith (ls : StepPath → Lines) (path : StepPath) (t : State) : Prop where
  closed : frameOpen path = false
  lines : t.lines = ls path

theorem StopsAt.stoppedWith {label : StepLabel} {k : Lines} {ls : StepPath → Lines}
    (hl : label.inFrame = false) (hk : k = ls [label]) (path : StepPath) (t : State)
    (h : StopsAt label k path t) : StoppedWith ls path t := by
  obtain ⟨rfl, ht⟩ := h
  exact ⟨by rw [frameOpen, List.any_cons, hl]; rfl, ht.trans hk⟩

/-! ### Operations without a frame -/

/-- The lines where powerUp failed (41_mode_controller.md R153). -/
def powerUpStops (ls : Lines) (path : StepPath) : Lines :=
  if path = [.pu1] then ls else { ls with pwr := true }

theorem powerUpSteps_stops (s : State) :
    (powerUpSteps s).Sat (fun _ t => t.lines = { s.lines with pwr := true })
      (StoppedWith (powerUpStops s.lines)) :=
  ((pinWrite_lines .pu1 .pwr true s).mono (fun _ _ => id)
    (StopsAt.stoppedWith rfl rfl)).andThen fun _ t1 h1 =>
  ((delay_lines .pu2 .wake t1).mono (fun _ _ => id)
    (StopsAt.stoppedWith rfl h1)).andThen fun _ _ h2 => .ok (h2.trans h1)

/-- The lines where startReceiveMode failed (41_mode_controller.md R155). -/
def enterReceiveStops (ls : Lines) (path : StepPath) : Lines :=
  { ls with
    txen := if path = [.er1] then ls.txen else false
    pwr := if path = [.er1] ∨ path = [.er2] then ls.pwr else true
    trig := if path = [.er4] ∨ path = [.er5] then true else ls.trig }

theorem enterReceiveSteps_stops (s : State) :
    (enterReceiveSteps s).Sat (fun _ _ => True) (StoppedWith (enterReceiveStops s.lines)) :=
  ((pinWrite_lines .er1 .txen false s).mono (fun _ _ => id)
    (StopsAt.stoppedWith rfl rfl)).andThen fun _ t1 h1 =>
  ((pinWrite_lines .er2 .pwr true t1).mono (fun _ _ => id)
    (StopsAt.stoppedWith rfl (by rw [h1]; rfl))).andThen fun _ t2 h2 =>
  ((pinWrite_lines .er3 .trig true t2).mono (fun _ _ => id)
    (StopsAt.stoppedWith rfl (by rw [h2, h1]; rfl))).andThen fun _ t3 h3 =>
  ((delay_lines .er4 .settle t3).mono (fun _ _ => id)
    (StopsAt.stoppedWith rfl (by rw [h3, h2, h1]; rfl))).andThen fun _ t4 h4 =>
  ((halAction_lines .er5 t4).mono (fun _ _ => id)
    (StopsAt.stoppedWith rfl (by rw [h4, h3, h2, h1]; rfl))).andThen fun _ _ _ => .ok trivial

theorem powerDownStep_stops (s : State) :
    (deassertLine .pd1 .pwr s).Sat (fun _ _ => True) (StoppedWith fun _ => s.lines) :=
  (pinWrite_lines .pd1 .pwr false s).mono (fun _ _ _ => trivial) (StopsAt.stoppedWith rfl rfl)

theorem exitReceiveSteps_stops (s : State) :
    (exitReceiveSteps s).Sat (fun _ _ => True) (StoppedWith fun _ => s.lines) := by
  refine ((halAction_lines .xr1 s).mono (fun _ _ => id)
    (StopsAt.stoppedWith rfl rfl)).andThen fun _ t ht => ?_
  dsimp only
  split
  · exact (pinWrite_lines .xr2 .trig false t.disarmed).mono (fun _ _ _ => trivial)
      (StopsAt.stoppedWith rfl ht)
  · exact .ok trivial

/-! ### The end of an operation whose steps failed -/

/-- An operation whose steps failed takes the error, whatever was to come after them. -/
theorem conclude_of_failed {α : Type} {r : Res α} {path : StepPath} {t : State}
    (h : r = .failed path t) (closing : StepPath → List (OutLine × Level))
    (next : α → State → Res Reply) :
    conclude closing (r.andThen next) = t.raise (closing path) path := by
  rw [Res.andThen_of_failed h]
  rfl

/-- Two moments are enough for chip-select and one closing write. -/
theorem NoFailureWithin.cleanup {closing : List (OutLine × Level)} {t : State}
    (h : NoFailureWithin 2 t) (hc : closing.length ≤ 1) (path : StepPath) :
    NoFailureWithin ((if frameOpen path then 1 else 0) + closing.length) t :=
  h.mono (by split <;> omega)

/-- An operation that wrote no register up to its failure has ended with its closing writes
(60_exceptions.md R230, R231). -/
theorem State.raise_closedBy {closing : List (OutLine × Level)} {path : StepPath} {s t : State}
    (hsame : SameRegisters s.begin t) (hreplies : t.replies = s.replies)
    (hclear : NoFailureWithin 2 t) (hc : closing.length ≤ 1) :
    ClosedBy closing path s t (t.raise closing path) := by
  obtain ⟨htrace, hreply, hend⟩ := State.raise_closed (hclear.cleanup hc path)
  exact ⟨htrace, hreplies ▸ hreply, hsame.finish.trans hend⟩

/-- The lines after a cleanup: chip-select is released if a frame was open, then the closing writes
(60_exceptions.md R230). -/
theorem State.raise_lines_of_clear {closing : List (OutLine × Level)} {path : StepPath} {t : State}
    (hclear : NoFailureWithin 2 t) (hc : closing.length ≤ 1) :
    (t.raise closing path).lines =
      closing.foldl (fun ls w => ls.set w.1 w.2)
        { t.lines with csn := t.lines.csn || frameOpen path } := by
  rw [State.raise_lines (hclear.cleanup hc path), cleanupList, List.foldl_append]
  cases frameOpen path with
  | true => rw [Bool.or_true]; rfl
  | false => rw [Bool.or_false]; rfl

/-- The lines after a cleanup without closing writes. -/
theorem State.raise_noClosing {path : StepPath} {t : State} (h : NoFailureWithin 2 t) :
    (t.raise [] path).lines = { t.lines with csn := t.lines.csn || frameOpen path } :=
  State.raise_lines_of_clear h (by decide)

/-- The lines after the cleanup of a configuration write. -/
theorem State.raise_closePower {path : StepPath} {t : State} (h : NoFailureWithin 2 t) :
    (t.raise closePower path).lines =
      { t.lines with pwr := true, csn := t.lines.csn || frameOpen path } :=
  State.raise_lines_of_clear h (by decide)

/-- The end of an operation without closing writes whose steps failed outside every frame. -/
theorem conclude_unclosed {r : Res Unit} {ls : StepPath → Lines} {path : StepPath} {s t : State}
    (hr : r = .failed path t) (hstop : StoppedWith ls path t) (hsame : SameRegisters s.begin t)
    (hreplies : t.replies = s.replies) (hclear : NoFailureWithin 2 t) :
    ClosedBy [] path s t (conclude noClosing r.thenOk) ∧
      (conclude noClosing r.thenOk).lines = t.lines ∧ t.lines = ls path := by
  have hlines := State.raise_noClosing (path := path) hclear
  rw [hstop.closed, Bool.or_false] at hlines
  rw [conclude_of_failed hr]
  exact ⟨State.raise_closedBy hsame hreplies hclear (by decide), hlines, hstop.lines⟩

/-! ### Chip-select where a configuration write or init fails -/

/-- Chip-select is low where the steps of `r` fail only if it was at `s` or a frame is open
(10_state.md R42 (a)). -/
abbrev KeepsReleased {α : Type} (r : Res α) (s : State) : Prop :=
  r.Sat (fun _ t => s.lines.csn = true → t.lines.csn = true)
    fun path t => frameOpen path = false → s.lines.csn = true → t.lines.csn = true

section
variable {α : Type} {r : Res α} {s t : State}

/-- A sequence that starts where another one from `s` ended. -/
theorem KeepsReleased.after (h : KeepsReleased r t)
    (k : s.lines.csn = true → t.lines.csn = true) : KeepsReleased r s :=
  h.mono (fun _ _ hu hs => hu (k hs)) fun _ _ hu ho hs => hu ho (k hs)

theorem KeepsReleased.inside {l : StepLabel} (hl : l.inFrame = false) (h : KeepsReleased r s) :
    KeepsReleased (r.inside l) s := by
  cases h with
  | ok h => exact .ok h
  | failed h =>
    refine .failed fun ho => h ?_
    rwa [frameOpen, List.any_cons, hl, Bool.false_or] at ho

/-- Steps that do not write chip-select. -/
theorem Touched.keepsReleased {ls : List OutLine} (h : Touched ls s r.state)
    (hl : OutLine.csn ∉ ls) : KeepsReleased r s := by
  have hcsn : r.state.lines.csn = s.lines.csn := h.lines .csn hl
  cases r with
  | ok a t => exact .ok fun hs => hcsn.trans hs
  | failed path t => exact .failed fun _ hs => hcsn.trans hs

end

/-- A frame that fails is left open, one that completes has released the chip. -/
theorem writeConfigFrame_keepsReleased (k : Nat) (bytes : List Byte) (s : State) :
    KeepsReleased (writeConfigFrame k bytes s) s := by
  have hone := (frame_oneFrame (s.params.wcByte k) bytes 0 false s).returning ()
  cases hr : writeConfigFrame k bytes s with
  | ok a t =>
    obtain ⟨_, _, hframe, ⟨⟩⟩ := Res.andThen_ok hr
    exact .ok fun _ => writeFrame_csn hframe
  | failed path t =>
    obtain ⟨-, hopen⟩ := hone.of_failed hr
    exact .failed fun hclosed => Bool.noConfusion (hclosed.symm.trans hopen)

theorem writeConfigSteps_keepsReleased (k : Nat) (bytes : List Byte) (s : State) :
    KeepsReleased (writeConfigSteps k bytes s) s :=
  ((deassertLine_touched .wc1 s (ls := [.pwr]) (by decide)).keepsReleased
    (by decide)).andThen fun _ t1 h1 =>
  (((writeConfigFrame_keepsReleased k bytes t1).inside rfl).after h1).andThen fun _ t2 h2 =>
  (((assertLine_touched .wc4 t2 (ls := [.pwr]) (by decide)).keepsReleased
    (by decide)).after h2).andThen fun _ _ h3 => .ok h3

theorem powerUpSteps_keepsReleased (s : State) : KeepsReleased (powerUpSteps s) s :=
  ((assertLine_touched .pu1 s (ls := [.pwr]) (by decide)).keepsReleased
    (by decide)).andThen fun _ t1 h1 =>
  (((delay_touched .pu2 .wake t1 []).keepsReleased (by decide)).after h1).andThen fun _ _ h2 =>
  .ok h2

theorem initSteps_keepsReleased (s : State) : KeepsReleased (initSteps s) s :=
  ((halAction_touched .in1 s []).keepsReleased (by decide)).andThen fun _ t1 h1 =>
  (((writeConfigSteps_keepsReleased 0 t1.cfg t1).inside rfl).after h1).andThen fun _ t2 h2 =>
  (((powerUpSteps_keepsReleased t2).inside rfl).after h2).andThen fun _ _ h3 => .ok h3

/-! ### Power where init fails -/

/-- A configuration write that completes has powered the chip again (40_command_framer.md R120). -/
theorem writeConfigSteps_power {k : Nat} {bytes : List Byte} {s u : State}
    (h : writeConfigSteps k bytes s = .ok () u) : u.lines.pwr = true := by
  obtain ⟨t, n, evs, rfl, hran, ho⟩ := writeConfigSteps_ok h
  show t.lines.pwr = true
  rw [hran.lines, ← linesAfter_outward, ho, linesAfter_configWrite]

/-- `PWR` where init fails outside its configuration write (41_mode_controller.md R152). -/
def InitPower (s : State) (path : StepPath) (t : State) : Prop :=
  path.head? ≠ some .in2 → t.lines.pwr = if path = [.in1] then s.lines.pwr else true

theorem initSteps_power (s : State) : (initSteps s).Sat (fun _ _ => True) (InitPower s) := by
  refine ((halAction_lines .in1 s).mono (fun _ _ => id) ?_).andThen fun _ t1 _ => ?_
  · rintro path t ⟨rfl, ht⟩ -
    rw [if_pos rfl, ht]
  have hwrite : ((writeConfigSteps 0 t1.cfg t1).inside .in2).Sat
      (fun _ t => t.lines.pwr = true) (InitPower s) := by
    cases hr : (writeConfigSteps 0 t1.cfg t1).inside .in2 with
    | ok a t2 => exact .ok (writeConfigSteps_power (Res.inside_ok hr))
    | failed path t2 =>
      obtain ⟨_, rfl, -⟩ := Res.inside_failed hr
      exact .failed fun h => absurd rfl h
  refine hwrite.andThen fun _ t2 h2 => ?_
  have hpower : ((powerUpSteps t2).inside .in3).Sat (fun _ _ => True) (InitPower s) := by
    cases hr : (powerUpSteps t2).inside .in3 with
    | ok a t3 => exact .ok trivial
    | failed path t3 =>
      obtain ⟨tail, rfl, hwake⟩ := Res.inside_failed hr
      obtain ⟨-, hlines⟩ := (powerUpSteps_stops t2).of_failed hwake
      have hlater : StepLabel.in3 :: tail ≠ [.in1] := by simp
      refine .failed fun _ => ?_
      rw [if_neg hlater, hlines, powerUpStops]
      split
      · exact h2
      · rfl
  exact hpower.andThen fun _ _ _ => .ok trivial

/-- Which line init asserts in its cleanup (60_exceptions.md R230). -/
theorem initClosing_eq (path : StepPath) :
    initClosing path = if path.head? = some .in2 then closePower else [] := by
  rw [initClosing.eq_def]
  split
  · rfl
  · rename_i h
    rw [if_neg]
    intro hp
    cases path with
    | nil => cases hp
    | cons l tail => exact h tail (congrArg (· :: tail) (Option.some.inj hp))

/-! ### The operations -/

/-- A configuration write of `s` that failed at `t` has been closed at `u`: the chip is powered
again, chip-select is released (60_exceptions.md R230; 10_state.md R42 (a)). -/
structure ConfigWriteClosed (path : StepPath) (s t u : State) : Prop where
  closed : ClosedBy closePower path s t u
  lines : u.lines = { s.lines with pwr := true, csn := t.lines.csn || frameOpen path }
  released : s.lines.csn = true → u.lines.csn = true

section
variable {s t : State} {path : StepPath}

/-- Chip-select after a cleanup. -/
theorem csn_of_cleaned (h : frameOpen path = false → s.lines.csn = true → t.lines.csn = true)
    (hs : s.lines.csn = true) : (t.lines.csn || frameOpen path) = true := by
  cases ho : frameOpen path with
  | true => exact Bool.or_true _
  | false => exact (Bool.or_false _).trans (h ho hs)

theorem State.raise_configWrite {r : Res Unit} {P : Unit → State → Prop}
    (hsat : r.Sat P (FailedAt [.pwr, .csn] s.begin)) (hcsn : KeepsReleased r s.begin)
    (hr : r = .failed path t) (hclear : NoFailureWithin 2 t) :
    ConfigWriteClosed path s t (t.raise closePower path) := by
  obtain ⟨ht, -⟩ := hsat.of_failed hr
  have htxen : t.lines.txen = s.lines.txen := ht.lines .txen (by decide)
  have htrig : t.lines.trig = s.lines.trig := ht.lines .trig (by decide)
  have hlines := State.raise_closePower (path := path) hclear
  refine ⟨State.raise_closedBy ht.same ht.replies hclear (by decide), ?_, fun hs => ?_⟩
  · simp only [hlines, htxen, htrig]
  · rw [hlines]
    exact csn_of_cleaned (s := s.begin) (hcsn.of_failed hr) hs

variable (hb : s.busy = false) (hclear : NoFailureWithin 2 t)
include hb hclear

theorem execWriteConfig_failed {k : Nat} {bytes : List Byte} (hi : s.inited = true)
    (hk : k + bytes.length ≤ configLen)
    (h : writeConfigSteps k bytes s.begin = .failed path t) :
    ∃ u, execWriteConfig k bytes s = .next u ∧ ConfigWriteClosed path s t u := by
  refine ⟨_, execWriteConfig_of_le hb hi hk, ?_⟩
  rw [conclude_of_failed h]
  exact State.raise_configWrite (writeConfigSteps_sat k bytes s.begin)
    (writeConfigSteps_keepsReleased k bytes s.begin) h hclear

theorem execSetAddress_failed {a : List Byte} (hi : s.inited = true) (ha : addrLen ≤ a.length)
    (h : setAddressSteps (a.take addrLen) s.begin = .failed path t) :
    ∃ u, execSetAddress a s = .next u ∧ ConfigWriteClosed path s t u := by
  refine ⟨_, execSetAddress_of_le hb ha, ?_⟩
  rw [h]
  rw [setAddressSteps, if_pos (by exact hi)] at h
  rcases Res.andThen_failed h with hr | ⟨_, _, -, ⟨⟩⟩
  exact State.raise_configWrite ((writeConfigSteps_sat _ _ s.begin).inside rfl)
    ((writeConfigSteps_keepsReleased _ _ s.begin).inside rfl) hr hclear

/-- init asserts `PWR` in its cleanup exactly if its configuration write failed. -/
theorem execInit_failed (hi : s.inited = false) (h : initSteps s.begin = .failed path t) :
    ∃ u, execInit s = .next u ∧
      ClosedBy (if path.head? = some .in2 then closePower else []) path s t u ∧
      u.lines =
        { s.lines with
          pwr := if path = [.in1] then s.lines.pwr else true
          csn := t.lines.csn || frameOpen path } ∧
      (s.lines.csn = true → u.lines.csn = true) := by
  obtain ⟨ht, -⟩ := (initSteps_sat s.begin).of_failed h
  have htxen : t.lines.txen = s.lines.txen := ht.lines .txen (by decide)
  have htrig : t.lines.trig = s.lines.trig := ht.lines .trig (by decide)
  have hpower := (initSteps_power s.begin).of_failed h
  have hlines : (t.raise (initClosing path) path).lines =
      { s.lines with
        pwr := if path = [.in1] then s.lines.pwr else true
        csn := t.lines.csn || frameOpen path } := by
    rw [initClosing_eq]
    split
    · rename_i hhead
      have hlater : path ≠ [.in1] := by
        rintro rfl
        cases hhead
      simp only [State.raise_closePower hclear, htxen, htrig, if_neg hlater]
    · rename_i hhead
      simp only [State.raise_noClosing hclear, htxen, htrig, hpower hhead, State.begin_lines]
  refine ⟨_, execInit_of_uninited hb hi, ?_⟩
  rw [conclude_of_failed h]
  refine ⟨?_, hlines, fun hs => ?_⟩
  · rw [← initClosing_eq]
    refine State.raise_closedBy ht.same ht.replies hclear ?_
    rw [initClosing_eq]
    split <;> decide
  · rw [hlines]
    exact csn_of_cleaned (s := s.begin) ((initSteps_keepsReleased s.begin).of_failed h) hs

theorem execReadConfig_failed (hi : s.inited = true) (hc : ConfigHasValues s)
    (h : readConfigFrame s.begin = .failed path t) :
    ∃ u, execReadConfig s = .next u ∧ ClosedBy [] path s t u ∧
      u.lines = { s.lines with csn := true } := by
  have hone := (frame_oneFrame s.begin.params.opRC [] configLen false s.begin).inside .rc1
  obtain ⟨ht, hopen⟩ := hone.of_failed h
  refine ⟨t.raise [] path, ?_, State.raise_closedBy ht.same ht.replies hclear (by decide), ?_⟩
  · rw [execReadConfig, acceptThen_of_ok _ hb (checkInited_of_inited hi),
      if_pos (by exact configAnswered_of_values hc), readConfigSteps, conclude_of_failed h]
    rfl
  · rw [State.raise_noClosing hclear, hopen, Bool.or_true]
    exact ht.set_csn true

theorem execPowerUp_failed (hi : s.inited = true) (h : powerUpSteps s.begin = .failed path t) :
    ∃ u, execPowerUp s = .next u ∧ ClosedBy [] path s t u ∧ u.lines = t.lines ∧
      t.lines = powerUpStops s.lines path := by
  obtain ⟨ht, -⟩ := (powerUpSteps_stays s.begin (ls := [.pwr]) (by decide)).of_failed h
  exact ⟨_, execPowerUp_of_inited hb hi,
    conclude_unclosed h ((powerUpSteps_stops s.begin).of_failed h) ht.same ht.replies hclear⟩

theorem execPowerDown_failed (hi : s.inited = true)
    (h : deassertLine .pd1 .pwr s.begin = .failed path t) :
    ∃ u, execPowerDown s = .next u ∧ ClosedBy [] path s t u ∧ u.lines = t.lines ∧
      t.lines = s.lines := by
  obtain ⟨-, ht⟩ := (pinWrite_ends .pd1 .pwr false s.begin).of_failed h
  exact ⟨_, execPowerDown_of_inited hb hi,
    conclude_unclosed h ((powerDownStep_stops s.begin).of_failed h) ht.same ht.replies hclear⟩

theorem execStartReceiveMode_failed (hi : s.inited = true)
    (h : enterReceiveSteps s.begin = .failed path t) :
    ∃ u, execStartReceiveMode s = .next u ∧ ClosedBy [] path s t u ∧ u.lines = t.lines ∧
      t.lines = enterReceiveStops s.lines path := by
  obtain ⟨ht, -⟩ := (enterReceiveSteps_sat s.begin).of_failed h
  exact ⟨_, execStartReceiveMode_of_inited hb hi,
    conclude_unclosed h ((enterReceiveSteps_stops s.begin).of_failed h) ht.same ht.replies hclear⟩

/-- A failed `XR.2` comes after the watch was dropped (41_mode_controller.md R156). -/
theorem execStopReceiveMode_failed (hi : s.inited = true)
    (h : exitReceiveSteps s.begin = .failed path t) :
    ∃ u, execStopReceiveMode s = .next u ∧
      ClosedBy [] path (if path = [.xr2] then s.disarmed else s) t u ∧ u.lines = t.lines ∧
      t.lines = s.lines := by
  refine ⟨_, execStopReceiveMode_of_inited hb hi, ?_⟩
  have hstop := (exitReceiveSteps_stops s.begin).of_failed h
  rcases (exitReceiveSteps_ends s.begin).of_failed h with ⟨rfl, rfl⟩ | ⟨rfl, ht⟩
  · exact conclude_unclosed h hstop (.advance s.begin) rfl hclear
  · exact conclude_unclosed (s := s.disarmed) h hstop { ht.same with } ht.replies hclear

end

/-- Settles O18, an operation at a time: the steps that failed have written no register, the closing
writes are those of the table, and chip-select is released where a frame was open. -/
theorem errorCleanupFollowsTheTable : Obligations.ErrorCleanupFollowsTheTable := by
  intro s t path hb hclear
  refine ⟨fun k bytes hi hk h => ?_, fun a hi ha h => ?_, execInit_failed hb hclear,
    execReadConfig_failed hb hclear, fun hi h => ?_, fun hi h => ?_, fun hi h => ?_,
    fun hi h => ?_⟩
  · obtain ⟨u, hexec, hu⟩ := execWriteConfig_failed hb hclear hi hk h
    exact ⟨u, hexec, hu.closed, hu.lines, hu.released⟩
  · obtain ⟨u, hexec, hu⟩ := execSetAddress_failed hb hclear hi ha h
    exact ⟨u, hexec, hu.closed, hu.lines, hu.released⟩
  · obtain ⟨u, hexec, hu, hlines, hstop⟩ := execPowerUp_failed hb hclear hi h
    exact ⟨u, hexec, hu, hlines, hlines.trans hstop⟩
  · obtain ⟨u, hexec, hu, hlines, hstop⟩ := execPowerDown_failed hb hclear hi h
    exact ⟨u, hexec, hu, hlines.trans hstop⟩
  · obtain ⟨u, hexec, hu, hlines, hstop⟩ := execStartReceiveMode_failed hb hclear hi h
    exact ⟨u, hexec, hu, hlines, hlines.trans hstop⟩
  · obtain ⟨u, hexec, hu, hlines, hstop⟩ := execStopReceiveMode_failed hb hclear hi h
    exact ⟨u, hexec, hu, hlines.trans hstop⟩

end Sys2Proof.Machine
end

section
/-! Proofs: a drain whose polls all read 0 times out at its limit (60_exceptions.md R223, R228,
R231; 42_receive_pipeline.md R172). -/

namespace Sys2Proof.Machine

/-! ### Presenting, any number of times -/

/-- Presenting moves commands from the host to the port and does nothing else, however often. -/
theorem State.iterate_present_eq (n : Nat) (s : State) :
    ∃ port host, Nat.iterate State.present n s = { s with port := port, host := host } := by
  induction n generalizing s with
  | zero => exact ⟨s.port, s.host, rfl⟩
  | succ n ih =>
    obtain ⟨_, _, h⟩ := s.present_eq
    obtain ⟨port, host, hn⟩ := ih s.present
    exact ⟨port, host, by rw [Function.iterate_succ_apply, hn, h]⟩

/-- Presenting does not read the latch. -/
theorem State.present_unlatched (s : State) :
    State.present { s with edgePend := false } = { s.present with edgePend := false } := by
  simp only [State.present]
  split <;> rfl

theorem State.iterate_present_unlatched (n : Nat) (s : State) :
    Nat.iterate State.present n { s with edgePend := false } =
      { Nat.iterate State.present n s with edgePend := false } := by
  induction n generalizing s with
  | zero => rfl
  | succ n ih =>
    rw [Function.iterate_succ_apply, State.present_unlatched, ih]
    rfl

/-- Presenting does not read what the end of an operation writes. -/
theorem State.present_finish (s : State) : s.finish.present = s.present.finish := by
  simp only [State.present, State.finish]
  split <;> rfl

/-! ### The last poll -/

/-- `b` comes `polls` polls that read 0 later in a drain of `s`: nothing else has happened. -/
structure PolledSince (polls : Nat) (s b : State) : Prop where
  trace : b.trace = s.trace ++ List.replicate polls (.r .dr false)
  same : SameRegisters s.finish b.finish
  lines : b.lines = s.lines
  replies : b.replies = s.replies
  chip : b.chip = s.chip

theorem PolledSince.present {k : Nat} {s b : State} (h : PolledSince k s b) :
    PolledSince k s.present b.present where
  trace := by rw [State.present_trace, State.present_trace, h.trace]
  same := by
    have hsame := h.same.present
    rwa [State.present_finish, State.present_finish] at hsame
  lines := by rw [State.present_lines, State.present_lines, h.lines]
  replies := by rw [State.present_replies, State.present_replies, h.replies]
  chip := by rw [State.present_chip, State.present_chip, h.chip]

theorem PolledSince.iterate_present {k : Nat} {s b : State} (h : PolledSince k s b) (n : Nat) :
    PolledSince k (Nat.iterate State.present n s) (Nat.iterate State.present n b) := by
  induction n generalizing s b with
  | zero => exact h
  | succ n ih => exact ih h.present

/-- Polls before a timeout count. -/
theorem TimedOut.since {k n : Nat} {s b t : State} (h : TimedOut n b t) (hb : PolledSince k s b) :
    TimedOut (k + n) s t where
  trace := by rw [h.trace, hb.trace, List.replicate_add, ← List.append_assoc]
  same := hb.same.trans h.same
  lines := h.lines.trans hb.lines
  replies := h.replies.trans hb.replies
  chip := h.chip.trans hb.chip

/-- A poll that reads 0 at the limit ends the drain with the timeout (60_exceptions.md R223). -/
theorem drainWait_expired {polls : Nat} {s : State} (hf : s.failsHere = false)
    (hl : s.here.level = false) (hn : s.params.spinLimit = some (polls + 1)) :
    drainWait polls s =
      drainError (.timeout .rxDataReady) (s.advance.emit (.r .dr false)) := by
  rw [drainWait, waitHigh_expired hf hl hn]

theorem PollsFor.timedOut {pre polls : Nat} {s b : State} (h : PollsFor pre s b)
    (hf : s.params.halFallible = false) (hl : b.here.level = false)
    (hn : s.params.spinLimit = some (polls + 1)) : TimedOut 1 s (drainWait polls b) := by
  have hp : b.params = s.params := h.same.params
  rw [drainWait_expired (failsHere_of_infallible (hp ▸ hf)) hl (hp ▸ hn)]
  refine ⟨?_, ?_, h.lines, h.replies, h.chip⟩
  · show b.trace ++ [_] ++ [_] = _
    rw [h.trace]
    rfl
  · have hsame := h.same.trans (advance_emit_same (.r .dr false) b)
    exact (hsame.trans (.emit (.f (.timeout .rxDataReady)) _)).finish

/-! ### All polls -/

/-- A run with one more step. -/
theorem run_succ_of_next {n : Nat} {s t : State} (h : run n s = .next t) :
    run (n + 1) s = step t := by
  induction n generalizing s with
  | zero =>
    cases h
    rw [run]
    cases step t <;> rfl
  | succ n ih =>
    rw [run] at h ⊢
    cases hs : step s with
    | next u =>
      rw [hs] at h
      exact ih h
    | fault r =>
      rw [hs] at h
      cases h
    | refused r =>
      rw [hs] at h
      cases h

/-- Each poll takes one moment. -/
theorem WaitsLow.run_env {wait : Nat → Seq} {c n : Nat} {s t : State} (h : WaitsLow wait c n s)
    (hr : run n s = .next t) : t.env = s.env.drop n := by
  induction n generalizing c s with
  | zero =>
    cases hr
    rfl
  | succ n ih =>
    rw [run, h.step_eq] at hr
    rw [ih h.polledLow hr, State.polledLow_env, ← List.drop_one, List.drop_drop, Nat.add_comm]

section
variable {n c : Nat} {s : State}

/-- The drain waits after `c` polls, and the next `n + 1` polls read 0, the last of them at the
limit. -/
structure RunsOut (c n : Nat) (s : State) : Prop where
  waits : WaitsLow .rxWait c n s
  limit : s.params.spinLimit = some (c + (n + 1))
  last : ∃ m, s.env[n]? = some m ∧ m.level = false

theorem RunsOut.of_low (hframer : s.framer = none) (hb : s.busy = true) (hseq : s.seq = .rxWait c)
    (hf : s.params.halFallible = false) (hlimit : s.params.spinLimit = some (c + (n + 1)))
    (hlisted : n + 1 ≤ s.env.length) (hlow : ∀ m ∈ s.env.take (n + 1), m.level = false) :
    RunsOut c n s where
  waits :=
    { kind := .inr rfl, framerFree := hframer, busy := hb, seq := hseq, infallible := hf
      listed := Nat.le_of_succ_le hlisted
      limit := fun k hk he => by
        rw [hlimit, Option.some.injEq] at he
        omega
      low := fun m hm => hlow m (List.take_subset_take_left _ n.le_succ hm) }
  limit := hlimit
  last := ⟨s.env[n], List.getElem?_eq_getElem hlisted,
    hlow _ (List.mem_take_iff_getElem.mpr ⟨n, by omega, rfl⟩)⟩

/-- The polls below the limit (`WaitsLow.run_eq`), then the one that reaches it. -/
theorem RunsOut.run_eq (h : RunsOut c n s) :
    ∃ t, run (n + 1) s = .next t ∧
      TimedOut (n + 1) (Nat.iterate State.present (n + 1) s) t := by
  obtain ⟨u, hrun, hu⟩ := h.waits.run_eq
  obtain ⟨m, hm, hl⟩ := h.last
  obtain ⟨port, host, hp⟩ := s.iterate_present_eq n
  have hsame := hu.same
  have hpolled : PolledSince n (Nat.iterate State.present n s) u := by
    refine ⟨?_, hsame.finish, ?_, ?_, ?_⟩ <;> rw [hp]
    · exact hu.trace
    · exact hu.lines
    · exact hu.replies
    · exact hu.chip
  rw [hp] at hsame
  have hhere : u.here = m :=
    State.here_listed (by rw [h.waits.run_env hrun, List.getElem?_drop, Nat.add_zero, hm])
  have hlast : TimedOut 1 u.present (drainWait (c + n) u.present) :=
    (PollsFor.waiting (u.present_busy.trans (hsame.busy.trans h.waits.busy))).timedOut
      (u.present_params ▸ hsame.params ▸ h.waits.infallible) (by rw [State.present_here, hhere, hl])
      (u.present_params ▸ hsame.params ▸ h.limit)
  refine ⟨_, (run_succ_of_next hrun).trans (step_polls (hsame.framer.trans h.waits.framerFree)
    (hsame.busy.trans h.waits.busy) hsame.seq), ?_⟩
  rw [Function.iterate_succ_apply']
  exact hlast.since hpolled.present

end

/-- The first poll of a drain, where the moments after the arbitration's read 0. -/
theorem State.drainBegun_low {s : State} {n : Nat} (hn : 0 < n) (hlisted : n + 1 ≤ s.env.length)
    (hlow : ∀ q ∈ (s.env.drop 1).take n, q.level = false) : s.drainBegun.here.level = false := by
  have hfirst : (s.env.drop 1)[0]? = some s.env[1] := by
    rw [List.getElem?_drop]
    exact List.getElem?_eq_getElem (by omega)
  have hhere : s.drainBegun.here = s.env[1] := by
    rw [List.drop_one] at hfirst
    exact State.here_listed hfirst
  rw [hhere]
  refine hlow _ (List.mem_of_getElem? (i := 0) ?_)
  rwa [List.getElem?_take_of_lt hn]

/-- A drain that starts with a limit of more than one poll has polled once, and the rest of its
polls run out. -/
theorem drainBegun_runsOut {s : State} {k : Nat} (hf : s.params.halFallible = false)
    (hframer : s.framer = none) (hlimit : s.params.spinLimit = some (k + 2))
    (hlisted : k + 3 ≤ s.env.length)
    (hlow : ∀ q ∈ (s.env.drop 1).take (k + 2), q.level = false) :
    ∃ u, drainWait 0 s.drainBegun = u ∧ PolledSince 1 { s with edgePend := false } u ∧
      RunsOut 1 k u := by
  have hfirst := State.drainBegun_low (by omega) hlisted hlow
  have hpoll := PollsFor.begun s
  generalize s.drainBegun = b at *
  have hparams : b.params = s.params := hpoll.same.params
  have hbelow : b.params.spinLimit ≠ some 1 := by simp [hparams, hlimit]
  rw [drainWait_low (hparams ▸ hf) hfirst hbelow]
  refine ⟨_, rfl, ⟨?_, ?_, hpoll.lines, hpoll.replies, hpoll.chip⟩,
    .of_low (hpoll.same.framer.trans hframer) hpoll.same.busy rfl ?_ ?_ ?_ fun m hm => hlow m ?_⟩
  · exact congrArg (· ++ [Event.r .dr false]) hpoll.trace
  · exact (hpoll.same.trans (advance_emit_same (.r .dr false) b)).finish
  · exact hparams ▸ hf
  · exact (congrArg Params.spinLimit hparams).trans (hlimit.trans (congrArg some (by omega)))
  · show k + 1 ≤ b.env.tail.length
    rw [hpoll.env, List.length_tail, List.length_drop]
    show k + 1 ≤ s.env.length - 1 - 1
    omega
  · have hm : m ∈ b.env.tail.take (k + 1) := hm
    rw [hpoll.env, ← List.drop_one, List.take_drop, Nat.add_comm 1] at hm
    exact List.mem_of_mem_drop hm

/-- Settles O45: from a waiting drain on by `RunsOut.run_eq`; the step that starts a drain is its
first poll. -/
theorem drainTimesOutAfterExactlyItsLimit : Obligations.DrainTimesOutAfterExactlyItsLimit := by
  refine ⟨fun n s m hpos hs hframer hf hlimit hlisted hm he hlow => ?_,
    fun n c s hc hframer hb hseq hf hlimit hlisted hlow => ?_⟩
  · have hstep := step_drains hs hframer hm he
    rw [← s.present_params] at hf hlimit
    rw [← s.present_env] at hlisted hlow
    obtain _ | _ | k := n
    · cases hpos
    · exact ⟨_, (run_succ_of_next rfl).trans hstep, (PollsFor.begun s.present).timedOut hf
        (State.drainBegun_low hpos hlisted hlow) hlimit⟩
    · obtain ⟨u, hu, hpolled, hout⟩ :=
        drainBegun_runsOut hf (s.present_framer.trans hframer) hlimit hlisted hlow
      obtain ⟨t, hrun, ht⟩ := hout.run_eq
      refine ⟨t, by rw [run, hstep, hu]; exact hrun, ?_⟩
      have hall := ht.since (hpolled.iterate_present (k + 1))
      rwa [State.iterate_present_unlatched, ← Function.iterate_succ_apply, Nat.add_comm 1] at hall
  · obtain ⟨k, rfl⟩ : ∃ k, n = c + (k + 1) := ⟨n - c - 1, by omega⟩
    rw [Nat.add_sub_cancel_left] at hlisted hlow ⊢
    exact (RunsOut.of_low hframer hb hseq hf hlimit hlisted hlow).run_eq

end Sys2Proof.Machine
end

section
/-! Proofs: the codes of the causes, and commands at the port of a busy block (60_exceptions.md
R221, R228 (a), (c)). -/

namespace Sys2Proof.Machine

/-- Settles O13, row by row of the table. -/
theorem causeCodes : Obligations.CauseCodes :=
  ⟨fun _ => rfl, fun _ => rfl, fun _ => rfl, fun _ => rfl, rfl, rfl, rfl, rfl, rfl, rfl, rfl, rfl⟩

/-! ### The port and the host -/

theorem State.present_of_held {s : State} {c : PortCommand} (h : s.port = some c) :
    s.present = s := by simp [State.present, h]

theorem State.present_of_free {s : State} {c : Option PortCommand}
    {rest : List (Option PortCommand)} (hp : s.port = none) (hh : s.host = c :: rest) :
    s.present = { s with port := c, host := rest } := by simp [State.present, hp, hh]

/-! ### Held commands -/

/-- A command code selects its own row (30_encoding.md R102, R103). -/
theorem decodeCommand_of_encode {p : Params} {i : Instr} {c : PortCommand}
    (h : encode p i = .command c) : decodeCommand c = i := by
  cases i with
  | unassignedCToF x =>
    cases h
    exact decodeCommand_unassigned x
  | _ => cases h <;> rfl

theorem State.hold_of_free {i : Instr} {s : State} {c : PortCommand}
    (hc : encode s.params i = .command c) (hp : s.port = none) :
    s.hold i = { s with port := some c } := by simp [State.hold, hc, hp]

section
variable {s : State} (hb : s.busy = true)
include hb

theorem acceptThen_of_busy {α : Type} (i : Instr) (check : Except Malformed α)
    (body : α → State → Host.Outcome State Fault Refusal) :
    acceptThen i check body s = .next (s.hold i) := if_pos hb

theorem accept_of_busy {α : Type} (i : Instr) (check : Except Malformed α)
    (body : α → State → State) : accept i check body s = .next (s.hold i) :=
  acceptThen_of_busy hb i check _

theorem unknownCommand_of_busy (i : Instr) : unknownCommand i s = .next (s.hold i) := if_pos hb

theorem registryOperation_of_busy (i : Instr) (q : RegistryRequest) (hd : s.dispatching = false) :
    registryOperation i q s = .next (s.hold i) := if_pos (by simp [hb, hd])

/-- A busy block holds every command, but attach and detach in a dispatch (60_exceptions.md R228
(a)). -/
theorem exec_of_busy {i : Instr} {c : PortCommand} (hc : encode s.params i = .command c)
    (hd : (∃ h, i = .attachReceivedCallback h ∨ i = .detachReceivedCallback h) →
      s.dispatching = false) : exec i s = .next (s.hold i) := by
  cases i with
  | wc _ _ | rc | wtp _ | wta _ | rrp => cases hc
  | attachReceivedCallback h => exact registryOperation_of_busy hb _ _ (hd ⟨h, .inl rfl⟩)
  | detachReceivedCallback h => exact registryOperation_of_busy hb _ _ (hd ⟨h, .inr rfl⟩)
  | unassignedB | unassignedCToF _ => exact unknownCommand_of_busy hb _
  | init => exact (accept_of_busy hb _ _ _ : execInit s = _)
  | setAddress a => exact (accept_of_busy hb _ _ _ : execSetAddress a s = _)
  | writeConfig k bytes => exact (accept_of_busy hb _ _ _ : execWriteConfig k bytes s = _)
  | readConfig => exact (acceptThen_of_busy hb _ _ _ : execReadConfig s = _)
  | powerUp => exact (accept_of_busy hb _ _ _ : execPowerUp s = _)
  | powerDown => exact (accept_of_busy hb _ _ _ : execPowerDown s = _)
  | startReceiveMode => exact (accept_of_busy hb _ _ _ : execStartReceiveMode s = _)
  | stopReceiveMode => exact (accept_of_busy hb _ _ _ : execStopReceiveMode s = _)
  | sendPacket a payload => exact (acceptThen_of_busy hb _ _ _ : execSendPacket a payload s = _)

end

/-! ### What a step does to the port -/

/-- From `s` to `t` the command at the port was not taken and the host presented none. -/
structure PortKept (s t : State) : Prop where
  port : t.port = s.port
  host : t.host = s.host

theorem PortKept.refl (s : State) : PortKept s s := ⟨rfl, rfl⟩

/-- An instruction leaves a port that is not free, and the host. -/
theorem exec_portKept {i : Instr} {s t : State} (h : exec i s = .next t) (hp : s.port ≠ none) :
    PortKept s t := by
  have hout := exec_outcome h
  refine ⟨?_, hout.listedWrites.host⟩
  rcases hout.port with hkept | ⟨-, hfree⟩
  · exact hkept
  · exact absurd hfree hp

theorem TransmitEnds.portKept {polls : Nat} {s t : State} (h : TransmitEnds polls s t) :
    PortKept s t := by
  cases h with
  | returned reply hu => exact ⟨hu.same.port, hu.same.host⟩
  | waits hu => exact ⟨hu.same.port, hu.same.host⟩

theorem DrainEnds.portKept {polls : Nat} {s t : State} (h : DrainEnds polls s t) :
    PortKept s t := by
  cases h with
  | ended b e hu => exact ⟨hu.same.port, hu.same.host⟩
  | waits hu => exact ⟨hu.same.port, hu.same.host⟩
  | read _ hu => exact ⟨hu.same.port, hu.same.host⟩

theorem State.request_portKept (q : RegistryRequest) (s : State) : PortKept s (s.request q) := by
  rcases s.request_cases q with ⟨-, h⟩ | ⟨-, h⟩ <;> rw [h] <;> exact ⟨rfl, rfl⟩

theorem requests_portKept (qs : List RegistryRequest) (s : State) :
    PortKept s (qs.foldl (fun s q => s.request q) s) := by
  induction qs generalizing s with
  | nil => exact .refl s
  | cons q qs ih =>
    obtain ⟨hport, hhost⟩ := s.request_portKept q
    obtain ⟨hports, hhosts⟩ := ih (s.request q)
    exact ⟨hports.trans hport, hhosts.trans hhost⟩

theorem dispatchStep_portKept {snapshot : List ConsumerId} {i : Nat} {s t : State}
    (h : dispatchStep snapshot i s = .next t) : PortKept s t := by
  rw [dispatchStep] at h
  split at h
  · cases h
  · split at h <;> cases h
    · exact ⟨rfl, rfl⟩
    · obtain ⟨hport, hhost⟩ := requests_portKept s.here.requests (s.advance.emit (.v _ _))
      exact ⟨hport, hhost⟩

theorem continueOperation_portKept {s t : State}
    (hheld : ∀ c, s.port = some c → registryCommand c = false)
    (h : continueOperation s = .next t) : PortKept s t := by
  rw [continueOperation] at h
  split at h
  case h_1 =>
    cases h
    exact .refl s
  case h_2 polls _ =>
    cases h
    exact (transmitWait_ends polls s).portKept
  case h_3 polls _ =>
    cases h
    exact (drainWait_ends polls s).portKept
  case h_4 =>
    rw [continueDispatch_of_held hheld] at h
    exact dispatchStep_portKept h
  case h_5 aborted _ =>
    rw [continueDispatch_of_held hheld] at h
    cases h
    obtain ⟨hport, hhost⟩ := dispatchEnd_port aborted s
    exact ⟨hport, hhost⟩

/-- No step of a busy block takes a command other than attach and detach, nor does the host present
behind it (60_exceptions.md R228 (a), (c)). -/
theorem step_portKept {s t : State} {c : PortCommand} (hb : s.busy = true) (hp : s.port = some c)
    (hc : registryCommand c = false) (h : step s = .next t) : PortKept s t := by
  cases hf : s.framer with
  | some bytes =>
    rw [step, sequencerStep, hf] at h
    dsimp only at h
    rw [runFramerCall] at h
    split at h
    · exact { exec_portKept h (by simp [hp]) with }
    · cases h
  | none =>
    rw [step_of_busy hf hb, State.present_of_held hp] at h
    refine continueOperation_portKept (fun d hd => ?_) h
    obtain rfl := Option.some.inj (hp.symm.trans hd)
    exact hc

/-- Settles O36: `State.present` case by case, no step takes a held command (`step_portKept`), and a
command presented to a busy block is held (`exec_of_busy`). -/
theorem busyBlockHoldsCommands : Obligations.BusyBlockHoldsCommands := by
  refine ⟨fun s c => State.present_of_held, fun s c rest => State.present_of_free,
    fun s _ => State.present_of_done, fun s t c hb hp hc h => ?_,
    fun s i hb hp hwc hrc hwtp hwta hrrp hd => ?_⟩
  · obtain ⟨hport, hhost⟩ := step_portKept hb hp hc h
    exact ⟨hport.trans hp, hhost⟩
  · obtain ⟨c, hc⟩ : ∃ c, encode s.params i = .command c := by
      cases i with
      | wc k data => exact absurd rfl (hwc k data)
      | rc => exact absurd rfl hrc
      | wtp payload => exact absurd rfl (hwtp payload)
      | wta a => exact absurd rfl (hwta a)
      | rrp => exact absurd rfl hrrp
      | _ => exact ⟨_, rfl⟩
    refine ⟨c, ?_, decodeCommand_of_encode hc⟩
    rw [exec_of_busy hb hc hd, State.hold_of_free hc hp]

end Sys2Proof.Machine
end

section
/-! Proofs: the instruction a step runs, from each of its ports (60_exceptions.md R228;
42_receive_pipeline.md R175, R177; log 3, log 4, log 11, log 17). -/

namespace Sys2Proof.Machine

/-- With no edge latched the idle block accepts the command at the port (60_exceptions.md R228
(b)). -/
theorem step_accepts {s : State} {c : PortCommand} (hf : s.framer = none) (hb : s.busy = false)
    (hp : s.present.port = some c) (he : s.advance.edgePend = false) :
    step s = exec (decodeCommand c) { s.present.advance with port := none } := by
  have hquiet : s.present.advance.edgePend = false := by
    rw [← he]
    simp
  rw [step_of_idle hf hb, arbitrate, State.drainDue, hquiet, Bool.and_false, State.advance_port, hp]
  rfl

/-- A call at the framer's internal port comes before anything else (log 4). -/
theorem step_calls {s : State} {bytes : List Byte} {i : Instr} (hf : s.framer = some bytes)
    (hi : decodeFrame s.params bytes = .ok i) : step s = exec i { s with framer := none } := by
  rw [step, sequencerStep, hf]
  dsimp only
  rw [runFramerCall, hi]

/-- A running dispatch accepts attach and detach before its own next step (60_exceptions.md R228
(a); log 17). -/
theorem step_requests {s : State} {c : PortCommand} (hf : s.framer = none) (hb : s.busy = true)
    (hp : s.present.port = some c) (hc : registryCommand c = true)
    (hseq : (∃ snapshot i, s.seq = .delivering snapshot i) ∨ ∃ aborted, s.seq = .applying aborted) :
    step s = exec (decodeCommand c) { s.present with port := none } := by
  have haccepts (next : State → Host.Outcome State Fault Refusal) :
      continueDispatch next s.present = exec (decodeCommand c) s.present.takePort := by
    simp only [continueDispatch, hp, hc, if_true]
  rw [step_of_busy hf hb, continueOperation, State.present_seq]
  rcases hseq with ⟨snapshot, i, hseq⟩ | ⟨aborted, hseq⟩ <;> rw [hseq] <;> exact haccepts _

theorem registryCommand_of_decode {c : PortCommand} {h : ConsumerId}
    (hc : decodeCommand c = .attachReceivedCallback h ∨
      decodeCommand c = .detachReceivedCallback h) : registryCommand c = true := by
  rcases hc with hc | hc <;> rw [registryCommand, hc]

/-- Settles O37: the three ports of a step (`step_accepts`, `step_calls`, `step_requests`), and that
a placed code decodes to the instruction it encodes. -/
theorem stepRunsTheDecodedInstruction : Obligations.StepRunsTheDecodedInstruction := by
  refine ⟨fun s c => step_accepts, fun s bytes i => step_calls,
    fun s c h hf hb hp hc => step_requests hf hb hp (registryCommand_of_decode hc),
    fun s i c hc => ?_, fun s i bytes hi hv hw => ?_⟩
  · have hp : (s.placeCode (.command c)).port = some c := rfl
    have hpresent := State.present_of_held hp
    have hstep := step_accepts (s := s.placeCode (.command c)) rfl rfl (hpresent ▸ hp)
      (Bool.and_false _)
    rwa [hpresent, decodeCommand_of_encode hc] at hstep
  · have hdecode := decodeOfEncodeIsTheInstruction s.params i hv hw
    rw [hi] at hdecode
    exact step_calls (s := s.placeCode (.frame bytes)) rfl hdecode

end Sys2Proof.Machine
end
